-- ==== Sys2Proof/Word.lean ====
section
/-! DEFINITION. The word types of the SUE processors (R7, R8, R61): words of 16 bits, bytes of 8 bits, the 3-bit
numbers that name general registers. -/

namespace Sys2Proof

/-- A 16-bit word: a register, an address, an instruction word (R7, R20, R60). -/
abbrev Word := BitVec 16

/-- The addressable unit (R61). -/
abbrev Byte := BitVec 8

/-- The number of a general register, 0 to 7; register 0 is the program counter (R20). -/
abbrev RegNo := BitVec 3

end Sys2Proof
end

