-- ==== Sys2Proof/Config.lean ====
section
/-! DEFINITION. The parameters of an installation (R6, 93_implementation_defined.md) and the free values the spec
leaves open. The parameters are plain data, carried in the state and changed by no step (log 3). The free values are
constants without a body: nothing can be proved of what they are (log 32). -/

namespace Sys2Proof

/-- `MODEL`: the seven processors (R1, R2). -/
inductive Model where
  | m1110 | m1110A | m1110B | m1111A | m1111B | m1112A | m1112B
  deriving DecidableEq, Repr

/-- `PCREAD`: what a data read of register 0 returns (R24), the address of the instruction itself or of the next one. -/
inductive PcRead where
  | current
  | next
  deriving DecidableEq, Repr

/-- `TRAP_STATUS` (R514): what an entry sequence does to the status register after saving it. `identity` is the
spec's default; `implementation` is the unconstrained function `Config.trapStatus`. -/
inductive TrapStatus where
  | identity
  | implementation
  deriving DecidableEq, Repr

/-- What a word of R114 or R116 does: the spec's treatment is to refuse it, its architectural reading is that it
traps (R115). -/
inductive UndefinedWord where
  | refuse
  | trap
  deriving DecidableEq, Repr

/-- The pattern of an instruction whose format drawing is lost (R120): its word is `value` with the instruction's
field (K or XR) at bit `fieldLow`; `value` has zeros there. A pattern that is not of class code 0 names no word
(log 30). -/
structure KeyPattern where
  value : Word
  fieldLow : Nat
  deriving DecidableEq, Repr

/-- `ENC_SKEY`, `ENC_JKEY`, `ENC_LCPU`, `ENC_LKEY` (R6, R120). -/
structure KeyEncodings where
  skey : Option KeyPattern
  jkey : Option KeyPattern
  lcpu : Option KeyPattern
  lkey : Option KeyPattern
  deriving DecidableEq, Repr

/-- The parameters of the step relation (R6, R40). -/
structure Params where
  /-- `MODEL` -/
  model : Model
  /-- `CPUNUM` (R37) -/
  cpu : BitVec 2
  /-- `MEMTOP`: program memory is the byte addresses below it (R6, R69) -/
  memTop : Word
  /-- `DEVICES`: the even addresses of the system-register range that answer (R70) -/
  devices : List Word
  pcRead : PcRead
  trapStatus : TrapStatus
  undefinedWord : UndefinedWord
  encodings : KeyEncodings
  deriving DecidableEq, Repr

/-- A free value (log 32): one arbitrary word for each number. -/
opaque Config.freeWord : Nat → Word

/-- The unconstrained form of `TRAP_STATUS(level, ST)` (R514, log 5). -/
opaque Config.trapStatus : Nat → Word → Word

end Sys2Proof
end

