-- ==== Sys2Proof/Syntax.lean ====
section
/-! DEFINITION. The instructions of the SUE processors as syntax: one constructor for each row of the opcode table,
and the small enumerations that name classes, operations and conditions. -/

namespace Sys2Proof

/-- The operand size of a general register instruction (R101, field B). -/
inductive Size where
  | word | byte
  deriving DecidableEq, Repr

/-- The eight general operations in the order of their codes (R106, R171). -/
inductive Operation where
  | mov | sub | add | and | ior | eor | cmp | tst
  deriving DecidableEq, Repr

/-- The six classes with a memory operand (R151). -/
inductive MemClass where
  | c1 | c2 | c3 | c5 | c6 | c7
  deriving DecidableEq, Repr

/-- The conditions T = 1 to C of the branches (R222). -/
inductive Condition where
  | eq | gt | ov | cy | f1 | f2 | f3 | lp | od | ze | ng | lt
  deriving DecidableEq, Repr

/-- The eight shift operations in the order of their codes (R242): left or right; arithmetic open, logical linked,
logical open, logical closed. -/
inductive ShiftOp where
  | lao | lll | llo | llc | rao | rll | rlo | rlc
  deriving DecidableEq, Repr

/-- The four normalize operations (R403): left or right, arithmetic or logical. -/
inductive NormOp where
  | lan | lln | ran | rln
  deriving DecidableEq, Repr

/-- The six bit operations in the order of their codes 1 to 6 (R370). -/
inductive BitOp where
  | rbit | sbit | cbit | ibit | tsbt | tbit
  deriving DecidableEq, Repr

/-- The four moves (R380). -/
inductive MoveOp where
  | negt | cplm | movp | movn
  deriving DecidableEq, Repr

/-- The operand part of an instruction that addresses memory (R152): the indirect bit I, the index register XR, and
the extension word where E = 1. -/
structure MemOperand where
  ind : Bool
  xr : RegNo
  ext : Option Word
  deriving DecidableEq, Repr

/-- The instructions, one constructor for each row of the opcode table. -/
inductive Instr where
  -- Control instructions, class 0 (R110, R270 to R288). `rel` is the B field: relative address mode (R283).
  | halt (ignored : BitVec 8)
  | stsm (rel : Bool) (d : BitVec 8)
  | rsts (f : BitVec 7)
  | sets (f : BitVec 7)
  | regm (rel : Bool) (d : BitVec 8)
  | retn (rel : Bool) (d : BitVec 8)
  | msts (rel : Bool) (d : BitVec 8)
  | mreg (rel : Bool) (d : BitVec 8)
  | enbl (k : BitVec 4)
  | enbw (k : BitVec 4)
  | dsbl (k : BitVec 4)
  | dsbw (k : BitVec 4)
  -- Fetch and clear (R117, R320, R321).
  | fclw (ar : RegNo) (m : MemOperand)
  | fclb (ar : RegNo) (m : MemOperand)
  -- Classes 1, 2, 3, 5, 6, 7 (R106, R150): an accumulator and a memory operand; the class ends the name.
  | movwC1 (ar : RegNo) (m : MemOperand)
  | subwC1 (ar : RegNo) (m : MemOperand)
  | addwC1 (ar : RegNo) (m : MemOperand)
  | andwC1 (ar : RegNo) (m : MemOperand)
  | iorwC1 (ar : RegNo) (m : MemOperand)
  | eorwC1 (ar : RegNo) (m : MemOperand)
  | cmpwC1 (ar : RegNo) (m : MemOperand)
  | tstwC1 (ar : RegNo) (m : MemOperand)
  | movbC1 (ar : RegNo) (m : MemOperand)
  | subbC1 (ar : RegNo) (m : MemOperand)
  | addbC1 (ar : RegNo) (m : MemOperand)
  | andbC1 (ar : RegNo) (m : MemOperand)
  | iorbC1 (ar : RegNo) (m : MemOperand)
  | eorbC1 (ar : RegNo) (m : MemOperand)
  | cmpbC1 (ar : RegNo) (m : MemOperand)
  | tstbC1 (ar : RegNo) (m : MemOperand)
  | movwC2 (ar : RegNo) (m : MemOperand)
  | subwC2 (ar : RegNo) (m : MemOperand)
  | addwC2 (ar : RegNo) (m : MemOperand)
  | andwC2 (ar : RegNo) (m : MemOperand)
  | iorwC2 (ar : RegNo) (m : MemOperand)
  | eorwC2 (ar : RegNo) (m : MemOperand)
  | cmpwC2 (ar : RegNo) (m : MemOperand)
  | tstwC2 (ar : RegNo) (m : MemOperand)
  | movbC2 (ar : RegNo) (m : MemOperand)
  | subbC2 (ar : RegNo) (m : MemOperand)
  | addbC2 (ar : RegNo) (m : MemOperand)
  | andbC2 (ar : RegNo) (m : MemOperand)
  | iorbC2 (ar : RegNo) (m : MemOperand)
  | eorbC2 (ar : RegNo) (m : MemOperand)
  | cmpbC2 (ar : RegNo) (m : MemOperand)
  | tstbC2 (ar : RegNo) (m : MemOperand)
  | movwC3 (ar : RegNo) (m : MemOperand)
  | subwC3 (ar : RegNo) (m : MemOperand)
  | addwC3 (ar : RegNo) (m : MemOperand)
  | andwC3 (ar : RegNo) (m : MemOperand)
  | iorwC3 (ar : RegNo) (m : MemOperand)
  | eorwC3 (ar : RegNo) (m : MemOperand)
  | cmpwC3 (ar : RegNo) (m : MemOperand)
  | tstwC3 (ar : RegNo) (m : MemOperand)
  | movbC3 (ar : RegNo) (m : MemOperand)
  | subbC3 (ar : RegNo) (m : MemOperand)
  | addbC3 (ar : RegNo) (m : MemOperand)
  | andbC3 (ar : RegNo) (m : MemOperand)
  | iorbC3 (ar : RegNo) (m : MemOperand)
  | eorbC3 (ar : RegNo) (m : MemOperand)
  | cmpbC3 (ar : RegNo) (m : MemOperand)
  | tstbC3 (ar : RegNo) (m : MemOperand)
  | movwC5 (ar : RegNo) (m : MemOperand)
  | subwC5 (ar : RegNo) (m : MemOperand)
  | addwC5 (ar : RegNo) (m : MemOperand)
  | andwC5 (ar : RegNo) (m : MemOperand)
  | iorwC5 (ar : RegNo) (m : MemOperand)
  | eorwC5 (ar : RegNo) (m : MemOperand)
  | cmpwC5 (ar : RegNo) (m : MemOperand)
  | tstwC5 (ar : RegNo) (m : MemOperand)
  | movbC5 (ar : RegNo) (m : MemOperand)
  | subbC5 (ar : RegNo) (m : MemOperand)
  | addbC5 (ar : RegNo) (m : MemOperand)
  | andbC5 (ar : RegNo) (m : MemOperand)
  | iorbC5 (ar : RegNo) (m : MemOperand)
  | eorbC5 (ar : RegNo) (m : MemOperand)
  | cmpbC5 (ar : RegNo) (m : MemOperand)
  | tstbC5 (ar : RegNo) (m : MemOperand)
  | movwC6 (ar : RegNo) (m : MemOperand)
  | subwC6 (ar : RegNo) (m : MemOperand)
  | addwC6 (ar : RegNo) (m : MemOperand)
  | andwC6 (ar : RegNo) (m : MemOperand)
  | iorwC6 (ar : RegNo) (m : MemOperand)
  | eorwC6 (ar : RegNo) (m : MemOperand)
  | cmpwC6 (ar : RegNo) (m : MemOperand)
  | tstwC6 (ar : RegNo) (m : MemOperand)
  | movbC6 (ar : RegNo) (m : MemOperand)
  | subbC6 (ar : RegNo) (m : MemOperand)
  | addbC6 (ar : RegNo) (m : MemOperand)
  | andbC6 (ar : RegNo) (m : MemOperand)
  | iorbC6 (ar : RegNo) (m : MemOperand)
  | eorbC6 (ar : RegNo) (m : MemOperand)
  | cmpbC6 (ar : RegNo) (m : MemOperand)
  | tstbC6 (ar : RegNo) (m : MemOperand)
  | movwC7 (ar : RegNo) (m : MemOperand)
  | subwC7 (ar : RegNo) (m : MemOperand)
  | addwC7 (ar : RegNo) (m : MemOperand)
  | andwC7 (ar : RegNo) (m : MemOperand)
  | iorwC7 (ar : RegNo) (m : MemOperand)
  | eorwC7 (ar : RegNo) (m : MemOperand)
  | cmpwC7 (ar : RegNo) (m : MemOperand)
  | tstwC7 (ar : RegNo) (m : MemOperand)
  | movbC7 (ar : RegNo) (m : MemOperand)
  | subbC7 (ar : RegNo) (m : MemOperand)
  | addbC7 (ar : RegNo) (m : MemOperand)
  | andbC7 (ar : RegNo) (m : MemOperand)
  | iorbC7 (ar : RegNo) (m : MemOperand)
  | eorbC7 (ar : RegNo) (m : MemOperand)
  | cmpbC7 (ar : RegNo) (m : MemOperand)
  | tstbC7 (ar : RegNo) (m : MemOperand)
  -- JUMP and JSBR (R190, R191).
  | jump (m : MemOperand)
  | jsbr (ar : RegNo) (m : MemOperand)
  -- Bit manipulation (R371): K names the bit by a constant, X by a register, M selects bits by a mask.
  | rbitK (ar : RegNo) (k : BitVec 4)
  | rbitX (ar : RegNo) (xr : RegNo)
  | rbitM (ar : RegNo) (xr : RegNo) (mask : Word)
  | sbitK (ar : RegNo) (k : BitVec 4)
  | sbitX (ar : RegNo) (xr : RegNo)
  | sbitM (ar : RegNo) (xr : RegNo) (mask : Word)
  | cbitK (ar : RegNo) (k : BitVec 4)
  | cbitX (ar : RegNo) (xr : RegNo)
  | cbitM (ar : RegNo) (xr : RegNo) (mask : Word)
  | ibitK (ar : RegNo) (k : BitVec 4)
  | ibitX (ar : RegNo) (xr : RegNo)
  | ibitM (ar : RegNo) (xr : RegNo) (mask : Word)
  | tsbtK (ar : RegNo) (k : BitVec 4)
  | tsbtX (ar : RegNo) (xr : RegNo)
  | tsbtM (ar : RegNo) (xr : RegNo) (mask : Word)
  | tbitK (ar : RegNo) (k : BitVec 4)
  | tbitX (ar : RegNo) (xr : RegNo)
  | tbitM (ar : RegNo) (xr : RegNo) (mask : Word)
  -- Moves (R380).
  | negt (ar : RegNo) (xr : RegNo)
  | cplm (ar : RegNo) (xr : RegNo)
  | movp (ar : RegNo) (xr : RegNo)
  | movn (ar : RegNo) (xr : RegNo)
  -- Class 4 data forms (R192 to R194): I immediate, R register, L literal.
  | movwI (ar : RegNo) (k : BitVec 4)
  | movwR (ar : RegNo) (xr : RegNo)
  | movwL (ar : RegNo) (xr : RegNo) (lit : Word)
  | subwI (ar : RegNo) (k : BitVec 4)
  | subwR (ar : RegNo) (xr : RegNo)
  | subwL (ar : RegNo) (xr : RegNo) (lit : Word)
  | addwI (ar : RegNo) (k : BitVec 4)
  | addwR (ar : RegNo) (xr : RegNo)
  | addwL (ar : RegNo) (xr : RegNo) (lit : Word)
  | andwI (ar : RegNo) (k : BitVec 4)
  | andwR (ar : RegNo) (xr : RegNo)
  | andwL (ar : RegNo) (xr : RegNo) (lit : Word)
  | iorwI (ar : RegNo) (k : BitVec 4)
  | iorwR (ar : RegNo) (xr : RegNo)
  | iorwL (ar : RegNo) (xr : RegNo) (lit : Word)
  | eorwI (ar : RegNo) (k : BitVec 4)
  | eorwR (ar : RegNo) (xr : RegNo)
  | eorwL (ar : RegNo) (xr : RegNo) (lit : Word)
  | cmpwI (ar : RegNo) (k : BitVec 4)
  | cmpwR (ar : RegNo) (xr : RegNo)
  | cmpwL (ar : RegNo) (xr : RegNo) (lit : Word)
  | tstwI (ar : RegNo) (k : BitVec 4)
  | tstwR (ar : RegNo) (xr : RegNo)
  | tstwL (ar : RegNo) (xr : RegNo) (lit : Word)
  -- Branches (R220): the displacement D in words; NOPR carries the byte it ignores (R113, R225).
  | nopr (ignored : BitVec 8)
  | beqf (d : BitVec 8)
  | bgtf (d : BitVec 8)
  | bovf (d : BitVec 8)
  | bcyf (d : BitVec 8)
  | bf1f (d : BitVec 8)
  | bf2f (d : BitVec 8)
  | bf3f (d : BitVec 8)
  | blpf (d : BitVec 8)
  | bodf (d : BitVec 8)
  | bzef (d : BitVec 8)
  | bngf (d : BitVec 8)
  | bltf (d : BitVec 8)
  | brun (d : BitVec 8)
  | beqt (d : BitVec 8)
  | bgtt (d : BitVec 8)
  | bovt (d : BitVec 8)
  | bcyt (d : BitVec 8)
  | bf1t (d : BitVec 8)
  | bf2t (d : BitVec 8)
  | bf3t (d : BitVec 8)
  | blpt (d : BitVec 8)
  | bodt (d : BitVec 8)
  | bzet (d : BitVec 8)
  | bngt (d : BitVec 8)
  | bltt (d : BitVec 8)
  -- Single shifts (R240): K count in the word, X count in a register.
  | slaoK (ar : RegNo) (k : BitVec 4)
  | slaoX (ar : RegNo) (xr : RegNo)
  | slllK (ar : RegNo) (k : BitVec 4)
  | slllX (ar : RegNo) (xr : RegNo)
  | slloK (ar : RegNo) (k : BitVec 4)
  | slloX (ar : RegNo) (xr : RegNo)
  | sllcK (ar : RegNo) (k : BitVec 4)
  | sllcX (ar : RegNo) (xr : RegNo)
  | sraoK (ar : RegNo) (k : BitVec 4)
  | sraoX (ar : RegNo) (xr : RegNo)
  | srllK (ar : RegNo) (k : BitVec 4)
  | srllX (ar : RegNo) (xr : RegNo)
  | srloK (ar : RegNo) (k : BitVec 4)
  | srloX (ar : RegNo) (xr : RegNo)
  | srlcK (ar : RegNo) (k : BitVec 4)
  | srlcX (ar : RegNo) (xr : RegNo)
  -- Normalize and count (R403).
  | slan (ar : RegNo) (xr : RegNo)
  | slln (ar : RegNo) (xr : RegNo)
  | sran (ar : RegNo) (xr : RegNo)
  | srln (ar : RegNo) (xr : RegNo)
  | dlan (ar : RegNo) (xr : RegNo)
  | dlln (ar : RegNo) (xr : RegNo)
  | dran (ar : RegNo) (xr : RegNo)
  | drln (ar : RegNo) (xr : RegNo)
  -- Double-length shifts (R420): K form with the pair designator of bits 6..5, X form with AR.
  | dlaoK (pair : BitVec 2) (k : BitVec 5)
  | dlaoX (ar : RegNo) (xr : RegNo)
  | dlllK (pair : BitVec 2) (k : BitVec 5)
  | dlllX (ar : RegNo) (xr : RegNo)
  | dlloK (pair : BitVec 2) (k : BitVec 5)
  | dlloX (ar : RegNo) (xr : RegNo)
  | dllcK (pair : BitVec 2) (k : BitVec 5)
  | dllcX (ar : RegNo) (xr : RegNo)
  | draoK (pair : BitVec 2) (k : BitVec 5)
  | draoX (ar : RegNo) (xr : RegNo)
  | drllK (pair : BitVec 2) (k : BitVec 5)
  | drllX (ar : RegNo) (xr : RegNo)
  | drloK (pair : BitVec 2) (k : BitVec 5)
  | drloX (ar : RegNo) (xr : RegNo)
  | drlcK (pair : BitVec 2) (k : BitVec 5)
  | drlcX (ar : RegNo) (xr : RegNo)
  -- Class B (R450); MLTA and MULT carry bits 6..5 of AR, bit 4 being part of their operation.
  | dsta (ar : RegNo) (m : MemOperand)
  | dsub (ar : RegNo) (m : MemOperand)
  | dadd (ar : RegNo) (m : MemOperand)
  | mlta (pair : BitVec 2) (m : MemOperand)
  | mult (pair : BitVec 2) (m : MemOperand)
  | divd (ar : RegNo) (m : MemOperand)
  | dlod (ar : RegNo) (m : MemOperand)
  -- Decimal and character, class C (R330, R331).
  | zadd (r1 : RegNo) (r2 : RegNo) (l1 : BitVec 4) (l2 : BitVec 4) (x1 : RegNo) (x2 : RegNo)
  | addd (r1 : RegNo) (r2 : RegNo) (l1 : BitVec 4) (l2 : BitVec 4) (x1 : RegNo) (x2 : RegNo)
  | subd (r1 : RegNo) (r2 : RegNo) (l1 : BitVec 4) (l2 : BitVec 4) (x1 : RegNo) (x2 : RegNo)
  | cmpd (r1 : RegNo) (r2 : RegNo) (l1 : BitVec 4) (l2 : BitVec 4) (x1 : RegNo) (x2 : RegNo)
  | movr (r1 : RegNo) (r2 : RegNo) (l1 : BitVec 4) (l2 : BitVec 4) (x1 : RegNo) (x2 : RegNo)
  | movl (r1 : RegNo) (r2 : RegNo) (l1 : BitVec 4) (l2 : BitVec 4) (x1 : RegNo) (x2 : RegNo)
  | comp (r1 : RegNo) (r2 : RegNo) (l1 : BitVec 4) (l2 : BitVec 4) (x1 : RegNo) (x2 : RegNo)
  | sftr (r1 : RegNo) (l1 : BitVec 4) (sh : BitVec 4) (x1 : RegNo) (x2 : RegNo)
  | sftl (r1 : RegNo) (l1 : BitVec 4) (sh : BitVec 4) (x1 : RegNo) (x2 : RegNo)
  -- Key and processor number instructions (R480 to R484), whose encodings are parameters (R120).
  | skey (k : BitVec 2)
  | jkey (k : BitVec 2) (target : Word)
  | lcpu (xr : RegNo)
  | lkey (xr : RegNo)
  -- The two words of WAIT (R281), class 0.
  | wait
  | waitD
  deriving DecidableEq, Repr

end Sys2Proof
end

