-- ==== Sys2Proof/WellFormed.lean ====
section
/-! DEFINITION. The instructions that are instructions of their own name: the constraints the opcode table and the
format rules put on fields. The decoder answers only such instructions except where a designator is one the spec
leaves undefined (log 37); the machine gives every term of `Instr` an outcome. -/

namespace Sys2Proof

/-- JSBR has AR != 0; with AR = 0 the word is JUMP (R107, R191). -/
def linkOk (ar : RegNo) : Bool := ar != 0#3

/-- ENBW and DSBW have K != 0; with K = 0 the word is WAIT (R278, R280, R281). -/
def waitMaskOk (k : BitVec 4) : Bool := k != 0#4

/-- The pairs of the double-length instructions of class A: (2,3), (4,5), (6,7), named by AR (R402). -/
def pairOk (ar : RegNo) : Bool := ar == 2#3 || ar == 4#3 || ar == 6#3

/-- The pairs of the immediate double shifts, named by bits 6 and 5 (R402, R122). -/
def pairFieldOk (pair : BitVec 2) : Bool := pair != 0#2

/-- "R1 and R2 cannot be zero" (R331). -/
def fieldRegisterOk (r : RegNo) : Bool := r != 0#3

/-- The well-formed instructions. -/
def Instr.wellFormed : Instr → Bool
  | .halt _ => true
  | .stsm _ _ => true
  | .rsts _ => true
  | .sets _ => true
  | .regm _ _ => true
  | .retn _ _ => true
  | .msts _ _ => true
  | .fclw _ _ => true
  | .fclb _ _ => true
  | .mreg _ _ => true
  | .wait => true
  | .waitD => true
  | .enbl _ => true
  | .enbw k => waitMaskOk k
  | .dsbl _ => true
  | .dsbw k => waitMaskOk k
  | .movwC1 _ _ => true
  | .subwC1 _ _ => true
  | .addwC1 _ _ => true
  | .andwC1 _ _ => true
  | .iorwC1 _ _ => true
  | .eorwC1 _ _ => true
  | .cmpwC1 _ _ => true
  | .tstwC1 _ _ => true
  | .movbC1 _ _ => true
  | .subbC1 _ _ => true
  | .addbC1 _ _ => true
  | .andbC1 _ _ => true
  | .iorbC1 _ _ => true
  | .eorbC1 _ _ => true
  | .cmpbC1 _ _ => true
  | .tstbC1 _ _ => true
  | .movwC2 _ _ => true
  | .subwC2 _ _ => true
  | .addwC2 _ _ => true
  | .andwC2 _ _ => true
  | .iorwC2 _ _ => true
  | .eorwC2 _ _ => true
  | .cmpwC2 _ _ => true
  | .tstwC2 _ _ => true
  | .movbC2 _ _ => true
  | .subbC2 _ _ => true
  | .addbC2 _ _ => true
  | .andbC2 _ _ => true
  | .iorbC2 _ _ => true
  | .eorbC2 _ _ => true
  | .cmpbC2 _ _ => true
  | .tstbC2 _ _ => true
  | .movwC3 _ _ => true
  | .subwC3 _ _ => true
  | .addwC3 _ _ => true
  | .andwC3 _ _ => true
  | .iorwC3 _ _ => true
  | .eorwC3 _ _ => true
  | .cmpwC3 _ _ => true
  | .tstwC3 _ _ => true
  | .movbC3 _ _ => true
  | .subbC3 _ _ => true
  | .addbC3 _ _ => true
  | .andbC3 _ _ => true
  | .iorbC3 _ _ => true
  | .eorbC3 _ _ => true
  | .cmpbC3 _ _ => true
  | .tstbC3 _ _ => true
  | .jump _ => true
  | .jsbr ar _ => linkOk ar
  | .rbitK _ _ => true
  | .rbitX _ _ => true
  | .rbitM _ _ _ => true
  | .sbitK _ _ => true
  | .sbitX _ _ => true
  | .sbitM _ _ _ => true
  | .cbitK _ _ => true
  | .cbitX _ _ => true
  | .cbitM _ _ _ => true
  | .ibitK _ _ => true
  | .ibitX _ _ => true
  | .ibitM _ _ _ => true
  | .tsbtK _ _ => true
  | .tsbtX _ _ => true
  | .tsbtM _ _ _ => true
  | .tbitK _ _ => true
  | .tbitX _ _ => true
  | .tbitM _ _ _ => true
  | .negt _ _ => true
  | .cplm _ _ => true
  | .movp _ _ => true
  | .movn _ _ => true
  | .movwI _ _ => true
  | .movwR _ _ => true
  | .movwL _ _ _ => true
  | .subwI _ _ => true
  | .subwR _ _ => true
  | .subwL _ _ _ => true
  | .addwI _ _ => true
  | .addwR _ _ => true
  | .addwL _ _ _ => true
  | .andwI _ _ => true
  | .andwR _ _ => true
  | .andwL _ _ _ => true
  | .iorwI _ _ => true
  | .iorwR _ _ => true
  | .iorwL _ _ _ => true
  | .eorwI _ _ => true
  | .eorwR _ _ => true
  | .eorwL _ _ _ => true
  | .cmpwI _ _ => true
  | .cmpwR _ _ => true
  | .cmpwL _ _ _ => true
  | .tstwI _ _ => true
  | .tstwR _ _ => true
  | .tstwL _ _ _ => true
  | .movwC5 _ _ => true
  | .subwC5 _ _ => true
  | .addwC5 _ _ => true
  | .andwC5 _ _ => true
  | .iorwC5 _ _ => true
  | .eorwC5 _ _ => true
  | .cmpwC5 _ _ => true
  | .tstwC5 _ _ => true
  | .movbC5 _ _ => true
  | .subbC5 _ _ => true
  | .addbC5 _ _ => true
  | .andbC5 _ _ => true
  | .iorbC5 _ _ => true
  | .eorbC5 _ _ => true
  | .cmpbC5 _ _ => true
  | .tstbC5 _ _ => true
  | .movwC6 _ _ => true
  | .subwC6 _ _ => true
  | .addwC6 _ _ => true
  | .andwC6 _ _ => true
  | .iorwC6 _ _ => true
  | .eorwC6 _ _ => true
  | .cmpwC6 _ _ => true
  | .tstwC6 _ _ => true
  | .movbC6 _ _ => true
  | .subbC6 _ _ => true
  | .addbC6 _ _ => true
  | .andbC6 _ _ => true
  | .iorbC6 _ _ => true
  | .eorbC6 _ _ => true
  | .cmpbC6 _ _ => true
  | .tstbC6 _ _ => true
  | .movwC7 _ _ => true
  | .subwC7 _ _ => true
  | .addwC7 _ _ => true
  | .andwC7 _ _ => true
  | .iorwC7 _ _ => true
  | .eorwC7 _ _ => true
  | .cmpwC7 _ _ => true
  | .tstwC7 _ _ => true
  | .movbC7 _ _ => true
  | .subbC7 _ _ => true
  | .addbC7 _ _ => true
  | .andbC7 _ _ => true
  | .iorbC7 _ _ => true
  | .eorbC7 _ _ => true
  | .cmpbC7 _ _ => true
  | .tstbC7 _ _ => true
  | .nopr _ => true
  | .beqf _ => true
  | .bgtf _ => true
  | .bovf _ => true
  | .bcyf _ => true
  | .bf1f _ => true
  | .bf2f _ => true
  | .bf3f _ => true
  | .blpf _ => true
  | .bodf _ => true
  | .bzef _ => true
  | .bngf _ => true
  | .bltf _ => true
  | .brun _ => true
  | .beqt _ => true
  | .bgtt _ => true
  | .bovt _ => true
  | .bcyt _ => true
  | .bf1t _ => true
  | .bf2t _ => true
  | .bf3t _ => true
  | .blpt _ => true
  | .bodt _ => true
  | .bzet _ => true
  | .bngt _ => true
  | .bltt _ => true
  | .slaoK _ _ => true
  | .slaoX _ _ => true
  | .slllK _ _ => true
  | .slllX _ _ => true
  | .slloK _ _ => true
  | .slloX _ _ => true
  | .sllcK _ _ => true
  | .sllcX _ _ => true
  | .sraoK _ _ => true
  | .sraoX _ _ => true
  | .srllK _ _ => true
  | .srllX _ _ => true
  | .srloK _ _ => true
  | .srloX _ _ => true
  | .srlcK _ _ => true
  | .srlcX _ _ => true
  | .slan _ _ => true
  | .slln _ _ => true
  | .sran _ _ => true
  | .srln _ _ => true
  | .dlan ar _ => pairOk ar
  | .dlln ar _ => pairOk ar
  | .dran ar _ => pairOk ar
  | .drln ar _ => pairOk ar
  | .dlaoK pair _ => pairFieldOk pair
  | .dlaoX ar _ => pairOk ar
  | .dlllK pair _ => pairFieldOk pair
  | .dlllX ar _ => pairOk ar
  | .dlloK pair _ => pairFieldOk pair
  | .dlloX ar _ => pairOk ar
  | .dllcK pair _ => pairFieldOk pair
  | .dllcX ar _ => pairOk ar
  | .draoK pair _ => pairFieldOk pair
  | .draoX ar _ => pairOk ar
  | .drllK pair _ => pairFieldOk pair
  | .drllX ar _ => pairOk ar
  | .drloK pair _ => pairFieldOk pair
  | .drloX ar _ => pairOk ar
  | .drlcK pair _ => pairFieldOk pair
  | .drlcX ar _ => pairOk ar
  | .dsta _ _ => true
  | .dsub _ _ => true
  | .dadd _ _ => true
  | .mlta _ _ => true
  | .mult _ _ => true
  | .divd _ _ => true
  | .dlod _ _ => true
  | .zadd r1 r2 _ _ _ _ => fieldRegisterOk r1 && fieldRegisterOk r2
  | .addd r1 r2 _ _ _ _ => fieldRegisterOk r1 && fieldRegisterOk r2
  | .subd r1 r2 _ _ _ _ => fieldRegisterOk r1 && fieldRegisterOk r2
  | .cmpd r1 r2 _ _ _ _ => fieldRegisterOk r1 && fieldRegisterOk r2
  | .movr r1 r2 _ _ _ _ => fieldRegisterOk r1 && fieldRegisterOk r2
  | .movl r1 r2 _ _ _ _ => fieldRegisterOk r1 && fieldRegisterOk r2
  | .comp r1 r2 _ _ _ _ => fieldRegisterOk r1 && fieldRegisterOk r2
  | .sftr r1 _ _ _ _ => fieldRegisterOk r1
  | .sftl r1 _ _ _ _ => fieldRegisterOk r1
  | .skey _ => true
  | .jkey _ _ => true
  | .lcpu _ => true
  | .lkey _ => true

end Sys2Proof
end

