-- ==== Sys2Proof/Decode.lean ====
section
/-! DEFINITION. Encoding: the fields of an instruction word, the builders that name an instruction by its parts, the
decoder (total; it answers `none` on a word that is no instruction), what such a word does, and the encoder. The decoder
and the encoder do not depend on MODEL: the meaning of an instruction that the configured model lacks is its trap. -/

namespace Sys2Proof

/-! ## Parameters and models -/

/-- R6 on the parameters: MEMTOP is even and at most F000h, devices answer at even addresses of F000h..FFFEh. -/
def Params.legal (p : Params) : Bool :=
  !p.memTop.getLsbD 0 && decide (p.memTop.toNat ≤ 0xF000) &&
    p.devices.all fun a => !a.getLsbD 0 && decide (0xF000 ≤ a.toNat)

/-- The models that have the decimal and character instructions (R2, R330). -/
def Model.decimal : Model → Bool
  | .m1111A | .m1111B => true
  | _ => false

/-- The models that have the instructions of the SUE 1112 (R2, R370, R450). -/
def Model.scientific : Model → Bool
  | .m1112A | .m1112B => true
  | _ => false

/-- The models on which FCLW and FCLB deliver the old content (R314, R316). -/
def Model.seriesB : Model → Bool
  | .m1110B | .m1111B | .m1112B => true
  | _ => false

/-! ## Codes -/

/-- Field B (R101). -/
def Size.code : Size → BitVec 1
  | .word => 0#1
  | .byte => 1#1

/-- The size field B selects (R101, R172). -/
def Size.ofBit (b : BitVec 1) : Size := if b = 0#1 then .word else .byte

/-- Field OP of a general operation (R106). -/
def Operation.code : Operation → BitVec 3
  | .mov => 0#3
  | .sub => 1#3
  | .add => 2#3
  | .and => 3#3
  | .ior => 4#3
  | .eor => 5#3
  | .cmp => 6#3
  | .tst => 7#3

/-- The general operation of a code (R106). -/
def Operation.ofCode (c : BitVec 3) : Operation :=
  match c.toNat with
  | 0 => .mov
  | 1 => .sub
  | 2 => .add
  | 3 => .and
  | 4 => .ior
  | 5 => .eor
  | 6 => .cmp
  | _ => .tst

/-- Field C of a class with a memory operand (R151). -/
def MemClass.code : MemClass → BitVec 4
  | .c1 => 1#4
  | .c2 => 2#4
  | .c3 => 3#4
  | .c5 => 5#4
  | .c6 => 6#4
  | .c7 => 7#4

/-- Field T of a condition (R222). -/
def Condition.code : Condition → BitVec 4
  | .eq => 1#4
  | .gt => 2#4
  | .ov => 3#4
  | .cy => 4#4
  | .f1 => 5#4
  | .f2 => 6#4
  | .f3 => 7#4
  | .lp => 8#4
  | .od => 9#4
  | .ze => 10#4
  | .ng => 11#4
  | .lt => 12#4

/-- The condition field T names; none for 0 (unconditional) and D, E, F (R222, R224). -/
def Condition.ofCode (t : BitVec 4) : Option Condition :=
  match t.toNat with
  | 1 => some .eq
  | 2 => some .gt
  | 3 => some .ov
  | 4 => some .cy
  | 5 => some .f1
  | 6 => some .f2
  | 7 => some .f3
  | 8 => some .lp
  | 9 => some .od
  | 10 => some .ze
  | 11 => some .ng
  | 12 => some .lt
  | _ => none

/-- Field OP of a shift (R242). -/
def ShiftOp.code : ShiftOp → BitVec 3
  | .lao => 0#3
  | .lll => 1#3
  | .llo => 2#3
  | .llc => 3#3
  | .rao => 4#3
  | .rll => 5#3
  | .rlo => 6#3
  | .rlc => 7#3

/-- The shift of a code (R242). -/
def ShiftOp.ofCode (c : BitVec 3) : ShiftOp :=
  match c.toNat with
  | 0 => .lao
  | 1 => .lll
  | 2 => .llo
  | 3 => .llc
  | 4 => .rao
  | 5 => .rll
  | 6 => .rlo
  | _ => .rlc

/-- Field OP of a normalize instruction (R403). -/
def NormOp.code : NormOp → BitVec 3
  | .lan => 0#3
  | .lln => 2#3
  | .ran => 4#3
  | .rln => 6#3

/-- The normalize instruction of a code; the odd codes are undefined (R403). -/
def NormOp.ofCode (c : BitVec 3) : Option NormOp :=
  match c.toNat with
  | 0 => some .lan
  | 2 => some .lln
  | 4 => some .ran
  | 6 => some .rln
  | _ => none

/-- Field OP of a bit manipulation instruction (R373 to R378). -/
def BitOp.code : BitOp → BitVec 3
  | .rbit => 1#3
  | .sbit => 2#3
  | .cbit => 3#3
  | .ibit => 4#3
  | .tsbt => 5#3
  | .tbit => 6#3

/-- The bit manipulation of a code 1 to 6 (R371); 0 is JUMP or JSBR, 7 a move (R379). -/
def BitOp.ofCode (c : BitVec 3) : Option BitOp :=
  match c.toNat with
  | 1 => some .rbit
  | 2 => some .sbit
  | 3 => some .cbit
  | 4 => some .ibit
  | 5 => some .tsbt
  | 6 => some .tbit
  | _ => none

/-- Bit I of a move (R380). -/
def MoveOp.iBit : MoveOp → BitVec 1
  | .negt => 0#1
  | .cplm => 0#1
  | .movp => 1#1
  | .movn => 1#1

/-- Bit J of a move (R380). -/
def MoveOp.jBit : MoveOp → BitVec 1
  | .negt => 0#1
  | .cplm => 1#1
  | .movp => 0#1
  | .movn => 1#1

/-- The move of the bits I and J (R380). -/
def MoveOp.ofBits (i j : BitVec 1) : MoveOp :=
  if i = 0#1 then (if j = 0#1 then .negt else .cplm) else (if j = 0#1 then .movp else .movn)

/-! ## Builders: an instruction from its parts -/

/-- The instruction of classes 1, 2, 3, 5, 6, 7 with the given class, size and operation (R106). -/
def memInstr (cls : MemClass) (size : Size) (op : Operation) (ar : RegNo) (m : MemOperand) : Instr :=
  match cls, size, op with
  | .c1, .word, .mov => .movwC1 ar m
  | .c1, .word, .sub => .subwC1 ar m
  | .c1, .word, .add => .addwC1 ar m
  | .c1, .word, .and => .andwC1 ar m
  | .c1, .word, .ior => .iorwC1 ar m
  | .c1, .word, .eor => .eorwC1 ar m
  | .c1, .word, .cmp => .cmpwC1 ar m
  | .c1, .word, .tst => .tstwC1 ar m
  | .c1, .byte, .mov => .movbC1 ar m
  | .c1, .byte, .sub => .subbC1 ar m
  | .c1, .byte, .add => .addbC1 ar m
  | .c1, .byte, .and => .andbC1 ar m
  | .c1, .byte, .ior => .iorbC1 ar m
  | .c1, .byte, .eor => .eorbC1 ar m
  | .c1, .byte, .cmp => .cmpbC1 ar m
  | .c1, .byte, .tst => .tstbC1 ar m
  | .c2, .word, .mov => .movwC2 ar m
  | .c2, .word, .sub => .subwC2 ar m
  | .c2, .word, .add => .addwC2 ar m
  | .c2, .word, .and => .andwC2 ar m
  | .c2, .word, .ior => .iorwC2 ar m
  | .c2, .word, .eor => .eorwC2 ar m
  | .c2, .word, .cmp => .cmpwC2 ar m
  | .c2, .word, .tst => .tstwC2 ar m
  | .c2, .byte, .mov => .movbC2 ar m
  | .c2, .byte, .sub => .subbC2 ar m
  | .c2, .byte, .add => .addbC2 ar m
  | .c2, .byte, .and => .andbC2 ar m
  | .c2, .byte, .ior => .iorbC2 ar m
  | .c2, .byte, .eor => .eorbC2 ar m
  | .c2, .byte, .cmp => .cmpbC2 ar m
  | .c2, .byte, .tst => .tstbC2 ar m
  | .c3, .word, .mov => .movwC3 ar m
  | .c3, .word, .sub => .subwC3 ar m
  | .c3, .word, .add => .addwC3 ar m
  | .c3, .word, .and => .andwC3 ar m
  | .c3, .word, .ior => .iorwC3 ar m
  | .c3, .word, .eor => .eorwC3 ar m
  | .c3, .word, .cmp => .cmpwC3 ar m
  | .c3, .word, .tst => .tstwC3 ar m
  | .c3, .byte, .mov => .movbC3 ar m
  | .c3, .byte, .sub => .subbC3 ar m
  | .c3, .byte, .add => .addbC3 ar m
  | .c3, .byte, .and => .andbC3 ar m
  | .c3, .byte, .ior => .iorbC3 ar m
  | .c3, .byte, .eor => .eorbC3 ar m
  | .c3, .byte, .cmp => .cmpbC3 ar m
  | .c3, .byte, .tst => .tstbC3 ar m
  | .c5, .word, .mov => .movwC5 ar m
  | .c5, .word, .sub => .subwC5 ar m
  | .c5, .word, .add => .addwC5 ar m
  | .c5, .word, .and => .andwC5 ar m
  | .c5, .word, .ior => .iorwC5 ar m
  | .c5, .word, .eor => .eorwC5 ar m
  | .c5, .word, .cmp => .cmpwC5 ar m
  | .c5, .word, .tst => .tstwC5 ar m
  | .c5, .byte, .mov => .movbC5 ar m
  | .c5, .byte, .sub => .subbC5 ar m
  | .c5, .byte, .add => .addbC5 ar m
  | .c5, .byte, .and => .andbC5 ar m
  | .c5, .byte, .ior => .iorbC5 ar m
  | .c5, .byte, .eor => .eorbC5 ar m
  | .c5, .byte, .cmp => .cmpbC5 ar m
  | .c5, .byte, .tst => .tstbC5 ar m
  | .c6, .word, .mov => .movwC6 ar m
  | .c6, .word, .sub => .subwC6 ar m
  | .c6, .word, .add => .addwC6 ar m
  | .c6, .word, .and => .andwC6 ar m
  | .c6, .word, .ior => .iorwC6 ar m
  | .c6, .word, .eor => .eorwC6 ar m
  | .c6, .word, .cmp => .cmpwC6 ar m
  | .c6, .word, .tst => .tstwC6 ar m
  | .c6, .byte, .mov => .movbC6 ar m
  | .c6, .byte, .sub => .subbC6 ar m
  | .c6, .byte, .add => .addbC6 ar m
  | .c6, .byte, .and => .andbC6 ar m
  | .c6, .byte, .ior => .iorbC6 ar m
  | .c6, .byte, .eor => .eorbC6 ar m
  | .c6, .byte, .cmp => .cmpbC6 ar m
  | .c6, .byte, .tst => .tstbC6 ar m
  | .c7, .word, .mov => .movwC7 ar m
  | .c7, .word, .sub => .subwC7 ar m
  | .c7, .word, .add => .addwC7 ar m
  | .c7, .word, .and => .andwC7 ar m
  | .c7, .word, .ior => .iorwC7 ar m
  | .c7, .word, .eor => .eorwC7 ar m
  | .c7, .word, .cmp => .cmpwC7 ar m
  | .c7, .word, .tst => .tstwC7 ar m
  | .c7, .byte, .mov => .movbC7 ar m
  | .c7, .byte, .sub => .subbC7 ar m
  | .c7, .byte, .add => .addbC7 ar m
  | .c7, .byte, .and => .andbC7 ar m
  | .c7, .byte, .ior => .iorbC7 ar m
  | .c7, .byte, .eor => .eorbC7 ar m
  | .c7, .byte, .cmp => .cmpbC7 ar m
  | .c7, .byte, .tst => .tstbC7 ar m

/-- The class 4 immediate instruction of an operation (R194). -/
def dataI (op : Operation) (ar : RegNo) (k : BitVec 4) : Instr :=
  match op with
  | .mov => .movwI ar k
  | .sub => .subwI ar k
  | .add => .addwI ar k
  | .and => .andwI ar k
  | .ior => .iorwI ar k
  | .eor => .eorwI ar k
  | .cmp => .cmpwI ar k
  | .tst => .tstwI ar k

/-- The class 4 register instruction of an operation (R192). -/
def dataR (op : Operation) (ar xr : RegNo) : Instr :=
  match op with
  | .mov => .movwR ar xr
  | .sub => .subwR ar xr
  | .add => .addwR ar xr
  | .and => .andwR ar xr
  | .ior => .iorwR ar xr
  | .eor => .eorwR ar xr
  | .cmp => .cmpwR ar xr
  | .tst => .tstwR ar xr

/-- The class 4 literal instruction of an operation (R193). -/
def dataL (op : Operation) (ar xr : RegNo) (lit : Word) : Instr :=
  match op with
  | .mov => .movwL ar xr lit
  | .sub => .subwL ar xr lit
  | .add => .addwL ar xr lit
  | .and => .andwL ar xr lit
  | .ior => .iorwL ar xr lit
  | .eor => .eorwL ar xr lit
  | .cmp => .cmpwL ar xr lit
  | .tst => .tstwL ar xr lit

/-- The conditional branch on a condition being `sense` (R222). -/
def branchInstr (c : Condition) (sense : Bool) (d : BitVec 8) : Instr :=
  match c, sense with
  | .eq, true => .beqt d
  | .gt, true => .bgtt d
  | .ov, true => .bovt d
  | .cy, true => .bcyt d
  | .f1, true => .bf1t d
  | .f2, true => .bf2t d
  | .f3, true => .bf3t d
  | .lp, true => .blpt d
  | .od, true => .bodt d
  | .ze, true => .bzet d
  | .ng, true => .bngt d
  | .lt, true => .bltt d
  | .eq, false => .beqf d
  | .gt, false => .bgtf d
  | .ov, false => .bovf d
  | .cy, false => .bcyf d
  | .f1, false => .bf1f d
  | .f2, false => .bf2f d
  | .f3, false => .bf3f d
  | .lp, false => .blpf d
  | .od, false => .bodf d
  | .ze, false => .bzef d
  | .ng, false => .bngf d
  | .lt, false => .bltf d

/-- The single shift by a constant (R240). -/
def shiftInstrK (op : ShiftOp) (ar : RegNo) (k : BitVec 4) : Instr :=
  match op with
  | .lao => .slaoK ar k
  | .lll => .slllK ar k
  | .llo => .slloK ar k
  | .llc => .sllcK ar k
  | .rao => .sraoK ar k
  | .rll => .srllK ar k
  | .rlo => .srloK ar k
  | .rlc => .srlcK ar k

/-- The single shift by a register (R240). -/
def shiftInstrX (op : ShiftOp) (ar xr : RegNo) : Instr :=
  match op with
  | .lao => .slaoX ar xr
  | .lll => .slllX ar xr
  | .llo => .slloX ar xr
  | .llc => .sllcX ar xr
  | .rao => .sraoX ar xr
  | .rll => .srllX ar xr
  | .rlo => .srloX ar xr
  | .rlc => .srlcX ar xr

/-- The double shift by a constant (R420). -/
def dshiftInstrK (op : ShiftOp) (pair : BitVec 2) (k : BitVec 5) : Instr :=
  match op with
  | .lao => .dlaoK pair k
  | .lll => .dlllK pair k
  | .llo => .dlloK pair k
  | .llc => .dllcK pair k
  | .rao => .draoK pair k
  | .rll => .drllK pair k
  | .rlo => .drloK pair k
  | .rlc => .drlcK pair k

/-- The double shift by a register (R420). -/
def dshiftInstrX (op : ShiftOp) (ar xr : RegNo) : Instr :=
  match op with
  | .lao => .dlaoX ar xr
  | .lll => .dlllX ar xr
  | .llo => .dlloX ar xr
  | .llc => .dllcX ar xr
  | .rao => .draoX ar xr
  | .rll => .drllX ar xr
  | .rlo => .drloX ar xr
  | .rlc => .drlcX ar xr

/-- The single normalize instruction (R403). -/
def normInstr (op : NormOp) (ar xr : RegNo) : Instr :=
  match op with
  | .lan => .slan ar xr
  | .lln => .slln ar xr
  | .ran => .sran ar xr
  | .rln => .srln ar xr

/-- The double normalize instruction (R403). -/
def dnormInstr (op : NormOp) (ar xr : RegNo) : Instr :=
  match op with
  | .lan => .dlan ar xr
  | .lln => .dlln ar xr
  | .ran => .dran ar xr
  | .rln => .drln ar xr

/-- The bit manipulation of the bit K (R371). -/
def bitInstrK (op : BitOp) (ar : RegNo) (k : BitVec 4) : Instr :=
  match op with
  | .rbit => .rbitK ar k
  | .sbit => .sbitK ar k
  | .cbit => .cbitK ar k
  | .ibit => .ibitK ar k
  | .tsbt => .tsbtK ar k
  | .tbit => .tbitK ar k

/-- The bit manipulation of the bit a register names (R371). -/
def bitInstrX (op : BitOp) (ar xr : RegNo) : Instr :=
  match op with
  | .rbit => .rbitX ar xr
  | .sbit => .sbitX ar xr
  | .cbit => .cbitX ar xr
  | .ibit => .ibitX ar xr
  | .tsbt => .tsbtX ar xr
  | .tbit => .tbitX ar xr

/-- The bit manipulation of the bits a mask selects (R371). -/
def bitInstrM (op : BitOp) (ar xr : RegNo) (mask : Word) : Instr :=
  match op with
  | .rbit => .rbitM ar xr mask
  | .sbit => .sbitM ar xr mask
  | .cbit => .cbitM ar xr mask
  | .ibit => .ibitM ar xr mask
  | .tsbt => .tsbtM ar xr mask
  | .tbit => .tbitM ar xr mask

/-- The move (R380). -/
def moveInstr (op : MoveOp) (ar xr : RegNo) : Instr :=
  match op with
  | .negt => .negt ar xr
  | .cplm => .cplm ar xr
  | .movp => .movp ar xr
  | .movn => .movn ar xr

/-! ## Fields and words -/

/-- An instruction word from the fields C, B, OP, I, AR, E, XR (R101, R102). -/
def assemble (c : BitVec 4) (b : BitVec 1) (op : BitVec 3) (i : BitVec 1) (ar : BitVec 3) (e : BitVec 1)
    (xr : BitVec 3) : Word :=
  c ++ b ++ op ++ i ++ ar ++ e ++ xr

/-- Field C, bits 15..12 (R101). -/
def fieldC (w : Word) : BitVec 4 := w.extractLsb' 12 4

/-- Field B, bit 11. -/
def fieldB (w : Word) : BitVec 1 := w.extractLsb' 11 1

/-- Field OP, bits 10..8. -/
def fieldOp (w : Word) : BitVec 3 := w.extractLsb' 8 3

/-- Field T, bits 11..8. -/
def fieldT (w : Word) : BitVec 4 := w.extractLsb' 8 4

/-- Field I, bit 7. -/
def fieldI (w : Word) : BitVec 1 := w.extractLsb' 7 1

/-- Field AR, bits 6..4. -/
def fieldAr (w : Word) : BitVec 3 := w.extractLsb' 4 3

/-- Field E, bit 3. -/
def fieldE (w : Word) : BitVec 1 := w.extractLsb' 3 1

/-- Field XR, bits 2..0. -/
def fieldXr (w : Word) : BitVec 3 := w.extractLsb' 0 3

/-- Field K, bits 3..0. -/
def fieldK (w : Word) : BitVec 4 := w.extractLsb' 0 4

/-- Field D, bits 7..0. -/
def fieldD (w : Word) : BitVec 8 := w.extractLsb' 0 8

/-- Field F, bits 6..0. -/
def fieldF (w : Word) : BitVec 7 := w.extractLsb' 0 7

/-- H3, bits 7..4 (R100). -/
def fieldH3 (w : Word) : BitVec 4 := w.extractLsb' 4 4

/-- The pair designator of the immediate double shifts, bits 6..5 (R122). -/
def fieldPair (w : Word) : BitVec 2 := w.extractLsb' 5 2

/-- The five-bit count of the immediate double shifts, bits 4..0 (R122). -/
def fieldK5 (w : Word) : BitVec 5 := w.extractLsb' 0 5

/-- A truth value as a field of one bit. -/
def bit1 (b : Bool) : BitVec 1 := BitVec.ofBool b

/-- The fields I, E, XR and the extension word as the operand part of an instruction (R152). -/
def operandOf (iw iw2 : Word) : MemOperand :=
  { ind := fieldI iw == 1#1, xr := fieldXr iw, ext := if fieldE iw = 1#1 then some iw2 else none }

/-- The extension word of an operand part, if it has one (R104). -/
def MemOperand.words (m : MemOperand) : List Word := m.ext.toList

/-- The instruction word of a format GR, JMP or FCL: class, B, OP and accumulator given, the rest from the operand
part (R102). -/
def operandWord (c : BitVec 4) (b : BitVec 1) (op ar : BitVec 3) (m : MemOperand) : Word :=
  assemble c b op (bit1 m.ind) ar (bit1 m.ext.isSome) m.xr

/-- The first word of a general register instruction with a memory operand (R106). -/
def memWord (cls : MemClass) (size : Size) (op : Operation) (ar : RegNo) (m : MemOperand) : Word :=
  operandWord cls.code size.code op.code ar m

/-- The first word of JUMP (AR = 0) or JSBR (R107). -/
def jumpWord (ar : RegNo) (m : MemOperand) : Word := operandWord 4#4 0#1 0#3 ar m

/-- The first word of FCLW or FCLB (R117). -/
def fclWord (size : Size) (ar : RegNo) (m : MemOperand) : Word := operandWord 0#4 size.code 6#3 ar m

/-- The first word of a class B instruction (R121). -/
def fixedWord (op ar : BitVec 3) (m : MemOperand) : Word := operandWord 11#4 0#1 op ar m

/-- A word of classes 8 and 9 and of the control instructions with a D field: C, T, D (R108, R110). -/
def displacementWord (c t : BitVec 4) (d : BitVec 8) : Word := c ++ t ++ d

/-- A word whose low digit is K: C, B, OP, I, AR, K (R102). -/
def constantWord (c : BitVec 4) (b : BitVec 1) (op : BitVec 3) (i : BitVec 1) (ar : BitVec 3) (k : BitVec 4) : Word :=
  c ++ b ++ op ++ i ++ ar ++ k

/-- The word of RSTS (s = 0) or SETS (s = 1) (R272, R273). -/
def statusWord (s : BitVec 1) (f : BitVec 7) : Word := 2#8 ++ s ++ f

/-- The word of an interrupt mask instruction: H3 tells which (R110, R275). -/
def maskWord (h3 k : BitVec 4) : Word := 8#8 ++ h3 ++ k

/-- The word of an immediate double shift (R122). -/
def dshiftWordK (op : BitVec 3) (pair : BitVec 2) (k : BitVec 5) : Word := 10#4 ++ 1#1 ++ op ++ 1#1 ++ pair ++ k

/-- The first word of a decimal instruction (R330). -/
def decimalWord (op : BitVec 4) (r1 r2 : RegNo) : Word := 12#4 ++ op ++ 0#1 ++ r1 ++ 0#1 ++ r2

/-- The second word of a decimal instruction: L1, L2 or S, X1, X2 (R330). -/
def decimalWord2 (l1 l2 : BitVec 4) (x1 x2 : RegNo) : Word := l1 ++ l2 ++ 0#1 ++ x1 ++ 0#1 ++ x2

/-- The word of an instruction whose encoding is a parameter (R120), with its field; none without the parameter. -/
def KeyPattern.word (p : KeyPattern) (field : Word) : Word := p.value ||| (field <<< p.fieldLow)

/-! ## Decoder -/

/-- Class 0 (R105, R110, R116, R117). -/
def decodeControl (iw iw2 : Word) : Option Instr :=
  match (fieldT iw).toNat with
  | 0 => some (.halt (fieldD iw))
  | 1 => some (.stsm false (fieldD iw))
  | 2 => if fieldI iw = 0#1 then some (.rsts (fieldF iw)) else some (.sets (fieldF iw))
  | 3 => some (.regm false (fieldD iw))
  | 4 => some (.retn false (fieldD iw))
  | 5 => some (.msts false (fieldD iw))
  | 6 => some (.fclw (fieldAr iw) (operandOf iw iw2))
  | 7 => some (.mreg false (fieldD iw))
  | 8 =>
    match (fieldH3 iw).toNat with
    | 0 => some (.enbl (fieldK iw))
    | 4 => if fieldK iw = 0#4 then some .wait else some (.enbw (fieldK iw))
    | 8 => some (.dsbl (fieldK iw))
    | 12 => if fieldK iw = 0#4 then some .waitD else some (.dsbw (fieldK iw))
    | _ => none
  | 9 => some (.stsm true (fieldD iw))
  | 11 => some (.regm true (fieldD iw))
  | 12 => some (.retn true (fieldD iw))
  | 13 => some (.msts true (fieldD iw))
  | 14 => some (.fclb (fieldAr iw) (operandOf iw iw2))
  | 15 => some (.mreg true (fieldD iw))
  | _ => none

/-- Class 4 (R105, R107, R118). -/
def decodeClass4 (iw iw2 : Word) : Option Instr :=
  if fieldB iw = 1#1 then
    if fieldI iw = 1#1 then some (dataI (.ofCode (fieldOp iw)) (fieldAr iw) (fieldK iw))
    else if fieldE iw = 0#1 then some (dataR (.ofCode (fieldOp iw)) (fieldAr iw) (fieldXr iw))
    else some (dataL (.ofCode (fieldOp iw)) (fieldAr iw) (fieldXr iw) iw2)
  else if fieldOp iw = 0#3 then
    if fieldAr iw = 0#3 then some (.jump (operandOf iw iw2)) else some (.jsbr (fieldAr iw) (operandOf iw iw2))
  else
    match BitOp.ofCode (fieldOp iw) with
    | some op =>
      if fieldI iw = 1#1 then some (bitInstrK op (fieldAr iw) (fieldK iw))
      else if fieldE iw = 0#1 then some (bitInstrX op (fieldAr iw) (fieldXr iw))
      else some (bitInstrM op (fieldAr iw) (fieldXr iw) iw2)
    | none => some (moveInstr (.ofBits (fieldI iw) (fieldE iw)) (fieldAr iw) (fieldXr iw))

/-- Classes 8 and 9: T = 0 is NOPR or BRUN, T = D, E, F trap (R108). -/
def decodeBranch (sense : Bool) (iw : Word) : Option Instr :=
  if fieldT iw = 0#4 then some (if sense then .brun (fieldD iw) else .nopr (fieldD iw))
  else (Condition.ofCode (fieldT iw)).map fun c => branchInstr c sense (fieldD iw)

/-- Class A (R105, R109, R119, R122). -/
def decodeClassA (iw : Word) : Option Instr :=
  if fieldB iw = 0#1 then
    if fieldI iw = 1#1 then some (shiftInstrK (.ofCode (fieldOp iw)) (fieldAr iw) (fieldK iw))
    else if fieldE iw = 0#1 then some (shiftInstrX (.ofCode (fieldOp iw)) (fieldAr iw) (fieldXr iw))
    else (NormOp.ofCode (fieldOp iw)).map fun op => normInstr op (fieldAr iw) (fieldXr iw)
  else
    if fieldI iw = 1#1 then some (dshiftInstrK (.ofCode (fieldOp iw)) (fieldPair iw) (fieldK5 iw))
    else if fieldE iw = 0#1 then some (dshiftInstrX (.ofCode (fieldOp iw)) (fieldAr iw) (fieldXr iw))
    else (NormOp.ofCode (fieldOp iw)).map fun op => dnormInstr op (fieldAr iw) (fieldXr iw)

/-- Class B (R105, R121): bit 11 = 1 and OP = 6, 7 are undefined; OP = 3 is MLTA or MULT by the parity of AR. -/
def decodeClassB (iw iw2 : Word) : Option Instr :=
  if fieldB iw = 1#1 then none
  else
    match (fieldOp iw).toNat with
    | 0 => some (.dsta (fieldAr iw) (operandOf iw iw2))
    | 1 => some (.dsub (fieldAr iw) (operandOf iw iw2))
    | 2 => some (.dadd (fieldAr iw) (operandOf iw iw2))
    | 3 =>
      if iw.extractLsb' 4 1 = 0#1 then some (.mlta (fieldPair iw) (operandOf iw iw2))
      else some (.mult (fieldPair iw) (operandOf iw iw2))
    | 4 => some (.divd (fieldAr iw) (operandOf iw iw2))
    | 5 => some (.dlod (fieldAr iw) (operandOf iw iw2))
    | _ => none

/-- Class C (R105, R330): bits 7 and 3 of both words are 0, and so is the R2 field of the shifts (R114). -/
def decodeDecimal (iw iw2 : Word) : Option Instr :=
  if fieldI iw = 1#1 ∨ fieldE iw = 1#1 ∨ fieldI iw2 = 1#1 ∨ fieldE iw2 = 1#1 then none
  else
    let r1 := fieldAr iw
    let r2 := fieldXr iw
    let l1 := fieldC iw2
    let l2 := fieldT iw2
    let x1 := fieldAr iw2
    let x2 := fieldXr iw2
    match (fieldT iw).toNat with
    | 2 => some (.zadd r1 r2 l1 l2 x1 x2)
    | 3 => some (.addd r1 r2 l1 l2 x1 x2)
    | 4 => some (.subd r1 r2 l1 l2 x1 x2)
    | 5 => some (.cmpd r1 r2 l1 l2 x1 x2)
    | 8 => if r2 = 0#3 then some (.sftr r1 l1 l2 x1 x2) else none
    | 9 => some (.movr r1 r2 l1 l2 x1 x2)
    | 10 => if r2 = 0#3 then some (.sftl r1 l1 l2 x1 x2) else none
    | 11 => some (.movl r1 r2 l1 l2 x1 x2)
    | 12 => some (.comp r1 r2 l1 l2 x1 x2)
    | _ => none

/-- The instruction of a first word and a second word (R105); `none` where the decode tree assigns none. Instructions
of one word ignore the second. -/
def decode (iw iw2 : Word) : Option Instr :=
  match (fieldC iw).toNat with
  | 0 => decodeControl iw iw2
  | 1 => some (memInstr .c1 (.ofBit (fieldB iw)) (.ofCode (fieldOp iw)) (fieldAr iw) (operandOf iw iw2))
  | 2 => some (memInstr .c2 (.ofBit (fieldB iw)) (.ofCode (fieldOp iw)) (fieldAr iw) (operandOf iw iw2))
  | 3 => some (memInstr .c3 (.ofBit (fieldB iw)) (.ofCode (fieldOp iw)) (fieldAr iw) (operandOf iw iw2))
  | 4 => decodeClass4 iw iw2
  | 5 => some (memInstr .c5 (.ofBit (fieldB iw)) (.ofCode (fieldOp iw)) (fieldAr iw) (operandOf iw iw2))
  | 6 => some (memInstr .c6 (.ofBit (fieldB iw)) (.ofCode (fieldOp iw)) (fieldAr iw) (operandOf iw iw2))
  | 7 => some (memInstr .c7 (.ofBit (fieldB iw)) (.ofCode (fieldOp iw)) (fieldAr iw) (operandOf iw iw2))
  | 8 => decodeBranch false iw
  | 9 => decodeBranch true iw
  | 10 => decodeClassA iw
  | 11 => decodeClassB iw iw2
  | 12 => decodeDecimal iw iw2
  | _ => none

/-- Does `iw` carry the pattern `p` with a field of `width` bits (R120)? -/
def KeyPattern.matches (p : KeyPattern) (width : Nat) (iw : Word) : Bool :=
  (iw &&& ~~~((BitVec.ofNat 16 (2 ^ width - 1)) <<< p.fieldLow)) == p.value

/-- The field of a word that matches `p`. -/
def KeyPattern.field (p : KeyPattern) (iw : Word) : Word := iw >>> p.fieldLow

/-- The first of the four patterns that a word carries, and its instruction; the order of the trial matters only for
patterns that overlap (log 30). -/
def decodeKeyPattern (enc : KeyEncodings) (iw iw2 : Word) : Option Instr :=
  match enc.skey.filter (·.matches 2 iw) with
  | some p => some (.skey ((p.field iw).setWidth 2))
  | none =>
    match enc.jkey.filter (·.matches 2 iw) with
    | some p => some (.jkey ((p.field iw).setWidth 2) iw2)
    | none =>
      match enc.lcpu.filter (·.matches 3 iw) with
      | some p => some (.lcpu ((p.field iw).setWidth 3))
      | none =>
        match enc.lkey.filter (·.matches 3 iw) with
        | some p => some (.lkey ((p.field iw).setWidth 3))
        | none => none

/-- The four instructions whose encodings are parameters (R120): tried on the words of class code 0, of which they are a
subclass (R120, R480, R481), that `decode` leaves. A pattern of another class code names no word (log 30). -/
def decodeKey (enc : KeyEncodings) (iw iw2 : Word) : Option Instr :=
  if fieldC iw = 0#4 then decodeKeyPattern enc iw iw2 else none

/-- The instruction two words stand for under the encodings of the installation. -/
def decodeWith (enc : KeyEncodings) (iw iw2 : Word) : Option Instr :=
  (decode iw iw2).or (decodeKey enc iw iw2)

/-- R104 and R105 on the first word alone: does an instruction of `model` with this first word have a second word
to fetch? A first word that traps by itself has none (R347, log 38); JKEY has one, in class 0 like its pattern (R480,
log 30). -/
def hasSecondWord (model : Model) (enc : KeyEncodings) (iw : Word) : Bool :=
  match (fieldC iw).toNat with
  | 0 =>
    if fieldOp iw = 6#3 then fieldE iw == 1#1 && model != .m1110
    else model.scientific && (decode iw 0#16).isNone && !(enc.skey.any (·.matches 2 iw)) && enc.jkey.any (·.matches 2 iw)
  | 4 =>
    if fieldB iw = 1#1 then fieldI iw == 0#1 && fieldE iw == 1#1
    else if fieldOp iw = 0#3 then fieldE iw == 1#1
    else if fieldOp iw = 7#3 then false
    else model.scientific && fieldI iw == 0#1 && fieldE iw == 1#1
  | 8 => false
  | 9 => false
  | 10 => false
  | 11 =>
    model.scientific && fieldE iw == 1#1 && fieldB iw == 0#1 && decide ((fieldOp iw).toNat ≤ 5) &&
      decide (2 ≤ (fieldAr iw).toNat)
  | 12 => model.decimal && (decode iw 0#16).isSome
  | 13 => false
  | 14 => false
  | 15 => false
  | _ => fieldE iw == 1#1

/-- The words G3 states to trap that are no instruction of any model, or of a class the model lacks (R105, R112,
R503; log 7 on class A): those among the words for which `decode` answers `none`. -/
def statedTrap (model : Model) (iw : Word) : Bool :=
  match (fieldC iw).toNat with
  | 8 => decide (13 ≤ (fieldT iw).toNat)
  | 9 => decide (13 ≤ (fieldT iw).toNat)
  | 10 => fieldB iw == 1#1 && !model.scientific
  | 11 => !model.scientific
  | 12 => !model.decimal || [0, 1, 6, 7, 13, 14, 15].contains (fieldT iw).toNat
  | 13 => true
  | 14 => true
  | 15 => true
  | _ => false

/-- Does `model` implement the first word `iw` (R2, R103)? Asked of words that decode. -/
def implements (model : Model) (iw : Word) : Bool :=
  match (fieldC iw).toNat with
  | 0 => fieldOp iw != 6#3 || model != .m1110
  | 4 => fieldB iw == 1#1 || fieldOp iw == 0#3 || model.scientific
  | 10 => (fieldB iw == 0#1 && (fieldI iw == 1#1 || fieldE iw == 0#1)) || model.scientific
  | 11 => model.scientific
  | 12 => model.decimal
  | _ => true

/-! ## Bytes -/

/-- A word from its left and right byte (R62). -/
def wordOfBytes (left right : Byte) : Word := left ++ right

/-- The left byte, bits 15..8 (R7). -/
def leftByte (w : Word) : Byte := w.extractLsb' 8 8

/-- The right byte, bits 7..0 (R7). -/
def rightByte (w : Word) : Byte := w.extractLsb' 0 8

/-- A word as it lies in memory, the left byte first (R62). -/
def bytesOfWord (w : Word) : List Byte := [leftByte w, rightByte w]

/-- R104: the number of bytes of the instruction with this first word. -/
def lengthOf (iw : Word) : Nat :=
  match (fieldC iw).toNat with
  | 0 => if fieldOp iw = 6#3 ∧ fieldE iw = 1#1 then 4 else 2
  | 4 =>
    if fieldB iw = 1#1 then (if fieldI iw = 0#1 ∧ fieldE iw = 1#1 then 4 else 2)
    else if fieldOp iw = 0#3 then (if fieldE iw = 1#1 then 4 else 2)
    else if fieldOp iw = 7#3 then 2
    else (if fieldI iw = 0#1 ∧ fieldE iw = 1#1 then 4 else 2)
  | 8 => 2
  | 9 => 2
  | 10 => 2
  | 12 => 4
  | _ => if fieldE iw = 1#1 then 4 else 2

/-- The instruction at the head of a list of bytes, with the bytes that follow it. -/
def decodeBytes : List Byte → Option (Instr × List Byte)
  | a :: b :: rest =>
    if lengthOf (wordOfBytes a b) = 4 then
      match rest with
      | c :: d :: rest' => (decode (wordOfBytes a b) (wordOfBytes c d)).map fun i => (i, rest')
      | _ => none
    else (decode (wordOfBytes a b) 0#16).map fun i => (i, rest)
  | _ => none

/-- The bytes of the host's numbering: the first word is bits 15..0 of `w`, the second bits 31..16; bits from `nbits`
on are 0. -/
def tableBytes (nbits w : Nat) : List Byte :=
  bytesOfWord (BitVec.ofNat 16 (w % 2 ^ nbits)) ++ bytesOfWord (BitVec.ofNat 16 (w % 2 ^ nbits / 65536))

/-- The instruction the decoder reads from the host's numbering of an opcode-table row's bits. -/
def decodeTableWord (nbits w : Nat) : Option Instr := (decodeBytes (tableBytes nbits w)).map (·.1)

/-! ## Encoder -/

/-- The words of an instruction (R102, R124). The four instructions without an encoding (R120) have none. -/
def encode : Instr → List Word
  | .halt ignored => [displacementWord 0#4 0#4 ignored]
  | .stsm rel d => [displacementWord 0#4 (bit1 rel ++ 1#3) d]
  | .rsts f => [statusWord 0#1 f]
  | .sets f => [statusWord 1#1 f]
  | .regm rel d => [displacementWord 0#4 (bit1 rel ++ 3#3) d]
  | .retn rel d => [displacementWord 0#4 (bit1 rel ++ 4#3) d]
  | .msts rel d => [displacementWord 0#4 (bit1 rel ++ 5#3) d]
  | .fclw ar m => fclWord .word ar m :: m.words
  | .fclb ar m => fclWord .byte ar m :: m.words
  | .mreg rel d => [displacementWord 0#4 (bit1 rel ++ 7#3) d]
  | .wait => [maskWord 4#4 0#4]
  | .waitD => [maskWord 12#4 0#4]
  | .enbl k => [maskWord 0#4 k]
  | .enbw k => [maskWord 4#4 k]
  | .dsbl k => [maskWord 8#4 k]
  | .dsbw k => [maskWord 12#4 k]
  | .movwC1 ar m => memWord .c1 .word .mov ar m :: m.words
  | .subwC1 ar m => memWord .c1 .word .sub ar m :: m.words
  | .addwC1 ar m => memWord .c1 .word .add ar m :: m.words
  | .andwC1 ar m => memWord .c1 .word .and ar m :: m.words
  | .iorwC1 ar m => memWord .c1 .word .ior ar m :: m.words
  | .eorwC1 ar m => memWord .c1 .word .eor ar m :: m.words
  | .cmpwC1 ar m => memWord .c1 .word .cmp ar m :: m.words
  | .tstwC1 ar m => memWord .c1 .word .tst ar m :: m.words
  | .movbC1 ar m => memWord .c1 .byte .mov ar m :: m.words
  | .subbC1 ar m => memWord .c1 .byte .sub ar m :: m.words
  | .addbC1 ar m => memWord .c1 .byte .add ar m :: m.words
  | .andbC1 ar m => memWord .c1 .byte .and ar m :: m.words
  | .iorbC1 ar m => memWord .c1 .byte .ior ar m :: m.words
  | .eorbC1 ar m => memWord .c1 .byte .eor ar m :: m.words
  | .cmpbC1 ar m => memWord .c1 .byte .cmp ar m :: m.words
  | .tstbC1 ar m => memWord .c1 .byte .tst ar m :: m.words
  | .movwC2 ar m => memWord .c2 .word .mov ar m :: m.words
  | .subwC2 ar m => memWord .c2 .word .sub ar m :: m.words
  | .addwC2 ar m => memWord .c2 .word .add ar m :: m.words
  | .andwC2 ar m => memWord .c2 .word .and ar m :: m.words
  | .iorwC2 ar m => memWord .c2 .word .ior ar m :: m.words
  | .eorwC2 ar m => memWord .c2 .word .eor ar m :: m.words
  | .cmpwC2 ar m => memWord .c2 .word .cmp ar m :: m.words
  | .tstwC2 ar m => memWord .c2 .word .tst ar m :: m.words
  | .movbC2 ar m => memWord .c2 .byte .mov ar m :: m.words
  | .subbC2 ar m => memWord .c2 .byte .sub ar m :: m.words
  | .addbC2 ar m => memWord .c2 .byte .add ar m :: m.words
  | .andbC2 ar m => memWord .c2 .byte .and ar m :: m.words
  | .iorbC2 ar m => memWord .c2 .byte .ior ar m :: m.words
  | .eorbC2 ar m => memWord .c2 .byte .eor ar m :: m.words
  | .cmpbC2 ar m => memWord .c2 .byte .cmp ar m :: m.words
  | .tstbC2 ar m => memWord .c2 .byte .tst ar m :: m.words
  | .movwC3 ar m => memWord .c3 .word .mov ar m :: m.words
  | .subwC3 ar m => memWord .c3 .word .sub ar m :: m.words
  | .addwC3 ar m => memWord .c3 .word .add ar m :: m.words
  | .andwC3 ar m => memWord .c3 .word .and ar m :: m.words
  | .iorwC3 ar m => memWord .c3 .word .ior ar m :: m.words
  | .eorwC3 ar m => memWord .c3 .word .eor ar m :: m.words
  | .cmpwC3 ar m => memWord .c3 .word .cmp ar m :: m.words
  | .tstwC3 ar m => memWord .c3 .word .tst ar m :: m.words
  | .movbC3 ar m => memWord .c3 .byte .mov ar m :: m.words
  | .subbC3 ar m => memWord .c3 .byte .sub ar m :: m.words
  | .addbC3 ar m => memWord .c3 .byte .add ar m :: m.words
  | .andbC3 ar m => memWord .c3 .byte .and ar m :: m.words
  | .iorbC3 ar m => memWord .c3 .byte .ior ar m :: m.words
  | .eorbC3 ar m => memWord .c3 .byte .eor ar m :: m.words
  | .cmpbC3 ar m => memWord .c3 .byte .cmp ar m :: m.words
  | .tstbC3 ar m => memWord .c3 .byte .tst ar m :: m.words
  | .jump m => jumpWord 0#3 m :: m.words
  | .jsbr ar m => jumpWord ar m :: m.words
  | .rbitK ar k => [constantWord 4#4 0#1 (BitOp.code .rbit) 1#1 ar k]
  | .rbitX ar xr => [assemble 4#4 0#1 (BitOp.code .rbit) 0#1 ar 0#1 xr]
  | .rbitM ar xr mask => [assemble 4#4 0#1 (BitOp.code .rbit) 0#1 ar 1#1 xr, mask]
  | .sbitK ar k => [constantWord 4#4 0#1 (BitOp.code .sbit) 1#1 ar k]
  | .sbitX ar xr => [assemble 4#4 0#1 (BitOp.code .sbit) 0#1 ar 0#1 xr]
  | .sbitM ar xr mask => [assemble 4#4 0#1 (BitOp.code .sbit) 0#1 ar 1#1 xr, mask]
  | .cbitK ar k => [constantWord 4#4 0#1 (BitOp.code .cbit) 1#1 ar k]
  | .cbitX ar xr => [assemble 4#4 0#1 (BitOp.code .cbit) 0#1 ar 0#1 xr]
  | .cbitM ar xr mask => [assemble 4#4 0#1 (BitOp.code .cbit) 0#1 ar 1#1 xr, mask]
  | .ibitK ar k => [constantWord 4#4 0#1 (BitOp.code .ibit) 1#1 ar k]
  | .ibitX ar xr => [assemble 4#4 0#1 (BitOp.code .ibit) 0#1 ar 0#1 xr]
  | .ibitM ar xr mask => [assemble 4#4 0#1 (BitOp.code .ibit) 0#1 ar 1#1 xr, mask]
  | .tsbtK ar k => [constantWord 4#4 0#1 (BitOp.code .tsbt) 1#1 ar k]
  | .tsbtX ar xr => [assemble 4#4 0#1 (BitOp.code .tsbt) 0#1 ar 0#1 xr]
  | .tsbtM ar xr mask => [assemble 4#4 0#1 (BitOp.code .tsbt) 0#1 ar 1#1 xr, mask]
  | .tbitK ar k => [constantWord 4#4 0#1 (BitOp.code .tbit) 1#1 ar k]
  | .tbitX ar xr => [assemble 4#4 0#1 (BitOp.code .tbit) 0#1 ar 0#1 xr]
  | .tbitM ar xr mask => [assemble 4#4 0#1 (BitOp.code .tbit) 0#1 ar 1#1 xr, mask]
  | .negt ar xr => [assemble 4#4 0#1 7#3 (MoveOp.iBit .negt) ar (MoveOp.jBit .negt) xr]
  | .cplm ar xr => [assemble 4#4 0#1 7#3 (MoveOp.iBit .cplm) ar (MoveOp.jBit .cplm) xr]
  | .movp ar xr => [assemble 4#4 0#1 7#3 (MoveOp.iBit .movp) ar (MoveOp.jBit .movp) xr]
  | .movn ar xr => [assemble 4#4 0#1 7#3 (MoveOp.iBit .movn) ar (MoveOp.jBit .movn) xr]
  | .movwI ar k => [constantWord 4#4 1#1 (Operation.code .mov) 1#1 ar k]
  | .movwR ar xr => [assemble 4#4 1#1 (Operation.code .mov) 0#1 ar 0#1 xr]
  | .movwL ar xr lit => [assemble 4#4 1#1 (Operation.code .mov) 0#1 ar 1#1 xr, lit]
  | .subwI ar k => [constantWord 4#4 1#1 (Operation.code .sub) 1#1 ar k]
  | .subwR ar xr => [assemble 4#4 1#1 (Operation.code .sub) 0#1 ar 0#1 xr]
  | .subwL ar xr lit => [assemble 4#4 1#1 (Operation.code .sub) 0#1 ar 1#1 xr, lit]
  | .addwI ar k => [constantWord 4#4 1#1 (Operation.code .add) 1#1 ar k]
  | .addwR ar xr => [assemble 4#4 1#1 (Operation.code .add) 0#1 ar 0#1 xr]
  | .addwL ar xr lit => [assemble 4#4 1#1 (Operation.code .add) 0#1 ar 1#1 xr, lit]
  | .andwI ar k => [constantWord 4#4 1#1 (Operation.code .and) 1#1 ar k]
  | .andwR ar xr => [assemble 4#4 1#1 (Operation.code .and) 0#1 ar 0#1 xr]
  | .andwL ar xr lit => [assemble 4#4 1#1 (Operation.code .and) 0#1 ar 1#1 xr, lit]
  | .iorwI ar k => [constantWord 4#4 1#1 (Operation.code .ior) 1#1 ar k]
  | .iorwR ar xr => [assemble 4#4 1#1 (Operation.code .ior) 0#1 ar 0#1 xr]
  | .iorwL ar xr lit => [assemble 4#4 1#1 (Operation.code .ior) 0#1 ar 1#1 xr, lit]
  | .eorwI ar k => [constantWord 4#4 1#1 (Operation.code .eor) 1#1 ar k]
  | .eorwR ar xr => [assemble 4#4 1#1 (Operation.code .eor) 0#1 ar 0#1 xr]
  | .eorwL ar xr lit => [assemble 4#4 1#1 (Operation.code .eor) 0#1 ar 1#1 xr, lit]
  | .cmpwI ar k => [constantWord 4#4 1#1 (Operation.code .cmp) 1#1 ar k]
  | .cmpwR ar xr => [assemble 4#4 1#1 (Operation.code .cmp) 0#1 ar 0#1 xr]
  | .cmpwL ar xr lit => [assemble 4#4 1#1 (Operation.code .cmp) 0#1 ar 1#1 xr, lit]
  | .tstwI ar k => [constantWord 4#4 1#1 (Operation.code .tst) 1#1 ar k]
  | .tstwR ar xr => [assemble 4#4 1#1 (Operation.code .tst) 0#1 ar 0#1 xr]
  | .tstwL ar xr lit => [assemble 4#4 1#1 (Operation.code .tst) 0#1 ar 1#1 xr, lit]
  | .movwC5 ar m => memWord .c5 .word .mov ar m :: m.words
  | .subwC5 ar m => memWord .c5 .word .sub ar m :: m.words
  | .addwC5 ar m => memWord .c5 .word .add ar m :: m.words
  | .andwC5 ar m => memWord .c5 .word .and ar m :: m.words
  | .iorwC5 ar m => memWord .c5 .word .ior ar m :: m.words
  | .eorwC5 ar m => memWord .c5 .word .eor ar m :: m.words
  | .cmpwC5 ar m => memWord .c5 .word .cmp ar m :: m.words
  | .tstwC5 ar m => memWord .c5 .word .tst ar m :: m.words
  | .movbC5 ar m => memWord .c5 .byte .mov ar m :: m.words
  | .subbC5 ar m => memWord .c5 .byte .sub ar m :: m.words
  | .addbC5 ar m => memWord .c5 .byte .add ar m :: m.words
  | .andbC5 ar m => memWord .c5 .byte .and ar m :: m.words
  | .iorbC5 ar m => memWord .c5 .byte .ior ar m :: m.words
  | .eorbC5 ar m => memWord .c5 .byte .eor ar m :: m.words
  | .cmpbC5 ar m => memWord .c5 .byte .cmp ar m :: m.words
  | .tstbC5 ar m => memWord .c5 .byte .tst ar m :: m.words
  | .movwC6 ar m => memWord .c6 .word .mov ar m :: m.words
  | .subwC6 ar m => memWord .c6 .word .sub ar m :: m.words
  | .addwC6 ar m => memWord .c6 .word .add ar m :: m.words
  | .andwC6 ar m => memWord .c6 .word .and ar m :: m.words
  | .iorwC6 ar m => memWord .c6 .word .ior ar m :: m.words
  | .eorwC6 ar m => memWord .c6 .word .eor ar m :: m.words
  | .cmpwC6 ar m => memWord .c6 .word .cmp ar m :: m.words
  | .tstwC6 ar m => memWord .c6 .word .tst ar m :: m.words
  | .movbC6 ar m => memWord .c6 .byte .mov ar m :: m.words
  | .subbC6 ar m => memWord .c6 .byte .sub ar m :: m.words
  | .addbC6 ar m => memWord .c6 .byte .add ar m :: m.words
  | .andbC6 ar m => memWord .c6 .byte .and ar m :: m.words
  | .iorbC6 ar m => memWord .c6 .byte .ior ar m :: m.words
  | .eorbC6 ar m => memWord .c6 .byte .eor ar m :: m.words
  | .cmpbC6 ar m => memWord .c6 .byte .cmp ar m :: m.words
  | .tstbC6 ar m => memWord .c6 .byte .tst ar m :: m.words
  | .movwC7 ar m => memWord .c7 .word .mov ar m :: m.words
  | .subwC7 ar m => memWord .c7 .word .sub ar m :: m.words
  | .addwC7 ar m => memWord .c7 .word .add ar m :: m.words
  | .andwC7 ar m => memWord .c7 .word .and ar m :: m.words
  | .iorwC7 ar m => memWord .c7 .word .ior ar m :: m.words
  | .eorwC7 ar m => memWord .c7 .word .eor ar m :: m.words
  | .cmpwC7 ar m => memWord .c7 .word .cmp ar m :: m.words
  | .tstwC7 ar m => memWord .c7 .word .tst ar m :: m.words
  | .movbC7 ar m => memWord .c7 .byte .mov ar m :: m.words
  | .subbC7 ar m => memWord .c7 .byte .sub ar m :: m.words
  | .addbC7 ar m => memWord .c7 .byte .add ar m :: m.words
  | .andbC7 ar m => memWord .c7 .byte .and ar m :: m.words
  | .iorbC7 ar m => memWord .c7 .byte .ior ar m :: m.words
  | .eorbC7 ar m => memWord .c7 .byte .eor ar m :: m.words
  | .cmpbC7 ar m => memWord .c7 .byte .cmp ar m :: m.words
  | .tstbC7 ar m => memWord .c7 .byte .tst ar m :: m.words
  | .nopr ignored => [displacementWord 8#4 0#4 ignored]
  | .beqf d => [displacementWord 8#4 (Condition.code .eq) d]
  | .bgtf d => [displacementWord 8#4 (Condition.code .gt) d]
  | .bovf d => [displacementWord 8#4 (Condition.code .ov) d]
  | .bcyf d => [displacementWord 8#4 (Condition.code .cy) d]
  | .bf1f d => [displacementWord 8#4 (Condition.code .f1) d]
  | .bf2f d => [displacementWord 8#4 (Condition.code .f2) d]
  | .bf3f d => [displacementWord 8#4 (Condition.code .f3) d]
  | .blpf d => [displacementWord 8#4 (Condition.code .lp) d]
  | .bodf d => [displacementWord 8#4 (Condition.code .od) d]
  | .bzef d => [displacementWord 8#4 (Condition.code .ze) d]
  | .bngf d => [displacementWord 8#4 (Condition.code .ng) d]
  | .bltf d => [displacementWord 8#4 (Condition.code .lt) d]
  | .brun d => [displacementWord 9#4 0#4 d]
  | .beqt d => [displacementWord 9#4 (Condition.code .eq) d]
  | .bgtt d => [displacementWord 9#4 (Condition.code .gt) d]
  | .bovt d => [displacementWord 9#4 (Condition.code .ov) d]
  | .bcyt d => [displacementWord 9#4 (Condition.code .cy) d]
  | .bf1t d => [displacementWord 9#4 (Condition.code .f1) d]
  | .bf2t d => [displacementWord 9#4 (Condition.code .f2) d]
  | .bf3t d => [displacementWord 9#4 (Condition.code .f3) d]
  | .blpt d => [displacementWord 9#4 (Condition.code .lp) d]
  | .bodt d => [displacementWord 9#4 (Condition.code .od) d]
  | .bzet d => [displacementWord 9#4 (Condition.code .ze) d]
  | .bngt d => [displacementWord 9#4 (Condition.code .ng) d]
  | .bltt d => [displacementWord 9#4 (Condition.code .lt) d]
  | .slaoK ar k => [constantWord 10#4 0#1 (ShiftOp.code .lao) 1#1 ar k]
  | .slaoX ar xr => [assemble 10#4 0#1 (ShiftOp.code .lao) 0#1 ar 0#1 xr]
  | .slllK ar k => [constantWord 10#4 0#1 (ShiftOp.code .lll) 1#1 ar k]
  | .slllX ar xr => [assemble 10#4 0#1 (ShiftOp.code .lll) 0#1 ar 0#1 xr]
  | .slloK ar k => [constantWord 10#4 0#1 (ShiftOp.code .llo) 1#1 ar k]
  | .slloX ar xr => [assemble 10#4 0#1 (ShiftOp.code .llo) 0#1 ar 0#1 xr]
  | .sllcK ar k => [constantWord 10#4 0#1 (ShiftOp.code .llc) 1#1 ar k]
  | .sllcX ar xr => [assemble 10#4 0#1 (ShiftOp.code .llc) 0#1 ar 0#1 xr]
  | .sraoK ar k => [constantWord 10#4 0#1 (ShiftOp.code .rao) 1#1 ar k]
  | .sraoX ar xr => [assemble 10#4 0#1 (ShiftOp.code .rao) 0#1 ar 0#1 xr]
  | .srllK ar k => [constantWord 10#4 0#1 (ShiftOp.code .rll) 1#1 ar k]
  | .srllX ar xr => [assemble 10#4 0#1 (ShiftOp.code .rll) 0#1 ar 0#1 xr]
  | .srloK ar k => [constantWord 10#4 0#1 (ShiftOp.code .rlo) 1#1 ar k]
  | .srloX ar xr => [assemble 10#4 0#1 (ShiftOp.code .rlo) 0#1 ar 0#1 xr]
  | .srlcK ar k => [constantWord 10#4 0#1 (ShiftOp.code .rlc) 1#1 ar k]
  | .srlcX ar xr => [assemble 10#4 0#1 (ShiftOp.code .rlc) 0#1 ar 0#1 xr]
  | .slan ar xr => [assemble 10#4 0#1 (NormOp.code .lan) 0#1 ar 1#1 xr]
  | .slln ar xr => [assemble 10#4 0#1 (NormOp.code .lln) 0#1 ar 1#1 xr]
  | .sran ar xr => [assemble 10#4 0#1 (NormOp.code .ran) 0#1 ar 1#1 xr]
  | .srln ar xr => [assemble 10#4 0#1 (NormOp.code .rln) 0#1 ar 1#1 xr]
  | .dlan ar xr => [assemble 10#4 1#1 (NormOp.code .lan) 0#1 ar 1#1 xr]
  | .dlln ar xr => [assemble 10#4 1#1 (NormOp.code .lln) 0#1 ar 1#1 xr]
  | .dran ar xr => [assemble 10#4 1#1 (NormOp.code .ran) 0#1 ar 1#1 xr]
  | .drln ar xr => [assemble 10#4 1#1 (NormOp.code .rln) 0#1 ar 1#1 xr]
  | .dlaoK pair k => [dshiftWordK (ShiftOp.code .lao) pair k]
  | .dlaoX ar xr => [assemble 10#4 1#1 (ShiftOp.code .lao) 0#1 ar 0#1 xr]
  | .dlllK pair k => [dshiftWordK (ShiftOp.code .lll) pair k]
  | .dlllX ar xr => [assemble 10#4 1#1 (ShiftOp.code .lll) 0#1 ar 0#1 xr]
  | .dlloK pair k => [dshiftWordK (ShiftOp.code .llo) pair k]
  | .dlloX ar xr => [assemble 10#4 1#1 (ShiftOp.code .llo) 0#1 ar 0#1 xr]
  | .dllcK pair k => [dshiftWordK (ShiftOp.code .llc) pair k]
  | .dllcX ar xr => [assemble 10#4 1#1 (ShiftOp.code .llc) 0#1 ar 0#1 xr]
  | .draoK pair k => [dshiftWordK (ShiftOp.code .rao) pair k]
  | .draoX ar xr => [assemble 10#4 1#1 (ShiftOp.code .rao) 0#1 ar 0#1 xr]
  | .drllK pair k => [dshiftWordK (ShiftOp.code .rll) pair k]
  | .drllX ar xr => [assemble 10#4 1#1 (ShiftOp.code .rll) 0#1 ar 0#1 xr]
  | .drloK pair k => [dshiftWordK (ShiftOp.code .rlo) pair k]
  | .drloX ar xr => [assemble 10#4 1#1 (ShiftOp.code .rlo) 0#1 ar 0#1 xr]
  | .drlcK pair k => [dshiftWordK (ShiftOp.code .rlc) pair k]
  | .drlcX ar xr => [assemble 10#4 1#1 (ShiftOp.code .rlc) 0#1 ar 0#1 xr]
  | .dsta ar m => fixedWord 0#3 ar m :: m.words
  | .dsub ar m => fixedWord 1#3 ar m :: m.words
  | .dadd ar m => fixedWord 2#3 ar m :: m.words
  | .mlta pair m => fixedWord 3#3 (pair ++ 0#1) m :: m.words
  | .mult pair m => fixedWord 3#3 (pair ++ 1#1) m :: m.words
  | .divd ar m => fixedWord 4#3 ar m :: m.words
  | .dlod ar m => fixedWord 5#3 ar m :: m.words
  | .zadd r1 r2 l1 l2 x1 x2 => [decimalWord 2#4 r1 r2, decimalWord2 l1 l2 x1 x2]
  | .addd r1 r2 l1 l2 x1 x2 => [decimalWord 3#4 r1 r2, decimalWord2 l1 l2 x1 x2]
  | .subd r1 r2 l1 l2 x1 x2 => [decimalWord 4#4 r1 r2, decimalWord2 l1 l2 x1 x2]
  | .cmpd r1 r2 l1 l2 x1 x2 => [decimalWord 5#4 r1 r2, decimalWord2 l1 l2 x1 x2]
  | .movr r1 r2 l1 l2 x1 x2 => [decimalWord 9#4 r1 r2, decimalWord2 l1 l2 x1 x2]
  | .movl r1 r2 l1 l2 x1 x2 => [decimalWord 11#4 r1 r2, decimalWord2 l1 l2 x1 x2]
  | .comp r1 r2 l1 l2 x1 x2 => [decimalWord 12#4 r1 r2, decimalWord2 l1 l2 x1 x2]
  | .sftr r1 l1 sh x1 x2 => [decimalWord 8#4 r1 0#3, decimalWord2 l1 sh x1 x2]
  | .sftl r1 l1 sh x1 x2 => [decimalWord 10#4 r1 0#3, decimalWord2 l1 sh x1 x2]
  | .skey _ => []
  | .jkey _ _ => []
  | .lcpu _ => []
  | .lkey _ => []

end Sys2Proof
end

