-- ==== Sys2Proof/Machine/State.lean ====
section
/-! DEFINITION. The state of the machine: the architectural state of 10_state.md, the memory of 20_memory.md, what the
outside of the processor supplies, and the parameters. Only data; every operation stands in Ops.lean. -/

namespace Sys2Proof.Machine

/-- The run state (R34). -/
inductive RunState where
  | running
  | halted
  | waiting
  deriving DecidableEq, Repr

/-- The pending requests of system interrupts 1 to 4 (R35, R520, R524): each with the module address that the entry
stores. -/
structure Pending where
  level1 : Option Word
  level2 : Option Word
  level3 : Option Word
  level4 : Option Word
  deriving DecidableEq, Repr

/-- One access to a system register that answers (R70, R80). -/
inductive DeviceAccess where
  | read (addr value : Word)
  | write (addr value : Word)
  deriving DecidableEq, Repr

/-- Memory: (address, byte) pairs, addresses strictly rising, no byte equal to what an unlisted address reads as
(`Memory.wf`). -/
abbrev Memory := List Host.Cell

/-- The machine. -/
structure State where
  /-- General registers 0 to 7; register 0 is the program counter (R20, R24). -/
  regs : Vector Word 8
  /-- The status indicator register (R27). -/
  status : Word
  /-- The key register (R33). -/
  key : BitVec 2
  /-- The run state (R34). -/
  run : RunState
  /-- Pending system-interrupt requests (R35). -/
  pending : Pending
  /-- The RUN event of the control panel or another processor (R270), an input (log 19). -/
  runRequest : Bool
  /-- Program memory (R60, R69). -/
  mem : Memory
  /-- The instruction register of Table 2, without a function in the spec (R36, log 34). -/
  instrRegister : Word
  /-- The control flip-flops of Table 2, without a function in the spec (R36, log 34). -/
  controlFlipFlops : Word
  /-- The words that system registers will return, in the order of the reads (R70), an input (log 15). -/
  deviceIn : List Word
  /-- The accesses to system registers so far, oldest first (R80), the model's record (log 15). -/
  deviceLog : List DeviceAccess
  /-- How many free values have been used (log 32), the model's own field. -/
  freeCount : Nat
  /-- The parameters of the installation (R6, R40, log 3); no step changes them. -/
  par : Params
  deriving DecidableEq, Repr

/-- Why the machine stops with a fault. -/
inductive Fault where
  /-- Raised by an entry sequence whose own block or vector lies outside program memory: R509 does not describe it and
  its model refuses such a configuration. Safe: no claim about the state after it can be proved (log 21). -/
  | entryBlockAbsent (level : Nat)
  deriving DecidableEq, Repr

/-- Why the model has no next state. Each is safe: nothing can be proved of what the hardware does there. -/
inductive Refusal where
  /-- Raised by `exec` for an instruction without a meaning yet. -/
  | notModelled (mnemonic : String)
  /-- Raised by the fetch, and by an instruction the configured model lacks, for a word of R114 or R116, unless the
  installation makes such words trap (R115, log 6). -/
  | undefinedWord (iw : Word)
  /-- Raised by the fetch for an odd program counter (R26, log 18). -/
  | oddProgramCounter
  /-- Raised by a byte access, or a word access at an odd address, to F000h..FFFFh (R71, log 16). -/
  | systemRegisterByteOrOdd (addr : Word)
  /-- Raised by an access to the processor's own register block (R23, R538, log 16). -/
  | ownRegisterBlock (addr : Word)
  /-- Raised by a decimal instruction with R1 or R2 zero: "R1 and R2 cannot be zero" (R331, log 22). -/
  | decimalRegisterZero
  /-- Raised by DSTA, DLOD, DADD and DSUB with AR 3, 5 or 7 (R460, log 29). -/
  | pairDesignator (ar : RegNo)
  deriving DecidableEq, Repr

/-- No request is pending. -/
def Pending.none : Pending := { level1 := .none, level2 := .none, level3 := .none, level4 := .none }

/-- The parameters the reset state carries (log 3): the SUE 1112B with 60k bytes of memory, processor number 0. -/
def resetParams : Params :=
  { model := .m1112B
    cpu := 0#2
    memTop := 0xF000#16
    devices := []
    pcRead := .next
    trapStatus := .identity
    undefinedWord := .refuse
    encodings := { skey := .none, jkey := .none, lcpu := .none, lkey := .none } }

/-- The machine right after reset. The spec gives the run state, the Active bit and the absence of requests (R39, R561);
the other values are the model's (log 1, log 2, log 3). -/
def State.reset : State :=
  { regs := #v[0x0200#16, 0#16, 0#16, 0#16, 0#16, 0#16, 0#16, 0#16]
    status := 0x0800#16
    key := 0#2
    run := .running
    pending := Pending.none
    runRequest := false
    mem := []
    instrRegister := 0#16
    controlFlipFlops := 0#16
    deviceIn := []
    deviceLog := []
    freeCount := 0
    par := resetParams }

end Sys2Proof.Machine
end

