-- ==== Sys2Proof/Machine/Flags.lean ====
section
/-! DEFINITION. The status indicators: their places, reading and writing one, and the computations that set them from a
result (R27 to R32, R171, R400). -/

namespace Sys2Proof.Machine

/-- The sixteen indicators (R27). -/
inductive Flag where
  | eq | gt | ov | cy | f1 | f2 | f3 | lp | od | ze | ng | a | m1 | m2 | m3 | m4
  deriving DecidableEq, Repr

/-- The bit of an indicator in the status register (R27). -/
def Flag.bit : Flag → Nat
  | .eq => 0
  | .gt => 1
  | .ov => 2
  | .cy => 3
  | .f1 => 4
  | .f2 => 5
  | .f3 => 6
  | .lp => 7
  | .od => 8
  | .ze => 9
  | .ng => 10
  | .a => 11
  | .m1 => 12
  | .m2 => 13
  | .m3 => 14
  | .m4 => 15

/-- A word with its bit `i` made `b`. -/
def setBit (i : Nat) (b : Bool) (w : Word) : Word :=
  (w &&& ~~~(1#16 <<< i)) ||| (if b then 1#16 <<< i else 0#16)

/-- A status word with one indicator written. -/
def setFlag (f : Flag) (b : Bool) (st : Word) : Word := setBit f.bit b st

/-- One indicator of a status word. -/
def getFlag (f : Flag) (st : Word) : Bool := st.getLsbD f.bit

/-- One indicator of the machine. -/
def State.flag (s : State) (f : Flag) : Bool := getFlag f s.status

/-- `setNZO` of R9: NG, ZE and OD from a 16-bit result. -/
def setNZO (v : Word) (st : Word) : Word :=
  setFlag .od (v.getLsbD 0) (setFlag .ze (v == 0#16) (setFlag .ng (v.getLsbD 15) st))

/-- `flagsD` of R400: NG, ZE and OD from a pair of words. -/
def setNZOpair (hi lo : Word) (st : Word) : Word :=
  setFlag .od (lo.getLsbD 0) (setFlag .ze (hi == 0#16 && lo == 0#16) (setFlag .ng (hi.getLsbD 15) st))

/-- The sum of `add16` (R171). -/
structure Sum where
  /-- bits 15..0 -/
  r : Word
  /-- the carry out of bit 15 -/
  c : Bool
  /-- the carry out of bit 15 differs from the carry into it -/
  v : Bool
  deriving DecidableEq, Repr

/-- `add16` (R171): the 17-bit sum of two words and a carry, with its carry and its overflow. -/
def add16 (a b : Word) (cin : Bool) : Sum :=
  let sum := a.toNat + b.toNat + cin.toNat
  let low := a.toNat % 32768 + b.toNat % 32768 + cin.toNat
  { r := BitVec.ofNat 16 sum, c := decide (65536 ≤ sum), v := decide (65536 ≤ sum) != decide (32768 ≤ low) }

/-- What SUB and ADD do to the status: CY written, OV set or kept, NG, ZE and OD from the result (R29, R171). -/
def sumStatus (x : Sum) (st : Word) : Word :=
  setNZO x.r (setFlag .cy x.c (setFlag .ov (getFlag .ov st || x.v) st))

/-- What CMP does to the status: GT and EQ from the unsigned comparison of source and target (R185). -/
def compareStatus (gt eq : Bool) (st : Word) : Word := setFlag .eq eq (setFlag .gt gt st)

/-- The truth of a branch condition; LT is GT = 0 and EQ = 0 (R222). -/
def conditionHolds (c : Condition) (st : Word) : Bool :=
  match c with
  | .eq => getFlag .eq st
  | .gt => getFlag .gt st
  | .ov => getFlag .ov st
  | .cy => getFlag .cy st
  | .f1 => getFlag .f1 st
  | .f2 => getFlag .f2 st
  | .f3 => getFlag .f3 st
  | .lp => getFlag .lp st
  | .od => getFlag .od st
  | .ze => getFlag .ze st
  | .ng => getFlag .ng st
  | .lt => !getFlag .gt st && !getFlag .eq st

/-- The result of a general operation on source `s` and target `t` (R171). For CMP, which has none, the target. -/
def operationResult (op : Operation) (s t : Word) : Word :=
  match op with
  | .mov => s
  | .sub => (add16 t (~~~s) true).r
  | .add => (add16 t s false).r
  | .and => s &&& t
  | .ior => s ||| t
  | .eor => s ^^^ t
  | .cmp => t
  | .tst => s &&& t

/-- The status a general operation leaves (R171, R185, R187). -/
def operationStatus (op : Operation) (s t st : Word) : Word :=
  match op with
  | .mov => setNZO s st
  | .sub => sumStatus (add16 t (~~~s) true) st
  | .add => sumStatus (add16 t s false) st
  | .and => setNZO (s &&& t) st
  | .ior => setNZO (s ||| t) st
  | .eor => setNZO (s ^^^ t) st
  | .cmp => compareStatus (decide (t.toNat < s.toNat)) (s == t) st
  | .tst => setNZO (s &&& t) st

/-- Does the operation write its target (R171)? -/
def operationWrites (op : Operation) : Bool :=
  match op with
  | .cmp => false
  | .tst => false
  | .mov => true
  | .sub => true
  | .add => true
  | .and => true
  | .ior => true
  | .eor => true

/-- Does the operation read its target (R170)? All but MOV do. -/
def operationReadsTarget (op : Operation) : Bool :=
  match op with
  | .mov => false
  | .sub => true
  | .add => true
  | .and => true
  | .ior => true
  | .eor => true
  | .cmp => true
  | .tst => true

end Sys2Proof.Machine
end

