-- ==== Sys2Proof/Machine/Ops.lean ====
section
/-! DEFINITION. The named operations over registers, memory, system registers and free values; taking a self-interrupt
or a system interrupt, and the return from one (60_exceptions.md). -/

namespace Sys2Proof.Machine

/-! ## Registers -/

/-- General register `r`; register 0 is the program counter (R20). -/
def State.reg (s : State) (r : RegNo) : Word := s.regs[r.toNat]'r.isLt

/-- Writes general register `r`. -/
def State.setReg (s : State) (r : RegNo) (v : Word) : State := { s with regs := s.regs.set r.toNat v r.isLt }

/-- The program counter, which holds P during an instruction (R24). -/
def State.pc (s : State) : Word := s.reg 0#3

/-- A transfer of control: a write of register 0 (R25). -/
def State.setPc (s : State) (v : Word) : State := s.setReg 0#3 v

/-- The end of an instruction of `len` bytes that writes register 0 by no rule of its own (R25). -/
def State.advance (len : Word) (s : State) : State := s.setPc (s.pc + len)

/-- A read of a register as a data operand by an instruction of `len` bytes: register 0 reads as PCREAD (R24, log 4). -/
def State.data (len : Word) (r : RegNo) (s : State) : Word :=
  if r = 0#3 then
    match s.par.pcRead with
    | .current => s.pc
    | .next => s.pc + len
  else s.reg r

/-- The result of an instruction of `len` bytes written to a register, and the end of the instruction: a result written
to register 0 is a jump (R25, R160). -/
def State.put (len : Word) (r : RegNo) (v : Word) (s : State) : State :=
  if r = 0#3 then s.setPc v else (s.setReg r v).advance len

/-! ## Free values (log 32) -/

/-- The free value number `k` of those not yet used. -/
def State.freeAt (s : State) (k : Nat) : Word := Config.freeWord (s.freeCount + k)

/-- One free bit. -/
def State.freeBit (s : State) (k : Nat) : Bool := (s.freeAt k).getLsbD 0

/-- `n` free values are used up. -/
def State.spend (n : Nat) (s : State) : State := { s with freeCount := s.freeCount + n }

/-! ## Memory -/

/-- What a byte of memory that nothing has written reads as (log 2). -/
def unlistedByte : Byte := 0#8

/-- The byte at an address. -/
def Memory.find : Memory → Nat → Byte
  | [], _ => unlistedByte
  | (k, b) :: rest, a => if k = a then b else Memory.find rest a

/-- The memory without an entry for `a`. -/
def Memory.erase (m : Memory) (a : Nat) : Memory := m.filter fun c => c.1 != a

/-- An entry put at its place in the rising order. -/
def Memory.insert : Memory → Nat → Byte → Memory
  | [], a, b => [(a, b)]
  | (k, c) :: rest, a, b => if a < k then (a, b) :: (k, c) :: rest else (k, c) :: Memory.insert rest a b

/-- The memory after a byte is written; a byte that reads as unlisted has no entry. -/
def Memory.write (m : Memory) (a : Nat) (b : Byte) : Memory :=
  if b = unlistedByte then m.erase a else (m.erase a).insert a b

/-- The canonical form: addresses strictly rising, none out of the address space, no entry equal to what an unlisted
address reads as. -/
def Memory.wf (m : Memory) : Bool :=
  decide (m.Pairwise fun x y => x.1 < y.1) && m.all fun c => decide (c.1 < 65536) && c.2 != unlistedByte

/-- A word access drops bit 0 of its address (R64). -/
def evenAddr (a : Word) : Word := a &&& 0xFFFE#16

/-- The address of the right byte of the word at `a` (R62). -/
def oddAddr (a : Word) : Word := a ||| 1#16

/-- `Mem[a]` (R62). -/
def Memory.byte (m : Memory) (a : Word) : Byte := m.find a.toNat

/-- `Mem[a] <- b` (R62). -/
def Memory.setByte (m : Memory) (a : Word) (b : Byte) : Memory := m.write a.toNat b

/-- The word at `a`, the left byte at the even address (R62, R64). -/
def Memory.word (m : Memory) (a : Word) : Word := wordOfBytes (m.byte (evenAddr a)) (m.byte (oddAddr a))

/-- The word at `a` replaced (R62, R64). -/
def Memory.setWord (m : Memory) (a : Word) (v : Word) : Memory :=
  (m.setByte (evenAddr a) (leftByte v)).setByte (oddAddr a) (rightByte v)

/-- Is the byte address in program memory (R69)? -/
def State.inMemory (s : State) (a : Word) : Bool := decide (a.toNat < s.par.memTop.toNat)

/-- The first address of the processor's own register block (R23, R72). -/
def ownBlock (cpu : BitVec 2) : Word := 0xFF00#16 + (cpu.setWidth 16 <<< 5)

/-- Is the even address a register of the processor's own block: registers 0 to 7, status, instruction register, control
flip-flops (R23, R538)? -/
def isOwnRegister (cpu : BitVec 2) (a : Word) : Bool :=
  let off := (a - ownBlock cpu).toNat
  decide (off ≤ 0x12) || off == 0x1E

/-- Where an access goes. -/
inductive Place where
  /-- program memory (R69) -/
  | memory
  /-- a system register that answers (R70) -/
  | device
  /-- no module answers: Abort with this address (R504) -/
  | absent (addr : Word)
  /-- an access the model refuses (R23, R71) -/
  | refused (r : Refusal)
  deriving DecidableEq, Repr

/-- The place of a word access at the developed address `a` (R64, R69, R70, R71, R23, R504). -/
def State.wordPlace (s : State) (a : Word) : Place :=
  if s.inMemory (evenAddr a) then .memory
  else if (evenAddr a).toNat < 0xF000 then .absent (evenAddr a)
  else if a.getLsbD 0 then .refused (.systemRegisterByteOrOdd a)
  else if isOwnRegister s.par.cpu a then .refused (.ownRegisterBlock a)
  else if s.par.devices.contains a then .device
  else .absent a

/-- The place of a byte access (R69, R71, R504). -/
def State.bytePlace (s : State) (a : Word) : Place :=
  if s.inMemory a then .memory
  else if a.toNat < 0xF000 then .absent a
  else .refused (.systemRegisterByteOrOdd a)

/-- A system register is read: the outside supplies the word, or it is a free value (R70, log 15). -/
def State.deviceValue (s : State) : Word :=
  match s.deviceIn with
  | v :: _ => v
  | [] => s.freeAt 0

/-- The state after the system register at `a` is read (R70, R80, log 15). -/
def State.afterDeviceRead (s : State) (a : Word) : State :=
  match s.deviceIn with
  | v :: rest => { s with deviceIn := rest, deviceLog := s.deviceLog ++ [.read a v] }
  | [] => { s.spend 1 with deviceLog := s.deviceLog ++ [.read a s.deviceValue] }

/-- The state after the system register at `a` is written (R70, R80). -/
def State.afterDeviceWrite (s : State) (a v : Word) : State :=
  { s with deviceLog := s.deviceLog ++ [.write a v] }

/-! ## Results of a part of an instruction -/

/-- What a part of an instruction can do: go on with a value, raise Unimplemented, raise Abort (R9), or be refused. The
state is the one the steps so far have produced (R515). -/
inductive Res (α : Type) where
  | ok (a : α) (s : State)
  | unimplemented (s : State)
  | abort (addr : Word) (s : State)
  | refuse (r : Refusal)
  deriving DecidableEq, Repr

/-- One part after another. -/
def Res.bind {α β : Type} (r : Res α) (f : α → State → Res β) : Res β :=
  match r with
  | .ok a s => f a s
  | .unimplemented s => .unimplemented s
  | .abort addr s => .abort addr s
  | .refuse r => .refuse r

/-- `MemRead(a, 2)` (R9, R62, R69, R70). -/
def readWord (a : Word) (s : State) : Res Word :=
  match s.wordPlace a with
  | .memory => .ok (s.mem.word a) s
  | .device => .ok s.deviceValue (s.afterDeviceRead a)
  | .absent addr => .abort addr s
  | .refused r => .refuse r

/-- `MemWrite(a, 2, v)` (R9, R62, R69, R70). -/
def writeWord (a v : Word) (s : State) : Res Unit :=
  match s.wordPlace a with
  | .memory => .ok () { s with mem := s.mem.setWord a v }
  | .device => .ok () (s.afterDeviceWrite a v)
  | .absent addr => .abort addr s
  | .refused r => .refuse r

/-- `MemRead(a, 1)`, zero-extended (R9, R65). -/
def readByte (a : Word) (s : State) : Res Word :=
  match s.bytePlace a with
  | .memory => .ok ((s.mem.byte a).setWidth 16) s
  | .device => .refuse (.systemRegisterByteOrOdd a)
  | .absent addr => .abort addr s
  | .refused r => .refuse r

/-- `MemWrite(a, 1, v)`: the right byte of `v` (R9, R65). -/
def writeByte (a v : Word) (s : State) : Res Unit :=
  match s.bytePlace a with
  | .memory => .ok () { s with mem := s.mem.setByte a (rightByte v) }
  | .device => .refuse (.systemRegisterByteOrOdd a)
  | .absent addr => .abort addr s
  | .refused r => .refuse r

/-- A read of the width of the operand (R62, R65). -/
def readOperand (size : Size) (a : Word) (s : State) : Res Word :=
  match size with
  | .word => readWord a s
  | .byte => readByte a s

/-- A write of the width of the operand (R62, R65). -/
def writeOperand (size : Size) (a v : Word) (s : State) : Res Unit :=
  match size with
  | .word => writeWord a v s
  | .byte => writeByte a v s

/-! ## Taking an interrupt and returning from one -/

/-- A step's outcome. -/
abbrev Outcome := Host.Outcome State Fault Refusal

/-- The block of system interrupt `j`, 1 to 4 (R506). -/
def systemBlock (j : Nat) : Nat := 8 * (j - 1)

/-- The block of self-interrupt 5 of a processor (R506). -/
def unimplementedBlock (cpu : BitVec 2) : Nat := 0x20 + 0x10 * cpu.toNat

/-- The block of self-interrupt 6 of a processor (R506). -/
def abortBlock (cpu : BitVec 2) : Nat := 0x28 + 0x10 * cpu.toNat

/-- `TRAP_STATUS(level, ST)` (R514); Active stays 1 (R31, log 5). -/
def State.trapStatus (s : State) (level : Nat) : Word :=
  match s.par.trapStatus with
  | .identity => s.status
  | .implementation => setFlag .a true (Config.trapStatus level s.status)

/-- The state after an entry sequence with the block at `b` (R507, R509, R520): `w0`, the status and the program counter
are stored, control goes to the vector, TRAP_STATUS is applied, the processor runs. -/
def State.entered (level : Nat) (b w0 : Word) (s : State) : State :=
  let m := ((s.mem.setWord b w0).setWord (b + 2#16) s.status).setWord (b + 4#16) s.pc
  { s.setPc (m.word (b + 6#16)) with mem := m, status := s.trapStatus level, run := .running }

/-- Taking an interrupt of a level, the one operation all six share (R507, R509, R520). The configuration whose block is
not in memory has no described entry (R509, log 21). -/
def takeEntry (level block : Nat) (w0 : Word) (s : State) : Outcome :=
  if block + 8 ≤ s.par.memTop.toNat then .next (s.entered level (BitVec.ofNat 16 block) w0)
  else .fault (.entryBlockAbsent level)

/-- `raise Unimplemented` (R507): word 0 of the block receives the first word of the instruction. -/
def takeUnimplemented (iw : Word) (s : State) : Outcome := takeEntry 5 (unimplementedBlock s.par.cpu) iw s

/-- `raise Abort(addr)` (R509): word 0 of the block receives the address of the failed access. -/
def takeAbort (addr : Word) (s : State) : Outcome := takeEntry 6 (abortBlock s.par.cpu) addr s

/-- The pending request of a level (R520). -/
def Pending.level (p : Pending) (j : Nat) : Option Word :=
  match j with
  | 1 => p.level1
  | 2 => p.level2
  | 3 => p.level3
  | 4 => p.level4
  | _ => .none

/-- The requests without that of a level, which is consumed (R524). -/
def Pending.consume (p : Pending) (j : Nat) : Pending :=
  match j with
  | 1 => { p with level1 := .none }
  | 2 => { p with level2 := .none }
  | 3 => { p with level3 := .none }
  | 4 => { p with level4 := .none }
  | _ => p

/-- Does the status word let system interrupt `j` through: mask bit 11 + j is 0 (R32, R520)? -/
def unmasked (st : Word) (j : Nat) : Bool := !st.getLsbD (11 + j)

/-- The highest level with a pending request that is not masked, with its module address (R521). -/
def State.request (s : State) : Option (Nat × Word) :=
  [4, 3, 2, 1].findSome? fun j => if unmasked s.status j then (s.pending.level j).map fun w => (j, w) else .none

/-- A system interrupt is taken: its block receives the module address and the request is consumed (R520, R524). -/
def takeSystem (j : Nat) (modAddr : Word) (s : State) : Outcome :=
  takeEntry j (systemBlock j) modAddr { s with pending := s.pending.consume j }

/-- A status word is loaded whole (R286, R287). Where its Active bit is 0 the spec leaves open whether the processor
stops: a free bit decides (R31, log 14). -/
def State.loadStatus (w : Word) (s : State) : State :=
  if w.getLsbD 11 then { s with status := w }
  else
    let stops := s.freeBit 0
    { s.spend 1 with status := setFlag .a (!stops) w, run := if stops then .halted else s.run }

/-- RETN, the return from an interrupt: the words at `m` and `m + 2` become the status and the program counter (R286). -/
def returnFrom (m : Word) (s : State) : Res Unit :=
  (readWord m s).bind fun st s1 =>
    (readWord (m + 2#16) s1).bind fun t s2 => .ok () ((s2.loadStatus st).setPc t)

/-! ## The end of an instruction -/

/-- The outcome of a whole instruction whose first word is `iw`: a raise is taken as the self-interrupt of its level. -/
def Res.finish (iw : Word) (r : Res Unit) : Outcome :=
  match r with
  | .ok _ s => .next s
  | .unimplemented s => takeUnimplemented iw s
  | .abort addr s => takeAbort addr s
  | .refuse r => .refused r

/-- What a word of R114 or R116 does: the installation's parameter decides (R115, log 6). -/
def undefinedWord (iw : Word) (s : State) : Outcome :=
  match s.par.undefinedWord with
  | .refuse => .refused (.undefinedWord iw)
  | .trap => takeUnimplemented iw s

end Sys2Proof.Machine
end

