-- ==== Sys2Proof/Machine/Operands.lean ====
section
/-! DEFINITION. Operands: the development of an effective address (R152 to R158), the value of an accumulator beside an
index update (R159), register operands where a designator names register 0, immediate and literal operands, and the
addresses of the branches and control instructions (R111, R221, R283). -/

namespace Sys2Proof.Machine

/-! ## The address of a memory operand -/

/-- The index update of a class: the second column of R151, `auto` of R153. -/
inductive Index where
  | none
  | decrement
  | increment
  deriving DecidableEq, Repr

/-- The index update of a class (R151). -/
def classIndex (cls : MemClass) : Index :=
  match cls with
  | .c1 => .decrement
  | .c2 => .increment
  | .c3 => .none
  | .c5 => .decrement
  | .c6 => .increment
  | .c7 => .none

/-- `e`: ONE for a byte operand, TWO for a word operand (R153, R154). -/
def indexStep (size : Size) : Word :=
  match size with
  | .word => 2#16
  | .byte => 1#16

/-- The length in bytes of an instruction with this operand part (R104). -/
def operandLength (m : MemOperand) : Word := if m.ext.isSome then 4#16 else 2#16

/-- "No address is specified": E = 0 and XR = 0 (R157). -/
def noAddress (m : MemOperand) : Bool := m.ext.isNone && m.xr == 0#3

/-- The base address: the extension word, or ZERO (R153). -/
def baseAddress (m : MemOperand) : Word := m.ext.getD 0#16

/-- The index of an operand part: XR = 0 means no indexing (R153). -/
def State.indexValue (s : State) (xr : RegNo) : Word := if xr = 0#3 then 0#16 else s.reg xr

/-- The further levels of an indirect address in word mode: while bit 0 is ONE the word it points to is read as an
address, at most `n` more times; a level beyond that traps (R155). Bit 0 of such a word is the flag and is dropped by
R155 wherever the word points; in F000h..FFFFh too the even address is read, which is the model's choice between R155
and the refusal of odd addresses in R71 (log 16). -/
def chase (n : Nat) (a : Word) (s : State) : Res Word :=
  match n with
  | 0 => if a.getLsbD 0 then .unimplemented s else .ok a s
  | k + 1 => if a.getLsbD 0 then (readWord (evenAddr a) s).bind fun w s1 => chase k w s1 else .ok a s

/-- The indirection of R153: none, one level for a byte operand, up to fifteen for a word operand (R155). -/
def indirectAddress (size : Size) (ind : Bool) (a : Word) (s : State) : Res Word :=
  if ind then
    (readWord a s).bind fun w s1 =>
      match size with
      | .byte => .ok w s1
      | .word => chase 14 w s1
  else .ok a s

/-- LP after an index update (R156). -/
def State.withLp (s : State) (b : Bool) : State := { s with status := setFlag .lp b s.status }

/-- `EA(auto, byte, I, E, XR)` (R153). The index update and LP are complete before the operand is accessed (R161,
log 10). With XR = 0 and an index update (R158) the spec says neither what is added to the
base nor what LP receives: both are free values (log 9). -/
def effectiveAddress (index : Index) (size : Size) (m : MemOperand) (s : State) : Res Word :=
  if noAddress m then .unimplemented s
  else
    match index with
    | .none => indirectAddress size m.ind (baseAddress m + s.indexValue m.xr) s
    | .decrement =>
      if m.xr = 0#3 then
        (indirectAddress size m.ind (baseAddress m + s.freeAt 0) (s.spend 2)).bind fun a s1 =>
          .ok a (s1.withLp (s.freeBit 1))
      else
        let s1 := s.setReg m.xr (s.reg m.xr - indexStep size)
        (indirectAddress size m.ind (baseAddress m + s1.reg m.xr) s1).bind fun a s2 =>
          .ok a (s2.withLp (s2.reg m.xr == 0#16))
    | .increment =>
      if m.xr = 0#3 then
        (indirectAddress size m.ind (baseAddress m + s.freeAt 0) (s.spend 2)).bind fun a s1 =>
          .ok a (s1.withLp (s.freeBit 1))
      else
        (indirectAddress size m.ind (baseAddress m + s.reg m.xr) s).bind fun a s1 =>
          let s2 := s1.setReg m.xr (s1.reg m.xr + indexStep size)
          .ok a (s2.withLp (s2.reg m.xr == 0#16))

/-- AR = XR in a class that updates the index (R159). -/
def clash (index : Index) (ar xr : RegNo) : Bool := index != .none && ar == xr

/-- The accumulator as an operand of a memory instruction: `s0` is the state before the instruction, `s` after the
address was developed. Where AR = XR is updated, the spec leaves open which of the two values is used (R159, log 8), and
where both are 0 nothing is said of the value (R158, log 9). -/
def accumulator (index : Index) (len : Word) (ar xr : RegNo) (s0 s : State) : Word :=
  if clash index ar xr then
    (if ar = 0#3 then s.freeAt 0 else if s.freeBit 0 then s0.reg ar else s.reg ar)
  else s0.data len ar

/-- The free value that `accumulator` uses is used up. -/
def State.afterAccumulator (s : State) (index : Index) (ar xr : RegNo) : State :=
  if clash index ar xr then s.spend 1 else s

/-- The end of an instruction that updates the index with XR = 0: the update affects the program counter, and how it
combines with the advance is not said (R25, R158, log 9). -/
def State.closeIndex (s : State) (index : Index) (xr : RegNo) : State :=
  if index != .none && xr == 0#3 then (s.spend 1).setPc (s.freeAt 0) else s

/-! ## Register operands -/

/-- A register that holds a count or a bit number: XR = 0 is not described, the value is free (R241, R371, R420,
log 11). -/
def State.countRegister (s : State) (xr : RegNo) : Word := if xr = 0#3 then s.freeAt 0 else s.reg xr

/-- The free value that `State.countRegister` uses is used up. -/
def State.afterCount (s : State) (xr : RegNo) : State := if xr = 0#3 then s.spend 1 else s

/-- The literal operand: IW2, plus (XR) if XR is not 0 (R193). -/
def literalOperand (lit : Word) (xr : RegNo) (s : State) : Word := lit + s.indexValue xr

/-- The bits a mask form selects: the mask, ANDed with (XR) if XR is not 0 (R371). -/
def maskOperand (mask : Word) (xr : RegNo) (s : State) : Word := if xr = 0#3 then mask else mask &&& s.reg xr

/-- The even register of the pair an AR field names: AR & 6 (R451). -/
def evenRegister (ar : RegNo) : RegNo := ar &&& 6#3

/-- The odd register of that pair (R451). -/
def oddRegister (ar : RegNo) : RegNo := ar ||| 1#3

/-! ## Addresses of branches and control instructions -/

/-- `P + 2 * sext_16(D)` (R111, R221). -/
def State.relative (s : State) (d : BitVec 8) : Word := s.pc + 2#16 * d.signExtend 16

/-- The address M of a control instruction: absolute, or relative to the instruction (R283). -/
def State.controlAddress (s : State) (rel : Bool) (d : BitVec 8) : Word :=
  if rel then s.relative d else 2#16 * d.setWidth 16

end Sys2Proof.Machine
end

