-- ==== Sys2Proof/Machine/KeyFcl.lean ====
section
/-! DEFINITION. Fetch and clear (44_skey_fcl.md) and the key and processor-number instructions (R311, R480 to R484). -/

namespace Sys2Proof.Machine

/-- NG, ZE and OD with the free values number `k` on (R316, R378, R456). -/
def State.freeNZO (k : Nat) (s : State) : State :=
  { s.spend (k + 3) with
    status := setFlag .od (s.freeBit (k + 2)) (setFlag .ze (s.freeBit (k + 1)) (setFlag .ng (s.freeBit k) s.status)) }

/-- The indivisible read and clear of FCL (R314). The instruction is one step, so no other access falls between. -/
def fetchAndClear (size : Size) (a : Word) (s : State) : Res Word :=
  (readOperand size a s).bind fun v s1 => (writeOperand size a 0#16 s1).bind fun _ s2 => .ok v s2

/-- FCLW and FCLB (R314, R316): the B models deliver the old content, the A models clear the register, the 1110 traps;
NG, ZE and OD are free afterwards (log 26). -/
def fcl (size : Size) (ar : RegNo) (m : MemOperand) (s : State) : Outcome :=
  if s.par.model = .m1110 then takeUnimplemented (fclWord size ar m) s
  else
    Res.finish (fclWord size ar m) <|
      (effectiveAddress .none size m s).bind fun a s1 =>
        (fetchAndClear size a s1).bind fun v s2 =>
          .ok () ((s2.freeNZO 0).put (operandLength m) ar (if s.par.model.seriesB then v else 0#16))

/-- FCLW (R320). -/
def execFclw (ar : RegNo) (m : MemOperand) (s : State) : Outcome := fcl .word ar m s

/-- FCLB (R321). -/
def execFclb (ar : RegNo) (m : MemOperand) (s : State) : Outcome := fcl .byte ar m s

/-- The first word of an instruction whose encoding is a parameter; without the parameter no word is known, and the value
is free (R120, log 30). -/
def State.keyWord (s : State) (p : Option KeyPattern) (field : Word) : Word :=
  match p with
  | some q => q.word field
  | none => s.freeAt 0

/-- SKEY (R311): absent from the 1110 basic, where its word is an undefined one (R310). -/
def execSkey (k : BitVec 2) (s : State) : Outcome :=
  if s.par.model = .m1110 then undefinedWord (s.keyWord s.par.encodings.skey (k.setWidth 16)) s
  else .next ({ s with key := k }.advance 2#16)

/-- JKEY (R484): the 1112 only. -/
def execJkey (k : BitVec 2) (target : Word) (s : State) : Outcome :=
  if s.par.model.scientific then .next ({ s with key := k }.setPc target)
  else undefinedWord (s.keyWord s.par.encodings.jkey (k.setWidth 16)) s

/-- A register loaded by LCPU or LKEY; with XR = 0 the program counter's next value is free (R481, R482, log 13). -/
def loadSpecial (xr : RegNo) (v : Word) (s : State) : State :=
  if xr = 0#3 then (s.spend 1).setPc (s.freeAt 0) else s.put 2#16 xr v

/-- LCPU (R481): the processor number to bits 6 and 5. -/
def execLcpu (xr : RegNo) (s : State) : Outcome :=
  if s.par.model.scientific then .next (loadSpecial xr (s.par.cpu.setWidth 16 <<< 5) s)
  else undefinedWord (s.keyWord s.par.encodings.lcpu (xr.setWidth 16)) s

/-- LKEY (R482). -/
def execLkey (xr : RegNo) (s : State) : Outcome :=
  if s.par.model.scientific then .next (loadSpecial xr (s.key.setWidth 16) s)
  else undefinedWord (s.keyWord s.par.encodings.lkey (xr.setWidth 16)) s

end Sys2Proof.Machine
end

