-- ==== Sys2Proof/Machine/BitMove.lean ====
section
/-! DEFINITION. Bit manipulation and moves of the 1112 (46_bit_move.md): the shared operations, then one definition for
each instruction. -/

namespace Sys2Proof.Machine

/-- The value a bit operation leaves (R373 to R378). IBIT with no bit selected gives 0, as the formula and the indicators
of R376 have it, though R371 says that the modifying operations leave AR as it was there: the model's choice (log 40). -/
def bitResult (op : BitOp) (a m : Word) : Word :=
  match op with
  | .rbit => a &&& ~~~m
  | .sbit => a ||| m
  | .cbit => a ^^^ m
  | .ibit => a &&& m
  | .tsbt => a <<< 1
  | .tbit => a

/-- The common operation on the bits `m` (R372): CY tells whether any was not zero; TBIT writes no register and leaves NG,
ZE and OD free (R378, log 27). -/
def bitOperation (op : BitOp) (len : Word) (ar : RegNo) (m : Word) (s : State) : State :=
  let a := s.data len ar
  let s1 := { s with status := setFlag .cy (a &&& m != 0#16) s.status }
  if op = .tbit then (s1.freeNZO 0).advance len
  else { s1 with status := setNZO (bitResult op a m) s1.status }.put len ar (bitResult op a m)

/-- The word of bit number `n` (R371). -/
def bitMask (n : BitVec 4) : Word := 1#16 <<< n.toNat

/-- The form that names the bit by K (R371). On the other models the word is undefined (R116). -/
def bitByConstant (op : BitOp) (ar : RegNo) (k : BitVec 4) (s : State) : Outcome :=
  if s.par.model.scientific then .next (bitOperation op 2#16 ar (bitMask k) s)
  else undefinedWord (constantWord 4#4 0#1 op.code 1#1 ar k) s

/-- The form that names the bit by the low four bits of (XR) (R371). -/
def bitByRegister (op : BitOp) (ar xr : RegNo) (s : State) : Outcome :=
  if s.par.model.scientific then
    .next (bitOperation op 2#16 ar (bitMask ((s.countRegister xr).setWidth 4)) (s.afterCount xr))
  else undefinedWord (assemble 4#4 0#1 op.code 0#1 ar 0#1 xr) s

/-- The form that selects bits by a mask (R371). -/
def bitByMask (op : BitOp) (ar xr : RegNo) (mask : Word) (s : State) : Outcome :=
  if s.par.model.scientific then .next (bitOperation op 4#16 ar (maskOperand mask xr s) s)
  else undefinedWord (assemble 4#4 0#1 op.code 0#1 ar 1#1 xr) s

/-- The value a move delivers (R381 to R384). -/
def moveResult (op : MoveOp) (v : Word) : Word :=
  match op with
  | .negt => 0#16 - v
  | .cplm => ~~~v
  | .movp => if v.getLsbD 15 then 0#16 - v else v
  | .movn => if v.getLsbD 15 then v else 0#16 - v

/-- The common operation of the moves (R380). On the other models the word is undefined (R116). -/
def move (op : MoveOp) (ar xr : RegNo) (s : State) : Outcome :=
  if s.par.model.scientific then
    let r := moveResult op (s.data 2#16 xr)
    .next ({ s with status := setNZO r s.status }.put 2#16 ar r)
  else undefinedWord (assemble 4#4 0#1 7#3 op.iBit ar op.jBit xr) s

/-! ## The instructions -/

/-- RBIT, bit number K (R373). -/
def execRbitK (ar : RegNo) (k : BitVec 4) (s : State) : Outcome := bitByConstant .rbit ar k s

/-- RBIT, bit number in (XR) (R373). -/
def execRbitX (ar : RegNo) (xr : RegNo) (s : State) : Outcome := bitByRegister .rbit ar xr s

/-- RBIT, bits of a mask (R373). -/
def execRbitM (ar : RegNo) (xr : RegNo) (mask : Word) (s : State) : Outcome := bitByMask .rbit ar xr mask s

/-- SBIT, bit number K (R374). -/
def execSbitK (ar : RegNo) (k : BitVec 4) (s : State) : Outcome := bitByConstant .sbit ar k s

/-- SBIT, bit number in (XR) (R374). -/
def execSbitX (ar : RegNo) (xr : RegNo) (s : State) : Outcome := bitByRegister .sbit ar xr s

/-- SBIT, bits of a mask (R374). -/
def execSbitM (ar : RegNo) (xr : RegNo) (mask : Word) (s : State) : Outcome := bitByMask .sbit ar xr mask s

/-- CBIT, bit number K (R375). -/
def execCbitK (ar : RegNo) (k : BitVec 4) (s : State) : Outcome := bitByConstant .cbit ar k s

/-- CBIT, bit number in (XR) (R375). -/
def execCbitX (ar : RegNo) (xr : RegNo) (s : State) : Outcome := bitByRegister .cbit ar xr s

/-- CBIT, bits of a mask (R375). -/
def execCbitM (ar : RegNo) (xr : RegNo) (mask : Word) (s : State) : Outcome := bitByMask .cbit ar xr mask s

/-- IBIT, bit number K (R376). -/
def execIbitK (ar : RegNo) (k : BitVec 4) (s : State) : Outcome := bitByConstant .ibit ar k s

/-- IBIT, bit number in (XR) (R376). -/
def execIbitX (ar : RegNo) (xr : RegNo) (s : State) : Outcome := bitByRegister .ibit ar xr s

/-- IBIT, bits of a mask (R376). -/
def execIbitM (ar : RegNo) (xr : RegNo) (mask : Word) (s : State) : Outcome := bitByMask .ibit ar xr mask s

/-- TSBT, bit number K (R377). -/
def execTsbtK (ar : RegNo) (k : BitVec 4) (s : State) : Outcome := bitByConstant .tsbt ar k s

/-- TSBT, bit number in (XR) (R377). -/
def execTsbtX (ar : RegNo) (xr : RegNo) (s : State) : Outcome := bitByRegister .tsbt ar xr s

/-- TSBT, bits of a mask (R377). -/
def execTsbtM (ar : RegNo) (xr : RegNo) (mask : Word) (s : State) : Outcome := bitByMask .tsbt ar xr mask s

/-- TBIT, bit number K (R378). -/
def execTbitK (ar : RegNo) (k : BitVec 4) (s : State) : Outcome := bitByConstant .tbit ar k s

/-- TBIT, bit number in (XR) (R378). -/
def execTbitX (ar : RegNo) (xr : RegNo) (s : State) : Outcome := bitByRegister .tbit ar xr s

/-- TBIT, bits of a mask (R378). -/
def execTbitM (ar : RegNo) (xr : RegNo) (mask : Word) (s : State) : Outcome := bitByMask .tbit ar xr mask s

/-- NEGT (R381). -/
def execNegt (ar : RegNo) (xr : RegNo) (s : State) : Outcome := move .negt ar xr s

/-- CPLM (R382). -/
def execCplm (ar : RegNo) (xr : RegNo) (s : State) : Outcome := move .cplm ar xr s

/-- MOVP (R383). -/
def execMovp (ar : RegNo) (xr : RegNo) (s : State) : Outcome := move .movp ar xr s

/-- MOVN (R384). -/
def execMovn (ar : RegNo) (xr : RegNo) (s : State) : Outcome := move .movn ar xr s

end Sys2Proof.Machine
end

