-- ==== Sys2Proof/Machine/Branch.lean ====
section
/-! DEFINITION. Branches (41_branch.md): the shared operations, then one definition for each instruction. -/

namespace Sys2Proof.Machine

/-- A branch of class 9 (`sense` true) or class 8 (`sense` false) on a condition (R223). -/
def branch (c : Condition) (sense : Bool) (d : BitVec 8) (s : State) : Outcome :=
  .next (if conditionHolds c s.status == sense then s.setPc (s.relative d) else s.advance 2#16)

/-- NOPR (R225). -/
def execNopr (_ignored : BitVec 8) (s : State) : Outcome := .next (s.advance 2#16)

/-- BRUN (R226). -/
def execBrun (d : BitVec 8) (s : State) : Outcome := .next (s.setPc (s.relative d))

/-! ## The instructions -/

/-- BEQF (R701). -/
def execBeqf (d : BitVec 8) (s : State) : Outcome := branch .eq false d s

/-- BGTF (R703). -/
def execBgtf (d : BitVec 8) (s : State) : Outcome := branch .gt false d s

/-- BOVF (R705). -/
def execBovf (d : BitVec 8) (s : State) : Outcome := branch .ov false d s

/-- BCYF (R707). -/
def execBcyf (d : BitVec 8) (s : State) : Outcome := branch .cy false d s

/-- BF1F (R709). -/
def execBf1f (d : BitVec 8) (s : State) : Outcome := branch .f1 false d s

/-- BF2F (R711). -/
def execBf2f (d : BitVec 8) (s : State) : Outcome := branch .f2 false d s

/-- BF3F (R713). -/
def execBf3f (d : BitVec 8) (s : State) : Outcome := branch .f3 false d s

/-- BLPF (R715). -/
def execBlpf (d : BitVec 8) (s : State) : Outcome := branch .lp false d s

/-- BODF (R717). -/
def execBodf (d : BitVec 8) (s : State) : Outcome := branch .od false d s

/-- BZEF (R719). -/
def execBzef (d : BitVec 8) (s : State) : Outcome := branch .ze false d s

/-- BNGF (R721). -/
def execBngf (d : BitVec 8) (s : State) : Outcome := branch .ng false d s

/-- BLTF (R723). -/
def execBltf (d : BitVec 8) (s : State) : Outcome := branch .lt false d s

/-- BEQT (R700). -/
def execBeqt (d : BitVec 8) (s : State) : Outcome := branch .eq true d s

/-- BGTT (R702). -/
def execBgtt (d : BitVec 8) (s : State) : Outcome := branch .gt true d s

/-- BOVT (R704). -/
def execBovt (d : BitVec 8) (s : State) : Outcome := branch .ov true d s

/-- BCYT (R706). -/
def execBcyt (d : BitVec 8) (s : State) : Outcome := branch .cy true d s

/-- BF1T (R708). -/
def execBf1t (d : BitVec 8) (s : State) : Outcome := branch .f1 true d s

/-- BF2T (R710). -/
def execBf2t (d : BitVec 8) (s : State) : Outcome := branch .f2 true d s

/-- BF3T (R712). -/
def execBf3t (d : BitVec 8) (s : State) : Outcome := branch .f3 true d s

/-- BLPT (R714). -/
def execBlpt (d : BitVec 8) (s : State) : Outcome := branch .lp true d s

/-- BODT (R716). -/
def execBodt (d : BitVec 8) (s : State) : Outcome := branch .od true d s

/-- BZET (R718). -/
def execBzet (d : BitVec 8) (s : State) : Outcome := branch .ze true d s

/-- BNGT (R720). -/
def execBngt (d : BitVec 8) (s : State) : Outcome := branch .ng true d s

/-- BLTT (R722). -/
def execBltt (d : BitVec 8) (s : State) : Outcome := branch .lt true d s

end Sys2Proof.Machine
end

