-- ==== Sys2Proof/Machine/Control.lean ====
section
/-! DEFINITION. Control instructions (43_control.md): the shared operations, then one definition for each instruction. -/

namespace Sys2Proof.Machine

/-- The four masks with those K names reset (enabled) or set (disabled) (R275 to R277). -/
def applyMask (disable : Bool) (k : BitVec 4) (st : Word) : Word :=
  if disable then st ||| (k.setWidth 16 <<< 12) else st &&& ~~~(k.setWidth 16 <<< 12)

/-- Are all four levels masked (R279)? -/
def allMasked (st : Word) : Bool := st.extractLsb' 12 4 == 15#4

/-- `wait()` (R279): the processor enters the WAIT state, the program counter still at the waiting instruction. The
Active bit stays as it is, which R31 leaves open: the model's choice (log 41). -/
def enterWait (s : State) : Res Unit :=
  if allMasked s.status then .unimplemented s else .ok () { s with run := .waiting }

/-- ENBW, DSBW and WAIT: the masks first, then the wait (R278 to R282). `h3` is the third digit of the word. -/
def maskAndWait (h3 : BitVec 4) (disable : Bool) (k : BitVec 4) (s : State) : Outcome :=
  Res.finish (maskWord h3 k) (enterWait { s with status := applyMask disable k s.status })

/-- The registers 1 to 7 (R285, R288). -/
def generalRegisters : List RegNo := [1#3, 2#3, 3#3, 4#3, 5#3, 6#3, 7#3]

/-- Registers stored in consecutive words from `a` on (R285). -/
def storeRegisters (rs : List RegNo) (a : Word) (s : State) : Res Unit :=
  match rs with
  | [] => .ok () s
  | r :: rest => (writeWord a (s.reg r) s).bind fun _ s1 => storeRegisters rest (a + 2#16) s1

/-- Registers loaded from consecutive words from `a` on (R288). -/
def loadRegisters (rs : List RegNo) (a : Word) (s : State) : Res Unit :=
  match rs with
  | [] => .ok () s
  | r :: rest => (readWord a s).bind fun v s1 => loadRegisters rest (a + 2#16) (s1.setReg r v)

/-- The end of a part that leaves the advance to do (R25). -/
def Res.thenAdvance (len : Word) (r : Res Unit) : Res Unit := r.bind fun _ s => .ok () (s.advance len)

/-- HALT (R270). -/
def execHalt (_ignored : BitVec 8) (s : State) : Outcome := .next { s.advance 2#16 with run := .halted }

/-- STSM (R284). -/
def execStsm (rel : Bool) (d : BitVec 8) (s : State) : Outcome :=
  Res.finish (displacementWord 0#4 (bit1 rel ++ 1#3) d) <|
    (writeWord (s.controlAddress rel d) s.status s).thenAdvance 2#16

/-- RSTS (R272). -/
def execRsts (f : BitVec 7) (s : State) : Outcome :=
  .next ({ s with status := s.status &&& ~~~(f.setWidth 16) }.advance 2#16)

/-- SETS (R273). -/
def execSets (f : BitVec 7) (s : State) : Outcome :=
  .next ({ s with status := s.status ||| f.setWidth 16 }.advance 2#16)

/-- REGM (R285). -/
def execRegm (rel : Bool) (d : BitVec 8) (s : State) : Outcome :=
  Res.finish (displacementWord 0#4 (bit1 rel ++ 3#3) d) <|
    (storeRegisters generalRegisters (s.controlAddress rel d) s).thenAdvance 2#16

/-- RETN (R286). -/
def execRetn (rel : Bool) (d : BitVec 8) (s : State) : Outcome :=
  Res.finish (displacementWord 0#4 (bit1 rel ++ 4#3) d) (returnFrom (s.controlAddress rel d) s)

/-- MSTS (R287). -/
def execMsts (rel : Bool) (d : BitVec 8) (s : State) : Outcome :=
  Res.finish (displacementWord 0#4 (bit1 rel ++ 5#3) d) <|
    (readWord (s.controlAddress rel d) s).bind fun w s1 => .ok () ((s1.loadStatus w).advance 2#16)

/-- MREG (R288). -/
def execMreg (rel : Bool) (d : BitVec 8) (s : State) : Outcome :=
  Res.finish (displacementWord 0#4 (bit1 rel ++ 7#3) d) <|
    (loadRegisters generalRegisters (s.controlAddress rel d) s).thenAdvance 2#16

/-- WAIT, the word 0840 (R281). -/
def execWait (s : State) : Outcome := maskAndWait 4#4 false 0#4 s

/-- WAIT, the word 08C0 (R281). -/
def execWaitD (s : State) : Outcome := maskAndWait 12#4 true 0#4 s

/-- ENBL (R276). -/
def execEnbl (k : BitVec 4) (s : State) : Outcome :=
  .next ({ s with status := applyMask false k s.status }.advance 2#16)

/-- ENBW (R278). -/
def execEnbw (k : BitVec 4) (s : State) : Outcome := maskAndWait 4#4 false k s

/-- DSBL (R277). -/
def execDsbl (k : BitVec 4) (s : State) : Outcome :=
  .next ({ s with status := applyMask true k s.status }.advance 2#16)

/-- DSBW (R280). -/
def execDsbw (k : BitVec 4) (s : State) : Outcome := maskAndWait 12#4 true k s

end Sys2Proof.Machine
end

