-- ==== Sys2Proof/Machine/Decimal.lean ====
section
/-! DEFINITION. Decimal and character instructions of the 1111 (45_decimal.md): fields, the decimal format, the shared
operations, then one definition for each instruction. -/

namespace Sys2Proof.Machine

/-! ## Fields -/

/-- A field of bytes: its leftmost (most significant) byte and its length (R331). -/
structure Field where
  addr : Word
  len : Nat
  deriving DecidableEq, Repr

/-- The length of a field, or the shift count less one: the four-bit field, plus (X) unsigned and without wrap if X is
not 0 (R331). -/
def State.extended (s : State) (l : BitVec 4) (x : RegNo) : Nat :=
  l.toNat + (if x = 0#3 then 0 else (s.reg x).toNat)

/-- The field that starts at (R) with length L + 1 + (X) (R331). -/
def State.field (s : State) (r : RegNo) (l : BitVec 4) (x : RegNo) : Field :=
  { addr := s.reg r, len := s.extended l x + 1 }

/-- The address of byte `i` of a field counted from the left, modulo 2^16 (R331). -/
def Field.fromLeft (f : Field) (i : Nat) : Word := f.addr + BitVec.ofNat 16 i

/-- The address of byte `i` of a field counted from the right (R338). -/
def Field.fromRight (f : Field) (i : Nat) : Word := f.fromLeft (f.len - 1 - i)

/-- The addresses of a field, left to right. -/
def Field.addresses (f : Field) : List Word := (List.range f.len).map f.fromLeft

/-- The bytes of a field, rightmost first. -/
def Field.bytes (f : Field) (mem : Memory) : List Byte := (List.range f.len).map fun i => mem.byte (f.fromRight i)

/-- Bytes stored from the right end of a field, rightmost first, starting with byte `i` from the right. -/
def Field.store (f : Field) (i : Nat) (bs : List Byte) (mem : Memory) : Memory :=
  match bs with
  | [] => mem
  | b :: rest => f.store (i + 1) rest (mem.setByte (f.fromRight i) b)

/-- Do two fields share a byte (R337(d))? -/
def Field.overlap (f g : Field) : Bool :=
  decide ((g.addr - f.addr).toNat < f.len) || decide ((f.addr - g.addr).toNat < g.len)

/-! ## Decimal format (R334) -/

/-- The nibbles of a field, rightmost first: the sign, then the digits from the units on. -/
def nibbles (bs : List Byte) : List (BitVec 4) := bs.flatMap fun b => [b.extractLsb' 0 4, b.extractLsb' 4 4]

/-- Bytes from nibbles, rightmost first. -/
def packNibbles : List (BitVec 4) → List Byte
  | lo :: hi :: rest => (hi ++ lo) :: packNibbles rest
  | _ => []

/-- The digits of a field, the units digit first. -/
def fieldDigits (bs : List Byte) : List (BitVec 4) := (nibbles bs).tail

/-- The sign nibble of a field. -/
def fieldSign (bs : List Byte) : BitVec 4 := (nibbles bs).headD 0#4

/-- The magnitude of digits, the units digit first (R334). -/
def magnitude : List (BitVec 4) → Nat
  | [] => 0
  | d :: rest => d.toNat + 10 * magnitude rest

/-- The value of a field: the sign Dh is minus (R334). -/
def fieldValue (bs : List Byte) : Int :=
  if fieldSign bs = 13#4 then -(magnitude (fieldDigits bs) : Int) else magnitude (fieldDigits bs)

/-- Valid digits are 0 to 9, valid signs C and D (R334). -/
def fieldValid (bs : List Byte) : Bool :=
  (fieldDigits bs).all (fun d => decide (d.toNat ≤ 9)) && (fieldSign bs == 12#4 || fieldSign bs == 13#4)

/-- The `n` low decimal digits of a number, the units digit first. -/
def decimalDigits : Nat → Nat → List (BitVec 4)
  | 0, _ => []
  | n + 1, m => BitVec.ofNat 4 (m % 10) :: decimalDigits n (m / 10)

/-- The bytes of a field of `len` bytes, rightmost first, from a magnitude and a sign; digits beyond the field are
truncated (R337(a), R339). -/
def decimalField (len : Nat) (mag : Nat) (sign : BitVec 4) : List Byte :=
  packNibbles (sign :: decimalDigits (2 * len - 1) mag)

/-! ## The shared frame -/

/-- The first three words of the level-5 block receive registers 5, 6, 7 before anything else (R332, R68). Where a later
store of the same instruction hits them, in a destination field that overlaps them, the field's bytes win: R68 and R332
say that the words hold the registers at the end, R338 to R345 that the result stands in the field, and the choice
between the two is the model's (log 39). -/
def saveScratch (s : State) : Res Unit :=
  let b := BitVec.ofNat 16 (unimplementedBlock s.par.cpu)
  (writeWord b (s.reg 5#3) s).bind fun _ s1 =>
    (writeWord (b + 2#16) (s1.reg 6#3) s1).bind fun _ s2 => writeWord (b + 4#16) (s2.reg 7#3) s2

/-- OV, CY, LP, OD, ZE and NG after a class C instruction are free, and so are EQ and GT after those that do not compare
(R333, log 24). -/
def State.freeIndicators (compares : Bool) (s : State) : State :=
  let st := setFlag .ov (s.freeBit 0) (setFlag .cy (s.freeBit 1) (setFlag .lp (s.freeBit 2)
    (setFlag .od (s.freeBit 3) (setFlag .ze (s.freeBit 4) (setFlag .ng (s.freeBit 5) s.status)))))
  { s.spend 8 with
    status := if compares then st else setFlag .eq (s.freeBit 6) (setFlag .gt (s.freeBit 7) st) }

/-- The bytes of fields that do not lie in program memory (R337(b)). -/
def State.badBytes (s : State) (fs : List Field) : List Word :=
  (fs.flatMap Field.addresses).filter fun a => !s.inMemory a

/-- One of the bad addresses, which one being open: the order of the accesses is not architectural (R337(b), log 25). -/
def State.chooseBad (s : State) (bad : List Word) : Word := bad.getD ((s.freeAt 0).toNat % bad.length) 0#16

/-- Free bytes in a field, where it lies in program memory. -/
def scramble (f : Field) (s : State) : State :=
  { s.spend f.len with
    mem := (List.range f.len).foldl (fun mem i =>
      if s.inMemory (f.fromLeft i) then mem.setByte (f.fromLeft i) (rightByte (s.freeAt i)) else mem) s.mem }

/-- Abort of a decimal instruction: at one of the bad bytes, the bytes of the destination possibly written (R337(b),
R515(c), log 25). -/
def decimalAbort (bad : List Word) (dst : Option Field) (s : State) : Res Unit :=
  let s1 := s.spend 1
  .abort (s.chooseBad bad) (match dst with
    | some f => scramble f s1
    | none => s1)

/-- A class C instruction: the model that has it, the designators, the scratch, then `f` (R330, R331, R332); what `f` stores
in the scratch words stays there (log 39). -/
def decimal (iw : Word) (ok : Bool) (s : State) (f : State → Res Unit) : Outcome :=
  if s.par.model.decimal then
    if ok then Res.finish iw ((saveScratch s).bind fun _ s1 => f s1) else .refused .decimalRegisterZero
  else takeUnimplemented iw s

/-- The end of a class C instruction: indicators and program counter (R333, R330). -/
def decimalEnd (compares : Bool) (s : State) : Res Unit := .ok () ((s.freeIndicators compares).advance 4#16)

/-! ## Moving and arithmetic -/

/-- ZADD's bytes: the source from the right end, zero bytes beyond it (R338). -/
def zeroAddBytes (dl : Nat) (src : List Byte) : List Byte := (List.range dl).map fun i => src.getD i 0#8

/-- The sum or difference of ADDD and SUBD as the destination's bytes (R339, R340). -/
def arithmeticBytes (subtract : Bool) (dl : Nat) (src dst : List Byte) : List Byte :=
  let a := fieldValue src
  let r := if subtract then fieldValue dst - a else fieldValue dst + a
  let sign := if 0 < r then 12#4 else if r < 0 then 13#4 else fieldSign dst
  decimalField dl r.natAbs sign

/-- A true subtraction whose source has digits beyond the destination's (R339): its result is not described. -/
def tooLong (subtract : Bool) (dl : Nat) (src dst : List Byte) : Bool :=
  ((fieldSign src == fieldSign dst) == subtract) && decide (10 ^ (2 * dl - 1) ≤ magnitude (fieldDigits src))

/-- The result bytes go to the destination, or where the spec gives no result (R334, R337(d), R339) free bytes
(log 23). -/
def storeResult (described : Bool) (dst : Field) (bs : List Byte) (s : State) : State :=
  if described then { s with mem := dst.store 0 bs s.mem } else scramble dst s

/-- ZADD (R338), ADDD (R339) and SUBD (R340) once the fields are known to be in memory. -/
def decimalResult (described : List Byte → List Byte → Bool) (result : List Byte → List Byte → List Byte)
    (src dst : Field) (s : State) : Res Unit :=
  let bad := s.badBytes [src, dst]
  if bad.isEmpty then
    let a := src.bytes s.mem
    let b := dst.bytes s.mem
    decimalEnd false (storeResult (described a b && !src.overlap dst) dst (result a b) s)
  else decimalAbort bad (some dst) s

/-- One byte moved at a time in the order of the addresses, up to the first that is not in memory (R343, R345). -/
def moveBytes (pairs : List (Word × Word)) (s : State) : Res Unit :=
  match pairs with
  | [] => .ok () s
  | (a, b) :: rest =>
    if s.inMemory a then
      if s.inMemory b then moveBytes rest { s with mem := s.mem.setByte b (s.mem.byte a) } else .abort b s
    else .abort a s

/-- MOVR and MOVL: the bytes in the stated order; a byte of either field that is not moved must be in memory too
(R337(b), log 25). -/
def moveField (pairs : List (Word × Word)) (src dst : Field) (s : State) : Res Unit :=
  (moveBytes pairs s).bind fun _ s1 =>
    let bad := s1.badBytes [src, dst]
    if bad.isEmpty then decimalEnd false s1 else decimalAbort bad .none s1

/-- A comparison's EQ and GT (R341, R346); `described` is false where the spec gives no result (R334, log 23). -/
def compareFields (described : Bool) (gt eq : Bool) (s : State) : Res Unit :=
  let s1 := if described then { s with status := compareStatus gt eq s.status }
    else { s.spend 2 with status := compareStatus (s.freeBit 0) (s.freeBit 1) s.status }
  decimalEnd true s1

/-- COMP's bytes: a field from left to right, extended with blanks to `n` bytes (R346). -/
def blankExtended (f : Field) (n : Nat) (mem : Memory) : List Byte :=
  (List.range n).map fun i => if i < f.len then mem.byte (f.fromLeft i) else 0xA0#8

/-- Is the first list greater at the first place where they differ (R346)? -/
def firstGreater : List Byte → List Byte → Bool
  | a :: as, b :: bs => if a = b then firstGreater as bs else decide (b.toNat < a.toNat)
  | _, _ => false

/-- SFTR: digits out at the right, zeros in at the left (R342). -/
def shiftDigitsRight (cnt : Nat) (ds : List (BitVec 4)) : List (BitVec 4) :=
  ds.drop cnt ++ List.replicate (min cnt ds.length) 0#4

/-- SFTL: zeros in at the right, digits out at the left (R344). -/
def shiftDigitsLeft (cnt : Nat) (ds : List (BitVec 4)) : List (BitVec 4) :=
  (List.replicate (min cnt ds.length) 0#4 ++ ds).take ds.length

/-- SFTR and SFTL once the scratch is saved; a count of zero causes no operation (R342, R344). -/
def shiftField (move : Nat → List (BitVec 4) → List (BitVec 4)) (cnt : Nat) (f : Field) (s : State) : Res Unit :=
  if cnt = 0 then decimalEnd false s
  else
    let bad := s.badBytes [f]
    if bad.isEmpty then
      let bs := f.bytes s.mem
      decimalEnd false
        (storeResult (fieldValid bs) f (packNibbles (fieldSign bs :: move cnt (fieldDigits bs))) s)
    else decimalAbort bad (some f) s

/-! ## The nine instructions -/

/-- ZADD (R338). -/
def execZadd (r1 r2 : RegNo) (l1 l2 : BitVec 4) (x1 x2 : RegNo) (s : State) : Outcome :=
  decimal (decimalWord 2#4 r1 r2) (fieldRegisterOk r1 && fieldRegisterOk r2) s fun s1 =>
    decimalResult (fun a _ => fieldValid a) (fun a b => zeroAddBytes b.length a) (s1.field r1 l1 x1) (s1.field r2 l2 x2) s1

/-- ADDD (R339). -/
def execAddd (r1 r2 : RegNo) (l1 l2 : BitVec 4) (x1 x2 : RegNo) (s : State) : Outcome :=
  decimal (decimalWord 3#4 r1 r2) (fieldRegisterOk r1 && fieldRegisterOk r2) s fun s1 =>
    decimalResult (fun a b => fieldValid a && fieldValid b && !tooLong false b.length a b)
      (fun a b => arithmeticBytes false b.length a b) (s1.field r1 l1 x1) (s1.field r2 l2 x2) s1

/-- SUBD (R340). -/
def execSubd (r1 r2 : RegNo) (l1 l2 : BitVec 4) (x1 x2 : RegNo) (s : State) : Outcome :=
  decimal (decimalWord 4#4 r1 r2) (fieldRegisterOk r1 && fieldRegisterOk r2) s fun s1 =>
    decimalResult (fun a b => fieldValid a && fieldValid b && !tooLong true b.length a b)
      (fun a b => arithmeticBytes true b.length a b) (s1.field r1 l1 x1) (s1.field r2 l2 x2) s1

/-- CMPD (R341). -/
def execCmpd (r1 r2 : RegNo) (l1 l2 : BitVec 4) (x1 x2 : RegNo) (s : State) : Outcome :=
  decimal (decimalWord 5#4 r1 r2) (fieldRegisterOk r1 && fieldRegisterOk r2) s fun s1 =>
    let src := s1.field r1 l1 x1
    let dst := s1.field r2 l2 x2
    let bad := s1.badBytes [src, dst]
    if bad.isEmpty then
      let a := src.bytes s1.mem
      let b := dst.bytes s1.mem
      compareFields (fieldValid a && fieldValid b) (decide (fieldValue b < fieldValue a))
        (decide (fieldValue a = fieldValue b)) s1
    else decimalAbort bad .none s1

/-- MOVR (R343): rightmost byte first. -/
def execMovr (r1 r2 : RegNo) (l1 l2 : BitVec 4) (x1 x2 : RegNo) (s : State) : Outcome :=
  decimal (decimalWord 9#4 r1 r2) (fieldRegisterOk r1 && fieldRegisterOk r2) s fun s1 =>
    let src := s1.field r1 l1 x1
    let dst := s1.field r2 l2 x2
    moveField ((List.range (min src.len dst.len)).map fun i => (src.fromRight i, dst.fromRight i)) src dst s1

/-- MOVL (R345): leftmost byte first. -/
def execMovl (r1 r2 : RegNo) (l1 l2 : BitVec 4) (x1 x2 : RegNo) (s : State) : Outcome :=
  decimal (decimalWord 11#4 r1 r2) (fieldRegisterOk r1 && fieldRegisterOk r2) s fun s1 =>
    let src := s1.field r1 l1 x1
    let dst := s1.field r2 l2 x2
    moveField ((List.range (min src.len dst.len)).map fun i => (src.fromLeft i, dst.fromLeft i)) src dst s1

/-- COMP (R346). -/
def execComp (r1 r2 : RegNo) (l1 l2 : BitVec 4) (x1 x2 : RegNo) (s : State) : Outcome :=
  decimal (decimalWord 12#4 r1 r2) (fieldRegisterOk r1 && fieldRegisterOk r2) s fun s1 =>
    let src := s1.field r1 l1 x1
    let dst := s1.field r2 l2 x2
    let bad := s1.badBytes [src, dst]
    if bad.isEmpty then
      let a := blankExtended src (max src.len dst.len) s1.mem
      let b := blankExtended dst (max src.len dst.len) s1.mem
      compareFields true (firstGreater a b) (a == b) s1
    else decimalAbort bad .none s1

/-- SFTR (R342). -/
def execSftr (r1 : RegNo) (l1 sh : BitVec 4) (x1 x2 : RegNo) (s : State) : Outcome :=
  decimal (decimalWord 8#4 r1 0#3) (fieldRegisterOk r1) s fun s1 =>
    shiftField shiftDigitsRight (s1.extended sh x2) (s1.field r1 l1 x1) s1

/-- SFTL (R344). -/
def execSftl (r1 : RegNo) (l1 sh : BitVec 4) (x1 x2 : RegNo) (s : State) : Outcome :=
  decimal (decimalWord 10#4 r1 0#3) (fieldRegisterOk r1) s fun s1 =>
    shiftField shiftDigitsLeft (s1.extended sh x2) (s1.field r1 l1 x1) s1

end Sys2Proof.Machine
end

