-- ==== Sys2Proof/Machine/Double.lean ====
section
/-! DEFINITION. Double-length data, normalize and count, double-length shifts (47_normalize_dshift.md): the shared
operations, then one definition for each instruction. -/

namespace Sys2Proof.Machine

/-- The 31-bit number of a pair: the whole even word and bits 14..0 of the odd one (R400). -/
def pair31 (hi lo : Word) : BitVec 31 := hi ++ lo.extractLsb' 0 15

/-- The 32-bit string of a pair (R421). -/
def pair32 (hi lo : Word) : BitVec 32 := hi ++ lo

/-- `fixS` (R400): S' reflects S unless bits 14..0 of the odd word are all zeros, and is zero then. -/
def fixS (hi lo : Word) : Word := setBit 15 (lo.extractLsb' 0 15 != 0#15 && hi.getLsbD 15) lo

/-- The even word of a 31-bit number (R453). -/
def high31 (p : BitVec 31) : Word := p.extractLsb' 15 16

/-- The odd word of a 31-bit number, S' adjusted (R400, R453). -/
def low31 (p : BitVec 31) : Word := fixS (high31 p) ((p.extractLsb' 0 15).setWidth 16)

/-- The even word of a 32-bit string. -/
def high32 (d : BitVec 32) : Word := d.extractLsb' 16 16

/-- The odd word of a 32-bit string. -/
def low32 (d : BitVec 32) : Word := d.extractLsb' 0 16

/-- The pair that starts with register `r`, an even one, is written. -/
def State.setPair (s : State) (r : RegNo) (hi lo : Word) : State := (s.setReg r hi).setReg (oddRegister r) lo

/-! ## Normalize and count -/

/-- `step` until `done`, at most `n` times, and how many it took (R404). -/
def normalizeLoop {α : Type} (done : α → Bool) (step : α → α) (n : Nat) (a : α) : α × Nat :=
  match n with
  | 0 => (a, 0)
  | k + 1 =>
    if done a then (a, 0)
    else
      let r := normalizeLoop done step k (step a)
      (r.1, r.2 + 1)

/-- The stop condition of a single normalize (R405 to R408). -/
def normalizeDone (op : NormOp) (a : Word) : Bool :=
  match op with
  | .lan => a.getLsbD 15 != a.getLsbD 14
  | .lln => a.getLsbD 15
  | .ran => a.getLsbD 0
  | .rln => a.getLsbD 0

/-- The step of a single normalize (R405 to R408). -/
def normalizeStep (op : NormOp) (a : Word) : Word :=
  match op with
  | .lan => a <<< 1
  | .lln => a <<< 1
  | .ran => setBit 15 (a.getLsbD 15) (a >>> 1)
  | .rln => a >>> 1

/-- A single operand normalized, and the count of positions shifted; at most 15 (R404). -/
def normalized (op : NormOp) (a : Word) : Word × Nat := normalizeLoop (normalizeDone op) (normalizeStep op) 15 a

/-- The count is added to (XR) and the instruction ends. XR = 0 and XR among the shifted registers are not described:
the program counter, or that register, is free (R404, log 12). `shifted` tells whether XR was shifted. -/
def State.addCount (s : State) (xr : RegNo) (shifted : Bool) (n : Nat) : State :=
  if xr = 0#3 then (s.spend 1).setPc (s.freeAt 0)
  else if shifted then ((s.spend 1).setReg xr (s.freeAt 0)).advance 2#16
  else (s.setReg xr (s.reg xr + BitVec.ofNat 16 n)).advance 2#16

/-- The count is added to (XR) by an instruction whose result was a jump (AR = 0). -/
def State.addCountOnly (s : State) (xr : RegNo) (n : Nat) : State :=
  if xr = 0#3 then (s.spend 1).setPc (s.freeAt 0) else s.setReg xr (s.reg xr + BitVec.ofNat 16 n)

/-- Single normalize and count (R404). A zero operand sets only the status. -/
def normalize (op : NormOp) (ar xr : RegNo) (s : State) : State :=
  let a := s.data 2#16 ar
  if a = 0#16 then { s with status := setNZO 0#16 s.status }.advance 2#16
  else
    let r := normalized op a
    let s1 := { s with status := setNZO r.1 s.status }
    if ar = 0#3 then (s1.setPc r.1).addCountOnly xr r.2
    else (s1.setReg ar r.1).addCount xr (xr == ar) r.2

/-- A single normalize instruction; on the models without it the word is undefined (R116). -/
def normalizeSingle (op : NormOp) (ar xr : RegNo) (s : State) : Outcome :=
  if s.par.model.scientific then .next (normalize op ar xr s)
  else undefinedWord (assemble 10#4 0#1 op.code 0#1 ar 1#1 xr) s

/-- Double left or right arithmetic normalize on the 31-bit number (R409, R411). -/
def normalized31 (op : NormOp) (p : BitVec 31) : BitVec 31 × Nat :=
  match op with
  | .lan => normalizeLoop (fun p => p.getLsbD 30 != p.getLsbD 29) (fun p => p <<< 1) 31 p
  | .ran => normalizeLoop (fun p => p.getLsbD 0) (fun p => p.sshiftRight 1) 31 p
  | .lln => (p, 0)
  | .rln => (p, 0)

/-- Double left or right logical normalize on the 32-bit string (R410, R412). -/
def normalized32 (op : NormOp) (d : BitVec 32) : BitVec 32 × Nat :=
  match op with
  | .lln => normalizeLoop (fun d => d.getLsbD 31) (fun d => d <<< 1) 31 d
  | .rln => normalizeLoop (fun d => d.getLsbD 0) (fun d => d >>> 1) 31 d
  | .lan => (d, 0)
  | .ran => (d, 0)

/-- Is the double normalize arithmetic, on the 31-bit number? -/
def normalizeArithmetic (op : NormOp) : Bool :=
  match op with
  | .lan => true
  | .ran => true
  | .lln => false
  | .rln => false

/-- The zero test of a double normalize: S' is ignored by the arithmetic ones (R404, R409, R411). -/
def doubleZero (op : NormOp) (hi lo : Word) : Bool :=
  if normalizeArithmetic op then pair31 hi lo == 0#31 else pair32 hi lo == 0#32

/-- A pair normalized, S' adjusted by the arithmetic forms, and the count (R409 to R412). -/
def normalizedPair (op : NormOp) (hi lo : Word) : Word × Word × Nat :=
  if normalizeArithmetic op then
    let r := normalized31 op (pair31 hi lo)
    (high31 r.1, low31 r.1, r.2)
  else
    let r := normalized32 op (pair32 hi lo)
    (high32 r.1, low32 r.1, r.2)

/-- Double normalize and count of the pair that starts with `r` (R404). A zero operand sets only the status, and the
arithmetic forms clear S' (R409, R411). -/
def normalizeDouble (op : NormOp) (r xr : RegNo) (s : State) : State :=
  let hi := s.reg r
  let lo := s.reg (oddRegister r)
  if doubleZero op hi lo then
    ({ s with status := setNZOpair 0#16 0#16 s.status }.setReg (oddRegister r) 0#16).advance 2#16
  else
    let x := normalizedPair op hi lo
    ({ s with status := setNZOpair x.1 x.2.1 s.status }.setPair r x.1 x.2.1).addCount xr
      (xr == r || xr == oddRegister r) x.2.2

/-- A double-length instruction of class A: it traps on the models without it (R105, log 7), and a pair designator the
spec does not describe makes the word undefined (R116, R402, log 37). -/
def onPair (iw : Word) (ok : Bool) (s : State) (f : State → State) : Outcome :=
  if s.par.model.scientific then (if ok then .next (f s) else undefinedWord iw s)
  else takeUnimplemented iw s

/-- A double normalize instruction. -/
def normalizePair (op : NormOp) (ar xr : RegNo) (s : State) : Outcome :=
  onPair (assemble 10#4 1#1 op.code 0#1 ar 1#1 xr) (pairOk ar) s (normalizeDouble op ar xr)

/-! ## Double-length shifts -/

/-- The string a double shift moves, and the status word beside it. -/
structure Double (w : Nat) where
  d : BitVec w
  st : Word
  deriving DecidableEq, Repr

/-- One step of an arithmetic double shift on the 31-bit number (R430, R434): left with CY and OV, or right with the
sign. -/
def arithmeticStep (left : Bool) (x : Double 31) : Double 31 :=
  if left then
    { d := x.d <<< 1
      st := setFlag .cy (x.d.getLsbD 30) (setFlag .ov (getFlag .ov x.st || x.d.getLsbD 29 != x.d.getLsbD 30) x.st) }
  else { x with d := x.d.sshiftRight 1 }

/-- A bit put into a 32-bit string at bit `i`, which is 0 there. -/
def orBit32 (i : Nat) (b : Bool) (d : BitVec 32) : BitVec 32 := d ||| ((BitVec.ofBool b).setWidth 32 <<< i)

/-- One step of a logical double shift on the 32-bit string (R431 to R433, R435 to R437). The arithmetic operations have
none. -/
def logicalStep (op : ShiftOp) (x : Double 32) : Double 32 :=
  match op with
  | .lll => { d := orBit32 0 (getFlag .cy x.st) (x.d <<< 1), st := setFlag .cy (x.d.getLsbD 31) x.st }
  | .llo => { x with d := x.d <<< 1 }
  | .llc => { x with d := orBit32 0 (x.d.getLsbD 31) (x.d <<< 1) }
  | .rll => { d := orBit32 31 (getFlag .cy x.st) (x.d >>> 1), st := setFlag .cy (x.d.getLsbD 0) x.st }
  | .rlo => { x with d := x.d >>> 1 }
  | .rlc => { x with d := orBit32 31 (x.d.getLsbD 0) (x.d >>> 1) }
  | .lao => x
  | .rao => x

/-- A pair and the status after `n` steps of an arithmetic double shift, S' adjusted (R400, R421). -/
def arithmeticShift (left : Bool) (n : Nat) (hi lo st : Word) : Word × Word × Word :=
  let x := (arithmeticStep left)^[n] { d := pair31 hi lo, st := st }
  (high31 x.d, low31 x.d, x.st)

/-- A pair and the status after `n` steps of a double shift (R421). -/
def doubleShift (op : ShiftOp) (n : Nat) (hi lo st : Word) : Word × Word × Word :=
  match op with
  | .lao => arithmeticShift true n hi lo st
  | .rao => arithmeticShift false n hi lo st
  | .lll | .llo | .llc | .rll | .rlo | .rlc =>
    let x := (logicalStep op)^[n] { d := pair32 hi lo, st := st }
    (high32 x.d, low32 x.d, x.st)

/-- The skeleton of a double shift of the pair that starts with `r` (R421). -/
def shiftPair (op : ShiftOp) (r : RegNo) (n : Nat) (s : State) : State :=
  let x := doubleShift op n (s.reg r) (s.reg (oddRegister r)) s.status
  ({ s with status := setNZOpair x.1 x.2.1 x.2.2 }.setPair r x.1 x.2.1).advance 2#16

/-- The even register a two-bit pair designator names (R420). -/
def pairRegister (pair : BitVec 2) : RegNo := pair ++ 0#1

/-- Double Shift Immediate (R420). -/
def doubleByConstant (op : ShiftOp) (pair : BitVec 2) (k : BitVec 5) (s : State) : Outcome :=
  onPair (dshiftWordK op.code pair k) (pairFieldOk pair) s (shiftPair op (pairRegister pair) k.toNat)

/-- Double Shift Indexed: the count is the low five bits of (XR) (R420). -/
def doubleByRegister (op : ShiftOp) (ar xr : RegNo) (s : State) : Outcome :=
  onPair (assemble 10#4 1#1 op.code 0#1 ar 0#1 xr) (pairOk ar) s fun s0 =>
    shiftPair op ar ((s0.countRegister xr).setWidth 5).toNat (s0.afterCount xr)

/-! ## The instructions -/

/-- SLAN (R405). -/
def execSlan (ar : RegNo) (xr : RegNo) (s : State) : Outcome := normalizeSingle .lan ar xr s

/-- SLLN (R406). -/
def execSlln (ar : RegNo) (xr : RegNo) (s : State) : Outcome := normalizeSingle .lln ar xr s

/-- SRAN (R407). -/
def execSran (ar : RegNo) (xr : RegNo) (s : State) : Outcome := normalizeSingle .ran ar xr s

/-- SRLN (R408). -/
def execSrln (ar : RegNo) (xr : RegNo) (s : State) : Outcome := normalizeSingle .rln ar xr s

/-- DLAN (R409). -/
def execDlan (ar : RegNo) (xr : RegNo) (s : State) : Outcome := normalizePair .lan ar xr s

/-- DLLN (R410). -/
def execDlln (ar : RegNo) (xr : RegNo) (s : State) : Outcome := normalizePair .lln ar xr s

/-- DRAN (R411). -/
def execDran (ar : RegNo) (xr : RegNo) (s : State) : Outcome := normalizePair .ran ar xr s

/-- DRLN (R412). -/
def execDrln (ar : RegNo) (xr : RegNo) (s : State) : Outcome := normalizePair .rln ar xr s

/-- DLAO, count in K (R430). -/
def execDlaoK (pair : BitVec 2) (k : BitVec 5) (s : State) : Outcome := doubleByConstant .lao pair k s

/-- DLAO, count in (XR) (R430). -/
def execDlaoX (ar : RegNo) (xr : RegNo) (s : State) : Outcome := doubleByRegister .lao ar xr s

/-- DLLL, count in K (R431). -/
def execDlllK (pair : BitVec 2) (k : BitVec 5) (s : State) : Outcome := doubleByConstant .lll pair k s

/-- DLLL, count in (XR) (R431). -/
def execDlllX (ar : RegNo) (xr : RegNo) (s : State) : Outcome := doubleByRegister .lll ar xr s

/-- DLLO, count in K (R432). -/
def execDlloK (pair : BitVec 2) (k : BitVec 5) (s : State) : Outcome := doubleByConstant .llo pair k s

/-- DLLO, count in (XR) (R432). -/
def execDlloX (ar : RegNo) (xr : RegNo) (s : State) : Outcome := doubleByRegister .llo ar xr s

/-- DLLC, count in K (R433). -/
def execDllcK (pair : BitVec 2) (k : BitVec 5) (s : State) : Outcome := doubleByConstant .llc pair k s

/-- DLLC, count in (XR) (R433). -/
def execDllcX (ar : RegNo) (xr : RegNo) (s : State) : Outcome := doubleByRegister .llc ar xr s

/-- DRAO, count in K (R434). -/
def execDraoK (pair : BitVec 2) (k : BitVec 5) (s : State) : Outcome := doubleByConstant .rao pair k s

/-- DRAO, count in (XR) (R434). -/
def execDraoX (ar : RegNo) (xr : RegNo) (s : State) : Outcome := doubleByRegister .rao ar xr s

/-- DRLL, count in K (R435). -/
def execDrllK (pair : BitVec 2) (k : BitVec 5) (s : State) : Outcome := doubleByConstant .rll pair k s

/-- DRLL, count in (XR) (R435). -/
def execDrllX (ar : RegNo) (xr : RegNo) (s : State) : Outcome := doubleByRegister .rll ar xr s

/-- DRLO, count in K (R436). -/
def execDrloK (pair : BitVec 2) (k : BitVec 5) (s : State) : Outcome := doubleByConstant .rlo pair k s

/-- DRLO, count in (XR) (R436). -/
def execDrloX (ar : RegNo) (xr : RegNo) (s : State) : Outcome := doubleByRegister .rlo ar xr s

/-- DRLC, count in K (R437). -/
def execDrlcK (pair : BitVec 2) (k : BitVec 5) (s : State) : Outcome := doubleByConstant .rlc pair k s

/-- DRLC, count in (XR) (R437). -/
def execDrlcX (ar : RegNo) (xr : RegNo) (s : State) : Outcome := doubleByRegister .rlc ar xr s

end Sys2Proof.Machine
end

