-- ==== Sys2Proof/Machine/FixedPoint.lean ====
section
/-! DEFINITION. Class B fixed-point instructions (48_classB_control.md): the shared operations, then one definition for
each instruction. -/

namespace Sys2Proof.Machine

/-- A class B instruction: it traps on the models without class B and with AR = 0 or 1 (R450, R451); `f` gets the
effective address, developed as for class 7 (R452). -/
def fixedPoint (iw : Word) (ar : RegNo) (m : MemOperand) (s : State) (f : Word → State → Res Unit) : Outcome :=
  if s.par.model.scientific && decide (2 ≤ ar.toNat) then
    Res.finish iw ((effectiveAddress .none .word m s).bind f)
  else takeUnimplemented iw s

/-- The multiplier or divisor: 8000h has the same effect as zero (R454). -/
def multiplier (w : Word) : Int := if w = 0x8000#16 then 0 else w.toInt

/-- `put31` and `flagsD` (R453, R400): a 31-bit result to the pair that starts with `e`. -/
def State.put31 (s : State) (e : RegNo) (p : BitVec 31) : State :=
  { s with status := setNZOpair (high31 p) (low31 p) s.status }.setPair e (high31 p) (low31 p)

/-- MULT and MLTA from the operand `w` (R454, R455): MLTA adds the even register and leaves CY free (log 28). -/
def multiply (accumulate : Bool) (e : RegNo) (w : Word) (s : State) : State :=
  let r := (s.reg (oddRegister e)).toInt * multiplier w + (if accumulate then (s.reg e).toInt else 0)
  let s1 := s.put31 e (BitVec.ofInt 31 r)
  if accumulate then { s1.spend 1 with status := setFlag .cy (s1.freeBit 0) s1.status } else s1

/-- The divide check (R456): `n` is the dividend, `w` the divisor word. -/
def divideCheck (n : Int) (w : Word) : Bool :=
  w == 0#16 || w == 0x8000#16 || decide (n = -2 ^ 30) || decide (32767 < (n.tdiv w.toInt).natAbs)

/-- DIVD from the operand `w` on the pair that starts with `e` (R456). After a divide check OV is set and the pair, NG, ZE
and OD are free (log 28). -/
def divide (e : RegNo) (w : Word) (s : State) : State :=
  let n := (pair31 (s.reg e) (s.reg (oddRegister e))).toInt
  if divideCheck n w then
    { s with status := setFlag .ov true s.status }.freeNZO 2 |>.setPair e (s.freeAt 0) (s.freeAt 1)
  else
    let q := BitVec.ofInt 16 (n.tdiv w.toInt)
    { s with status := setNZO q s.status }.setPair e (BitVec.ofInt 16 (n.tmod w.toInt)) q

/-- The two consecutive words at `a` (R452). -/
def readPair (a : Word) (s : State) : Res (Word × Word) :=
  (readWord a s).bind fun h s1 => (readWord (a + 2#16) s1).bind fun l s2 => .ok (h, l) s2

/-- A double-precision instruction that the designator AR = 3, 5, 7 leaves undescribed (R460, log 29). -/
def onEvenPair (ar : RegNo) (f : Res Unit) : Res Unit :=
  if ar.getLsbD 0 then .refuse (.pairDesignator ar) else f

/-- DADD (R463): the 31-bit sum; CY its carry, OV set where it does not fit. -/
def addPair (e : RegNo) (h l : Word) (s : State) : State :=
  let a := pair31 (s.reg e) (s.reg (oddRegister e))
  let b := pair31 h l
  let v := a.toInt + b.toInt
  { s with
    status := setFlag .cy (decide (2 ^ 31 ≤ a.toNat + b.toNat))
      (setFlag .ov (getFlag .ov s.status || decide (v < -2 ^ 30) || decide (2 ^ 30 ≤ v)) s.status) }.put31 e (a + b)

/-- DSUB (R464): the 31-bit difference; CY = 1 for no borrow, OV set where it does not fit. -/
def subPair (e : RegNo) (h l : Word) (s : State) : State :=
  let a := pair31 (s.reg e) (s.reg (oddRegister e))
  let b := pair31 h l
  let v := a.toInt - b.toInt
  { s with
    status := setFlag .cy (decide (2 ^ 31 ≤ a.toNat + (2 ^ 31 - 1 - b.toNat) + 1))
      (setFlag .ov (getFlag .ov s.status || decide (v < -2 ^ 30) || decide (2 ^ 30 ≤ v)) s.status) }.put31 e (a - b)

/-- DSTA (R462). -/
def execDsta (ar : RegNo) (m : MemOperand) (s : State) : Outcome :=
  fixedPoint (fixedWord 0#3 ar m) ar m s fun a s1 => onEvenPair ar <|
    (writeWord a (s1.reg ar) s1).bind fun _ s2 =>
      (writeWord (a + 2#16) (s2.reg (oddRegister ar)) s2).bind fun _ s3 =>
        .ok () ({ s3 with status := setNZOpair (s3.reg ar) (s3.reg (oddRegister ar)) s3.status }.advance
          (operandLength m))

/-- DSUB (R464). -/
def execDsub (ar : RegNo) (m : MemOperand) (s : State) : Outcome :=
  fixedPoint (fixedWord 1#3 ar m) ar m s fun a s1 => onEvenPair ar <|
    (readPair a s1).bind fun w s2 => .ok () ((subPair ar w.1 w.2 s2).advance (operandLength m))

/-- DADD (R463). -/
def execDadd (ar : RegNo) (m : MemOperand) (s : State) : Outcome :=
  fixedPoint (fixedWord 2#3 ar m) ar m s fun a s1 => onEvenPair ar <|
    (readPair a s1).bind fun w s2 => .ok () ((addPair ar w.1 w.2 s2).advance (operandLength m))

/-- MLTA (R455); AR is the pair designator and a 0. -/
def execMlta (pair : BitVec 2) (m : MemOperand) (s : State) : Outcome :=
  fixedPoint (fixedWord 3#3 (pair ++ 0#1) m) (pair ++ 0#1) m s fun a s1 =>
    (readWord a s1).bind fun w s2 => .ok () ((multiply true (pairRegister pair) w s2).advance (operandLength m))

/-- MULT (R454); AR is the pair designator and a 1. -/
def execMult (pair : BitVec 2) (m : MemOperand) (s : State) : Outcome :=
  fixedPoint (fixedWord 3#3 (pair ++ 1#1) m) (pair ++ 1#1) m s fun a s1 =>
    (readWord a s1).bind fun w s2 => .ok () ((multiply false (pairRegister pair) w s2).advance (operandLength m))

/-- DIVD (R456): either register of a pair designates it. -/
def execDivd (ar : RegNo) (m : MemOperand) (s : State) : Outcome :=
  fixedPoint (fixedWord 4#3 ar m) ar m s fun a s1 =>
    (readWord a s1).bind fun w s2 => .ok () ((divide (evenRegister ar) w s2).advance (operandLength m))

/-- DLOD (R461): the words are copied as they are. -/
def execDlod (ar : RegNo) (m : MemOperand) (s : State) : Outcome :=
  fixedPoint (fixedWord 5#3 ar m) ar m s fun a s1 => onEvenPair ar <|
    (readPair a s1).bind fun w s2 =>
      .ok () (({ s2 with status := setNZOpair w.1 w.2 s2.status }.setPair ar w.1 w.2).advance (operandLength m))

end Sys2Proof.Machine
end

