-- ==== Sys2Proof/Machine/General.lean ====
section
/-! DEFINITION. General register instructions, JUMP and JSBR (40_general_register.md): the shared operations, then one
definition for each instruction. -/

namespace Sys2Proof.Machine

/-- A general operation with the memory word or byte at `a` as target and `src` as source (R170, R171, R172). -/
def operateOnMemory (size : Size) (op : Operation) (a src : Word) (s : State) : Res Unit :=
  (if operationReadsTarget op then readOperand size a s else .ok 0#16 s).bind fun t s1 =>
    (if operationWrites op then writeOperand size a (operationResult op src t) s1 else .ok () s1).bind fun _ s2 =>
      .ok () { s2 with status := operationStatus op src t s2.status }

/-- Accumulator to memory, classes 1, 2, 3 (R151, R161, R195 to R197). An access that aborts finds the index
update and LP done (R161, R515, log 10). -/
def toMemory (cls : MemClass) (size : Size) (op : Operation) (ar : RegNo) (m : MemOperand) (s : State) : Outcome :=
  Res.finish (memWord cls size op ar m) <|
    (effectiveAddress (classIndex cls) size m s).bind fun a s1 =>
      let src := accumulator (classIndex cls) (operandLength m) ar m.xr s s1
      (operateOnMemory size op a src (s1.afterAccumulator (classIndex cls) ar m.xr)).bind fun _ s2 =>
        .ok () ((s2.advance (operandLength m)).closeIndex (classIndex cls) m.xr)

/-- The result of a general operation goes to the accumulator and the instruction ends (R25, R160, R171). Where AR = XR
was updated, which of the two writes survives is left open, and so is LP (R156, R159, log 8). -/
def deliver (index : Index) (len : Word) (op : Operation) (ar xr : RegNo) (r : Word) (s : State) : State :=
  if operationWrites op then
    if clash index ar xr && ar != 0#3 then
      (((s.spend 2).setReg ar (if s.freeBit 0 then r else s.reg ar)).withLp (s.freeBit 1)).advance len
    else s.put len ar r
  else s.advance len

/-- Memory to accumulator, classes 5, 6, 7 (R151, R161, R198 to R200). An access that aborts finds the index
update and LP done (R161, R515, log 10). -/
def fromMemory (cls : MemClass) (size : Size) (op : Operation) (ar : RegNo) (m : MemOperand) (s : State) : Outcome :=
  Res.finish (memWord cls size op ar m) <|
    (effectiveAddress (classIndex cls) size m s).bind fun a s1 =>
      (readOperand size a s1).bind fun src s2 =>
        let t := accumulator (classIndex cls) (operandLength m) ar m.xr s s2
        let s3 := s2.afterAccumulator (classIndex cls) ar m.xr
        let s4 := { s3 with status := operationStatus op src t s3.status }
        .ok () ((deliver (classIndex cls) (operandLength m) op ar m.xr (operationResult op src t) s4).closeIndex
          (classIndex cls) m.xr)

/-- A class 4 data form of `len` bytes: `src` operates on (AR) (R192 to R194). -/
def dataToAccumulator (op : Operation) (len : Word) (ar : RegNo) (src : Word) (s : State) : Outcome :=
  let t := s.data len ar
  let s1 := { s with status := operationStatus op src t s.status }
  .next (if operationWrites op then s1.put len ar (operationResult op src t) else s1.advance len)

/-- The immediate form (R194). -/
def immediate (op : Operation) (ar : RegNo) (k : BitVec 4) (s : State) : Outcome :=
  dataToAccumulator op 2#16 ar (k.setWidth 16) s

/-- The register form; XR = 0 names the program counter (R192). -/
def register (op : Operation) (ar xr : RegNo) (s : State) : Outcome :=
  dataToAccumulator op 2#16 ar (s.data 2#16 xr) s

/-- The literal form (R193). -/
def literal (op : Operation) (ar xr : RegNo) (lit : Word) (s : State) : Outcome :=
  dataToAccumulator op 4#16 ar (literalOperand lit xr s) s

/-- JUMP (R190): the effective address itself becomes the program counter. -/
def execJump (m : MemOperand) (s : State) : Outcome :=
  Res.finish (jumpWord 0#3 m) <| (effectiveAddress .none .word m s).bind fun a s1 => .ok () (s1.setPc a)

/-- JSBR (R191): the address is developed before the link is written. -/
def execJsbr (ar : RegNo) (m : MemOperand) (s : State) : Outcome :=
  Res.finish (jumpWord ar m) <| (effectiveAddress .none .word m s).bind fun a s1 =>
    .ok () ((s1.setReg ar (s1.pc + operandLength m)).setPc a)

/-! ## The instructions -/

/-- MOVW of class 1 (R173, R195). -/
def execMovwC1 (ar : RegNo) (m : MemOperand) (s : State) : Outcome := toMemory .c1 .word .mov ar m s

/-- SUBW of class 1 (R175, R195). -/
def execSubwC1 (ar : RegNo) (m : MemOperand) (s : State) : Outcome := toMemory .c1 .word .sub ar m s

/-- ADDW of class 1 (R177, R195). -/
def execAddwC1 (ar : RegNo) (m : MemOperand) (s : State) : Outcome := toMemory .c1 .word .add ar m s

/-- ANDW of class 1 (R179, R195). -/
def execAndwC1 (ar : RegNo) (m : MemOperand) (s : State) : Outcome := toMemory .c1 .word .and ar m s

/-- IORW of class 1 (R181, R195). -/
def execIorwC1 (ar : RegNo) (m : MemOperand) (s : State) : Outcome := toMemory .c1 .word .ior ar m s

/-- EORW of class 1 (R183, R195). -/
def execEorwC1 (ar : RegNo) (m : MemOperand) (s : State) : Outcome := toMemory .c1 .word .eor ar m s

/-- CMPW of class 1 (R185, R195). -/
def execCmpwC1 (ar : RegNo) (m : MemOperand) (s : State) : Outcome := toMemory .c1 .word .cmp ar m s

/-- TSTW of class 1 (R187, R195). -/
def execTstwC1 (ar : RegNo) (m : MemOperand) (s : State) : Outcome := toMemory .c1 .word .tst ar m s

/-- MOVB of class 1 (R174, R195). -/
def execMovbC1 (ar : RegNo) (m : MemOperand) (s : State) : Outcome := toMemory .c1 .byte .mov ar m s

/-- SUBB of class 1 (R176, R195). -/
def execSubbC1 (ar : RegNo) (m : MemOperand) (s : State) : Outcome := toMemory .c1 .byte .sub ar m s

/-- ADDB of class 1 (R178, R195). -/
def execAddbC1 (ar : RegNo) (m : MemOperand) (s : State) : Outcome := toMemory .c1 .byte .add ar m s

/-- ANDB of class 1 (R180, R195). -/
def execAndbC1 (ar : RegNo) (m : MemOperand) (s : State) : Outcome := toMemory .c1 .byte .and ar m s

/-- IORB of class 1 (R182, R195). -/
def execIorbC1 (ar : RegNo) (m : MemOperand) (s : State) : Outcome := toMemory .c1 .byte .ior ar m s

/-- EORB of class 1 (R184, R195). -/
def execEorbC1 (ar : RegNo) (m : MemOperand) (s : State) : Outcome := toMemory .c1 .byte .eor ar m s

/-- CMPB of class 1 (R186, R195). -/
def execCmpbC1 (ar : RegNo) (m : MemOperand) (s : State) : Outcome := toMemory .c1 .byte .cmp ar m s

/-- TSTB of class 1 (R188, R195). -/
def execTstbC1 (ar : RegNo) (m : MemOperand) (s : State) : Outcome := toMemory .c1 .byte .tst ar m s

/-- MOVW of class 2 (R173, R196). -/
def execMovwC2 (ar : RegNo) (m : MemOperand) (s : State) : Outcome := toMemory .c2 .word .mov ar m s

/-- SUBW of class 2 (R175, R196). -/
def execSubwC2 (ar : RegNo) (m : MemOperand) (s : State) : Outcome := toMemory .c2 .word .sub ar m s

/-- ADDW of class 2 (R177, R196). -/
def execAddwC2 (ar : RegNo) (m : MemOperand) (s : State) : Outcome := toMemory .c2 .word .add ar m s

/-- ANDW of class 2 (R179, R196). -/
def execAndwC2 (ar : RegNo) (m : MemOperand) (s : State) : Outcome := toMemory .c2 .word .and ar m s

/-- IORW of class 2 (R181, R196). -/
def execIorwC2 (ar : RegNo) (m : MemOperand) (s : State) : Outcome := toMemory .c2 .word .ior ar m s

/-- EORW of class 2 (R183, R196). -/
def execEorwC2 (ar : RegNo) (m : MemOperand) (s : State) : Outcome := toMemory .c2 .word .eor ar m s

/-- CMPW of class 2 (R185, R196). -/
def execCmpwC2 (ar : RegNo) (m : MemOperand) (s : State) : Outcome := toMemory .c2 .word .cmp ar m s

/-- TSTW of class 2 (R187, R196). -/
def execTstwC2 (ar : RegNo) (m : MemOperand) (s : State) : Outcome := toMemory .c2 .word .tst ar m s

/-- MOVB of class 2 (R174, R196). -/
def execMovbC2 (ar : RegNo) (m : MemOperand) (s : State) : Outcome := toMemory .c2 .byte .mov ar m s

/-- SUBB of class 2 (R176, R196). -/
def execSubbC2 (ar : RegNo) (m : MemOperand) (s : State) : Outcome := toMemory .c2 .byte .sub ar m s

/-- ADDB of class 2 (R178, R196). -/
def execAddbC2 (ar : RegNo) (m : MemOperand) (s : State) : Outcome := toMemory .c2 .byte .add ar m s

/-- ANDB of class 2 (R180, R196). -/
def execAndbC2 (ar : RegNo) (m : MemOperand) (s : State) : Outcome := toMemory .c2 .byte .and ar m s

/-- IORB of class 2 (R182, R196). -/
def execIorbC2 (ar : RegNo) (m : MemOperand) (s : State) : Outcome := toMemory .c2 .byte .ior ar m s

/-- EORB of class 2 (R184, R196). -/
def execEorbC2 (ar : RegNo) (m : MemOperand) (s : State) : Outcome := toMemory .c2 .byte .eor ar m s

/-- CMPB of class 2 (R186, R196). -/
def execCmpbC2 (ar : RegNo) (m : MemOperand) (s : State) : Outcome := toMemory .c2 .byte .cmp ar m s

/-- TSTB of class 2 (R188, R196). -/
def execTstbC2 (ar : RegNo) (m : MemOperand) (s : State) : Outcome := toMemory .c2 .byte .tst ar m s

/-- MOVW of class 3 (R173, R197). -/
def execMovwC3 (ar : RegNo) (m : MemOperand) (s : State) : Outcome := toMemory .c3 .word .mov ar m s

/-- SUBW of class 3 (R175, R197). -/
def execSubwC3 (ar : RegNo) (m : MemOperand) (s : State) : Outcome := toMemory .c3 .word .sub ar m s

/-- ADDW of class 3 (R177, R197). -/
def execAddwC3 (ar : RegNo) (m : MemOperand) (s : State) : Outcome := toMemory .c3 .word .add ar m s

/-- ANDW of class 3 (R179, R197). -/
def execAndwC3 (ar : RegNo) (m : MemOperand) (s : State) : Outcome := toMemory .c3 .word .and ar m s

/-- IORW of class 3 (R181, R197). -/
def execIorwC3 (ar : RegNo) (m : MemOperand) (s : State) : Outcome := toMemory .c3 .word .ior ar m s

/-- EORW of class 3 (R183, R197). -/
def execEorwC3 (ar : RegNo) (m : MemOperand) (s : State) : Outcome := toMemory .c3 .word .eor ar m s

/-- CMPW of class 3 (R185, R197). -/
def execCmpwC3 (ar : RegNo) (m : MemOperand) (s : State) : Outcome := toMemory .c3 .word .cmp ar m s

/-- TSTW of class 3 (R187, R197). -/
def execTstwC3 (ar : RegNo) (m : MemOperand) (s : State) : Outcome := toMemory .c3 .word .tst ar m s

/-- MOVB of class 3 (R174, R197). -/
def execMovbC3 (ar : RegNo) (m : MemOperand) (s : State) : Outcome := toMemory .c3 .byte .mov ar m s

/-- SUBB of class 3 (R176, R197). -/
def execSubbC3 (ar : RegNo) (m : MemOperand) (s : State) : Outcome := toMemory .c3 .byte .sub ar m s

/-- ADDB of class 3 (R178, R197). -/
def execAddbC3 (ar : RegNo) (m : MemOperand) (s : State) : Outcome := toMemory .c3 .byte .add ar m s

/-- ANDB of class 3 (R180, R197). -/
def execAndbC3 (ar : RegNo) (m : MemOperand) (s : State) : Outcome := toMemory .c3 .byte .and ar m s

/-- IORB of class 3 (R182, R197). -/
def execIorbC3 (ar : RegNo) (m : MemOperand) (s : State) : Outcome := toMemory .c3 .byte .ior ar m s

/-- EORB of class 3 (R184, R197). -/
def execEorbC3 (ar : RegNo) (m : MemOperand) (s : State) : Outcome := toMemory .c3 .byte .eor ar m s

/-- CMPB of class 3 (R186, R197). -/
def execCmpbC3 (ar : RegNo) (m : MemOperand) (s : State) : Outcome := toMemory .c3 .byte .cmp ar m s

/-- TSTB of class 3 (R188, R197). -/
def execTstbC3 (ar : RegNo) (m : MemOperand) (s : State) : Outcome := toMemory .c3 .byte .tst ar m s

/-- MOVW, immediate form (R173, R194). -/
def execMovwI (ar : RegNo) (k : BitVec 4) (s : State) : Outcome := immediate .mov ar k s

/-- MOVW, register form (R173, R192). -/
def execMovwR (ar : RegNo) (xr : RegNo) (s : State) : Outcome := register .mov ar xr s

/-- MOVW, literal form (R173, R193). -/
def execMovwL (ar : RegNo) (xr : RegNo) (lit : Word) (s : State) : Outcome := literal .mov ar xr lit s

/-- SUBW, immediate form (R175, R194). -/
def execSubwI (ar : RegNo) (k : BitVec 4) (s : State) : Outcome := immediate .sub ar k s

/-- SUBW, register form (R175, R192). -/
def execSubwR (ar : RegNo) (xr : RegNo) (s : State) : Outcome := register .sub ar xr s

/-- SUBW, literal form (R175, R193). -/
def execSubwL (ar : RegNo) (xr : RegNo) (lit : Word) (s : State) : Outcome := literal .sub ar xr lit s

/-- ADDW, immediate form (R177, R194). -/
def execAddwI (ar : RegNo) (k : BitVec 4) (s : State) : Outcome := immediate .add ar k s

/-- ADDW, register form (R177, R192). -/
def execAddwR (ar : RegNo) (xr : RegNo) (s : State) : Outcome := register .add ar xr s

/-- ADDW, literal form (R177, R193). -/
def execAddwL (ar : RegNo) (xr : RegNo) (lit : Word) (s : State) : Outcome := literal .add ar xr lit s

/-- ANDW, immediate form (R179, R194). -/
def execAndwI (ar : RegNo) (k : BitVec 4) (s : State) : Outcome := immediate .and ar k s

/-- ANDW, register form (R179, R192). -/
def execAndwR (ar : RegNo) (xr : RegNo) (s : State) : Outcome := register .and ar xr s

/-- ANDW, literal form (R179, R193). -/
def execAndwL (ar : RegNo) (xr : RegNo) (lit : Word) (s : State) : Outcome := literal .and ar xr lit s

/-- IORW, immediate form (R181, R194). -/
def execIorwI (ar : RegNo) (k : BitVec 4) (s : State) : Outcome := immediate .ior ar k s

/-- IORW, register form (R181, R192). -/
def execIorwR (ar : RegNo) (xr : RegNo) (s : State) : Outcome := register .ior ar xr s

/-- IORW, literal form (R181, R193). -/
def execIorwL (ar : RegNo) (xr : RegNo) (lit : Word) (s : State) : Outcome := literal .ior ar xr lit s

/-- EORW, immediate form (R183, R194). -/
def execEorwI (ar : RegNo) (k : BitVec 4) (s : State) : Outcome := immediate .eor ar k s

/-- EORW, register form (R183, R192). -/
def execEorwR (ar : RegNo) (xr : RegNo) (s : State) : Outcome := register .eor ar xr s

/-- EORW, literal form (R183, R193). -/
def execEorwL (ar : RegNo) (xr : RegNo) (lit : Word) (s : State) : Outcome := literal .eor ar xr lit s

/-- CMPW, immediate form (R185, R194). -/
def execCmpwI (ar : RegNo) (k : BitVec 4) (s : State) : Outcome := immediate .cmp ar k s

/-- CMPW, register form (R185, R192). -/
def execCmpwR (ar : RegNo) (xr : RegNo) (s : State) : Outcome := register .cmp ar xr s

/-- CMPW, literal form (R185, R193). -/
def execCmpwL (ar : RegNo) (xr : RegNo) (lit : Word) (s : State) : Outcome := literal .cmp ar xr lit s

/-- TSTW, immediate form (R187, R194). -/
def execTstwI (ar : RegNo) (k : BitVec 4) (s : State) : Outcome := immediate .tst ar k s

/-- TSTW, register form (R187, R192). -/
def execTstwR (ar : RegNo) (xr : RegNo) (s : State) : Outcome := register .tst ar xr s

/-- TSTW, literal form (R187, R193). -/
def execTstwL (ar : RegNo) (xr : RegNo) (lit : Word) (s : State) : Outcome := literal .tst ar xr lit s

/-- MOVW of class 5 (R173, R198). -/
def execMovwC5 (ar : RegNo) (m : MemOperand) (s : State) : Outcome := fromMemory .c5 .word .mov ar m s

/-- SUBW of class 5 (R175, R198). -/
def execSubwC5 (ar : RegNo) (m : MemOperand) (s : State) : Outcome := fromMemory .c5 .word .sub ar m s

/-- ADDW of class 5 (R177, R198). -/
def execAddwC5 (ar : RegNo) (m : MemOperand) (s : State) : Outcome := fromMemory .c5 .word .add ar m s

/-- ANDW of class 5 (R179, R198). -/
def execAndwC5 (ar : RegNo) (m : MemOperand) (s : State) : Outcome := fromMemory .c5 .word .and ar m s

/-- IORW of class 5 (R181, R198). -/
def execIorwC5 (ar : RegNo) (m : MemOperand) (s : State) : Outcome := fromMemory .c5 .word .ior ar m s

/-- EORW of class 5 (R183, R198). -/
def execEorwC5 (ar : RegNo) (m : MemOperand) (s : State) : Outcome := fromMemory .c5 .word .eor ar m s

/-- CMPW of class 5 (R185, R198). -/
def execCmpwC5 (ar : RegNo) (m : MemOperand) (s : State) : Outcome := fromMemory .c5 .word .cmp ar m s

/-- TSTW of class 5 (R187, R198). -/
def execTstwC5 (ar : RegNo) (m : MemOperand) (s : State) : Outcome := fromMemory .c5 .word .tst ar m s

/-- MOVB of class 5 (R174, R198). -/
def execMovbC5 (ar : RegNo) (m : MemOperand) (s : State) : Outcome := fromMemory .c5 .byte .mov ar m s

/-- SUBB of class 5 (R176, R198). -/
def execSubbC5 (ar : RegNo) (m : MemOperand) (s : State) : Outcome := fromMemory .c5 .byte .sub ar m s

/-- ADDB of class 5 (R178, R198). -/
def execAddbC5 (ar : RegNo) (m : MemOperand) (s : State) : Outcome := fromMemory .c5 .byte .add ar m s

/-- ANDB of class 5 (R180, R198). -/
def execAndbC5 (ar : RegNo) (m : MemOperand) (s : State) : Outcome := fromMemory .c5 .byte .and ar m s

/-- IORB of class 5 (R182, R198). -/
def execIorbC5 (ar : RegNo) (m : MemOperand) (s : State) : Outcome := fromMemory .c5 .byte .ior ar m s

/-- EORB of class 5 (R184, R198). -/
def execEorbC5 (ar : RegNo) (m : MemOperand) (s : State) : Outcome := fromMemory .c5 .byte .eor ar m s

/-- CMPB of class 5 (R186, R198). -/
def execCmpbC5 (ar : RegNo) (m : MemOperand) (s : State) : Outcome := fromMemory .c5 .byte .cmp ar m s

/-- TSTB of class 5 (R188, R198). -/
def execTstbC5 (ar : RegNo) (m : MemOperand) (s : State) : Outcome := fromMemory .c5 .byte .tst ar m s

/-- MOVW of class 6 (R173, R199). -/
def execMovwC6 (ar : RegNo) (m : MemOperand) (s : State) : Outcome := fromMemory .c6 .word .mov ar m s

/-- SUBW of class 6 (R175, R199). -/
def execSubwC6 (ar : RegNo) (m : MemOperand) (s : State) : Outcome := fromMemory .c6 .word .sub ar m s

/-- ADDW of class 6 (R177, R199). -/
def execAddwC6 (ar : RegNo) (m : MemOperand) (s : State) : Outcome := fromMemory .c6 .word .add ar m s

/-- ANDW of class 6 (R179, R199). -/
def execAndwC6 (ar : RegNo) (m : MemOperand) (s : State) : Outcome := fromMemory .c6 .word .and ar m s

/-- IORW of class 6 (R181, R199). -/
def execIorwC6 (ar : RegNo) (m : MemOperand) (s : State) : Outcome := fromMemory .c6 .word .ior ar m s

/-- EORW of class 6 (R183, R199). -/
def execEorwC6 (ar : RegNo) (m : MemOperand) (s : State) : Outcome := fromMemory .c6 .word .eor ar m s

/-- CMPW of class 6 (R185, R199). -/
def execCmpwC6 (ar : RegNo) (m : MemOperand) (s : State) : Outcome := fromMemory .c6 .word .cmp ar m s

/-- TSTW of class 6 (R187, R199). -/
def execTstwC6 (ar : RegNo) (m : MemOperand) (s : State) : Outcome := fromMemory .c6 .word .tst ar m s

/-- MOVB of class 6 (R174, R199). -/
def execMovbC6 (ar : RegNo) (m : MemOperand) (s : State) : Outcome := fromMemory .c6 .byte .mov ar m s

/-- SUBB of class 6 (R176, R199). -/
def execSubbC6 (ar : RegNo) (m : MemOperand) (s : State) : Outcome := fromMemory .c6 .byte .sub ar m s

/-- ADDB of class 6 (R178, R199). -/
def execAddbC6 (ar : RegNo) (m : MemOperand) (s : State) : Outcome := fromMemory .c6 .byte .add ar m s

/-- ANDB of class 6 (R180, R199). -/
def execAndbC6 (ar : RegNo) (m : MemOperand) (s : State) : Outcome := fromMemory .c6 .byte .and ar m s

/-- IORB of class 6 (R182, R199). -/
def execIorbC6 (ar : RegNo) (m : MemOperand) (s : State) : Outcome := fromMemory .c6 .byte .ior ar m s

/-- EORB of class 6 (R184, R199). -/
def execEorbC6 (ar : RegNo) (m : MemOperand) (s : State) : Outcome := fromMemory .c6 .byte .eor ar m s

/-- CMPB of class 6 (R186, R199). -/
def execCmpbC6 (ar : RegNo) (m : MemOperand) (s : State) : Outcome := fromMemory .c6 .byte .cmp ar m s

/-- TSTB of class 6 (R188, R199). -/
def execTstbC6 (ar : RegNo) (m : MemOperand) (s : State) : Outcome := fromMemory .c6 .byte .tst ar m s

/-- MOVW of class 7 (R173, R200). -/
def execMovwC7 (ar : RegNo) (m : MemOperand) (s : State) : Outcome := fromMemory .c7 .word .mov ar m s

/-- SUBW of class 7 (R175, R200). -/
def execSubwC7 (ar : RegNo) (m : MemOperand) (s : State) : Outcome := fromMemory .c7 .word .sub ar m s

/-- ADDW of class 7 (R177, R200). -/
def execAddwC7 (ar : RegNo) (m : MemOperand) (s : State) : Outcome := fromMemory .c7 .word .add ar m s

/-- ANDW of class 7 (R179, R200). -/
def execAndwC7 (ar : RegNo) (m : MemOperand) (s : State) : Outcome := fromMemory .c7 .word .and ar m s

/-- IORW of class 7 (R181, R200). -/
def execIorwC7 (ar : RegNo) (m : MemOperand) (s : State) : Outcome := fromMemory .c7 .word .ior ar m s

/-- EORW of class 7 (R183, R200). -/
def execEorwC7 (ar : RegNo) (m : MemOperand) (s : State) : Outcome := fromMemory .c7 .word .eor ar m s

/-- CMPW of class 7 (R185, R200). -/
def execCmpwC7 (ar : RegNo) (m : MemOperand) (s : State) : Outcome := fromMemory .c7 .word .cmp ar m s

/-- TSTW of class 7 (R187, R200). -/
def execTstwC7 (ar : RegNo) (m : MemOperand) (s : State) : Outcome := fromMemory .c7 .word .tst ar m s

/-- MOVB of class 7 (R174, R200). -/
def execMovbC7 (ar : RegNo) (m : MemOperand) (s : State) : Outcome := fromMemory .c7 .byte .mov ar m s

/-- SUBB of class 7 (R176, R200). -/
def execSubbC7 (ar : RegNo) (m : MemOperand) (s : State) : Outcome := fromMemory .c7 .byte .sub ar m s

/-- ADDB of class 7 (R178, R200). -/
def execAddbC7 (ar : RegNo) (m : MemOperand) (s : State) : Outcome := fromMemory .c7 .byte .add ar m s

/-- ANDB of class 7 (R180, R200). -/
def execAndbC7 (ar : RegNo) (m : MemOperand) (s : State) : Outcome := fromMemory .c7 .byte .and ar m s

/-- IORB of class 7 (R182, R200). -/
def execIorbC7 (ar : RegNo) (m : MemOperand) (s : State) : Outcome := fromMemory .c7 .byte .ior ar m s

/-- EORB of class 7 (R184, R200). -/
def execEorbC7 (ar : RegNo) (m : MemOperand) (s : State) : Outcome := fromMemory .c7 .byte .eor ar m s

/-- CMPB of class 7 (R186, R200). -/
def execCmpbC7 (ar : RegNo) (m : MemOperand) (s : State) : Outcome := fromMemory .c7 .byte .cmp ar m s

/-- TSTB of class 7 (R188, R200). -/
def execTstbC7 (ar : RegNo) (m : MemOperand) (s : State) : Outcome := fromMemory .c7 .byte .tst ar m s

end Sys2Proof.Machine
end

