-- ==== Sys2Proof/Machine/Shift.lean ====
section
/-! DEFINITION. Single-length shifts (42_shift.md): the shared operations, then one definition for each instruction. -/

namespace Sys2Proof.Machine

/-- A register and the status word beside it, as a shift goes through them. -/
structure Single where
  a : Word
  st : Word
  deriving DecidableEq, Repr

/-- One step of a single shift (R244 to R252). CY and OV change only where the rule shows it. -/
def singleStep (op : ShiftOp) (x : Single) : Single :=
  match op with
  | .lao =>
    { a := x.a <<< 1
      st := setFlag .cy (x.a.getLsbD 15) (setFlag .ov (getFlag .ov x.st || x.a.getLsbD 14 != x.a.getLsbD 15) x.st) }
  | .lll =>
    { a := setBit 0 (getFlag .cy x.st) (x.a <<< 1)
      st := setFlag .cy (x.a.getLsbD 15) (setFlag .ov (getFlag .ov x.st || x.a.getLsbD 14 != x.a.getLsbD 15) x.st) }
  | .llo => { x with a := x.a <<< 1 }
  | .llc => { x with a := setBit 0 (x.a.getLsbD 15) (x.a <<< 1) }
  | .rao => { x with a := setBit 15 (x.a.getLsbD 15) (x.a >>> 1) }
  | .rll =>
    { a := setBit 15 (getFlag .cy x.st) (x.a >>> 1)
      st := setFlag .cy (x.a.getLsbD 0) x.st }
  | .rlo => { x with a := x.a >>> 1 }
  | .rlc => { x with a := setBit 15 (x.a.getLsbD 0) (x.a >>> 1) }

/-- `n` steps, and CY reset at the end of SRAO (R243, R248). -/
def singleShift (op : ShiftOp) (n : Nat) (a st : Word) : Single :=
  let x := (singleStep op)^[n] { a := a, st := st }
  match op with
  | .rao => { x with st := setFlag .cy false x.st }
  | .lao => x
  | .lll => x
  | .llo => x
  | .llc => x
  | .rll => x
  | .rlo => x
  | .rlc => x

/-- The skeleton of a single shift by `n` (R243, R251). -/
def shift (op : ShiftOp) (ar : RegNo) (n : Nat) (s : State) : State :=
  let x := singleShift op n (s.data 2#16 ar) s.status
  { s with status := setNZO x.a x.st }.put 2#16 ar x.a

/-- Shift Immediate: the count is K (R241). -/
def shiftByConstant (op : ShiftOp) (ar : RegNo) (k : BitVec 4) (s : State) : Outcome := .next (shift op ar k.toNat s)

/-- Shift Indexed: the count is the low four bits of (XR) (R241). -/
def shiftByRegister (op : ShiftOp) (ar xr : RegNo) (s : State) : Outcome :=
  .next (shift op ar ((s.countRegister xr).setWidth 4).toNat (s.afterCount xr))

/-! ## The instructions -/

/-- SLAO, count in K (R245). -/
def execSlaoK (ar : RegNo) (k : BitVec 4) (s : State) : Outcome := shiftByConstant .lao ar k s

/-- SLAO, count in (XR) (R245). -/
def execSlaoX (ar : RegNo) (xr : RegNo) (s : State) : Outcome := shiftByRegister .lao ar xr s

/-- SLLL, count in K (R244). -/
def execSlllK (ar : RegNo) (k : BitVec 4) (s : State) : Outcome := shiftByConstant .lll ar k s

/-- SLLL, count in (XR) (R244). -/
def execSlllX (ar : RegNo) (xr : RegNo) (s : State) : Outcome := shiftByRegister .lll ar xr s

/-- SLLO, count in K (R246). -/
def execSlloK (ar : RegNo) (k : BitVec 4) (s : State) : Outcome := shiftByConstant .llo ar k s

/-- SLLO, count in (XR) (R246). -/
def execSlloX (ar : RegNo) (xr : RegNo) (s : State) : Outcome := shiftByRegister .llo ar xr s

/-- SLLC, count in K (R247). -/
def execSllcK (ar : RegNo) (k : BitVec 4) (s : State) : Outcome := shiftByConstant .llc ar k s

/-- SLLC, count in (XR) (R247). -/
def execSllcX (ar : RegNo) (xr : RegNo) (s : State) : Outcome := shiftByRegister .llc ar xr s

/-- SRAO, count in K (R248). -/
def execSraoK (ar : RegNo) (k : BitVec 4) (s : State) : Outcome := shiftByConstant .rao ar k s

/-- SRAO, count in (XR) (R248). -/
def execSraoX (ar : RegNo) (xr : RegNo) (s : State) : Outcome := shiftByRegister .rao ar xr s

/-- SRLL, count in K (R249). -/
def execSrllK (ar : RegNo) (k : BitVec 4) (s : State) : Outcome := shiftByConstant .rll ar k s

/-- SRLL, count in (XR) (R249). -/
def execSrllX (ar : RegNo) (xr : RegNo) (s : State) : Outcome := shiftByRegister .rll ar xr s

/-- SRLO, count in K (R250). -/
def execSrloK (ar : RegNo) (k : BitVec 4) (s : State) : Outcome := shiftByConstant .rlo ar k s

/-- SRLO, count in (XR) (R250). -/
def execSrloX (ar : RegNo) (xr : RegNo) (s : State) : Outcome := shiftByRegister .rlo ar xr s

/-- SRLC, count in K (R252). -/
def execSrlcK (ar : RegNo) (k : BitVec 4) (s : State) : Outcome := shiftByConstant .rlc ar k s

/-- SRLC, count in (XR) (R252). -/
def execSrlcX (ar : RegNo) (xr : RegNo) (s : State) : Outcome := shiftByRegister .rlc ar xr s

end Sys2Proof.Machine
end

