-- ==== Sys2Proof/Machine/Dispatch.lean ====
section
/-! DEFINITION. The dispatch: one arm for each instruction. -/

namespace Sys2Proof.Machine

def exec (i : Instr) (s : State) : Host.Outcome State Fault Refusal :=
  match i with
  | .halt ignored => Sys2Proof.Machine.execHalt ignored s
  | .stsm rel d => Sys2Proof.Machine.execStsm rel d s
  | .rsts f => Sys2Proof.Machine.execRsts f s
  | .sets f => Sys2Proof.Machine.execSets f s
  | .regm rel d => Sys2Proof.Machine.execRegm rel d s
  | .retn rel d => Sys2Proof.Machine.execRetn rel d s
  | .msts rel d => Sys2Proof.Machine.execMsts rel d s
  | .fclw ar m => Sys2Proof.Machine.execFclw ar m s
  | .fclb ar m => Sys2Proof.Machine.execFclb ar m s
  | .mreg rel d => Sys2Proof.Machine.execMreg rel d s
  | .wait => Sys2Proof.Machine.execWait s
  | .waitD => Sys2Proof.Machine.execWaitD s
  | .enbl k => Sys2Proof.Machine.execEnbl k s
  | .enbw k => Sys2Proof.Machine.execEnbw k s
  | .dsbl k => Sys2Proof.Machine.execDsbl k s
  | .dsbw k => Sys2Proof.Machine.execDsbw k s
  | .movwC1 ar m => Sys2Proof.Machine.execMovwC1 ar m s
  | .subwC1 ar m => Sys2Proof.Machine.execSubwC1 ar m s
  | .addwC1 ar m => Sys2Proof.Machine.execAddwC1 ar m s
  | .andwC1 ar m => Sys2Proof.Machine.execAndwC1 ar m s
  | .iorwC1 ar m => Sys2Proof.Machine.execIorwC1 ar m s
  | .eorwC1 ar m => Sys2Proof.Machine.execEorwC1 ar m s
  | .cmpwC1 ar m => Sys2Proof.Machine.execCmpwC1 ar m s
  | .tstwC1 ar m => Sys2Proof.Machine.execTstwC1 ar m s
  | .movbC1 ar m => Sys2Proof.Machine.execMovbC1 ar m s
  | .subbC1 ar m => Sys2Proof.Machine.execSubbC1 ar m s
  | .addbC1 ar m => Sys2Proof.Machine.execAddbC1 ar m s
  | .andbC1 ar m => Sys2Proof.Machine.execAndbC1 ar m s
  | .iorbC1 ar m => Sys2Proof.Machine.execIorbC1 ar m s
  | .eorbC1 ar m => Sys2Proof.Machine.execEorbC1 ar m s
  | .cmpbC1 ar m => Sys2Proof.Machine.execCmpbC1 ar m s
  | .tstbC1 ar m => Sys2Proof.Machine.execTstbC1 ar m s
  | .movwC2 ar m => Sys2Proof.Machine.execMovwC2 ar m s
  | .subwC2 ar m => Sys2Proof.Machine.execSubwC2 ar m s
  | .addwC2 ar m => Sys2Proof.Machine.execAddwC2 ar m s
  | .andwC2 ar m => Sys2Proof.Machine.execAndwC2 ar m s
  | .iorwC2 ar m => Sys2Proof.Machine.execIorwC2 ar m s
  | .eorwC2 ar m => Sys2Proof.Machine.execEorwC2 ar m s
  | .cmpwC2 ar m => Sys2Proof.Machine.execCmpwC2 ar m s
  | .tstwC2 ar m => Sys2Proof.Machine.execTstwC2 ar m s
  | .movbC2 ar m => Sys2Proof.Machine.execMovbC2 ar m s
  | .subbC2 ar m => Sys2Proof.Machine.execSubbC2 ar m s
  | .addbC2 ar m => Sys2Proof.Machine.execAddbC2 ar m s
  | .andbC2 ar m => Sys2Proof.Machine.execAndbC2 ar m s
  | .iorbC2 ar m => Sys2Proof.Machine.execIorbC2 ar m s
  | .eorbC2 ar m => Sys2Proof.Machine.execEorbC2 ar m s
  | .cmpbC2 ar m => Sys2Proof.Machine.execCmpbC2 ar m s
  | .tstbC2 ar m => Sys2Proof.Machine.execTstbC2 ar m s
  | .movwC3 ar m => Sys2Proof.Machine.execMovwC3 ar m s
  | .subwC3 ar m => Sys2Proof.Machine.execSubwC3 ar m s
  | .addwC3 ar m => Sys2Proof.Machine.execAddwC3 ar m s
  | .andwC3 ar m => Sys2Proof.Machine.execAndwC3 ar m s
  | .iorwC3 ar m => Sys2Proof.Machine.execIorwC3 ar m s
  | .eorwC3 ar m => Sys2Proof.Machine.execEorwC3 ar m s
  | .cmpwC3 ar m => Sys2Proof.Machine.execCmpwC3 ar m s
  | .tstwC3 ar m => Sys2Proof.Machine.execTstwC3 ar m s
  | .movbC3 ar m => Sys2Proof.Machine.execMovbC3 ar m s
  | .subbC3 ar m => Sys2Proof.Machine.execSubbC3 ar m s
  | .addbC3 ar m => Sys2Proof.Machine.execAddbC3 ar m s
  | .andbC3 ar m => Sys2Proof.Machine.execAndbC3 ar m s
  | .iorbC3 ar m => Sys2Proof.Machine.execIorbC3 ar m s
  | .eorbC3 ar m => Sys2Proof.Machine.execEorbC3 ar m s
  | .cmpbC3 ar m => Sys2Proof.Machine.execCmpbC3 ar m s
  | .tstbC3 ar m => Sys2Proof.Machine.execTstbC3 ar m s
  | .jump m => Sys2Proof.Machine.execJump m s
  | .jsbr ar m => Sys2Proof.Machine.execJsbr ar m s
  | .rbitK ar k => Sys2Proof.Machine.execRbitK ar k s
  | .rbitX ar xr => Sys2Proof.Machine.execRbitX ar xr s
  | .rbitM ar xr mask => Sys2Proof.Machine.execRbitM ar xr mask s
  | .sbitK ar k => Sys2Proof.Machine.execSbitK ar k s
  | .sbitX ar xr => Sys2Proof.Machine.execSbitX ar xr s
  | .sbitM ar xr mask => Sys2Proof.Machine.execSbitM ar xr mask s
  | .cbitK ar k => Sys2Proof.Machine.execCbitK ar k s
  | .cbitX ar xr => Sys2Proof.Machine.execCbitX ar xr s
  | .cbitM ar xr mask => Sys2Proof.Machine.execCbitM ar xr mask s
  | .ibitK ar k => Sys2Proof.Machine.execIbitK ar k s
  | .ibitX ar xr => Sys2Proof.Machine.execIbitX ar xr s
  | .ibitM ar xr mask => Sys2Proof.Machine.execIbitM ar xr mask s
  | .tsbtK ar k => Sys2Proof.Machine.execTsbtK ar k s
  | .tsbtX ar xr => Sys2Proof.Machine.execTsbtX ar xr s
  | .tsbtM ar xr mask => Sys2Proof.Machine.execTsbtM ar xr mask s
  | .tbitK ar k => Sys2Proof.Machine.execTbitK ar k s
  | .tbitX ar xr => Sys2Proof.Machine.execTbitX ar xr s
  | .tbitM ar xr mask => Sys2Proof.Machine.execTbitM ar xr mask s
  | .negt ar xr => Sys2Proof.Machine.execNegt ar xr s
  | .cplm ar xr => Sys2Proof.Machine.execCplm ar xr s
  | .movp ar xr => Sys2Proof.Machine.execMovp ar xr s
  | .movn ar xr => Sys2Proof.Machine.execMovn ar xr s
  | .movwI ar k => Sys2Proof.Machine.execMovwI ar k s
  | .movwR ar xr => Sys2Proof.Machine.execMovwR ar xr s
  | .movwL ar xr lit => Sys2Proof.Machine.execMovwL ar xr lit s
  | .subwI ar k => Sys2Proof.Machine.execSubwI ar k s
  | .subwR ar xr => Sys2Proof.Machine.execSubwR ar xr s
  | .subwL ar xr lit => Sys2Proof.Machine.execSubwL ar xr lit s
  | .addwI ar k => Sys2Proof.Machine.execAddwI ar k s
  | .addwR ar xr => Sys2Proof.Machine.execAddwR ar xr s
  | .addwL ar xr lit => Sys2Proof.Machine.execAddwL ar xr lit s
  | .andwI ar k => Sys2Proof.Machine.execAndwI ar k s
  | .andwR ar xr => Sys2Proof.Machine.execAndwR ar xr s
  | .andwL ar xr lit => Sys2Proof.Machine.execAndwL ar xr lit s
  | .iorwI ar k => Sys2Proof.Machine.execIorwI ar k s
  | .iorwR ar xr => Sys2Proof.Machine.execIorwR ar xr s
  | .iorwL ar xr lit => Sys2Proof.Machine.execIorwL ar xr lit s
  | .eorwI ar k => Sys2Proof.Machine.execEorwI ar k s
  | .eorwR ar xr => Sys2Proof.Machine.execEorwR ar xr s
  | .eorwL ar xr lit => Sys2Proof.Machine.execEorwL ar xr lit s
  | .cmpwI ar k => Sys2Proof.Machine.execCmpwI ar k s
  | .cmpwR ar xr => Sys2Proof.Machine.execCmpwR ar xr s
  | .cmpwL ar xr lit => Sys2Proof.Machine.execCmpwL ar xr lit s
  | .tstwI ar k => Sys2Proof.Machine.execTstwI ar k s
  | .tstwR ar xr => Sys2Proof.Machine.execTstwR ar xr s
  | .tstwL ar xr lit => Sys2Proof.Machine.execTstwL ar xr lit s
  | .movwC5 ar m => Sys2Proof.Machine.execMovwC5 ar m s
  | .subwC5 ar m => Sys2Proof.Machine.execSubwC5 ar m s
  | .addwC5 ar m => Sys2Proof.Machine.execAddwC5 ar m s
  | .andwC5 ar m => Sys2Proof.Machine.execAndwC5 ar m s
  | .iorwC5 ar m => Sys2Proof.Machine.execIorwC5 ar m s
  | .eorwC5 ar m => Sys2Proof.Machine.execEorwC5 ar m s
  | .cmpwC5 ar m => Sys2Proof.Machine.execCmpwC5 ar m s
  | .tstwC5 ar m => Sys2Proof.Machine.execTstwC5 ar m s
  | .movbC5 ar m => Sys2Proof.Machine.execMovbC5 ar m s
  | .subbC5 ar m => Sys2Proof.Machine.execSubbC5 ar m s
  | .addbC5 ar m => Sys2Proof.Machine.execAddbC5 ar m s
  | .andbC5 ar m => Sys2Proof.Machine.execAndbC5 ar m s
  | .iorbC5 ar m => Sys2Proof.Machine.execIorbC5 ar m s
  | .eorbC5 ar m => Sys2Proof.Machine.execEorbC5 ar m s
  | .cmpbC5 ar m => Sys2Proof.Machine.execCmpbC5 ar m s
  | .tstbC5 ar m => Sys2Proof.Machine.execTstbC5 ar m s
  | .movwC6 ar m => Sys2Proof.Machine.execMovwC6 ar m s
  | .subwC6 ar m => Sys2Proof.Machine.execSubwC6 ar m s
  | .addwC6 ar m => Sys2Proof.Machine.execAddwC6 ar m s
  | .andwC6 ar m => Sys2Proof.Machine.execAndwC6 ar m s
  | .iorwC6 ar m => Sys2Proof.Machine.execIorwC6 ar m s
  | .eorwC6 ar m => Sys2Proof.Machine.execEorwC6 ar m s
  | .cmpwC6 ar m => Sys2Proof.Machine.execCmpwC6 ar m s
  | .tstwC6 ar m => Sys2Proof.Machine.execTstwC6 ar m s
  | .movbC6 ar m => Sys2Proof.Machine.execMovbC6 ar m s
  | .subbC6 ar m => Sys2Proof.Machine.execSubbC6 ar m s
  | .addbC6 ar m => Sys2Proof.Machine.execAddbC6 ar m s
  | .andbC6 ar m => Sys2Proof.Machine.execAndbC6 ar m s
  | .iorbC6 ar m => Sys2Proof.Machine.execIorbC6 ar m s
  | .eorbC6 ar m => Sys2Proof.Machine.execEorbC6 ar m s
  | .cmpbC6 ar m => Sys2Proof.Machine.execCmpbC6 ar m s
  | .tstbC6 ar m => Sys2Proof.Machine.execTstbC6 ar m s
  | .movwC7 ar m => Sys2Proof.Machine.execMovwC7 ar m s
  | .subwC7 ar m => Sys2Proof.Machine.execSubwC7 ar m s
  | .addwC7 ar m => Sys2Proof.Machine.execAddwC7 ar m s
  | .andwC7 ar m => Sys2Proof.Machine.execAndwC7 ar m s
  | .iorwC7 ar m => Sys2Proof.Machine.execIorwC7 ar m s
  | .eorwC7 ar m => Sys2Proof.Machine.execEorwC7 ar m s
  | .cmpwC7 ar m => Sys2Proof.Machine.execCmpwC7 ar m s
  | .tstwC7 ar m => Sys2Proof.Machine.execTstwC7 ar m s
  | .movbC7 ar m => Sys2Proof.Machine.execMovbC7 ar m s
  | .subbC7 ar m => Sys2Proof.Machine.execSubbC7 ar m s
  | .addbC7 ar m => Sys2Proof.Machine.execAddbC7 ar m s
  | .andbC7 ar m => Sys2Proof.Machine.execAndbC7 ar m s
  | .iorbC7 ar m => Sys2Proof.Machine.execIorbC7 ar m s
  | .eorbC7 ar m => Sys2Proof.Machine.execEorbC7 ar m s
  | .cmpbC7 ar m => Sys2Proof.Machine.execCmpbC7 ar m s
  | .tstbC7 ar m => Sys2Proof.Machine.execTstbC7 ar m s
  | .nopr ignored => Sys2Proof.Machine.execNopr ignored s
  | .beqf d => Sys2Proof.Machine.execBeqf d s
  | .bgtf d => Sys2Proof.Machine.execBgtf d s
  | .bovf d => Sys2Proof.Machine.execBovf d s
  | .bcyf d => Sys2Proof.Machine.execBcyf d s
  | .bf1f d => Sys2Proof.Machine.execBf1f d s
  | .bf2f d => Sys2Proof.Machine.execBf2f d s
  | .bf3f d => Sys2Proof.Machine.execBf3f d s
  | .blpf d => Sys2Proof.Machine.execBlpf d s
  | .bodf d => Sys2Proof.Machine.execBodf d s
  | .bzef d => Sys2Proof.Machine.execBzef d s
  | .bngf d => Sys2Proof.Machine.execBngf d s
  | .bltf d => Sys2Proof.Machine.execBltf d s
  | .brun d => Sys2Proof.Machine.execBrun d s
  | .beqt d => Sys2Proof.Machine.execBeqt d s
  | .bgtt d => Sys2Proof.Machine.execBgtt d s
  | .bovt d => Sys2Proof.Machine.execBovt d s
  | .bcyt d => Sys2Proof.Machine.execBcyt d s
  | .bf1t d => Sys2Proof.Machine.execBf1t d s
  | .bf2t d => Sys2Proof.Machine.execBf2t d s
  | .bf3t d => Sys2Proof.Machine.execBf3t d s
  | .blpt d => Sys2Proof.Machine.execBlpt d s
  | .bodt d => Sys2Proof.Machine.execBodt d s
  | .bzet d => Sys2Proof.Machine.execBzet d s
  | .bngt d => Sys2Proof.Machine.execBngt d s
  | .bltt d => Sys2Proof.Machine.execBltt d s
  | .slaoK ar k => Sys2Proof.Machine.execSlaoK ar k s
  | .slaoX ar xr => Sys2Proof.Machine.execSlaoX ar xr s
  | .slllK ar k => Sys2Proof.Machine.execSlllK ar k s
  | .slllX ar xr => Sys2Proof.Machine.execSlllX ar xr s
  | .slloK ar k => Sys2Proof.Machine.execSlloK ar k s
  | .slloX ar xr => Sys2Proof.Machine.execSlloX ar xr s
  | .sllcK ar k => Sys2Proof.Machine.execSllcK ar k s
  | .sllcX ar xr => Sys2Proof.Machine.execSllcX ar xr s
  | .sraoK ar k => Sys2Proof.Machine.execSraoK ar k s
  | .sraoX ar xr => Sys2Proof.Machine.execSraoX ar xr s
  | .srllK ar k => Sys2Proof.Machine.execSrllK ar k s
  | .srllX ar xr => Sys2Proof.Machine.execSrllX ar xr s
  | .srloK ar k => Sys2Proof.Machine.execSrloK ar k s
  | .srloX ar xr => Sys2Proof.Machine.execSrloX ar xr s
  | .srlcK ar k => Sys2Proof.Machine.execSrlcK ar k s
  | .srlcX ar xr => Sys2Proof.Machine.execSrlcX ar xr s
  | .slan ar xr => Sys2Proof.Machine.execSlan ar xr s
  | .slln ar xr => Sys2Proof.Machine.execSlln ar xr s
  | .sran ar xr => Sys2Proof.Machine.execSran ar xr s
  | .srln ar xr => Sys2Proof.Machine.execSrln ar xr s
  | .dlan ar xr => Sys2Proof.Machine.execDlan ar xr s
  | .dlln ar xr => Sys2Proof.Machine.execDlln ar xr s
  | .dran ar xr => Sys2Proof.Machine.execDran ar xr s
  | .drln ar xr => Sys2Proof.Machine.execDrln ar xr s
  | .dlaoK pair k => Sys2Proof.Machine.execDlaoK pair k s
  | .dlaoX ar xr => Sys2Proof.Machine.execDlaoX ar xr s
  | .dlllK pair k => Sys2Proof.Machine.execDlllK pair k s
  | .dlllX ar xr => Sys2Proof.Machine.execDlllX ar xr s
  | .dlloK pair k => Sys2Proof.Machine.execDlloK pair k s
  | .dlloX ar xr => Sys2Proof.Machine.execDlloX ar xr s
  | .dllcK pair k => Sys2Proof.Machine.execDllcK pair k s
  | .dllcX ar xr => Sys2Proof.Machine.execDllcX ar xr s
  | .draoK pair k => Sys2Proof.Machine.execDraoK pair k s
  | .draoX ar xr => Sys2Proof.Machine.execDraoX ar xr s
  | .drllK pair k => Sys2Proof.Machine.execDrllK pair k s
  | .drllX ar xr => Sys2Proof.Machine.execDrllX ar xr s
  | .drloK pair k => Sys2Proof.Machine.execDrloK pair k s
  | .drloX ar xr => Sys2Proof.Machine.execDrloX ar xr s
  | .drlcK pair k => Sys2Proof.Machine.execDrlcK pair k s
  | .drlcX ar xr => Sys2Proof.Machine.execDrlcX ar xr s
  | .dsta ar m => Sys2Proof.Machine.execDsta ar m s
  | .dsub ar m => Sys2Proof.Machine.execDsub ar m s
  | .dadd ar m => Sys2Proof.Machine.execDadd ar m s
  | .mlta pair m => Sys2Proof.Machine.execMlta pair m s
  | .mult pair m => Sys2Proof.Machine.execMult pair m s
  | .divd ar m => Sys2Proof.Machine.execDivd ar m s
  | .dlod ar m => Sys2Proof.Machine.execDlod ar m s
  | .zadd r1 r2 l1 l2 x1 x2 => Sys2Proof.Machine.execZadd r1 r2 l1 l2 x1 x2 s
  | .addd r1 r2 l1 l2 x1 x2 => Sys2Proof.Machine.execAddd r1 r2 l1 l2 x1 x2 s
  | .subd r1 r2 l1 l2 x1 x2 => Sys2Proof.Machine.execSubd r1 r2 l1 l2 x1 x2 s
  | .cmpd r1 r2 l1 l2 x1 x2 => Sys2Proof.Machine.execCmpd r1 r2 l1 l2 x1 x2 s
  | .movr r1 r2 l1 l2 x1 x2 => Sys2Proof.Machine.execMovr r1 r2 l1 l2 x1 x2 s
  | .movl r1 r2 l1 l2 x1 x2 => Sys2Proof.Machine.execMovl r1 r2 l1 l2 x1 x2 s
  | .comp r1 r2 l1 l2 x1 x2 => Sys2Proof.Machine.execComp r1 r2 l1 l2 x1 x2 s
  | .sftr r1 l1 sh x1 x2 => Sys2Proof.Machine.execSftr r1 l1 sh x1 x2 s
  | .sftl r1 l1 sh x1 x2 => Sys2Proof.Machine.execSftl r1 l1 sh x1 x2 s
  | .skey k => Sys2Proof.Machine.execSkey k s
  | .jkey k target => Sys2Proof.Machine.execJkey k target s
  | .lcpu xr => Sys2Proof.Machine.execLcpu xr s
  | .lkey xr => Sys2Proof.Machine.execLkey xr s

end Sys2Proof.Machine
end

