-- ==== Sys2Proof/Machine/Fetch.lean ====
section
/-! DEFINITION. Instruction fetch, words that are no instruction, the end of a WAIT, and the placing of an instruction
where the next step fetches it. -/

namespace Sys2Proof.Machine

/-- One word of the instruction stream at `a` (R66, R79). A fetch outside program memory aborts (R26, R509, log 17). -/
def fetchWord (a : Word) (s : State) : Res Word := if s.inMemory a then .ok (s.mem.word a) s else .abort a s

/-- The first and second word of the instruction at the program counter (R66, R104); the second is read only where the
configured model's instruction has one (log 38). An odd program counter is refused (R26, log 18). -/
def fetch (s : State) : Res (Word × Word) :=
  if s.pc.getLsbD 0 then .refuse .oddProgramCounter
  else
    (fetchWord s.pc s).bind fun iw s1 =>
      if hasSecondWord s1.par.model s1.par.encodings iw then
        (fetchWord (s1.pc + 2#16) s1).bind fun iw2 s2 => .ok (iw, iw2) s2
      else .ok (iw, 0#16) s1

/-- A word the decoder assigns to no instruction: it traps where G3 says so, else it is undefined (R112, R115, R116). -/
def undecoded (iw : Word) (s : State) : Outcome :=
  if statedTrap s.par.model iw then takeUnimplemented iw s else undefinedWord iw s

/-- A halted processor: a RUN event lets it go on at the saved program counter, Active; else it makes no step of its own
(R34, R270, R563, log 20). The event is consumed here and nowhere else: one that arrives while the processor runs or waits
stays requested and ends the next HALT at once, a point the spec leaves open (log 20). -/
def haltedStep (s : State) : Outcome :=
  if s.runRequest then .next { s with run := .running, runRequest := false, status := setFlag .a true s.status }
  else .next s

/-- A waiting processor: a request of level 4 that is not masked is taken with the waiting instruction's address as saved
program counter; one of level 1, 2 or 3 is consumed and execution continues at the next instruction; else it goes on
waiting (R279, R520, R521, log 20). -/
def waitingStep (s : State) : Outcome :=
  match s.request with
  | some (j, w) =>
    if j = 4 then takeSystem 4 w s
    else .next ({ s with run := .running, pending := s.pending.consume j }.advance 2#16)
  | none => .next s

/-- A model that has the instruction with this first word: the given one if it has it, else a model of the 1111 or 1112
(log 33). -/
def modelFor (model : Model) (iw : Word) : Model :=
  if implements model iw then model else if fieldC iw = 12#4 then .m1111B else .m1112B

/-- The instruction of `nbits` bits `w`, numbered as the opcode table numbers them, stored at the program counter of a
running processor without requests, on a model that has it (log 33). -/
def State.placed (s : State) (nbits w : Nat) : State :=
  let v := w % 2 ^ nbits
  let iw := BitVec.ofNat 16 v
  { s with
    mem := (s.mem.setWord s.pc iw).setWord (s.pc + 2#16) (BitVec.ofNat 16 (v / 65536))
    run := .running
    pending := Pending.none
    par := { s.par with model := modelFor s.par.model iw } }

end Sys2Proof.Machine
end

