-- ==== Sys2Proof/Machine/Step.lean ====
section
/-! DEFINITION. One step of the processor: an interrupt entry, an instruction, or what a halted or waiting processor
does. -/

namespace Sys2Proof.Machine

/-- The instruction at the program counter: fetched, decoded, executed. -/
def instruction (s : State) : Outcome :=
  match fetch s with
  | .ok w s1 =>
    match decodeWith s1.par.encodings w.1 w.2 with
    | some i => exec i s1
    | none => undecoded w.1 s1
  | .unimplemented s1 => takeUnimplemented 0#16 s1
  | .abort addr s1 => takeAbort addr s1
  | .refuse r => .refused r

/-- One step (R12, R34, R520, R523). A system interrupt that is recognised at the boundary is a step of its own. A running
or waiting processor does not look at the RUN event, which stays requested until a HALT (log 20). -/
def step (s : State) : Host.Outcome State Fault Refusal :=
  match s.run with
  | .halted => haltedStep s
  | .waiting => waitingStep s
  | .running =>
    match s.request with
    | some (j, w) => takeSystem j w s
    | none => instruction s

/-- The state in which the next step fetches and runs the instruction of the host's numbering (log 33). -/
def State.withFetchWord (s : State) (nbits w : Nat) : State := s.placed nbits w

end Sys2Proof.Machine
end

