-- ==== Sys2Proof/Safety.lean ====
section
/-! DEFINITION. The terms of the claims: what a well-formed state is, what an instruction may leave as it was, and what
the results of an instruction look like, written beside the meanings from the rules of the spec. -/

namespace Sys2Proof.Machine

/-! ## States -/

/-- The invariant of the machine: the parameters are legal (R6), the memory has its canonical form, and a processor that
is not halted has its Active bit set. Of a running processor R31 says so; that the bit stays 1 in the WAIT state is the
model's choice (log 41). -/
def State.wf (s : State) : Bool :=
  s.par.legal && s.mem.wf && (s.run == .halted || s.flag .a)

/-- Key, run state, requests, the two inert registers and the parameters are as before. -/
def sameOutside (s t : State) : Prop :=
  t.key = s.key ∧ t.run = s.run ∧ t.pending = s.pending ∧ t.runRequest = s.runRequest ∧
    t.instrRegister = s.instrRegister ∧ t.controlFlipFlops = s.controlFlipFlops ∧ t.par = s.par

/-- No system register was read or written between the two states. -/
def sameDevices (s t : State) : Prop := t.deviceIn = s.deviceIn ∧ t.deviceLog = s.deviceLog

/-- Every byte of memory outside those in the list reads as before. -/
def sameMemoryBut (bytes : List Word) (s t : State) : Prop := ∀ a : Word, a ∉ bytes → t.mem.byte a = s.mem.byte a

/-- Every general register but the program counter and those in the list is as before. -/
def sameRegistersBut (rs : List RegNo) (s t : State) : Prop := ∀ r : RegNo, r ≠ 0#3 → r ∉ rs → t.reg r = s.reg r

/-- Every indicator but those in the list is as before. -/
def sameFlagsBut (fs : List Flag) (s t : State) : Prop := ∀ f : Flag, f ∉ fs → t.flag f = s.flag f

/-- The frame of an instruction: beside the program counter and the system registers, only these general registers,
indicators and bytes of memory may change. -/
def sameBut (rs : List RegNo) (fs : List Flag) (bytes : List Word) (s t : State) : Prop :=
  sameRegistersBut rs s t ∧ sameFlagsBut fs s t ∧ sameMemoryBut bytes s t ∧ sameOutside s t

/-! ## Operands and results -/

/-- The bytes of the operand at `a` (R62, R64, R65). -/
def operandBytes (size : Size) (a : Word) : List Word :=
  match size with
  | .word => [evenAddr a, oddAddr a]
  | .byte => [a]

/-- Does the operand at `a` lie in program memory (R69)? -/
def State.holds (s : State) (size : Size) (a : Word) : Bool := (operandBytes size a).all s.inMemory

/-- The operand at `a` as a word, a byte extended with zeros (R62, R65). -/
def State.operand (s : State) (size : Size) (a : Word) : Word :=
  match size with
  | .word => s.mem.word a
  | .byte => (s.mem.byte a).setWidth 16

/-- What an operand of this size reads as after `v` was stored to it. -/
def stored (size : Size) (v : Word) : Word :=
  match size with
  | .word => v
  | .byte => v &&& 0x00FF#16

/-- A result in register `r` of an instruction of `len` bytes: the program counter is advanced, or receives the result
(R25). -/
def delivered (len : Word) (r : RegNo) (v : Word) (s t : State) : Prop :=
  if r = 0#3 then t.pc = v else t.reg r = v ∧ t.pc = s.pc + len

/-- NG, ZE and OD show the word `v` (R9). -/
def shows (v : Word) (t : State) : Prop :=
  t.flag .ng = v.getLsbD 15 ∧ t.flag .ze = (v == 0#16) ∧ t.flag .od = v.getLsbD 0

/-- NG, ZE and OD show the pair of words in registers `r` and `r + 1` (R400). -/
def showsPair (r : RegNo) (t : State) : Prop :=
  t.flag .ng = (t.reg r).getLsbD 15 ∧ t.flag .ze = (t.reg r == 0#16 && t.reg (oddRegister r) == 0#16) ∧
    t.flag .od = (t.reg (oddRegister r)).getLsbD 0

/-- The indicators a general operation writes (R171, R185). -/
def operationFlags (op : Operation) : List Flag :=
  match op with
  | .mov | .and | .ior | .eor | .tst => [.ng, .ze, .od]
  | .sub | .add => [.cy, .ov, .ng, .ze, .od]
  | .cmp => [.eq, .gt]

/-- The indicators of the operation `op` on source `src` and target `tgt` stand in `t`. -/
def operationShown (op : Operation) (src tgt : Word) (s t : State) : Prop :=
  ∀ f ∈ operationFlags op, t.flag f = getFlag f (operationStatus op src tgt s.status)

/-- `t` is `s` after a data form of `len` bytes: the operation on the accumulator and nothing else. -/
def accumulated (op : Operation) (len : Word) (ar : RegNo) (src : Word) (s t : State) : Prop :=
  (if operationWrites op then delivered len ar (operationResult op src (s.data len ar)) s t else t.pc = s.pc + len) ∧
    operationShown op src (s.data len ar) s t ∧
    sameBut (if operationWrites op then [ar] else []) (operationFlags op) [] s t ∧ sameDevices s t

/-- `t` is `s` after an instruction of `len` bytes that delivers `v` to register `ar` with NG, ZE and OD, writes the other
indicators in `fs`, and nothing else. -/
def wroteRegister (len : Word) (ar : RegNo) (v : Word) (fs : List Flag) (s t : State) : Prop :=
  delivered len ar v s t ∧ shows v t ∧ sameBut [ar] ([.ng, .ze, .od] ++ fs) [] s t ∧ sameDevices s t

/-- The index of a class with an update, after it (R154). -/
def indexAfter (index : Index) (size : Size) (w : Word) : Word :=
  match index with
  | .none => w
  | .decrement => w - indexStep size
  | .increment => w + indexStep size

/-- The index register and LP after an instruction of a class: updated, LP telling whether it reached zero, or as before
(R154, R156). -/
def indexUpdated (index : Index) (size : Size) (xr : RegNo) (s t : State) : Prop :=
  index ≠ .none → t.reg xr = indexAfter index size (s.reg xr) ∧
    t.flag .lp = (indexAfter index size (s.reg xr) == 0#16)

/-- The registers an index update writes. -/
def indexRegisters (index : Index) (xr : RegNo) : List RegNo := if index = .none then [] else [xr]

/-- The indicators an index update writes. -/
def indexFlags (index : Index) : List Flag := if index = .none then [] else [.lp]

/-- In a class that updates its index: the index register is named, and it is not the accumulator. -/
def indexPlain (index : Index) (ar xr : RegNo) : Prop := index ≠ .none → xr ≠ 0#3 ∧ ar ≠ xr

/-- An instruction whose first word is `iw` stops as the part `r` of it does: the trap, the Abort or the refusal. -/
def stopsWith {α : Type} (iw : Word) (r : Res α) (o : Outcome) : Prop :=
  (∀ u, r = .unimplemented u → o = takeUnimplemented iw u) ∧ (∀ x u, r = .abort x u → o = takeAbort x u) ∧
    ∀ q, r = .refuse q → o = .refused q

/-- An instruction that accesses the place `p` where the state is `t` stops as the access does: the Abort with the address
that nothing answers, or the refusal (R504, R71, R23). Of a place that answers nothing is said. -/
def stopsAt (p : Place) (t : State) (o : Outcome) : Prop :=
  (∀ x, p = .absent x → o = takeAbort x t) ∧ ∀ r, p = .refused r → o = .refused r

/-- The place of the operand at `a` (R69 to R71). -/
def State.operandPlace (s : State) (size : Size) (a : Word) : Place :=
  match size with
  | .word => s.wordPlace a
  | .byte => s.bytePlace a

/-- The sum that `EA` forms before any indirection: the base, plus the index as it is then, a decremented one after its
decrement (R153). -/
def developedAddress (index : Index) (size : Size) (m : MemOperand) (s : State) : Word :=
  m.ext.getD 0#16 + if m.xr = 0#3 then 0#16 else
    if index = .decrement then s.reg m.xr - indexStep size else s.reg m.xr

/-- `u` is `s` where the development of an address stops at an indirect word: a decrement was done, and neither an
increment nor LP (R153, R515). -/
def stoppedIndirect (index : Index) (size : Size) (xr : RegNo) (s u : State) : Prop :=
  (index = .decrement → u.reg xr = s.reg xr - indexStep size) ∧ u.pc = s.pc ∧
    sameBut (if index = .decrement then [xr] else []) [] [] s u ∧ sameDevices s u

/-! ## Shifts in closed form -/

/-- The value and CY after a single shift of `a` by `n` places, 0 to 15 (R244 to R252). -/
def shifted (op : ShiftOp) (n : Nat) (a : Word) (cy : Bool) : Word × Bool :=
  match op with
  | .lao => (a <<< n, if n = 0 then cy else a.getLsbD (16 - n))
  | .lll =>
    let x := (BitVec.ofBool cy ++ a).rotateLeft n
    (x.setWidth 16, x.getLsbD 16)
  | .llo => (a <<< n, cy)
  | .llc => (a.rotateLeft n, cy)
  | .rao => (a.sshiftRight n, false)
  | .rll =>
    let x := (BitVec.ofBool cy ++ a).rotateRight n
    (x.setWidth 16, x.getLsbD 16)
  | .rlo => (a >>> n, cy)
  | .rlc => (a.rotateRight n, cy)

/-- Does a left shift of a number by `n` places leave the range of `w` bits? -/
def overflows (w n : Nat) (x : Int) : Bool := decide (x * 2 ^ n < -2 ^ (w - 1)) || decide (2 ^ (w - 1) ≤ x * 2 ^ n)

/-- The indicators a shift operation writes beside NG, ZE and OD (R244 to R252). -/
def shiftFlags (op : ShiftOp) : List Flag :=
  match op with
  | .lao | .lll => [.ov, .cy]
  | .rao | .rll => [.cy]
  | .llo | .llc | .rlo | .rlc => []

/-- `t` is `s` after a single shift of register `ar` by `n` places (R243, R251). -/
def shiftedRegister (op : ShiftOp) (ar : RegNo) (n : Nat) (s t : State) : Prop :=
  let a := s.data 2#16 ar
  wroteRegister 2#16 ar (shifted op n a (s.flag .cy)).1 (shiftFlags op) s t ∧
    t.flag .cy = (shifted op n a (s.flag .cy)).2 ∧
    (op = .lao ∨ op = .lll → t.flag .ov = (s.flag .ov || overflows 16 n a.toInt))

/-! ## Pairs -/

/-- The pair of registers `r`, `r + 1` as the 31-bit number it holds (R400). -/
def State.number (s : State) (r : RegNo) : BitVec 31 := pair31 (s.reg r) (s.reg (oddRegister r))

/-- The pair of registers `r`, `r + 1` as a 32-bit string (R421). -/
def State.string (s : State) (r : RegNo) : BitVec 32 := pair32 (s.reg r) (s.reg (oddRegister r))

/-- The pair holds the 31-bit number `p` with S' as R400 has it: zero where bits 14..0 are all zero, else the sign. -/
def holdsNumber (r : RegNo) (p : BitVec 31) (t : State) : Prop :=
  t.number r = p ∧
    (t.reg (oddRegister r)).getLsbD 15 = ((t.reg (oddRegister r)).extractLsb' 0 15 != 0#15 && (t.reg r).getLsbD 15)

/-- `t` is `s` after an instruction of `len` bytes that writes the pair `r`, NG, ZE and OD from it, the indicators `fs`,
and nothing else. -/
def wrotePair (len : Word) (r : RegNo) (fs : List Flag) (s t : State) : Prop :=
  t.pc = s.pc + len ∧ showsPair r t ∧ sameBut [r, oddRegister r] ([.ng, .ze, .od] ++ fs) [] s t

/-- The 32-bit string and CY after a logical double shift by `n` places, 0 to 31 (R431 to R437); the arithmetic
operations, which are on the 31-bit number, have no entry of their own here. -/
def shiftedString (op : ShiftOp) (n : Nat) (d : BitVec 32) (cy : Bool) : BitVec 32 × Bool :=
  match op with
  | .lll =>
    let x := (BitVec.ofBool cy ++ d).rotateLeft n
    (x.setWidth 32, x.getLsbD 32)
  | .llo => (d <<< n, cy)
  | .llc => (d.rotateLeft n, cy)
  | .rll =>
    let x := (BitVec.ofBool cy ++ d).rotateRight n
    (x.setWidth 32, x.getLsbD 32)
  | .rlo => (d >>> n, cy)
  | .rlc => (d.rotateRight n, cy)
  | .lao => (d, cy)
  | .rao => (d, cy)

/-- `t` is `s` after a double shift of the pair `r` by `n` places (R421, R430 to R437). -/
def shiftedPair (op : ShiftOp) (r : RegNo) (n : Nat) (s t : State) : Prop :=
  match op with
  | .lao =>
    wrotePair 2#16 r [.ov, .cy] s t ∧ holdsNumber r (s.number r <<< n) t ∧
      t.flag .cy = (if n = 0 then s.flag .cy else (s.number r).getLsbD (31 - n)) ∧
      t.flag .ov = (s.flag .ov || overflows 31 n (s.number r).toInt)
  | .rao => wrotePair 2#16 r [] s t ∧ holdsNumber r ((s.number r).sshiftRight n) t
  | .lll | .llo | .llc | .rll | .rlo | .rlc =>
    wrotePair 2#16 r [.cy] s t ∧ t.string r = (shiftedString op n (s.string r) (s.flag .cy)).1 ∧
      t.flag .cy = (shiftedString op n (s.string r) (s.flag .cy)).2

/-! ## Runs of registers in memory -/

/-- The addresses of the seven words at `a` (R285, R288). -/
def sevenWords (a : Word) : List Word := (List.range 7).map fun i => a + BitVec.ofNat 16 (2 * i)

/-- The three scratch words of the decimal instructions: registers 5, 6 and 7 at the level-5 block (R332). -/
def scratchBytes (s : State) : List Word :=
  let b := BitVec.ofNat 16 (unimplementedBlock s.par.cpu)
  [b, b + 1#16, b + 2#16, b + 3#16, b + 4#16, b + 5#16]

/-- Does every byte of a field lie in program memory (R337(b))? -/
def State.holdsField (s : State) (f : Field) : Bool := f.addresses.all s.inMemory

/-- `t` is `s` after a control instruction that ends with the program counter at `pc`, changes these registers, indicators
and bytes, and leaves the system registers alone. -/
def controlled (pc : Word) (rs : List RegNo) (fs : List Flag) (bytes : List Word) (s t : State) : Prop :=
  t.pc = pc ∧ sameBut rs fs bytes s t ∧ sameDevices s t

/-- `t` is `s` after a normalize that found its stop condition `done` on `shift n` and at no smaller count: the count was
added to `xr` (R404). -/
def counted {α : Type} (done : α → Bool) (shift : Nat → α) (xr : RegNo) (n : Nat) (s t : State) : Prop :=
  done (shift n) = true ∧ (∀ k, k < n → done (shift k) = false) ∧ t.reg xr = s.reg xr + BitVec.ofNat 16 n

/-- The indicators a decimal or character instruction may change: those R333 leaves undefined, and EQ and GT. -/
def decimalFlags : List Flag := [.eq, .gt, .ov, .cy, .lp, .od, .ze, .ng]

/-- `t` is `s`, the state after the scratch words were stored, after the rest of a decimal or character instruction that
writes the bytes in the list (R330, R333). -/
def decimalDone (bytes : List Word) (s t : State) : Prop :=
  t.pc = s.pc + 4#16 ∧ sameBut [] decimalFlags bytes s t ∧ sameDevices s t

end Sys2Proof.Machine
end

