-- ==== Sys2Proof/Certificates/Slice0/Obligations.lean ====
section
/-! DEFINITION. The statements about the model, for the provers. Frames are said with `sameBut`: beside the program
counter and the accesses to system registers, only the registers, indicators and bytes it lists may have changed. -/

open Sys2Proof Sys2Proof.Machine

/-! ## Encoding -/

/-- R101 to R111, R117 to R122: every operand of every well-formed instruction comes back from its encoding. -/
def Obligations.DecodeOfEncode : Prop :=
  ∀ (i : Instr) (iw : Word) (rest : List Word),
    i.wellFormed = true → encode i = iw :: rest → decode iw (rest.headD 0#16) = some i

/-- No bit of a word that decodes is dropped: the words of the decoded instruction are the words it was read from, the
second one where there is one. -/
def Obligations.EncodeOfDecode : Prop :=
  ∀ (i : Instr) (iw iw2 : Word), decode iw iw2 = some i → encode i = [iw] ∨ encode i = [iw, iw2]

/-- Words written out from the spec's encodings, one or more for each family. -/
def Obligations.DecodesSpecWords : Prop :=
  decode 0x0912#16 0#16 = some (.stsm true 0x12#8) ∧
    decode 0x0289#16 0#16 = some (.sets 9#7) ∧
    decode 0x08CF#16 0#16 = some (.dsbw 15#4) ∧
    decode 0x0E1A#16 0x0301#16 = some (.fclb 1#3 ⟨false, 2#3, some 0x0301#16⟩) ∧
    decode 0x621A#16 0x0010#16 = some (.addwC6 1#3 ⟨false, 2#3, some 0x0010#16⟩) ∧
    decode 0x3D12#16 0#16 = some (.eorbC3 1#3 ⟨false, 2#3, none⟩) ∧
    decode 0x4088#16 0x0300#16 = some (.jump ⟨true, 0#3, some 0x0300#16⟩) ∧
    decode 0x4A91#16 0#16 = some (.addwI 1#3 1#4) ∧
    decode 0x441A#16 0x0F0F#16 = some (.ibitM 1#3 2#3 0x0F0F#16) ∧
    decode 0x479A#16 0#16 = some (.movn 1#3 2#3) ∧
    decode 0x88FE#16 0#16 = some (.blpf 0xFE#8) ∧
    decode 0xA191#16 0#16 = some (.slllK 1#3 1#4) ∧
    decode 0xA82C#16 0#16 = some (.dlan 2#3 4#3) ∧
    decode 0xAAFF#16 0#16 = some (.dlloK 3#2 31#5) ∧
    decode 0xB334#16 0#16 = some (.mult 1#2 ⟨false, 4#3, none⟩) ∧
    decode 0xC412#16 0x0034#16 = some (.subd 1#3 2#3 0#4 0#4 3#3 4#3) ∧
    decode 0xF001#16 0#16 = none

/-! ## The step -/

/-- R12, R66, R104, R523: a running processor without a request runs the instruction whose words stand at the program
counter, the second word fetched where the instruction has one on the configured model; in particular a well-formed
instruction whose words stand there, where the model fetches all of them. -/
def Obligations.StepRunsDecoded : Prop :=
  ∀ (s : State) (i : Instr),
    let iw := s.mem.word s.pc
    let two := hasSecondWord s.par.model s.par.encodings iw
    s.run = .running → s.request = none → s.pc.getLsbD 0 = false → s.inMemory s.pc = true →
      (two = true → s.inMemory (s.pc + 2#16) = true) →
      (decodeWith s.par.encodings iw (if two then s.mem.word (s.pc + 2#16) else 0#16) = some i → step s = exec i s) ∧
      (i.wellFormed = true → encode i = (if two then [iw, s.mem.word (s.pc + 2#16)] else [iw]) → step s = exec i s)

/-- R26, R112, R114, R115, R503, R504, logs 6, 17, 18: what a running processor does where no instruction is fetched. The
refusals are the decisions D11, D22 and D42 of the spec; D42 is that of the last clause, a class C instruction whose
second word has bit 7 or 3 set. -/
def Obligations.FetchStops : Prop :=
  ∀ s : State, s.run = .running → s.request = none →
    let iw := s.mem.word s.pc
    let two := hasSecondWord s.par.model s.par.encodings iw
    let iw2 := if two then s.mem.word (s.pc + 2#16) else 0#16
    (s.pc.getLsbD 0 = true → step s = .refused .oddProgramCounter) ∧
    (s.pc.getLsbD 0 = false → s.inMemory s.pc = false → step s = takeAbort s.pc s) ∧
    (s.pc.getLsbD 0 = false → s.inMemory s.pc = true → two = true → s.inMemory (s.pc + 2#16) = false →
      step s = takeAbort (s.pc + 2#16) s) ∧
    (s.pc.getLsbD 0 = false → s.inMemory s.pc = true → (two = true → s.inMemory (s.pc + 2#16) = true) →
      (decodeWith s.par.encodings iw iw2 = none →
        step s = if statedTrap s.par.model iw then takeUnimplemented iw s else undefinedWord iw s) ∧
      (fieldC iw = 12#4 → two = true → iw2.getLsbD 7 = true ∨ iw2.getLsbD 3 = true → step s = undefinedWord iw s))

/-- R32, R520, R521, R524: at an instruction boundary the highest level with a request that is not masked is taken, and
its request consumed; the other requests stay. That the highest-numbered level is taken is the decision D21 of the
spec, the saved program counter its decision D41 (log 36), and the identity as TRAP_STATUS its default (log 5). -/
def Obligations.StepTakesRequest : Prop :=
  ∀ (s : State) (j : Nat) (w : Word), s.run = .running → 1 ≤ j → j ≤ 4 →
    s.pending.level j = some w → s.status.getLsbD (11 + j) = false →
    (∀ k, j < k → k ≤ 4 → s.pending.level k = none ∨ s.status.getLsbD (11 + k) = true) →
    8 * j ≤ s.par.memTop.toNat →
    ∃ t, step s = .next t ∧ t.pending.level j = none ∧ (∀ k, k ≠ j → t.pending.level k = s.pending.level k) ∧
      t.run = .running ∧ t.pc = s.mem.word (BitVec.ofNat 16 (8 * (j - 1) + 6)) ∧
      t.mem.word (BitVec.ofNat 16 (8 * (j - 1))) = w ∧
      t.mem.word (BitVec.ofNat 16 (8 * (j - 1) + 2)) = s.status ∧
      t.mem.word (BitVec.ofNat 16 (8 * (j - 1) + 4)) = s.pc ∧
      sameMemoryBut ((List.range 6).map fun i => BitVec.ofNat 16 (8 * (j - 1) + i)) s t ∧
      sameRegistersBut [] s t ∧ sameDevices s t ∧ t.key = s.key ∧ t.par = s.par ∧
      (s.par.trapStatus = .identity → t.status = s.status)

/-- R279, R520, R521: a request that is not masked ends the WAIT state. Level 4 is taken, the address of the waiting
instruction being saved; the levels 1, 2 and 3 only let execution go on at the next instruction. This end of a wait
is the reading D32 of the spec, the choice of the highest level its decision D21, the saved program counter D41
(log 36); that the saved status is that of before the wait, Active bit and all, is the model's choice (log 41). -/
def Obligations.WaitEnds : Prop :=
  ∀ (s : State) (j : Nat) (w : Word), s.run = .waiting → 1 ≤ j → j ≤ 4 →
    s.pending.level j = some w → s.status.getLsbD (11 + j) = false →
    (∀ k, j < k → k ≤ 4 → s.pending.level k = none ∨ s.status.getLsbD (11 + k) = true) →
    (j = 4 → 0x20 ≤ s.par.memTop.toNat → ∃ t, step s = .next t ∧ t.run = .running ∧ t.pending.level 4 = none ∧
      t.pc = s.mem.word 0x1E#16 ∧ t.mem.word 0x18#16 = w ∧ t.mem.word 0x1A#16 = s.status ∧
      t.mem.word 0x1C#16 = s.pc ∧ sameRegistersBut [] s t) ∧
    (j < 4 → ∃ t, step s = .next t ∧ t.run = .running ∧ t.pending.level j = none ∧
      (∀ k, k ≠ j → t.pending.level k = s.pending.level k) ∧ t.pc = s.pc + 2#16 ∧
      sameBut [] [] [] { s with pending := t.pending, run := .running } t ∧ sameDevices s t)

/-- R34, R270, R279, R523, log 20: without the event it waits for, a halted or waiting processor stays as it is; the RUN
event lets a halted one go on at its program counter, and no request does. -/
def Obligations.IdleSteps : Prop :=
  ∀ s : State,
    (s.run = .halted → s.runRequest = false → step s = .next s) ∧
    (s.run = .waiting → (∀ j, 1 ≤ j → j ≤ 4 → s.pending.level j = none ∨ s.status.getLsbD (11 + j) = true) →
      step s = .next s) ∧
    (s.run = .halted → s.runRequest = true → ∃ t, step s = .next t ∧ t.run = .running ∧ t.runRequest = false ∧
      t.pc = s.pc ∧ sameBut [] [.a] [] { s with run := .running, runRequest := false } t ∧ t.flag .a = true ∧
      sameDevices s t)

/-! ## Memory -/

/-- R62, R64: `MemRead` and `MemWrite` of words and bytes: the left byte at the even address, bit 0 of a word address
dropped, a byte write leaving the other byte of its word. -/
def Obligations.WordsAndBytes : Prop :=
  ∀ (m : Memory) (a v : Word) (b : Byte),
    m.word a = m.byte (a &&& 0xFFFE#16) ++ m.byte ((a &&& 0xFFFE#16) + 1#16) ∧
    (∀ x : Word, (m.setWord a v).byte x =
      if x = a &&& 0xFFFE#16 then v.extractLsb' 8 8
      else if x = (a &&& 0xFFFE#16) + 1#16 then v.extractLsb' 0 8 else m.byte x) ∧
    (∀ x : Word, (m.setByte a b).byte x = if x = a then b else m.byte x) ∧
    (∀ x : Word, (m.setWord a v).word x = if x &&& 0xFFFE#16 = a &&& 0xFFFE#16 then v else m.word x)

/-- R69, R70, R71, R504, R23: where a word or byte access goes, and what it does there. That an address nothing answers
raises Abort is the decision D33 of the spec (log 36), the refusals are its decisions D23 and D24 (log 16), and what
an access to a system register does is the model's choice (log 15). -/
def Obligations.Accesses : Prop :=
  ∀ (s : State) (a v : Word), s.par.legal = true →
    (a.toNat < s.par.memTop.toNat →
      readWord a s = .ok (s.mem.word a) s ∧ writeWord a v s = .ok () { s with mem := s.mem.setWord a v } ∧
      readByte a s = .ok ((s.mem.byte a).setWidth 16) s ∧
      writeByte a v s = .ok () { s with mem := s.mem.setByte a (v.setWidth 8) }) ∧
    (s.par.memTop.toNat ≤ a.toNat → a.toNat < 0xF000 →
      readWord a s = .abort (a &&& 0xFFFE#16) s ∧ writeWord a v s = .abort (a &&& 0xFFFE#16) s ∧
      readByte a s = .abort a s ∧ writeByte a v s = .abort a s) ∧
    (0xF000 ≤ a.toNat →
      readByte a s = .refuse (.systemRegisterByteOrOdd a) ∧ writeByte a v s = .refuse (.systemRegisterByteOrOdd a) ∧
      (a.getLsbD 0 = true →
        readWord a s = .refuse (.systemRegisterByteOrOdd a) ∧ writeWord a v s = .refuse (.systemRegisterByteOrOdd a)) ∧
      (a.getLsbD 0 = false → isOwnRegister s.par.cpu a = true →
        readWord a s = .refuse (.ownRegisterBlock a) ∧ writeWord a v s = .refuse (.ownRegisterBlock a)) ∧
      (a.getLsbD 0 = false → isOwnRegister s.par.cpu a = false →
        (a ∉ s.par.devices → readWord a s = .abort a s ∧ writeWord a v s = .abort a s) ∧
        (a ∈ s.par.devices →
          readWord a s = .ok s.deviceValue (s.afterDeviceRead a) ∧ writeWord a v s = .ok () (s.afterDeviceWrite a v))))

/-! ## What every step keeps -/

/-- Every step keeps the invariant: legal parameters, the memory's canonical form, and the Active bit of a processor
that is not halted (R6, R31). That Active is 1 in the WAIT state (log 41), after MSTS and RETN of a word with bit 11 = 0
(log 14) and after an entry with an unconstrained TRAP_STATUS (log 5) is the choice of the model. -/
def Obligations.StepKeepsWf : Prop := ∀ s t : State, s.wf = true → step s = .next t → t.wf = true

/-- R39: what the spec gives of the state after reset: the run state RUN, the Active bit 1, no request; and the invariant
of `StepKeepsWf` holds there. The values the spec does not give are the model's (logs 1, 2, 3). -/
def Obligations.ResetWf : Prop :=
  State.reset.wf = true ∧ State.reset.run = .running ∧ State.reset.flag .a = true ∧
    (∀ j, 1 ≤ j → j ≤ 4 → State.reset.pending.level j = none) ∧ State.reset.runRequest = false

/-- R36, R37, R40, R60, R69: no step changes a byte outside program memory, the parameters of the installation, or the two
registers without a function. -/
def Obligations.StepKeepsOutside : Prop :=
  ∀ s t : State, step s = .next t →
    t.par = s.par ∧ t.instrRegister = s.instrRegister ∧ t.controlFlipFlops = s.controlFlipFlops ∧
      (s.par.legal = true → ∀ a, s.inMemory a = false → t.mem.byte a = s.mem.byte a)

/-- R28, R32, R33, R524: which instructions write the programmable flags, the interrupt masks and the key, and that none
touches the requests. (An entry sequence could change the status register; here it is the identity of R514.) -/
def Obligations.OnlyTheseWrite : Prop :=
  ∀ (i : Instr) (s t : State), s.par.trapStatus = .identity → exec i s = .next t →
    ((∀ f, i ≠ .rsts f ∧ i ≠ .sets f) → (∀ r d, i ≠ .msts r d ∧ i ≠ .retn r d) →
      t.flag .f1 = s.flag .f1 ∧ t.flag .f2 = s.flag .f2 ∧ t.flag .f3 = s.flag .f3) ∧
    ((∀ k, i ≠ .enbl k ∧ i ≠ .dsbl k ∧ i ≠ .enbw k ∧ i ≠ .dsbw k) → (∀ r d, i ≠ .msts r d ∧ i ≠ .retn r d) →
      t.flag .m1 = s.flag .m1 ∧ t.flag .m2 = s.flag .m2 ∧ t.flag .m3 = s.flag .m3 ∧ t.flag .m4 = s.flag .m4) ∧
    ((∀ k, i ≠ .skey k) → (∀ k a, i ≠ .jkey k a) → t.key = s.key) ∧
    t.pending = s.pending ∧ t.runRequest = s.runRequest

/-! ## Addresses -/

/-- R152 to R156, without indirection: the extension word or zero, plus the index as it is then; the index is decremented
before or incremented after, by one for a byte and two for a word, and LP tells whether it became zero. -/
def Obligations.DirectAddress : Prop :=
  ∀ (index : Index) (size : Size) (m : MemOperand) (s : State),
    m.ind = false → (m.ext.isSome = true ∨ m.xr ≠ 0#3) → (index ≠ .none → m.xr ≠ 0#3) →
    ∃ s1, effectiveAddress index size m s =
        .ok (m.ext.getD 0#16 + (if m.xr = 0#3 then 0#16 else
          if index = .decrement then s.reg m.xr - (if size = .byte then 1#16 else 2#16) else s.reg m.xr)) s1 ∧
      (index = .decrement → s1.reg m.xr = s.reg m.xr - (if size = .byte then 1#16 else 2#16)) ∧
      (index = .increment → s1.reg m.xr = s.reg m.xr + (if size = .byte then 1#16 else 2#16)) ∧
      (index ≠ .none → s1.flag .lp = (s1.reg m.xr == 0#16)) ∧
      s1.pc = s.pc ∧ sameBut (indexRegisters index m.xr) (indexFlags index) [] s s1 ∧ sameDevices s s1

/-- R152, R153, R155: an indirect address in program memory. A byte operand takes one level; for a word operand the words
`w` are levels 1 to `n`, at most 15, each but the last odd, and the last even is the address; a chain that calls for a
sixteenth level traps (D8). In the whole address of an instruction the order is decrement, index, indirection,
increment, LP; where the indirection stops (a trap, an address nothing answers, D33, a refusal), a decrement was done
and neither an increment nor LP (R515, D34). That the place of an odd indirect word is the even address is the
model's choice in F000h..FFFFh (log 16). -/
def Obligations.IndirectAddress : Prop :=
  ∀ (size : Size) (s : State),
    (∀ (n : Nat) (w : Nat → Word), 1 ≤ n → n ≤ 15 → (size = .byte → n = 1) →
      (∀ i, i < n → s.inMemory (evenAddr (w i)) = true ∧ s.mem.word (w i) = w (i + 1)) →
      (∀ i, 1 ≤ i → i < n → (w i).getLsbD 0 = true) →
      (size = .byte ∨ (w n).getLsbD 0 = false → indirectAddress size true (w 0) s = .ok (w n) s) ∧
      (size = .word → n = 15 → (w n).getLsbD 0 = true → indirectAddress size true (w 0) s = .unimplemented s) ∧
      ∀ (index : Index) (m : MemOperand), m.ind = true → (m.ext.isSome = true ∨ m.xr ≠ 0#3) →
        (index ≠ .none → m.xr ≠ 0#3) → w 0 = developedAddress index size m s →
        (size = .byte ∨ (w n).getLsbD 0 = false →
          ∃ s1, effectiveAddress index size m s = .ok (w n) s1 ∧ indexUpdated index size m.xr s s1 ∧ s1.pc = s.pc ∧
            sameBut (indexRegisters index m.xr) (indexFlags index) [] s s1 ∧ sameDevices s s1) ∧
        (size = .word → n = 15 → (w n).getLsbD 0 = true →
          ∃ u, effectiveAddress index size m s = .unimplemented u ∧ stoppedIndirect index size m.xr s u) ∧
        (size = .word → n < 15 → (w n).getLsbD 0 = true →
          (∀ x, s.wordPlace (evenAddr (w n)) = .absent x →
            ∃ u, effectiveAddress index size m s = .abort x u ∧ stoppedIndirect index size m.xr s u) ∧
          ∀ r, s.wordPlace (evenAddr (w n)) = .refused r → effectiveAddress index size m s = .refuse r)) ∧
    ∀ (index : Index) (m : MemOperand), m.ind = true → (m.ext.isSome = true ∨ m.xr ≠ 0#3) →
      (index ≠ .none → m.xr ≠ 0#3) →
      (∀ x, s.wordPlace (developedAddress index size m s) = .absent x →
        ∃ u, effectiveAddress index size m s = .abort x u ∧ stoppedIndirect index size m.xr s u) ∧
      ∀ r, s.wordPlace (developedAddress index size m s) = .refused r → effectiveAddress index size m s = .refuse r

/-- R157: with E = 0 and XR = 0 no address is specified, and an unimplemented instruction trap is generated: classes 1,
2, 3, 5, 6, 7, JUMP, JSBR, FCL and class B; except the class 4 register form, where the program counter is the source.
That this form completes, and that it reads PCREAD, is the model's choice (log 4); the spec refuses it (D3). -/
def Obligations.NoAddressTraps : Prop :=
  ∀ (m : MemOperand) (s : State), m.ext = none → m.xr = 0#3 →
    (∀ cls size op ar, exec (memInstr cls size op ar m) s = takeUnimplemented (memWord cls size op ar m) s) ∧
    exec (.jump m) s = takeUnimplemented (jumpWord 0#3 m) s ∧
    (∀ ar, exec (.jsbr ar m) s = takeUnimplemented (jumpWord ar m) s) ∧
    (∀ ar, exec (.fclw ar m) s = takeUnimplemented (fclWord .word ar m) s ∧
      exec (.fclb ar m) s = takeUnimplemented (fclWord .byte ar m) s ∧
      exec (.dsta ar m) s = takeUnimplemented (fixedWord 0#3 ar m) s ∧
      exec (.dsub ar m) s = takeUnimplemented (fixedWord 1#3 ar m) s ∧
      exec (.dadd ar m) s = takeUnimplemented (fixedWord 2#3 ar m) s ∧
      exec (.divd ar m) s = takeUnimplemented (fixedWord 4#3 ar m) s ∧
      exec (.dlod ar m) s = takeUnimplemented (fixedWord 5#3 ar m) s) ∧
    (∀ pair, exec (.mlta pair m) s = takeUnimplemented (fixedWord 3#3 (pair ++ 0#1) m) s ∧
      exec (.mult pair m) s = takeUnimplemented (fixedWord 3#3 (pair ++ 1#1) m) s) ∧
    (∀ op ar, ∃ t, exec (dataR op ar 0#3) s = .next t ∧ accumulated op 2#16 ar (s.data 2#16 0#3) s t)

/-! ## General register instructions -/

/-- R29, R171, R173 to R188: the results and indicators of the eight operations, in numbers: SUB and ADD modulo 2^16, CY
the carry (for SUB: no borrow), OV set where the signed result does not fit and kept else; CMP compares without
sign. CY and OV of SUB are the reading D6 of the spec. -/
def Obligations.OperationArithmetic : Prop :=
  ∀ src tgt st : Word,
    operationResult .mov src tgt = src ∧
    operationResult .sub src tgt = BitVec.ofInt 16 (tgt.toInt - src.toInt) ∧
    operationResult .add src tgt = BitVec.ofInt 16 (tgt.toInt + src.toInt) ∧
    (∀ i, i < 16 →
      (operationResult .and src tgt).getLsbD i = (src.getLsbD i && tgt.getLsbD i) ∧
      (operationResult .ior src tgt).getLsbD i = (src.getLsbD i || tgt.getLsbD i) ∧
      (operationResult .eor src tgt).getLsbD i = (src.getLsbD i != tgt.getLsbD i) ∧
      (operationResult .tst src tgt).getLsbD i = (src.getLsbD i && tgt.getLsbD i)) ∧
    (∀ op, op ≠ .cmp →
      getFlag .ng (operationStatus op src tgt st) = (operationResult op src tgt).getLsbD 15 ∧
      getFlag .ze (operationStatus op src tgt st) = (operationResult op src tgt == 0#16) ∧
      getFlag .od (operationStatus op src tgt st) = (operationResult op src tgt).getLsbD 0) ∧
    getFlag .cy (operationStatus .add src tgt st) = decide (65536 ≤ src.toNat + tgt.toNat) ∧
    getFlag .cy (operationStatus .sub src tgt st) = decide (src.toNat ≤ tgt.toNat) ∧
    getFlag .ov (operationStatus .add src tgt st) =
      (getFlag .ov st || decide (src.toInt + tgt.toInt < -32768) || decide (32768 ≤ src.toInt + tgt.toInt)) ∧
    getFlag .ov (operationStatus .sub src tgt st) =
      (getFlag .ov st || decide (tgt.toInt - src.toInt < -32768) || decide (32768 ≤ tgt.toInt - src.toInt)) ∧
    getFlag .gt (operationStatus .cmp src tgt st) = decide (tgt.toNat < src.toNat) ∧
    getFlag .eq (operationStatus .cmp src tgt st) = decide (src = tgt) ∧
    ∀ op f, f ∉ operationFlags op → getFlag f (operationStatus op src tgt st) = getFlag f st

/-- R151, R170 to R188, R195 to R197: the 48 instructions of classes 1, 2 and 3, whose operand lies in program memory:
MOVW, SUBW, ADDW, ANDW, IORW, EORW, CMPW, TSTW and their byte forms. The accumulator is the source, the operand at
the effective address the target; an updated index with its LP; everything else as before. Register 0 reads as
PCREAD (log 4); the indicators of byte forms come from 16 bits (D5). -/
def Obligations.AccumulatorToMemory : Prop :=
  ∀ (cls : MemClass) (size : Size) (op : Operation) (ar : RegNo) (m : MemOperand) (s s1 : State) (a : Word),
    cls ∈ [MemClass.c1, .c2, .c3] → indexPlain (classIndex cls) ar m.xr →
    effectiveAddress (classIndex cls) size m s = .ok a s1 → s.holds size a = true →
    ∃ t, exec (memInstr cls size op ar m) s = .next t ∧
      (operationWrites op = true →
        t.operand size a = stored size (operationResult op (s.data (operandLength m) ar) (s.operand size a))) ∧
      operationShown op (s.data (operandLength m) ar) (s.operand size a) s t ∧
      indexUpdated (classIndex cls) size m.xr s t ∧ t.pc = s.pc + operandLength m ∧
      sameBut (indexRegisters (classIndex cls) m.xr) (operationFlags op ++ indexFlags (classIndex cls))
        (if operationWrites op then operandBytes size a else []) s t ∧ sameDevices s1 t

/-- R25, R151, R160, R170 to R188, R198 to R200: the 48 instructions of classes 5, 6 and 7, whose operand lies in
program memory, in the same operations and sizes. The operand is the source, the accumulator the target. Register 0
reads as PCREAD (log 4). -/
def Obligations.MemoryToAccumulator : Prop :=
  ∀ (cls : MemClass) (size : Size) (op : Operation) (ar : RegNo) (m : MemOperand) (s s1 : State) (a : Word),
    cls ∈ [MemClass.c5, .c6, .c7] → indexPlain (classIndex cls) ar m.xr →
    effectiveAddress (classIndex cls) size m s = .ok a s1 → s.holds size a = true →
    ∃ t, exec (memInstr cls size op ar m) s = .next t ∧
      (if operationWrites op then
        delivered (operandLength m) ar
          (operationResult op (s.operand size a) (s.data (operandLength m) ar)) s t
       else t.pc = s.pc + operandLength m) ∧
      operationShown op (s.operand size a) (s.data (operandLength m) ar) s t ∧
      indexUpdated (classIndex cls) size m.xr s t ∧
      sameBut ((if operationWrites op then [ar] else []) ++ indexRegisters (classIndex cls) m.xr)
        (operationFlags op ++ indexFlags (classIndex cls)) [] s t ∧ sameDevices s1 t

/-- R159, log 8: AR = XR where the class updates its index. What the spec leaves open is which of the two values of the
register is the operand, and in classes 5 and 6 which of the two writes survives, LP with it; all else is as without the
conflict. -/
def Obligations.AccumulatorIsIndex : Prop :=
  ∀ (cls : MemClass) (size : Size) (op : Operation) (ar : RegNo) (m : MemOperand) (s s1 : State) (a : Word),
    classIndex cls ≠ .none → ar = m.xr → ar ≠ 0#3 →
    effectiveAddress (classIndex cls) size m s = .ok a s1 → s.holds size a = true →
    let new := indexAfter (classIndex cls) size (s.reg ar)
    ∃ t v, exec (memInstr cls size op ar m) s = .next t ∧ (v = s.reg ar ∨ v = new) ∧
      t.pc = s.pc + operandLength m ∧ sameDevices s1 t ∧
      (cls ∈ [MemClass.c1, .c2] →
        (operationWrites op = true → t.operand size a = stored size (operationResult op v (s.operand size a))) ∧
        operationShown op v (s.operand size a) s t ∧ t.reg ar = new ∧ t.flag .lp = (new == 0#16) ∧
        sameBut [ar] (.lp :: operationFlags op) (if operationWrites op then operandBytes size a else []) s t) ∧
      (cls ∈ [MemClass.c5, .c6] →
        (t.reg ar = new ∨ operationWrites op = true ∧ t.reg ar = operationResult op (s.operand size a) v) ∧
        (operationWrites op = false → t.flag .lp = (new == 0#16)) ∧
        operationShown op (s.operand size a) v s t ∧ sameBut [ar] (.lp :: operationFlags op) [] s t)

/-- R158, log 9: XR = 0 where the class updates its index: what is added to the extension word, LP, the program counter
and, with AR = 0, the accumulator's value are open; the operation takes place all the same. -/
def Obligations.IndexIsProgramCounter : Prop :=
  ∀ (cls : MemClass) (size : Size) (op : Operation) (ar : RegNo) (m : MemOperand) (s s1 : State) (a : Word),
    classIndex cls ≠ .none → m.xr = 0#3 →
    effectiveAddress (classIndex cls) size m s = .ok a s1 → s.holds size a = true →
    ∃ t v, exec (memInstr cls size op ar m) s = .next t ∧ (ar ≠ 0#3 → v = s.reg ar) ∧ sameDevices s1 t ∧
      (cls ∈ [MemClass.c1, .c2] →
        (operationWrites op = true → t.operand size a = stored size (operationResult op v (s.operand size a))) ∧
        operationShown op v (s.operand size a) s t ∧
        sameBut [] (.lp :: operationFlags op) (if operationWrites op then operandBytes size a else []) s t) ∧
      (cls ∈ [MemClass.c5, .c6] →
        (operationWrites op = true → ar ≠ 0#3 → t.reg ar = operationResult op (s.operand size a) v) ∧
        operationShown op (s.operand size a) v s t ∧
        sameBut (if operationWrites op then [ar] else []) (.lp :: operationFlags op) [] s t)

/-- R70, R71, R170: word instructions of the six classes on a system register: one read where the operation reads it,
then one write where it writes; the record of accesses says so; memory stays. What a register supplies is open (log
15). -/
def Obligations.SystemRegisterOperand : Prop :=
  ∀ (cls : MemClass) (op : Operation) (ar : RegNo) (m : MemOperand) (s s1 : State) (a : Word),
    indexPlain (classIndex cls) ar m.xr →
    effectiveAddress (classIndex cls) .word m s = .ok a s1 → s1.wordPlace a = .device →
    ∃ t, exec (memInstr cls .word op ar m) s = .next t ∧ indexUpdated (classIndex cls) .word m.xr s t ∧
      (cls ∈ [MemClass.c1, .c2, .c3] →
        t.pc = s.pc + operandLength m ∧
        operationShown op (s.data (operandLength m) ar) s1.deviceValue s t ∧
        t.deviceLog = s1.deviceLog ++ (if operationReadsTarget op then [.read a s1.deviceValue] else []) ++
          (if operationWrites op then
            [.write a (operationResult op (s.data (operandLength m) ar) s1.deviceValue)] else []) ∧
        sameBut (indexRegisters (classIndex cls) m.xr) (operationFlags op ++ indexFlags (classIndex cls)) [] s t) ∧
      (cls ∈ [MemClass.c5, .c6, .c7] →
        (if operationWrites op then
          delivered (operandLength m) ar (operationResult op s1.deviceValue (s.data (operandLength m) ar)) s t
         else t.pc = s.pc + operandLength m) ∧
        operationShown op s1.deviceValue (s.data (operandLength m) ar) s t ∧
        t.deviceLog = s1.deviceLog ++ [.read a s1.deviceValue] ∧
        sameBut ((if operationWrites op then [ar] else []) ++ indexRegisters (classIndex cls) m.xr)
          (operationFlags op ++ indexFlags (classIndex cls)) [] s t)

/-- R161, R317, R452, R504, R509, R515: instructions where the operand's address is answered by no module or may not be
accessed: an Abort with that address, or a stop by name (D23, D24, log 16). Abort is the decision D33 of the spec and
the state left its decision D34 (log 36): what precedes the access stands, and of the two words of a pair the first
access. That an autoincrement and LP are among what precedes an operand access is the model's reading of R153, R161
and D34 against R515(b), which says that an Abort on an operand access comes before an autoincrement and before LP
(log 10, DEDUCED). The six classes; FCLW and FCLB; the seven of class B. -/
def Obligations.OperandStops : Prop :=
  ∀ (m : MemOperand) (s s1 : State) (a : Word),
    (∀ (cls : MemClass) (size : Size) (op : Operation) (ar : RegNo),
      effectiveAddress (classIndex cls) size m s = .ok a s1 →
      (∀ x, s1.operandPlace size a = .absent x →
        ∃ u, exec (memInstr cls size op ar m) s = takeAbort x u ∧ u.pc = s.pc ∧ sameDevices s1 u ∧
          sameBut (indexRegisters (classIndex cls) m.xr) (indexFlags (classIndex cls)) [] s u ∧
          (m.xr ≠ 0#3 → indexUpdated (classIndex cls) size m.xr s u)) ∧
      ∀ r, s1.operandPlace size a = .refused r → exec (memInstr cls size op ar m) s = .refused r) ∧
    (∀ (size : Size) (ar : RegNo), s.par.model ≠ .m1110 → effectiveAddress .none size m s = .ok a s1 →
      stopsAt (s1.operandPlace size a) s1 (exec (if size = .word then .fclw ar m else .fclb ar m) s) ∧
        s1.pc = s.pc ∧ sameBut [] [] [] s s1) ∧
    (s.par.model.scientific = true → effectiveAddress .none .word m s = .ok a s1 →
      (s1.pc = s.pc ∧ sameBut [] [] [] s s1) ∧
      (∀ ar : RegNo, 2 ≤ ar.toNat → stopsAt (s1.wordPlace a) s1 (exec (.divd ar m) s)) ∧
      (∀ pair : BitVec 2, pair ≠ 0#2 →
        stopsAt (s1.wordPlace a) s1 (exec (.mult pair m) s) ∧ stopsAt (s1.wordPlace a) s1 (exec (.mlta pair m) s)) ∧
      ∀ r ∈ [2#3, 4#3, 6#3],
        (∀ i ∈ [Instr.dlod r m, .dadd r m, .dsub r m, .dsta r m], stopsAt (s1.wordPlace a) s1 (exec i s)) ∧
        (∀ v s2, readWord a s1 = .ok v s2 → ∀ i ∈ [Instr.dlod r m, .dadd r m, .dsub r m],
          stopsAt (s1.wordPlace (a + 2#16)) s2 (exec i s)) ∧
        ∀ s2, writeWord a (s.reg r) s1 = .ok () s2 → stopsAt (s1.wordPlace (a + 2#16)) s2 (exec (.dsta r m) s))

/-- R155, R504, R515: where the development of the address traps, aborts or is refused, so does the instruction, in the
state reached then: the six classes, JUMP, JSBR, and FCL and class B on the models that have them. -/
def Obligations.AddressStops : Prop :=
  ∀ (m : MemOperand) (s : State),
    let r := effectiveAddress .none .word m s
    (∀ cls size op ar, stopsWith (memWord cls size op ar m) (effectiveAddress (classIndex cls) size m s)
      (exec (memInstr cls size op ar m) s)) ∧
    stopsWith (jumpWord 0#3 m) r (exec (.jump m) s) ∧ (∀ ar, stopsWith (jumpWord ar m) r (exec (.jsbr ar m) s)) ∧
    (s.par.model ≠ .m1110 → ∀ ar, stopsWith (fclWord .word ar m) r (exec (.fclw ar m) s) ∧
      stopsWith (fclWord .byte ar m) (effectiveAddress .none .byte m s) (exec (.fclb ar m) s)) ∧
    (s.par.model.scientific = true →
      (∀ ar : RegNo, 2 ≤ ar.toNat →
        stopsWith (fixedWord 0#3 ar m) r (exec (.dsta ar m) s) ∧ stopsWith (fixedWord 1#3 ar m) r (exec (.dsub ar m) s) ∧
        stopsWith (fixedWord 2#3 ar m) r (exec (.dadd ar m) s) ∧ stopsWith (fixedWord 4#3 ar m) r (exec (.divd ar m) s) ∧
        stopsWith (fixedWord 5#3 ar m) r (exec (.dlod ar m) s)) ∧
      ∀ pair : BitVec 2, pair ≠ 0#2 →
        stopsWith (fixedWord 3#3 (pair ++ 0#1) m) r (exec (.mlta pair m) s) ∧
        stopsWith (fixedWord 3#3 (pair ++ 1#1) m) r (exec (.mult pair m) s))

/-- R24, R25, R192 to R194: the 24 class 4 data forms, MOVW to TSTW with an immediate operand, a register or a literal
(plus the index), on the whole accumulator; register 0 reads as PCREAD, and a result written to it is a jump. PCREAD
is a parameter (log 4). That the constant K is extended with zeros is the decision D7 of the spec (R111, log 36). -/
def Obligations.DataForms : Prop :=
  ∀ (op : Operation) (ar : RegNo) (s : State),
    (∀ k : BitVec 4, ∃ t, exec (dataI op ar k) s = .next t ∧ accumulated op 2#16 ar (k.setWidth 16) s t) ∧
    (∀ xr : RegNo, ∃ t, exec (dataR op ar xr) s = .next t ∧
      accumulated op 2#16 ar (if xr = 0#3 then s.data 2#16 0#3 else s.reg xr) s t) ∧
    (∀ (xr : RegNo) (lit : Word), ∃ t, exec (dataL op ar xr lit) s = .next t ∧
      accumulated op 4#16 ar (lit + if xr = 0#3 then 0#16 else s.reg xr) s t) ∧
    (∀ len, s.data len 0#3 = if s.par.pcRead = .next then s.pc + len else s.pc)

/-- R190, R191: JUMP puts the effective address itself into the program counter; JSBR also puts the address after its
words into AR, after the address was developed. No indicator changes. -/
def Obligations.Jumps : Prop :=
  ∀ (m : MemOperand) (s s1 : State) (a : Word), effectiveAddress .none .word m s = .ok a s1 →
    (∃ t, exec (.jump m) s = .next t ∧ t.pc = a ∧ sameBut [] [] [] s t ∧ sameDevices s1 t) ∧
    (∀ ar, ∃ t, exec (.jsbr ar m) s = .next t ∧ t.pc = a ∧ (ar ≠ 0#3 → t.reg ar = s.pc + operandLength m) ∧
      sameBut [ar] [] [] s t ∧ sameDevices s1 t)

/-! ## Branches -/

/-- R221 to R223, R225, R226: the 24 conditional branches go to P + 2 x D where the indicator of the condition is as the
class asks, else to the next instruction (LT is GT = 0 and EQ = 0); BRUN always goes there and NOPR never. Nothing
else changes. The base P is the reading D4 of the spec. -/
def Obligations.Branches : Prop :=
  ∀ (c : Condition) (sense : Bool) (d : BitVec 8) (s : State),
    let target := BitVec.ofInt 16 (s.pc.toNat + 2 * d.toInt)
    let holds := match c with
      | .eq => s.flag .eq | .gt => s.flag .gt | .ov => s.flag .ov | .cy => s.flag .cy | .f1 => s.flag .f1
      | .f2 => s.flag .f2 | .f3 => s.flag .f3 | .lp => s.flag .lp | .od => s.flag .od | .ze => s.flag .ze
      | .ng => s.flag .ng | .lt => s.flag .gt == false && s.flag .eq == false
    (∃ t, exec (branchInstr c sense d) s = .next t ∧
      controlled (if holds = sense then target else s.pc + 2#16) [] [] [] s t) ∧
    (∃ t, exec (.nopr d) s = .next t ∧ controlled (s.pc + 2#16) [] [] [] s t) ∧
    (∃ t, exec (.brun d) s = .next t ∧ controlled target [] [] [] s t)

/-! ## Shifts -/

/-- R241 to R252: the sixteen single shifts in closed form: the value, CY, OV (sticky), NG, ZE, OD; the count is K, or
the low four bits of (XR); with XR = 0 the count is open (log 11). A count of zero is the reading D10 of the spec;
register 0 reads as PCREAD (log 4). -/
def Obligations.SingleShifts : Prop :=
  ∀ (op : ShiftOp) (ar : RegNo) (s : State),
    (∀ k : BitVec 4, ∃ t, exec (shiftInstrK op ar k) s = .next t ∧ shiftedRegister op ar k.toNat s t) ∧
    (∀ xr : RegNo, xr ≠ 0#3 →
      ∃ t, exec (shiftInstrX op ar xr) s = .next t ∧ shiftedRegister op ar ((s.reg xr).toNat % 16) s t) ∧
    (∃ t n, n < 16 ∧ exec (shiftInstrX op ar 0#3) s = .next t ∧ shiftedRegister op ar n s t)

/-- R402, R420, R421, R430 to R437: the sixteen double shifts on the 1112 in closed form, the pair being (2,3), (4,5) or
(6,7); the count is K, or the low five bits of (XR); with XR = 0 the count is open (log 11). The five count bits and
the indicators are the readings D26 and D27 of the spec. -/
def Obligations.DoubleShifts : Prop :=
  ∀ (op : ShiftOp) (s : State), s.par.model.scientific = true →
    (∀ (pair : BitVec 2) (k : BitVec 5), pair ≠ 0#2 →
      ∃ t, exec (dshiftInstrK op pair k) s = .next t ∧ shiftedPair op (pair ++ 0#1) k.toNat s t ∧ sameDevices s t) ∧
    (∀ r xr : RegNo, r ∈ [2#3, 4#3, 6#3] → xr ≠ 0#3 →
      ∃ t, exec (dshiftInstrX op r xr) s = .next t ∧ shiftedPair op r ((s.reg xr).toNat % 32) s t ∧ sameDevices s t) ∧
    (∀ r : RegNo, r ∈ [2#3, 4#3, 6#3] →
      ∃ t n, n < 32 ∧ exec (dshiftInstrX op r 0#3) s = .next t ∧ shiftedPair op r n s t ∧ sameDevices s t)

/-- R404 to R408: the single normalize instructions on the 1112 shift to the first place where the stop condition holds,
within 15, and add the count to (XR); a zero operand changes only NG, ZE and OD. XR = 0 and XR = AR leave the
program counter or that register open (log 12). With AR = 0 the PCREAD value is normalized and is a jump (log 12). -/
def Obligations.SingleNormalize : Prop :=
  ∀ (op : NormOp) (ar xr : RegNo) (s : State), s.par.model.scientific = true →
    let a := s.data 2#16 ar
    let shift := fun n : Nat => match op with
      | .lan | .lln => a <<< n
      | .ran => a.sshiftRight n
      | .rln => a >>> n
    let done := fun v : Word => match op with
      | .lan => v.getLsbD 15 != v.getLsbD 14
      | .lln => v.getLsbD 15
      | .ran | .rln => v.getLsbD 0
    (a = 0#16 → ∃ t, exec (normInstr op ar xr) s = .next t ∧ shows 0#16 t ∧
      controlled (s.pc + 2#16) [] [.ng, .ze, .od] [] s t) ∧
    (a ≠ 0#16 → ∃ t n, exec (normInstr op ar xr) s = .next t ∧ n ≤ 15 ∧ done (shift n) = true ∧
      (∀ k, k < n → done (shift k) = false) ∧ shows (shift n) t ∧
      sameBut [ar, xr] [.ng, .ze, .od] [] s t ∧ sameDevices s t ∧
      (xr ≠ 0#3 → xr ≠ ar → delivered 2#16 ar (shift n) s t ∧ t.reg xr = s.reg xr + BitVec.ofNat 16 n) ∧
      (xr = 0#3 → ar ≠ 0#3 → t.reg ar = shift n) ∧ (xr = ar → xr ≠ 0#3 → t.pc = s.pc + 2#16))

/-- R400, R404, R409, R411: DLAN and DRAN on the 1112, on the 31-bit number of the pair: the first place where the stop
condition holds, within 30, the count added to (XR), S' adjusted; a zero number clears S'. -/
def Obligations.DoubleArithmeticNormalize : Prop :=
  ∀ (r xr : RegNo) (s : State), s.par.model.scientific = true → r ∈ [2#3, 4#3, 6#3] →
    (s.number r = 0#31 → ∀ op : NormOp, op = .lan ∨ op = .ran →
      ∃ t, exec (dnormInstr op r xr) s = .next t ∧ t.reg (oddRegister r) = 0#16 ∧ t.reg r = 0#16 ∧
        t.flag .ng = false ∧ t.flag .ze = true ∧ t.flag .od = false ∧
        controlled (s.pc + 2#16) [oddRegister r] [.ng, .ze, .od] [] s t) ∧
    (s.number r ≠ 0#31 → xr ≠ 0#3 → xr ≠ r → xr ≠ oddRegister r →
      (∃ t n, exec (.dlan r xr) s = .next t ∧ n ≤ 30 ∧ holdsNumber r (s.number r <<< n) t ∧ showsPair r t ∧
        counted (fun p => p.getLsbD 30 != p.getLsbD 29) (fun k => s.number r <<< k) xr n s t ∧
        controlled (s.pc + 2#16) [r, oddRegister r, xr] [.ng, .ze, .od] [] s t) ∧
      (∃ t n, exec (.dran r xr) s = .next t ∧ n ≤ 30 ∧ holdsNumber r ((s.number r).sshiftRight n) t ∧ showsPair r t ∧
        counted (fun p => p.getLsbD 0) (fun k => (s.number r).sshiftRight k) xr n s t ∧
        controlled (s.pc + 2#16) [r, oddRegister r, xr] [.ng, .ze, .od] [] s t))

/-- R404, R410, R412: DLLN and DRLN on the 1112, on the 32-bit string of the pair: the first place where the stop condition
holds, within 31, the count added to (XR); a zero string changes only NG, ZE and OD. -/
def Obligations.DoubleLogicalNormalize : Prop :=
  ∀ (r xr : RegNo) (s : State), s.par.model.scientific = true → r ∈ [2#3, 4#3, 6#3] →
    (s.string r = 0#32 → ∀ op : NormOp, op = .lln ∨ op = .rln →
      ∃ t, exec (dnormInstr op r xr) s = .next t ∧ t.flag .ng = false ∧ t.flag .ze = true ∧ t.flag .od = false ∧
        controlled (s.pc + 2#16) [] [.ng, .ze, .od] [] s t) ∧
    (s.string r ≠ 0#32 → xr ≠ 0#3 → xr ≠ r → xr ≠ oddRegister r →
      (∃ t n, exec (.dlln r xr) s = .next t ∧ n ≤ 31 ∧ t.string r = s.string r <<< n ∧ showsPair r t ∧
        counted (fun d => d.getLsbD 31) (fun k => s.string r <<< k) xr n s t ∧
        controlled (s.pc + 2#16) [r, oddRegister r, xr] [.ng, .ze, .od] [] s t) ∧
      (∃ t n, exec (.drln r xr) s = .next t ∧ n ≤ 31 ∧ t.string r = s.string r >>> n ∧ showsPair r t ∧
        counted (fun d => d.getLsbD 0) (fun k => s.string r >>> k) xr n s t ∧
        controlled (s.pc + 2#16) [r, oddRegister r, xr] [.ng, .ze, .od] [] s t))

/-- R404, log 12: a double normalize with XR = 0, or with XR one of the pair: the program counter, or that register, is
open; the other register of the pair, or both, and NG, ZE and OD hold the normalized pair, and the rest is as before. -/
def Obligations.NormalizeIndexOpen : Prop :=
  ∀ (op : NormOp) (r xr : RegNo) (s : State), s.par.model.scientific = true → r ∈ [2#3, 4#3, 6#3] →
    (xr = 0#3 ∨ xr = r ∨ xr = oddRegister r) → doubleZero op (s.reg r) (s.reg (oddRegister r)) = false →
    ∃ (t : State) (n : Nat) (hi lo : Word), exec (dnormInstr op r xr) s = .next t ∧ n ≤ 31 ∧
      (match op with
        | .lan => pair31 hi lo = s.number r <<< n ∧
            (pair31 hi lo).getLsbD 30 != (pair31 hi lo).getLsbD 29
        | .ran => pair31 hi lo = (s.number r).sshiftRight n ∧ lo.getLsbD 0 = true
        | .lln => pair32 hi lo = s.string r <<< n ∧ hi.getLsbD 15 = true
        | .rln => pair32 hi lo = s.string r >>> n ∧ lo.getLsbD 0 = true) ∧
      t.flag .ng = hi.getLsbD 15 ∧ t.flag .ze = false ∧ t.flag .od = lo.getLsbD 0 ∧
      (xr ≠ r → t.reg r = hi) ∧ (xr ≠ oddRegister r → t.reg (oddRegister r) = lo) ∧
      (xr ≠ 0#3 → t.pc = s.pc + 2#16) ∧ sameBut [r, oddRegister r] [.ng, .ze, .od] [] s t ∧ sameDevices s t

/-! ## Control instructions -/

/-- R272, R273: RSTS and SETS reset and set the indicators of the low seven bits of the status word that the mask F names,
and nothing else. -/
def Obligations.ProgrammableIndicators : Prop :=
  ∀ (f : BitVec 7) (s : State),
    encode (.rsts f) = [0x0200#16 ||| f.setWidth 16] ∧ encode (.sets f) = [0x0280#16 ||| f.setWidth 16] ∧
    (∃ t, exec (.rsts f) s = .next t ∧ (∀ i, i < 7 → t.status.getLsbD i = (s.status.getLsbD i && !f.getLsbD i)) ∧
      controlled (s.pc + 2#16) [] [.eq, .gt, .ov, .cy, .f1, .f2, .f3] [] s t) ∧
    (∃ t, exec (.sets f) s = .next t ∧ (∀ i, i < 7 → t.status.getLsbD i = (s.status.getLsbD i || f.getLsbD i)) ∧
      controlled (s.pc + 2#16) [] [.eq, .gt, .ov, .cy, .f1, .f2, .f3] [] s t)

/-- R275 to R277: ENBL resets and DSBL sets the mask bits of the levels that K names, bit 0 for level 1 to bit 3 for level
4, and nothing else. -/
def Obligations.InterruptMasks : Prop :=
  ∀ (k : BitVec 4) (s : State),
    encode (.enbl k) = [0x0800#16 ||| k.setWidth 16] ∧ encode (.dsbl k) = [0x0880#16 ||| k.setWidth 16] ∧
    (∃ t, exec (.enbl k) s = .next t ∧
      (∀ i, i < 4 → t.status.getLsbD (12 + i) = (s.status.getLsbD (12 + i) && !k.getLsbD i)) ∧
      controlled (s.pc + 2#16) [] [.m1, .m2, .m3, .m4] [] s t) ∧
    (∃ t, exec (.dsbl k) s = .next t ∧
      (∀ i, i < 4 → t.status.getLsbD (12 + i) = (s.status.getLsbD (12 + i) || k.getLsbD i)) ∧
      controlled (s.pc + 2#16) [] [.m1, .m2, .m3, .m4] [] s t)

/-- R270: HALT ends in the HALTED state at the next instruction, nothing else changing. R278 to R282: ENBW, DSBW and both
words of WAIT apply the masks first; then the processor waits at the same program counter, or, where all levels are
masked, the instruction traps, the stored status showing the new masks. That the Active bit stays as it is in the WAIT
state is the model's choice (log 41). -/
def Obligations.HaltsAndWaits : Prop :=
  ∀ (ignored : BitVec 8) (k : BitVec 4) (s : State),
    let enabled := s.status &&& ~~~(k.setWidth 16 <<< 12)
    let disabled := s.status ||| (k.setWidth 16 <<< 12)
    let outcome := fun (iw st : Word) (o : Outcome) =>
      (st >>> 12 ≠ 15#16 → o = .next { s with status := st, run := .waiting }) ∧
      (st >>> 12 = 15#16 → o = takeUnimplemented iw { s with status := st })
    (∃ t, exec (.halt ignored) s = .next t ∧ t.run = .halted ∧
      controlled (s.pc + 2#16) [] [] [] { s with run := .halted } t) ∧
    outcome (0x0840#16 ||| k.setWidth 16) enabled (exec (.enbw k) s) ∧
    outcome (0x08C0#16 ||| k.setWidth 16) disabled (exec (.dsbw k) s) ∧
    outcome 0x0840#16 s.status (exec .wait s) ∧ outcome 0x08C0#16 s.status (exec .waitD s)

/-- R283 to R285: STSM stores the status word at M, REGM the registers 1 to 7 at M, M + 2, ..., M + 12; M is 2 x D, or P
+ 2 x D. The base P is the reading D4 of the spec. -/
def Obligations.StoresStatusAndRegisters : Prop :=
  ∀ (rel : Bool) (d : BitVec 8) (s : State),
    let m := if rel then s.pc + 2#16 * d.signExtend 16 else 2#16 * d.setWidth 16
    (s.inMemory (evenAddr m) = true → ∃ t, exec (.stsm rel d) s = .next t ∧ t.mem.word m = s.status ∧
      controlled (s.pc + 2#16) [] [] (operandBytes .word m) s t) ∧
    ((∀ a ∈ sevenWords m, s.inMemory (evenAddr a) = true) → ∃ t, exec (.regm rel d) s = .next t ∧
      (∀ i, i < 7 → t.mem.word (m + BitVec.ofNat 16 (2 * i)) = s.reg (BitVec.ofNat 3 (i + 1))) ∧
      controlled (s.pc + 2#16) [] [] ((sevenWords m).flatMap (operandBytes .word)) s t)

/-- R283, R287, R288: MREG loads the registers 1 to 7 from M, M + 2, ..., M + 12; MSTS loads the status word at M, whose
Active bit is 1. The base P is the reading D4 of the spec. -/
def Obligations.LoadsStatusAndRegisters : Prop :=
  ∀ (rel : Bool) (d : BitVec 8) (s : State),
    let m := if rel then s.pc + 2#16 * d.signExtend 16 else 2#16 * d.setWidth 16
    (s.inMemory (evenAddr m) = true → (s.mem.word m).getLsbD 11 = true → ∃ t, exec (.msts rel d) s = .next t ∧
      t.status = s.mem.word m ∧ controlled (s.pc + 2#16) [] [] [] { s with status := s.mem.word m } t) ∧
    ((∀ a ∈ sevenWords m, s.inMemory (evenAddr a) = true) → ∃ t, exec (.mreg rel d) s = .next t ∧
      (∀ i, i < 7 → t.reg (BitVec.ofNat 3 (i + 1)) = s.mem.word (m + BitVec.ofNat 16 (2 * i))) ∧
      controlled (s.pc + 2#16) [1#3, 2#3, 3#3, 4#3, 5#3, 6#3, 7#3] [] [] s t)

/-- R283, R286: RETN: the word at M becomes the status, whose Active bit is 1, and the word at M + 2 the program counter;
nothing else changes. The base P of the relative form is the reading D4 of the spec (log 36). -/
def Obligations.Returns : Prop :=
  ∀ (rel : Bool) (d : BitVec 8) (s : State),
    let m := if rel then s.pc + 2#16 * d.signExtend 16 else 2#16 * d.setWidth 16
    s.inMemory (evenAddr m) = true → s.inMemory (evenAddr (m + 2#16)) = true → (s.mem.word m).getLsbD 11 = true →
    ∃ t, exec (.retn rel d) s = .next t ∧ t.status = s.mem.word m ∧
      controlled (s.mem.word (m + 2#16)) [] [] [] { s with status := s.mem.word m } t

/-- R31, log 14: MSTS and RETN of a word whose Active bit is 0: either the processor halts with that status word, or it goes
on with the Active bit 1; which of the two is open. The base P of the relative form is the reading D4 of the spec
(log 36). -/
def Obligations.InactiveStatus : Prop :=
  ∀ (rel : Bool) (d : BitVec 8) (s : State),
    let m := if rel then s.pc + 2#16 * d.signExtend 16 else 2#16 * d.setWidth 16
    let w := s.mem.word m
    let loaded := fun (pc : Word) (t : State) =>
      controlled pc [] [] [] { s with status := w, run := .halted } t ∨
        controlled pc [] [] [] { s with status := w ||| 0x0800#16 } t
    s.inMemory (evenAddr m) = true → w.getLsbD 11 = false →
    (∃ t, exec (.msts rel d) s = .next t ∧ loaded (s.pc + 2#16) t) ∧
    (s.inMemory (evenAddr (m + 2#16)) = true →
      ∃ t, exec (.retn rel d) s = .next t ∧ loaded (s.mem.word (m + 2#16)) t)

/-- R283, R289, R504, R515: STSM, MSTS, RETN, REGM and MREG where a word lies where no module answers (Abort with its
address, the decision D33 of the spec) or may not be accessed (D23, D24, log 16). At the first word nothing has changed;
at the second of RETN status and program counter have not; at word `k` of REGM and MREG the words before it are
transferred (D34). The base P of the relative form is the reading D4 of the spec (log 36). -/
def Obligations.ControlAborts : Prop :=
  ∀ (rel : Bool) (d : BitVec 8) (s : State),
    let m := if rel then s.pc + 2#16 * d.signExtend 16 else 2#16 * d.setWidth 16
    let word := fun i : Nat => m + BitVec.ofNat 16 (2 * i)
    let register := fun i : Nat => BitVec.ofNat 3 (i + 1)
    (∀ i ∈ [Instr.stsm rel d, .msts rel d, .retn rel d, .regm rel d, .mreg rel d],
      stopsAt (s.wordPlace m) s (exec i s)) ∧
    (∀ v s1, readWord m s = .ok v s1 → stopsAt (s.wordPlace (m + 2#16)) s1 (exec (.retn rel d) s) ∧
      s1.pc = s.pc ∧ sameBut [] [] [] s s1) ∧
    ∀ k, k < 7 → (∀ i, i < k → s.wordPlace (word i) = .memory ∨ s.wordPlace (word i) = .device) →
      (∀ r, s.wordPlace (word k) = .refused r →
        exec (.regm rel d) s = .refused r ∧ exec (.mreg rel d) s = .refused r) ∧
      ∀ x, s.wordPlace (word k) = .absent x →
        (∃ u, exec (.regm rel d) s = takeAbort x u ∧ u.pc = s.pc ∧
          (∀ i, i < k → s.wordPlace (word i) = .memory → u.mem.word (word i) = s.reg (register i)) ∧
          sameBut [] [] (((List.range k).map word).flatMap (operandBytes .word)) s u ∧
          ((∀ i, i < k → s.wordPlace (word i) = .memory) → sameDevices s u)) ∧
        ∃ u, exec (.mreg rel d) s = takeAbort x u ∧ u.pc = s.pc ∧
          (∀ i, i < k → s.wordPlace (word i) = .memory → u.reg (register i) = s.mem.word (word i)) ∧
          sameBut ((List.range k).map register) [] [] s u ∧
          ((∀ i, i < k → s.wordPlace (word i) = .memory) → sameDevices s u)

/-! ## Taking an interrupt and returning from one -/

/-- R506, R507, R509, R514: self-interrupts 5 and 6 of processor n: the block at 20h + 10h n, or 28h + 10h n, receives the
instruction word, or the failed address, the status and the program counter; control goes to the vector in its fourth
word; the registers 1 to 7 and the key stay. TRAP_STATUS may be the identity; where it is not, that the Active bit is 1
is the model's choice (log 5). Where the block is not in program memory the entry has no description (log 21). -/
def Obligations.SelfInterrupts : Prop :=
  ∀ (w : Word) (s : State) (abort : Bool),
    let b := 0x20#16 + 0x10#16 * s.par.cpu.setWidth 16 + if abort then 8#16 else 0#16
    let entry := if abort then takeAbort w s else takeUnimplemented w s
    (s.par.memTop.toNat < b.toNat + 8 → entry = .fault (.entryBlockAbsent (if abort then 6 else 5))) ∧
    (b.toNat + 8 ≤ s.par.memTop.toNat → ∃ t, entry = .next t ∧
      t.mem.word b = w ∧ t.mem.word (b + 2#16) = s.status ∧ t.mem.word (b + 4#16) = s.pc ∧
      t.pc = s.mem.word (b + 6#16) ∧ t.run = .running ∧
      (s.par.trapStatus = .identity → t.status = s.status) ∧
      (s.par.trapStatus = .implementation → t.flag .a = true) ∧
      sameRegistersBut [] s t ∧ sameMemoryBut ((List.range 6).map fun i => b + BitVec.ofNat 16 i) s t ∧
      sameDevices s t ∧ t.key = s.key ∧ t.pending = s.pending ∧ t.runRequest = s.runRequest ∧ t.par = s.par)

/-- R517: RETN to word 1 of the level-5 block (D = 11h + 8 n) or of the level-6 block (D = 15h + 8 n) brings back the status
and the program counter that the entry stored, and the registers 1 to 7 are as they were. -/
def Obligations.ReturnRestores : Prop :=
  ∀ (w : Word) (s t : State) (abort : Bool), s.flag .a = true →
    (if abort then takeAbort w s else takeUnimplemented w s) = .next t →
    ∃ u, exec (.retn false ((if abort then 0x15#8 else 0x11#8) + 8#8 * s.par.cpu.setWidth 8)) t = .next u ∧
      u.status = s.status ∧ u.pc = s.pc ∧ sameRegistersBut [] s u ∧ u.key = s.key

/-! ## Fetch and clear, the key -/

/-- R314, R316, R320, R321: FCLW and FCLB on the models that have them: the operand in program memory is cleared; the
register receives its old content on the B models and zero on the A models; NG, ZE and OD are open. The basic 1110
traps. The indicators are the reading D43 of the spec (log 26). -/
def Obligations.FetchAndClear : Prop :=
  ∀ (size : Size) (ar : RegNo) (m : MemOperand) (s s1 : State) (a : Word),
    let i := if size = .word then Instr.fclw ar m else Instr.fclb ar m
    (s.par.model = .m1110 → exec i s = takeUnimplemented (fclWord size ar m) s) ∧
    (s.par.model ≠ .m1110 → effectiveAddress .none size m s = .ok a s1 → s.holds size a = true →
      ∃ t, exec i s = .next t ∧ t.operand size a = 0#16 ∧
        delivered (operandLength m) ar
          (if s.par.model ∈ [Model.m1110B, .m1111B, .m1112B] then s.operand size a else 0#16) s t ∧
        sameBut [ar] [.ng, .ze, .od] (operandBytes size a) s t ∧ sameDevices s1 t)

/-- R310, R311, R481, R482, R484, logs 13, 30: SKEY and, on the 1112, JKEY, LCPU and LKEY; with XR = 0 the program counter
after LCPU and LKEY is open. On the other models their words are undefined (R115): the word is that of the pattern the
installation has for the instruction, and open where it has none. -/
def Obligations.KeyInstructions : Prop :=
  ∀ (k : BitVec 2) (xr : RegNo) (target : Word) (s : State),
    let undefinedThere := fun (i : Instr) (pattern : Option KeyPattern) (field : Word) =>
      ∃ w, (∀ p, pattern = some p → w = p.word field) ∧ exec i s = undefinedWord w s
    (s.par.model ≠ .m1110 → ∃ t, exec (.skey k) s = .next t ∧ controlled (s.pc + 2#16) [] [] [] { s with key := k } t) ∧
    (s.par.model = .m1110 → undefinedThere (.skey k) s.par.encodings.skey (k.setWidth 16)) ∧
    (s.par.model.scientific = true →
      (∃ t, exec (.jkey k target) s = .next t ∧ controlled target [] [] [] { s with key := k } t) ∧
      (∃ t, exec (.lcpu xr) s = .next t ∧ sameBut [xr] [] [] s t ∧ sameDevices s t ∧
        (xr ≠ 0#3 → t.pc = s.pc + 2#16 ∧ t.reg xr = 0x20#16 * s.par.cpu.setWidth 16)) ∧
      (∃ t, exec (.lkey xr) s = .next t ∧ sameBut [xr] [] [] s t ∧ sameDevices s t ∧
        (xr ≠ 0#3 → t.pc = s.pc + 2#16 ∧ t.reg xr = s.key.setWidth 16))) ∧
    (s.par.model.scientific = false →
      undefinedThere (.jkey k target) s.par.encodings.jkey (k.setWidth 16) ∧
      undefinedThere (.lcpu xr) s.par.encodings.lcpu (xr.setWidth 16) ∧
      undefinedThere (.lkey xr) s.par.encodings.lkey (xr.setWidth 16))

/-! ## Bits and moves -/

/-- R371 to R378: RBIT, SBIT, CBIT, IBIT, TSBT and TBIT on the 1112 in their three forms: CY tells whether a selected
bit was not zero before; the result goes to AR with NG, ZE, OD. TBIT writes no register and leaves NG, ZE and OD
open (log 27); a bit number from XR = 0 is open (log 11). NG, ZE and OD are the reading D35 of the spec; register 0
reads as PCREAD (log 4); IBIT with no bit selected leaves 0 (log 40). -/
def Obligations.BitInstructions : Prop :=
  ∀ (op : BitOp) (ar : RegNo) (s : State), s.par.model.scientific = true →
    let did := fun (len m : Word) (t : State) =>
      let a := s.data len ar
      t.flag .cy = (a &&& m != 0#16) ∧ match op with
        | .rbit => wroteRegister len ar (a &&& ~~~m) [.cy] s t
        | .sbit => wroteRegister len ar (a ||| m) [.cy] s t
        | .cbit => wroteRegister len ar (a ^^^ m) [.cy] s t
        | .ibit => wroteRegister len ar (a &&& m) [.cy] s t
        | .tsbt => wroteRegister len ar (a <<< 1) [.cy] s t
        | .tbit => controlled (s.pc + len) [] [.cy, .ng, .ze, .od] [] s t
    (∀ k : BitVec 4, ∃ t, exec (bitInstrK op ar k) s = .next t ∧ did 2#16 (1#16 <<< k.toNat) t) ∧
    (∀ xr : RegNo, xr ≠ 0#3 → ∃ t, exec (bitInstrX op ar xr) s = .next t ∧
      did 2#16 (1#16 <<< ((s.reg xr).toNat % 16)) t) ∧
    (∃ t n, n < 16 ∧ exec (bitInstrX op ar 0#3) s = .next t ∧ did 2#16 (1#16 <<< n) t) ∧
    (∀ (xr : RegNo) (mask : Word), ∃ t, exec (bitInstrM op ar xr mask) s = .next t ∧
      did 4#16 (if xr = 0#3 then mask else mask &&& s.reg xr) t)

/-- R380 to R384: NEGT, CPLM, MOVP and MOVN on the 1112: the twos complement, the ones complement, the positive and the
negative magnitude of (XR) to AR with NG, ZE and OD; the magnitude of 8000h is 8000h (D44). Register 0 reads as
PCREAD (log 4). -/
def Obligations.Moves : Prop :=
  ∀ (ar xr : RegNo) (s : State), s.par.model.scientific = true →
    let v := s.data 2#16 xr
    (∃ t, exec (.negt ar xr) s = .next t ∧ wroteRegister 2#16 ar (BitVec.ofInt 16 (-v.toInt)) [] s t) ∧
    (∃ t, exec (.cplm ar xr) s = .next t ∧ wroteRegister 2#16 ar (BitVec.ofInt 16 (-1 - v.toInt)) [] s t) ∧
    (∃ t, exec (.movp ar xr) s = .next t ∧ wroteRegister 2#16 ar (BitVec.ofNat 16 v.toInt.natAbs) [] s t) ∧
    (∃ t, exec (.movn ar xr) s = .next t ∧ wroteRegister 2#16 ar (BitVec.ofInt 16 (-v.toInt.natAbs)) [] s t)

/-! ## Fixed point -/

/-- R400, R452, R461, R462: DLOD copies the two words at M to the pair, DSTA the pair to the two words; NG, ZE and OD show
both words. -/
def Obligations.LoadAndStorePair : Prop :=
  ∀ (r : RegNo) (m : MemOperand) (s s1 : State) (a : Word), s.par.model.scientific = true → r ∈ [2#3, 4#3, 6#3] →
    effectiveAddress .none .word m s = .ok a s1 → s.holds .word a = true → s.holds .word (a + 2#16) = true →
    (∃ t, exec (.dlod r m) s = .next t ∧ t.reg r = s.mem.word a ∧ t.reg (oddRegister r) = s.mem.word (a + 2#16) ∧
      wrotePair (operandLength m) r [] s t ∧ sameDevices s1 t) ∧
    (∃ t, exec (.dsta r m) s = .next t ∧ t.mem.word a = s.reg r ∧ t.mem.word (a + 2#16) = s.reg (oddRegister r) ∧
      showsPair r t ∧ t.pc = s.pc + operandLength m ∧ sameDevices s1 t ∧
      sameBut [] [.ng, .ze, .od] (operandBytes .word a ++ operandBytes .word (a + 2#16)) s t)

/-- R400, R463, R464: DADD and DSUB: the pair holds the sum or difference of the 31-bit numbers modulo 2^31, S'
adjusted; CY is the carry out of the sign position (for DSUB: no borrow), OV is set where the result does not fit.
CY and OV are the reading D28 of the spec. -/
def Obligations.AddAndSubtractPair : Prop :=
  ∀ (r : RegNo) (m : MemOperand) (s s1 : State) (a : Word), s.par.model.scientific = true → r ∈ [2#3, 4#3, 6#3] →
    effectiveAddress .none .word m s = .ok a s1 → s.holds .word a = true → s.holds .word (a + 2#16) = true →
    let x := s.number r
    let y := pair31 (s.mem.word a) (s.mem.word (a + 2#16))
    (∃ t, exec (.dadd r m) s = .next t ∧ holdsNumber r (BitVec.ofInt 31 (x.toInt + y.toInt)) t ∧
      t.flag .cy = decide (2 ^ 31 ≤ x.toNat + y.toNat) ∧
      t.flag .ov = (s.flag .ov || overflows 31 0 (x.toInt + y.toInt)) ∧
      wrotePair (operandLength m) r [.cy, .ov] s t ∧ sameDevices s1 t) ∧
    (∃ t, exec (.dsub r m) s = .next t ∧ holdsNumber r (BitVec.ofInt 31 (x.toInt - y.toInt)) t ∧
      t.flag .cy = decide (y.toNat ≤ x.toNat) ∧
      t.flag .ov = (s.flag .ov || overflows 31 0 (x.toInt - y.toInt)) ∧
      wrotePair (operandLength m) r [.cy, .ov] s t ∧ sameDevices s1 t)

/-- R453 to R455: MULT puts the exact product of the odd register and the operand (8000h counting as zero) into the
pair; MLTA adds the even register, and leaves CY open (log 28). The arithmetic is the reading D29 of the spec. -/
def Obligations.Multiplies : Prop :=
  ∀ (pair : BitVec 2) (m : MemOperand) (s s1 : State) (a : Word), s.par.model.scientific = true → pair ≠ 0#2 →
    effectiveAddress .none .word m s = .ok a s1 → s.holds .word a = true →
    let r : RegNo := pair ++ 0#1
    let w := if s.mem.word a = 0x8000#16 then 0 else (s.mem.word a).toInt
    let product := (s.reg (oddRegister r)).toInt * w
    (∃ t, exec (.mult pair m) s = .next t ∧ (t.number r).toInt = product ∧ holdsNumber r (t.number r) t ∧
      wrotePair (operandLength m) r [] s t ∧ sameDevices s1 t) ∧
    (∃ t, exec (.mlta pair m) s = .next t ∧ (t.number r).toInt = product + (s.reg r).toInt ∧
      holdsNumber r (t.number r) t ∧ wrotePair (operandLength m) r [.cy] s t ∧ sameDevices s1 t)

/-- R456, R457: DIVD with either register of the pair as AR: quotient to the odd register, truncated toward zero, and
remainder with the dividend's sign to the even one; or the divide check, which sets OV and leaves pair, NG, ZE and
OD open (log 28). The arithmetic is the reading D29 of the spec, and that either register of a pair may be AR its
decision D37 (log 36). -/
def Obligations.Divides : Prop :=
  ∀ (ar : RegNo) (m : MemOperand) (s s1 : State) (a : Word), s.par.model.scientific = true → 2 ≤ ar.toNat →
    effectiveAddress .none .word m s = .ok a s1 → s.holds .word a = true →
    let r := ar &&& 6#3
    let n := (s.number r).toInt
    let w := s.mem.word a
    let check := w = 0#16 ∨ w = 0x8000#16 ∨ n = -2 ^ 30 ∨ 32767 < n.natAbs / w.toInt.natAbs
    ∃ t, exec (.divd ar m) s = .next t ∧ t.pc = s.pc + operandLength m ∧ sameDevices s1 t ∧
      sameBut [r, oddRegister r] [.ov, .ng, .ze, .od] [] s t ∧ (check → t.flag .ov = true) ∧
      (¬ check → n = (t.reg (oddRegister r)).toInt * w.toInt + (t.reg r).toInt ∧
        (t.reg r).toInt.natAbs < w.toInt.natAbs ∧ 0 ≤ n * (t.reg r).toInt ∧ t.flag .ov = s.flag .ov ∧
        shows (t.reg (oddRegister r)) t)

/-- R112, R450, R451, R457, R460, log 29: class B traps on the models without it and with AR = 0 or 1; the
double-precision four refuse an odd AR by name. R330, R331, log 22: class C traps on the models without it; R1 or R2 zero is
refused by name. -/
def Obligations.ClassDesignators : Prop :=
  ∀ (ar r1 r2 x1 x2 : RegNo) (l1 l2 : BitVec 4) (pair : BitVec 2) (m : MemOperand) (s : State),
    (s.par.model.scientific = false ∨ ar.toNat < 2 →
      exec (.dsta ar m) s = takeUnimplemented (fixedWord 0#3 ar m) s ∧
      exec (.dsub ar m) s = takeUnimplemented (fixedWord 1#3 ar m) s ∧
      exec (.dadd ar m) s = takeUnimplemented (fixedWord 2#3 ar m) s ∧
      exec (.divd ar m) s = takeUnimplemented (fixedWord 4#3 ar m) s ∧
      exec (.dlod ar m) s = takeUnimplemented (fixedWord 5#3 ar m) s) ∧
    (s.par.model.scientific = false ∨ pair = 0#2 →
      exec (.mlta pair m) s = takeUnimplemented (fixedWord 3#3 (pair ++ 0#1) m) s ∧
      exec (.mult pair m) s = takeUnimplemented (fixedWord 3#3 (pair ++ 1#1) m) s) ∧
    (s.par.model.scientific = true → ar ∈ [3#3, 5#3, 7#3] → ∀ a s1, effectiveAddress .none .word m s = .ok a s1 →
      exec (.dsta ar m) s = .refused (.pairDesignator ar) ∧ exec (.dsub ar m) s = .refused (.pairDesignator ar) ∧
      exec (.dadd ar m) s = .refused (.pairDesignator ar) ∧ exec (.dlod ar m) s = .refused (.pairDesignator ar)) ∧
    (∀ p ∈ [(2#4, Instr.zadd r1 r2 l1 l2 x1 x2), (3#4, .addd r1 r2 l1 l2 x1 x2), (4#4, .subd r1 r2 l1 l2 x1 x2),
        (5#4, .cmpd r1 r2 l1 l2 x1 x2), (9#4, .movr r1 r2 l1 l2 x1 x2), (11#4, .movl r1 r2 l1 l2 x1 x2),
        (12#4, .comp r1 r2 l1 l2 x1 x2)],
      (s.par.model.decimal = false → exec p.2 s = takeUnimplemented (decimalWord p.1 r1 r2) s) ∧
      (s.par.model.decimal = true → r1 = 0#3 ∨ r2 = 0#3 → exec p.2 s = .refused .decimalRegisterZero)) ∧
    (∀ p ∈ [(8#4, Instr.sftr r1 l1 l2 x1 x2), (10#4, .sftl r1 l1 l2 x1 x2)],
      (s.par.model.decimal = false → exec p.2 s = takeUnimplemented (decimalWord p.1 r1 0#3) s) ∧
      (s.par.model.decimal = true → r1 = 0#3 → exec p.2 s = .refused .decimalRegisterZero))

/-! ## Decimal and character instructions -/

/-- R331 to R334, R338 to R340: ZADD, ADDD and SUBD on the 1111, fields in program memory that do not overlap, valid
operands: ZADD moves the bytes from the right, zeros beyond the source; ADDD and SUBD leave the sum or difference, its
magnitude truncated to the destination, its sign by algebra, the destination's old sign where it is zero. That the general
registers come back is the decision D25 of the spec; a field that overlaps the scratch words keeps its result (log 39)
and the other indicators are open (log 24). -/
def Obligations.DecimalArithmetic : Prop :=
  ∀ (r1 r2 : RegNo) (l1 l2 : BitVec 4) (x1 x2 : RegNo) (s s1 : State),
    let src := s.field r1 l1 x1
    let dst := s.field r2 l2 x2
    let a := src.bytes s1.mem
    let b := dst.bytes s1.mem
    s.par.model.decimal = true → r1 ≠ 0#3 → r2 ≠ 0#3 → saveScratch s = .ok () s1 →
    s.holdsField src = true → s.holdsField dst = true → src.overlap dst = false → fieldValid a = true →
    (∃ t, exec (.zadd r1 r2 l1 l2 x1 x2) s = .next t ∧ decimalDone dst.addresses s1 t ∧
      ∀ i, i < dst.len → t.mem.byte (dst.fromRight i) = if i < src.len then s1.mem.byte (src.fromRight i) else 0#8) ∧
    (fieldValid b = true → ∀ subtract : Bool,
      let v := if subtract then fieldValue b - fieldValue a else fieldValue b + fieldValue a
      (((fieldSign a = fieldSign b) ↔ subtract = true) → magnitude (fieldDigits a) < 10 ^ (2 * dst.len - 1)) →
      ∃ t, exec (if subtract then .subd r1 r2 l1 l2 x1 x2 else .addd r1 r2 l1 l2 x1 x2) s = .next t ∧
        decimalDone dst.addresses s1 t ∧ fieldValid (dst.bytes t.mem) = true ∧
        magnitude (fieldDigits (dst.bytes t.mem)) = v.natAbs % 10 ^ (2 * dst.len - 1) ∧
        fieldSign (dst.bytes t.mem) = if 0 < v then 12#4 else if v < 0 then 13#4 else fieldSign b)

/-- R332: before anything else the first three words of the level-5 block receive registers 5, 6 and 7. R333, R337, log
23: then, on the 1111, the nine instructions go on whatever the data where their fields lie in program memory:
beside the free indicators only the destination's bytes change, and those that compare change none. What invalid
operands leave is open (log 23), and so are the indicators (log 24). That the general registers come back is the
decision D25 of the spec; a field that overlaps the scratch words keeps its result (log 39). -/
def Obligations.DecimalFrame : Prop :=
  ∀ (r1 r2 : RegNo) (l1 l2 : BitVec 4) (x1 x2 : RegNo) (s : State),
    let src := s.field r1 l1 x1
    let dst := s.field r2 l2 x2
    let b := 0x20#16 + 0x10#16 * s.par.cpu.setWidth 16
    0x28 + 0x10 * s.par.cpu.toNat ≤ s.par.memTop.toNat →
    ∃ s1, saveScratch s = .ok () s1 ∧ s1.mem.word b = s.reg 5#3 ∧ s1.mem.word (b + 2#16) = s.reg 6#3 ∧
      s1.mem.word (b + 4#16) = s.reg 7#3 ∧ controlled s.pc [] [] (scratchBytes s) s s1 ∧
      (s.par.model.decimal = true → r1 ≠ 0#3 → s.holdsField src = true →
        (∀ i ∈ [Instr.sftr r1 l1 l2 x1 x2, .sftl r1 l1 l2 x1 x2],
          ∃ t, exec i s = .next t ∧ decimalDone src.addresses s1 t) ∧
        (r2 ≠ 0#3 → s.holdsField dst = true →
          (∀ i ∈ [Instr.zadd r1 r2 l1 l2 x1 x2, .addd r1 r2 l1 l2 x1 x2, .subd r1 r2 l1 l2 x1 x2,
              .movr r1 r2 l1 l2 x1 x2, .movl r1 r2 l1 l2 x1 x2],
            ∃ t, exec i s = .next t ∧ decimalDone dst.addresses s1 t) ∧
          ∀ i ∈ [Instr.cmpd r1 r2 l1 l2 x1 x2, .comp r1 r2 l1 l2 x1 x2],
            ∃ t, exec i s = .next t ∧ decimalDone [] s1 t))

/-- R337(b), R515(c), log 25: a decimal or character instruction whose field has a byte outside program memory aborts
with the address of such a byte; beside the scratch words only bytes of the destination may have been written. Which
byte it is, and what the destination then holds, is open. Abort and the state left are the decisions D33 and D34 of
the spec; a field that overlaps the scratch words keeps what is written there (log 39). -/
def Obligations.DecimalAborts : Prop :=
  ∀ (r1 r2 : RegNo) (l1 l2 : BitVec 4) (x1 x2 : RegNo) (s s1 : State),
    let src := s.field r1 l1 x1
    let dst := s.field r2 l2 x2
    s.par.model.decimal = true → r1 ≠ 0#3 → saveScratch s = .ok () s1 →
    (∀ i ∈ [Instr.zadd r1 r2 l1 l2 x1 x2, .addd r1 r2 l1 l2 x1 x2, .subd r1 r2 l1 l2 x1 x2, .cmpd r1 r2 l1 l2 x1 x2,
        .movr r1 r2 l1 l2 x1 x2, .movl r1 r2 l1 l2 x1 x2, .comp r1 r2 l1 l2 x1 x2],
      r2 ≠ 0#3 → s.holdsField src = false ∨ s.holdsField dst = false →
      ∃ x u, exec i s = takeAbort x u ∧ (x ∈ src.addresses ∨ x ∈ dst.addresses) ∧ s.inMemory x = false ∧
        controlled s.pc [] [] dst.addresses s1 u) ∧
    (∀ i ∈ [Instr.sftr r1 l1 l2 x1 x2, .sftl r1 l1 l2 x1 x2], s.extended l2 x2 ≠ 0 → s.holdsField src = false →
      ∃ x u, exec i s = takeAbort x u ∧ x ∈ src.addresses ∧ s.inMemory x = false ∧
        controlled s.pc [] [] src.addresses s1 u)

/-- R341, R346: CMPD compares the values of two valid fields, minus zero equal to plus zero; COMP compares bytes from the
left, the shorter field extended with blanks (A0h). EQ and GT show the result. The other
indicators are open (log 24); that the general registers come back is the decision D25 of the spec. -/
def Obligations.FieldCompare : Prop :=
  ∀ (r1 r2 : RegNo) (l1 l2 : BitVec 4) (x1 x2 : RegNo) (s s1 : State),
    let src := s.field r1 l1 x1
    let dst := s.field r2 l2 x2
    let a := src.bytes s1.mem
    let b := dst.bytes s1.mem
    let p := fun i => if i < src.len then s1.mem.byte (src.fromLeft i) else 0xA0#8
    let q := fun i => if i < dst.len then s1.mem.byte (dst.fromLeft i) else 0xA0#8
    s.par.model.decimal = true → r1 ≠ 0#3 → r2 ≠ 0#3 → saveScratch s = .ok () s1 →
    s.holdsField src = true → s.holdsField dst = true →
    (fieldValid a = true → fieldValid b = true → ∃ t, exec (.cmpd r1 r2 l1 l2 x1 x2) s = .next t ∧ decimalDone [] s1 t ∧
      t.flag .eq = decide (fieldValue a = fieldValue b) ∧ t.flag .gt = decide (fieldValue b < fieldValue a)) ∧
    (∃ t, exec (.comp r1 r2 l1 l2 x1 x2) s = .next t ∧ decimalDone [] s1 t ∧
      (t.flag .eq = true ↔ ∀ i, i < max src.len dst.len → p i = q i) ∧
      (t.flag .gt = true ↔ ∃ i, i < max src.len dst.len ∧ (q i).toNat < (p i).toNat ∧ ∀ j, j < i → p j = q j))

/-- R342, R344: SFTR and SFTL move the digits of a valid field by S + (X2) places, zeros coming in, the sign staying; a
count of zero does nothing. That the general
registers come back is the decision D25 of the spec; a field that overlaps the scratch words keeps its result (log 39)
and the other indicators are open (log 24). -/
def Obligations.DecimalShifts : Prop :=
  ∀ (r1 : RegNo) (l1 sh : BitVec 4) (x1 x2 : RegNo) (s s1 : State) (left : Bool),
    let f := s.field r1 l1 x1
    let count := sh.toNat + if x2 = 0#3 then 0 else (s.reg x2).toNat
    let old := fieldDigits (f.bytes s1.mem)
    let i := if left then Instr.sftl r1 l1 sh x1 x2 else Instr.sftr r1 l1 sh x1 x2
    s.par.model.decimal = true → r1 ≠ 0#3 → saveScratch s = .ok () s1 →
    (count = 0 → ∃ t, exec i s = .next t ∧ decimalDone [] s1 t) ∧
    (count ≠ 0 → s.holdsField f = true → fieldValid (f.bytes s1.mem) = true →
      ∃ t, exec i s = .next t ∧ decimalDone f.addresses s1 t ∧
        fieldSign (f.bytes t.mem) = fieldSign (f.bytes s1.mem) ∧
        ∀ k, k < 2 * f.len - 1 → (fieldDigits (f.bytes t.mem))[k]? =
          some (if left then (if count ≤ k then old.getD (k - count) 0#4 else 0#4) else old.getD (k + count) 0#4))

/-- R343, R345: MOVR and MOVL move the bytes of the shorter length one at a time, MOVR from the right end and MOVL from the
left, each byte read when its turn comes, so that overlapping fields are defined. That the general
registers come back is the decision D25 of the spec; a field that overlaps the scratch words keeps its result (log 39)
and the other indicators are open (log 24). -/
def Obligations.FieldMoves : Prop :=
  ∀ (r1 r2 : RegNo) (l1 l2 : BitVec 4) (x1 x2 : RegNo) (s s1 : State),
    let src := s.field r1 l1 x1
    let dst := s.field r2 l2 x2
    let moved := fun (place : Field → Nat → Word) =>
      (List.range (min src.len dst.len)).foldl (fun mem i => mem.setByte (place dst i) (mem.byte (place src i))) s1.mem
    s.par.model.decimal = true → r1 ≠ 0#3 → r2 ≠ 0#3 → saveScratch s = .ok () s1 →
    s.holdsField src = true → s.holdsField dst = true →
    (∃ t, exec (.movr r1 r2 l1 l2 x1 x2) s = .next t ∧ decimalDone dst.addresses s1 t ∧
      t.mem = moved fun f i => f.addr + BitVec.ofNat 16 (f.len - 1 - i)) ∧
    (∃ t, exec (.movl r1 r2 l1 l2 x1 x2) s = .next t ∧ decimalDone dst.addresses s1 t ∧
      t.mem = moved fun f i => f.addr + BitVec.ofNat 16 i)

/-! ## Models -/

/-- R105, R115, R116, R370, R402, R507, logs 6, 7, 37: the instructions of the 1112 on the other models: bit instructions,
moves and single normalize are undefined words, the double-length ones trap; and a designator that is no pair makes a
double-length word undefined. The word is the first of the instruction's encoding. -/
def Obligations.OtherModels : Prop :=
  ∀ (ar xr : RegNo) (k : BitVec 4) (mask : Word) (pair : BitVec 2) (k5 : BitVec 5) (s : State),
    let undefinedThere := fun i : Instr => ∃ w, (encode i).head? = some w ∧ exec i s = undefinedWord w s
    let trapsThere := fun i : Instr => ∃ w, (encode i).head? = some w ∧ exec i s = takeUnimplemented w s
    (s.par.model.scientific = false →
      (∀ op, undefinedThere (bitInstrK op ar k) ∧ undefinedThere (bitInstrX op ar xr) ∧
        undefinedThere (bitInstrM op ar xr mask)) ∧
      (∀ op, undefinedThere (moveInstr op ar xr)) ∧
      (∀ op, undefinedThere (normInstr op ar xr)) ∧
      (∀ op, trapsThere (dnormInstr op ar xr)) ∧
      ∀ op, trapsThere (dshiftInstrK op pair k5) ∧ trapsThere (dshiftInstrX op ar xr)) ∧
    (s.par.model.scientific = true →
      (ar ∉ [2#3, 4#3, 6#3] →
        (∀ op, undefinedThere (dnormInstr op ar xr)) ∧ ∀ op, undefinedThere (dshiftInstrX op ar xr)) ∧
      ∀ op, undefinedThere (dshiftInstrK op 0#2 k5))
end

