-- ==== Sys2Proof/Laws/Encoding.lean ====
section
/-! SUPPORT. The fields of the words that the builders assemble, of the operand part, and of two concatenated bytes. -/

namespace Sys2Proof

theorem toNat_append_eq {n k : Nat} (x : BitVec n) (y : BitVec k) :
    (x ++ y).toNat = x.toNat * 2 ^ k + y.toNat := by
  rw [BitVec.toNat_append, Nat.shiftLeft_eq, Nat.mul_comm, Nat.two_pow_add_eq_or_of_lt y.isLt]

section
variable (c k h3 t : BitVec 4) (b i e s : BitVec 1) (op ar xr : BitVec 3) (d : BitVec 8) (f : BitVec 7)
  (pair : BitVec 2) (k5 : BitVec 5) (l1 l2 : BitVec 4) (r1 r2 x1 x2 : BitVec 3)

theorem assemble_toNat : (assemble c b op i ar e xr).toNat =
    c.toNat * 4096 + b.toNat * 2048 + op.toNat * 256 + i.toNat * 128 + ar.toNat * 16 + e.toNat * 8 + xr.toNat := by
  unfold assemble
  simp only [toNat_append_eq]
  omega

@[simp] theorem fieldC_assemble : fieldC (assemble c b op i ar e xr) = c := by
  apply BitVec.eq_of_toNat_eq
  simp only [fieldC, BitVec.extractLsb'_toNat, assemble_toNat, Nat.shiftRight_eq_div_pow]
  omega

@[simp] theorem fieldB_assemble : fieldB (assemble c b op i ar e xr) = b := by
  apply BitVec.eq_of_toNat_eq
  simp only [fieldB, BitVec.extractLsb'_toNat, assemble_toNat, Nat.shiftRight_eq_div_pow]
  omega

@[simp] theorem fieldOp_assemble : fieldOp (assemble c b op i ar e xr) = op := by
  apply BitVec.eq_of_toNat_eq
  simp only [fieldOp, BitVec.extractLsb'_toNat, assemble_toNat, Nat.shiftRight_eq_div_pow]
  omega

@[simp] theorem fieldT_assemble : fieldT (assemble c b op i ar e xr) = b ++ op := by
  apply BitVec.eq_of_toNat_eq
  simp only [fieldT, BitVec.extractLsb'_toNat, assemble_toNat, Nat.shiftRight_eq_div_pow, toNat_append_eq]
  omega

@[simp] theorem fieldI_assemble : fieldI (assemble c b op i ar e xr) = i := by
  apply BitVec.eq_of_toNat_eq
  simp only [fieldI, BitVec.extractLsb'_toNat, assemble_toNat, Nat.shiftRight_eq_div_pow]
  omega

@[simp] theorem fieldAr_assemble : fieldAr (assemble c b op i ar e xr) = ar := by
  apply BitVec.eq_of_toNat_eq
  simp only [fieldAr, BitVec.extractLsb'_toNat, assemble_toNat, Nat.shiftRight_eq_div_pow]
  omega

@[simp] theorem fieldE_assemble : fieldE (assemble c b op i ar e xr) = e := by
  apply BitVec.eq_of_toNat_eq
  simp only [fieldE, BitVec.extractLsb'_toNat, assemble_toNat, Nat.shiftRight_eq_div_pow]
  omega

@[simp] theorem fieldXr_assemble : fieldXr (assemble c b op i ar e xr) = xr := by
  apply BitVec.eq_of_toNat_eq
  simp only [fieldXr, BitVec.extractLsb'_toNat, assemble_toNat, Nat.shiftRight_eq_div_pow]
  omega

theorem displacementWord_toNat : (displacementWord c t d).toNat =
    c.toNat * 4096 + t.toNat * 256 + d.toNat := by
  unfold displacementWord
  simp only [toNat_append_eq]
  omega

@[simp] theorem fieldC_displacementWord : fieldC (displacementWord c t d) = c := by
  apply BitVec.eq_of_toNat_eq
  simp only [fieldC, BitVec.extractLsb'_toNat, displacementWord_toNat, Nat.shiftRight_eq_div_pow]
  omega

@[simp] theorem fieldT_displacementWord : fieldT (displacementWord c t d) = t := by
  apply BitVec.eq_of_toNat_eq
  simp only [fieldT, BitVec.extractLsb'_toNat, displacementWord_toNat, Nat.shiftRight_eq_div_pow]
  omega

@[simp] theorem fieldD_displacementWord : fieldD (displacementWord c t d) = d := by
  apply BitVec.eq_of_toNat_eq
  simp only [fieldD, BitVec.extractLsb'_toNat, displacementWord_toNat, Nat.shiftRight_eq_div_pow]
  omega

@[simp] theorem fieldOp_displacementWord : fieldOp (displacementWord c t d) = t.extractLsb' 0 3 := by
  apply BitVec.eq_of_toNat_eq
  simp only [fieldOp, BitVec.extractLsb'_toNat, displacementWord_toNat, Nat.shiftRight_eq_div_pow]
  omega

@[simp] theorem fieldB_displacementWord : fieldB (displacementWord c t d) = t.extractLsb' 3 1 := by
  apply BitVec.eq_of_toNat_eq
  simp only [fieldB, BitVec.extractLsb'_toNat, displacementWord_toNat, Nat.shiftRight_eq_div_pow]
  omega

theorem constantWord_toNat : (constantWord c b op i ar k).toNat =
    c.toNat * 4096 + b.toNat * 2048 + op.toNat * 256 + i.toNat * 128 + ar.toNat * 16 + k.toNat := by
  unfold constantWord
  simp only [toNat_append_eq]
  omega

@[simp] theorem fieldC_constantWord : fieldC (constantWord c b op i ar k) = c := by
  apply BitVec.eq_of_toNat_eq
  simp only [fieldC, BitVec.extractLsb'_toNat, constantWord_toNat, Nat.shiftRight_eq_div_pow]
  omega

@[simp] theorem fieldB_constantWord : fieldB (constantWord c b op i ar k) = b := by
  apply BitVec.eq_of_toNat_eq
  simp only [fieldB, BitVec.extractLsb'_toNat, constantWord_toNat, Nat.shiftRight_eq_div_pow]
  omega

@[simp] theorem fieldOp_constantWord : fieldOp (constantWord c b op i ar k) = op := by
  apply BitVec.eq_of_toNat_eq
  simp only [fieldOp, BitVec.extractLsb'_toNat, constantWord_toNat, Nat.shiftRight_eq_div_pow]
  omega

@[simp] theorem fieldT_constantWord : fieldT (constantWord c b op i ar k) = b ++ op := by
  apply BitVec.eq_of_toNat_eq
  simp only [fieldT, BitVec.extractLsb'_toNat, constantWord_toNat, Nat.shiftRight_eq_div_pow, toNat_append_eq]
  omega

@[simp] theorem fieldI_constantWord : fieldI (constantWord c b op i ar k) = i := by
  apply BitVec.eq_of_toNat_eq
  simp only [fieldI, BitVec.extractLsb'_toNat, constantWord_toNat, Nat.shiftRight_eq_div_pow]
  omega

@[simp] theorem fieldAr_constantWord : fieldAr (constantWord c b op i ar k) = ar := by
  apply BitVec.eq_of_toNat_eq
  simp only [fieldAr, BitVec.extractLsb'_toNat, constantWord_toNat, Nat.shiftRight_eq_div_pow]
  omega

@[simp] theorem fieldK_constantWord : fieldK (constantWord c b op i ar k) = k := by
  apply BitVec.eq_of_toNat_eq
  simp only [fieldK, BitVec.extractLsb'_toNat, constantWord_toNat, Nat.shiftRight_eq_div_pow]
  omega

theorem statusWord_toNat : (statusWord s f).toNat =
    512 + s.toNat * 128 + f.toNat := by
  unfold statusWord
  simp only [toNat_append_eq, BitVec.toNat_ofNat]
  omega

@[simp] theorem fieldC_statusWord : fieldC (statusWord s f) = 0#4 := by
  apply BitVec.eq_of_toNat_eq
  simp only [fieldC, BitVec.extractLsb'_toNat, statusWord_toNat, Nat.shiftRight_eq_div_pow, BitVec.toNat_ofNat]
  omega

@[simp] theorem fieldT_statusWord : fieldT (statusWord s f) = 2#4 := by
  apply BitVec.eq_of_toNat_eq
  simp only [fieldT, BitVec.extractLsb'_toNat, statusWord_toNat, Nat.shiftRight_eq_div_pow, BitVec.toNat_ofNat]
  omega

@[simp] theorem fieldOp_statusWord : fieldOp (statusWord s f) = 2#3 := by
  apply BitVec.eq_of_toNat_eq
  simp only [fieldOp, BitVec.extractLsb'_toNat, statusWord_toNat, Nat.shiftRight_eq_div_pow, BitVec.toNat_ofNat]
  omega

@[simp] theorem fieldI_statusWord : fieldI (statusWord s f) = s := by
  apply BitVec.eq_of_toNat_eq
  simp only [fieldI, BitVec.extractLsb'_toNat, statusWord_toNat, Nat.shiftRight_eq_div_pow]
  omega

@[simp] theorem fieldF_statusWord : fieldF (statusWord s f) = f := by
  apply BitVec.eq_of_toNat_eq
  simp only [fieldF, BitVec.extractLsb'_toNat, statusWord_toNat, Nat.shiftRight_eq_div_pow]
  omega

theorem maskWord_toNat : (maskWord h3 k).toNat =
    2048 + h3.toNat * 16 + k.toNat := by
  unfold maskWord
  simp only [toNat_append_eq, BitVec.toNat_ofNat]
  omega

@[simp] theorem fieldC_maskWord : fieldC (maskWord h3 k) = 0#4 := by
  apply BitVec.eq_of_toNat_eq
  simp only [fieldC, BitVec.extractLsb'_toNat, maskWord_toNat, Nat.shiftRight_eq_div_pow, BitVec.toNat_ofNat]
  omega

@[simp] theorem fieldT_maskWord : fieldT (maskWord h3 k) = 8#4 := by
  apply BitVec.eq_of_toNat_eq
  simp only [fieldT, BitVec.extractLsb'_toNat, maskWord_toNat, Nat.shiftRight_eq_div_pow, BitVec.toNat_ofNat]
  omega

@[simp] theorem fieldOp_maskWord : fieldOp (maskWord h3 k) = 0#3 := by
  apply BitVec.eq_of_toNat_eq
  simp only [fieldOp, BitVec.extractLsb'_toNat, maskWord_toNat, Nat.shiftRight_eq_div_pow, BitVec.toNat_ofNat]
  omega

@[simp] theorem fieldH3_maskWord : fieldH3 (maskWord h3 k) = h3 := by
  apply BitVec.eq_of_toNat_eq
  simp only [fieldH3, BitVec.extractLsb'_toNat, maskWord_toNat, Nat.shiftRight_eq_div_pow]
  omega

@[simp] theorem fieldK_maskWord : fieldK (maskWord h3 k) = k := by
  apply BitVec.eq_of_toNat_eq
  simp only [fieldK, BitVec.extractLsb'_toNat, maskWord_toNat, Nat.shiftRight_eq_div_pow]
  omega

theorem dshiftWordK_toNat : (dshiftWordK op pair k5).toNat =
    43008 + op.toNat * 256 + 128 + pair.toNat * 32 + k5.toNat := by
  unfold dshiftWordK
  simp only [toNat_append_eq, BitVec.toNat_ofNat]
  omega

@[simp] theorem fieldC_dshiftWordK : fieldC (dshiftWordK op pair k5) = 10#4 := by
  apply BitVec.eq_of_toNat_eq
  simp only [fieldC, BitVec.extractLsb'_toNat, dshiftWordK_toNat, Nat.shiftRight_eq_div_pow, BitVec.toNat_ofNat]
  omega

@[simp] theorem fieldB_dshiftWordK : fieldB (dshiftWordK op pair k5) = 1#1 := by
  apply BitVec.eq_of_toNat_eq
  simp only [fieldB, BitVec.extractLsb'_toNat, dshiftWordK_toNat, Nat.shiftRight_eq_div_pow, BitVec.toNat_ofNat]
  omega

@[simp] theorem fieldOp_dshiftWordK : fieldOp (dshiftWordK op pair k5) = op := by
  apply BitVec.eq_of_toNat_eq
  simp only [fieldOp, BitVec.extractLsb'_toNat, dshiftWordK_toNat, Nat.shiftRight_eq_div_pow]
  omega

@[simp] theorem fieldI_dshiftWordK : fieldI (dshiftWordK op pair k5) = 1#1 := by
  apply BitVec.eq_of_toNat_eq
  simp only [fieldI, BitVec.extractLsb'_toNat, dshiftWordK_toNat, Nat.shiftRight_eq_div_pow, BitVec.toNat_ofNat]
  omega

@[simp] theorem fieldPair_dshiftWordK : fieldPair (dshiftWordK op pair k5) = pair := by
  apply BitVec.eq_of_toNat_eq
  simp only [fieldPair, BitVec.extractLsb'_toNat, dshiftWordK_toNat, Nat.shiftRight_eq_div_pow]
  omega

@[simp] theorem fieldK5_dshiftWordK : fieldK5 (dshiftWordK op pair k5) = k5 := by
  apply BitVec.eq_of_toNat_eq
  simp only [fieldK5, BitVec.extractLsb'_toNat, dshiftWordK_toNat, Nat.shiftRight_eq_div_pow]
  omega

theorem decimalWord_toNat : (decimalWord t r1 r2).toNat =
    49152 + t.toNat * 256 + r1.toNat * 16 + r2.toNat := by
  unfold decimalWord
  simp only [toNat_append_eq, BitVec.toNat_ofNat]
  omega

@[simp] theorem fieldC_decimalWord : fieldC (decimalWord t r1 r2) = 12#4 := by
  apply BitVec.eq_of_toNat_eq
  simp only [fieldC, BitVec.extractLsb'_toNat, decimalWord_toNat, Nat.shiftRight_eq_div_pow, BitVec.toNat_ofNat]
  omega

@[simp] theorem fieldT_decimalWord : fieldT (decimalWord t r1 r2) = t := by
  apply BitVec.eq_of_toNat_eq
  simp only [fieldT, BitVec.extractLsb'_toNat, decimalWord_toNat, Nat.shiftRight_eq_div_pow]
  omega

@[simp] theorem fieldI_decimalWord : fieldI (decimalWord t r1 r2) = 0#1 := by
  apply BitVec.eq_of_toNat_eq
  simp only [fieldI, BitVec.extractLsb'_toNat, decimalWord_toNat, Nat.shiftRight_eq_div_pow, BitVec.toNat_ofNat]
  omega

@[simp] theorem fieldE_decimalWord : fieldE (decimalWord t r1 r2) = 0#1 := by
  apply BitVec.eq_of_toNat_eq
  simp only [fieldE, BitVec.extractLsb'_toNat, decimalWord_toNat, Nat.shiftRight_eq_div_pow, BitVec.toNat_ofNat]
  omega

@[simp] theorem fieldAr_decimalWord : fieldAr (decimalWord t r1 r2) = r1 := by
  apply BitVec.eq_of_toNat_eq
  simp only [fieldAr, BitVec.extractLsb'_toNat, decimalWord_toNat, Nat.shiftRight_eq_div_pow]
  omega

@[simp] theorem fieldXr_decimalWord : fieldXr (decimalWord t r1 r2) = r2 := by
  apply BitVec.eq_of_toNat_eq
  simp only [fieldXr, BitVec.extractLsb'_toNat, decimalWord_toNat, Nat.shiftRight_eq_div_pow]
  omega

theorem decimalWord2_toNat : (decimalWord2 l1 l2 x1 x2).toNat =
    l1.toNat * 4096 + l2.toNat * 256 + x1.toNat * 16 + x2.toNat := by
  unfold decimalWord2
  simp only [toNat_append_eq, BitVec.toNat_ofNat]
  omega

@[simp] theorem fieldC_decimalWord2 : fieldC (decimalWord2 l1 l2 x1 x2) = l1 := by
  apply BitVec.eq_of_toNat_eq
  simp only [fieldC, BitVec.extractLsb'_toNat, decimalWord2_toNat, Nat.shiftRight_eq_div_pow]
  omega

@[simp] theorem fieldT_decimalWord2 : fieldT (decimalWord2 l1 l2 x1 x2) = l2 := by
  apply BitVec.eq_of_toNat_eq
  simp only [fieldT, BitVec.extractLsb'_toNat, decimalWord2_toNat, Nat.shiftRight_eq_div_pow]
  omega

@[simp] theorem fieldI_decimalWord2 : fieldI (decimalWord2 l1 l2 x1 x2) = 0#1 := by
  apply BitVec.eq_of_toNat_eq
  simp only [fieldI, BitVec.extractLsb'_toNat, decimalWord2_toNat, Nat.shiftRight_eq_div_pow, BitVec.toNat_ofNat]
  omega

@[simp] theorem fieldE_decimalWord2 : fieldE (decimalWord2 l1 l2 x1 x2) = 0#1 := by
  apply BitVec.eq_of_toNat_eq
  simp only [fieldE, BitVec.extractLsb'_toNat, decimalWord2_toNat, Nat.shiftRight_eq_div_pow, BitVec.toNat_ofNat]
  omega

@[simp] theorem fieldAr_decimalWord2 : fieldAr (decimalWord2 l1 l2 x1 x2) = x1 := by
  apply BitVec.eq_of_toNat_eq
  simp only [fieldAr, BitVec.extractLsb'_toNat, decimalWord2_toNat, Nat.shiftRight_eq_div_pow]
  omega

@[simp] theorem fieldXr_decimalWord2 : fieldXr (decimalWord2 l1 l2 x1 x2) = x2 := by
  apply BitVec.eq_of_toNat_eq
  simp only [fieldXr, BitVec.extractLsb'_toNat, decimalWord2_toNat, Nat.shiftRight_eq_div_pow]
  omega

section
variable (m : MemOperand)

@[simp] theorem fieldC_operandWord : fieldC (operandWord c b op ar m) = c := by simp [operandWord]

@[simp] theorem fieldB_operandWord : fieldB (operandWord c b op ar m) = b := by simp [operandWord]

@[simp] theorem fieldOp_operandWord : fieldOp (operandWord c b op ar m) = op := by simp [operandWord]

@[simp] theorem fieldT_operandWord : fieldT (operandWord c b op ar m) = b ++ op := by simp [operandWord]

@[simp] theorem fieldI_operandWord : fieldI (operandWord c b op ar m) = bit1 m.ind := by simp [operandWord]

@[simp] theorem fieldAr_operandWord : fieldAr (operandWord c b op ar m) = ar := by simp [operandWord]

@[simp] theorem fieldE_operandWord : fieldE (operandWord c b op ar m) = bit1 m.ext.isSome := by simp [operandWord]

@[simp] theorem fieldXr_operandWord : fieldXr (operandWord c b op ar m) = m.xr := by simp [operandWord]

end

/-- The low bit of the AR field, which tells MLTA from MULT. -/
@[simp] theorem arLow_assemble : (assemble c b op i ar e xr).extractLsb' 4 1 = ar.extractLsb' 0 1 := by
  apply BitVec.eq_of_toNat_eq
  simp only [BitVec.extractLsb'_toNat, assemble_toNat, Nat.shiftRight_eq_div_pow]
  omega

/-- The high bits of the AR field, which name the pair. -/
@[simp] theorem fieldPair_assemble : fieldPair (assemble c b op i ar e xr) = ar.extractLsb' 1 2 := by
  apply BitVec.eq_of_toNat_eq
  simp only [fieldPair, BitVec.extractLsb'_toNat, assemble_toNat, Nat.shiftRight_eq_div_pow]
  omega

@[simp] theorem arLow_operandWord (m : MemOperand) :
    (operandWord c b op ar m).extractLsb' 4 1 = ar.extractLsb' 0 1 := by simp [operandWord]

@[simp] theorem fieldPair_operandWord (m : MemOperand) :
    fieldPair (operandWord c b op ar m) = ar.extractLsb' 1 2 := by simp [operandWord]

@[simp] theorem pair_low (p : BitVec 2) (x : BitVec 1) : (p ++ x).extractLsb' 0 1 = x := by decide +revert

@[simp] theorem pair_high (p : BitVec 2) (x : BitVec 1) : (p ++ x).extractLsb' 1 2 = p := by decide +revert

end

section
variable (w : Word)

/-- A word is what its fields assemble. -/
theorem assemble_fields :
    assemble (fieldC w) (fieldB w) (fieldOp w) (fieldI w) (fieldAr w) (fieldE w) (fieldXr w) = w := by
  apply BitVec.eq_of_toNat_eq
  rw [assemble_toNat]
  simp only [fieldC, fieldB, fieldOp, fieldI, fieldAr, fieldE, fieldXr, BitVec.extractLsb'_toNat,
    Nat.shiftRight_eq_div_pow]
  omega

theorem displacementWord_fields : displacementWord (fieldC w) (fieldT w) (fieldD w) = w := by
  apply BitVec.eq_of_toNat_eq
  rw [displacementWord_toNat]
  simp only [fieldC, fieldT, fieldD, BitVec.extractLsb'_toNat, Nat.shiftRight_eq_div_pow]
  omega

theorem constantWord_fields :
    constantWord (fieldC w) (fieldB w) (fieldOp w) (fieldI w) (fieldAr w) (fieldK w) = w := by
  apply BitVec.eq_of_toNat_eq
  rw [constantWord_toNat]
  simp only [fieldC, fieldB, fieldOp, fieldI, fieldAr, fieldK, BitVec.extractLsb'_toNat, Nat.shiftRight_eq_div_pow]
  omega

@[simp] theorem leftByte_wordOfBytes (a b : Byte) : leftByte (wordOfBytes a b) = a := by
  apply BitVec.eq_of_toNat_eq
  simp only [leftByte, wordOfBytes, BitVec.extractLsb'_toNat, toNat_append_eq, Nat.shiftRight_eq_div_pow]
  omega

@[simp] theorem rightByte_wordOfBytes (a b : Byte) : rightByte (wordOfBytes a b) = b := by
  apply BitVec.eq_of_toNat_eq
  simp only [rightByte, wordOfBytes, BitVec.extractLsb'_toNat, toNat_append_eq, Nat.shiftRight_eq_div_pow]
  omega

@[simp] theorem wordOfBytes_bytes : wordOfBytes (leftByte w) (rightByte w) = w := by
  apply BitVec.eq_of_toNat_eq
  simp only [leftByte, rightByte, wordOfBytes, BitVec.extractLsb'_toNat, toNat_append_eq, Nat.shiftRight_eq_div_pow]
  omega

end

/-! ## Codes read back -/

@[simp] theorem operation_ofCode_code (op : Operation) : Operation.ofCode op.code = op := by cases op <;> rfl

@[simp] theorem size_ofBit_code (size : Size) : Size.ofBit size.code = size := by cases size <;> rfl

@[simp] theorem condition_ofCode_code (c : Condition) : Condition.ofCode c.code = some c := by cases c <;> rfl

@[simp] theorem shiftOp_ofCode_code (op : ShiftOp) : ShiftOp.ofCode op.code = op := by cases op <;> rfl

@[simp] theorem normOp_ofCode_code (op : NormOp) : NormOp.ofCode op.code = some op := by cases op <;> rfl

@[simp] theorem bitOp_ofCode_code (op : BitOp) : BitOp.ofCode op.code = some op := by cases op <;> rfl

@[simp] theorem moveOp_ofBits (op : MoveOp) : MoveOp.ofBits op.iBit op.jBit = op := by cases op <;> rfl

@[simp] theorem bit1_eq_one (b : Bool) : (bit1 b = 1#1) = (b = true) := by cases b <;> simp [bit1]

@[simp] theorem bit1_eq_zero (b : Bool) : (bit1 b = 0#1) = (b = false) := by cases b <;> simp [bit1]

/-! ## The operand part -/

/-- The operand part of a word that carries it, with the second word the encoder gives. -/
@[simp] theorem operandOf_operandWord (c : BitVec 4) (b : BitVec 1) (op ar : BitVec 3) (m : MemOperand) :
    operandOf (operandWord c b op ar m) (m.words.headD 0#16) = m := by
  obtain ⟨ind, xr, ext⟩ := m
  cases ind <;> cases ext <;> simp [operandOf, operandWord, MemOperand.words, bit1]

end Sys2Proof
end

