-- ==== Sys2Proof/Laws/Flags.lean ====
section
/-! SUPPORT. Indicators: one read after another is written, and what the flag computations leave. -/

namespace Sys2Proof.Machine

theorem getLsbD_setBit (i j : Nat) (hi : i < 16) (b : Bool) (w : Word) :
    (setBit i b w).getLsbD j = if j = i then b else w.getLsbD j := by
  unfold setBit
  by_cases h : j = i
  · subst h
    cases b <;> simp [hi]
  · rw [if_neg h]
    have h1 : (1#16 <<< i).getLsbD j = false := by
      rw [BitVec.getLsbD_shiftLeft, BitVec.getLsbD_one]
      by_cases hlt : j < i
      · simp [hlt]
      · have : j - i ≠ 0 := by omega
        simp [this]
    by_cases hj : j < 16
    · rw [BitVec.getLsbD_or, BitVec.getLsbD_and, BitVec.getLsbD_not, h1]
      cases b
      · simp [hj]
      · simp only [if_true, h1]; simp [hj]
    · rw [BitVec.getLsbD_of_ge w j (by omega), BitVec.getLsbD_of_ge _ j (by omega)]

theorem Flag.bit_lt (f : Flag) : f.bit < 16 := by cases f <;> decide

theorem Flag.bit_inj {f g : Flag} (h : f.bit = g.bit) : f = g := by
  cases f <;> cases g <;> first | rfl | simp [Flag.bit] at h

/-- One indicator read after one is written. -/
theorem getFlag_setFlag (f g : Flag) (b : Bool) (st : Word) :
    getFlag f (setFlag g b st) = if f = g then b else getFlag f st := by
  unfold getFlag setFlag
  rw [getLsbD_setBit _ _ (Flag.bit_lt g)]
  by_cases h : f = g
  · simp [h]
  · rw [if_neg h, if_neg fun e => h (Flag.bit_inj e)]

@[simp] theorem getFlag_setFlag_same (f : Flag) (b : Bool) (st : Word) : getFlag f (setFlag f b st) = b := by
  rw [getFlag_setFlag, if_pos rfl]

theorem getFlag_setFlag_ne {f g : Flag} (h : f ≠ g) (b : Bool) (st : Word) :
    getFlag f (setFlag g b st) = getFlag f st := by rw [getFlag_setFlag, if_neg h]

/-- The sixteen indicators are the whole status word. -/
theorem status_ext {v w : Word} (h : ∀ f : Flag, getFlag f v = getFlag f w) : v = w := by
  apply BitVec.eq_of_getLsbD_eq
  intro i hi
  have hf : ∃ f : Flag, f.bit = i := by
    interval_cases i
    exacts [⟨.eq, rfl⟩, ⟨.gt, rfl⟩, ⟨.ov, rfl⟩, ⟨.cy, rfl⟩, ⟨.f1, rfl⟩, ⟨.f2, rfl⟩, ⟨.f3, rfl⟩, ⟨.lp, rfl⟩, ⟨.od, rfl⟩,
      ⟨.ze, rfl⟩, ⟨.ng, rfl⟩, ⟨.a, rfl⟩, ⟨.m1, rfl⟩, ⟨.m2, rfl⟩, ⟨.m3, rfl⟩, ⟨.m4, rfl⟩]
  obtain ⟨f, rfl⟩ := hf
  exact h f

/-- What `setNZO` does to each indicator. -/
theorem getFlag_setNZO (f : Flag) (v st : Word) :
    getFlag f (setNZO v st) =
      if f = .od then v.getLsbD 0 else if f = .ze then v == 0#16 else if f = .ng then v.getLsbD 15 else getFlag f st := by
  unfold setNZO
  rw [getFlag_setFlag, getFlag_setFlag, getFlag_setFlag]

/-- What `setNZOpair` does to each indicator. -/
theorem getFlag_setNZOpair (f : Flag) (hi lo st : Word) :
    getFlag f (setNZOpair hi lo st) =
      if f = .od then lo.getLsbD 0 else if f = .ze then (hi == 0#16 && lo == 0#16)
      else if f = .ng then hi.getLsbD 15 else getFlag f st := by
  unfold setNZOpair
  rw [getFlag_setFlag, getFlag_setFlag, getFlag_setFlag]

/-- What SUB and ADD do to each indicator. -/
theorem getFlag_sumStatus (f : Flag) (x : Sum) (st : Word) :
    getFlag f (sumStatus x st) =
      if f = .od then x.r.getLsbD 0 else if f = .ze then x.r == 0#16 else if f = .ng then x.r.getLsbD 15
      else if f = .cy then x.c else if f = .ov then (getFlag .ov st || x.v) else getFlag f st := by
  unfold sumStatus
  rw [getFlag_setNZO, getFlag_setFlag, getFlag_setFlag]

/-- What CMP does to each indicator. -/
theorem getFlag_compareStatus (f : Flag) (gt eq : Bool) (st : Word) :
    getFlag f (compareStatus gt eq st) = if f = .eq then eq else if f = .gt then gt else getFlag f st := by
  unfold compareStatus
  rw [getFlag_setFlag, getFlag_setFlag]

/-- The status after NZO of a word in which another indicator was written. -/
theorem setNZO_congr {st st' : Word} (v : Word)
    (h : ∀ f : Flag, f ≠ .od → f ≠ .ze → f ≠ .ng → getFlag f st = getFlag f st') : setNZO v st = setNZO v st' := by
  apply status_ext
  intro f
  rw [getFlag_setNZO, getFlag_setNZO]
  split
  · rfl
  · split
    · rfl
    · split
      · rfl
      · exact h f ‹_› ‹_› ‹_›

/-- The Active bit is no indicator an operation writes. -/
theorem active_operationStatus (op : Operation) (s t st : Word) :
    getFlag .a (operationStatus op s t st) = getFlag .a st := by
  cases op <;> simp [operationStatus, getFlag_setNZO, getFlag_sumStatus, getFlag_compareStatus]

end Sys2Proof.Machine
end

