-- ==== Sys2Proof/Laws/Memory.lean ====
section
/-! SUPPORT. Memory: a byte read after a write, words, and the canonical form, kept by every operation. -/

namespace Sys2Proof.Machine

/-! ## Bytes -/

theorem Memory.find_erase_same (m : Memory) (a : Nat) : (m.erase a).find a = unlistedByte := by
  induction m with
  | nil => rfl
  | cons c rest ih =>
    obtain ⟨k, b⟩ := c
    by_cases h : k = a
    · have : Memory.erase ((k, b) :: rest) a = Memory.erase rest a := by simp [Memory.erase, h]
      rw [this, ih]
    · have : Memory.erase ((k, b) :: rest) a = (k, b) :: Memory.erase rest a := by simp [Memory.erase, h]
      rw [this, Memory.find, if_neg h, ih]

theorem Memory.find_erase_ne (m : Memory) {a x : Nat} (hx : x ≠ a) : (m.erase a).find x = m.find x := by
  induction m with
  | nil => rfl
  | cons c rest ih =>
    obtain ⟨k, b⟩ := c
    by_cases h : k = a
    · have : Memory.erase ((k, b) :: rest) a = Memory.erase rest a := by simp [Memory.erase, h]
      rw [this, ih, Memory.find, if_neg (by omega)]
    · have : Memory.erase ((k, b) :: rest) a = (k, b) :: Memory.erase rest a := by simp [Memory.erase, h]
      rw [this, Memory.find, Memory.find, ih]

theorem Memory.find_insert_ne (m : Memory) {a x : Nat} (hx : x ≠ a) (b : Byte) : (m.insert a b).find x = m.find x := by
  induction m with
  | nil => simp [Memory.insert, Memory.find, hx.symm]
  | cons c rest ih =>
    obtain ⟨k, v⟩ := c
    by_cases h : a < k
    · simp [Memory.insert, h, Memory.find, hx.symm]
    · simp [Memory.insert, h, Memory.find, ih]

theorem Memory.find_insert_same (m : Memory) (a : Nat) (b : Byte) (h : ∀ c ∈ m, c.1 ≠ a) :
    (m.insert a b).find a = b := by
  induction m with
  | nil => simp [Memory.insert, Memory.find]
  | cons c rest ih =>
    obtain ⟨k, v⟩ := c
    have hk : k ≠ a := h (k, v) (by simp)
    by_cases hlt : a < k
    · simp [Memory.insert, hlt, Memory.find]
    · simp only [Memory.insert, hlt, if_false, Memory.find, if_neg hk]
      exact ih fun c hc => h c (by simp [hc])

/-- A byte after a byte is written. -/
theorem Memory.find_write (m : Memory) (a x : Nat) (b : Byte) :
    (m.write a b).find x = if x = a then b else m.find x := by
  unfold Memory.write
  by_cases hx : x = a
  · subst hx
    split
    · rename_i hb; rw [Memory.find_erase_same, if_pos rfl, hb]
    · rw [if_pos rfl]
      exact Memory.find_insert_same _ _ _ (by simp [Memory.erase])
  · rw [if_neg hx]
    split
    · exact Memory.find_erase_ne m hx
    · rw [Memory.find_insert_ne _ hx, Memory.find_erase_ne m hx]

/-- `Mem[x]` after `Mem[a] <- b`. -/
theorem Memory.byte_setByte (m : Memory) (a x : Word) (b : Byte) :
    (m.setByte a b).byte x = if x = a then b else m.byte x := by
  unfold Memory.byte Memory.setByte
  rw [Memory.find_write]
  simp only [BitVec.toNat_inj]

@[simp] theorem Memory.byte_setByte_same (m : Memory) (a : Word) (b : Byte) : (m.setByte a b).byte a = b := by
  rw [Memory.byte_setByte, if_pos rfl]

theorem Memory.byte_setByte_ne (m : Memory) {a x : Word} (h : x ≠ a) (b : Byte) :
    (m.setByte a b).byte x = m.byte x := by rw [Memory.byte_setByte, if_neg h]

/-! ## Words -/

theorem evenAddr_toNat (a : Word) : (evenAddr a).toNat = a.toNat / 2 * 2 := by
  have h : evenAddr a = (a >>> 1) <<< 1 := by
    unfold evenAddr
    ext i hi
    have : i < 16 := hi
    interval_cases i <;> simp
  rw [h]
  simp only [BitVec.toNat_shiftLeft, BitVec.toNat_ushiftRight, Nat.shiftRight_eq_div_pow, Nat.shiftLeft_eq]
  omega

theorem oddAddr_toNat (a : Word) : (oddAddr a).toNat = a.toNat / 2 * 2 + 1 := by
  have h : oddAddr a = evenAddr a + 1#16 := by
    have hd : evenAddr a &&& 1#16 = 0#16 := by
      unfold evenAddr
      ext i hi
      have : i < 16 := hi
      interval_cases i <;> simp
    rw [BitVec.add_eq_or_of_and_eq_zero _ _ hd]
    unfold oddAddr evenAddr
    ext i hi
    have : i < 16 := hi
    interval_cases i <;> simp
  rw [h, BitVec.toNat_add, evenAddr_toNat, BitVec.toNat_ofNat]
  omega

theorem evenAddr_ne_oddAddr (a b : Word) : evenAddr a ≠ oddAddr b := by
  intro h
  have := congrArg BitVec.toNat h
  rw [evenAddr_toNat, oddAddr_toNat] at this
  omega

@[simp] theorem evenAddr_evenAddr (a : Word) : evenAddr (evenAddr a) = evenAddr a := by
  apply BitVec.eq_of_toNat_eq; simp only [evenAddr_toNat]; omega

@[simp] theorem oddAddr_evenAddr (a : Word) : oddAddr (evenAddr a) = oddAddr a := by
  apply BitVec.eq_of_toNat_eq; simp only [evenAddr_toNat, oddAddr_toNat]; omega

theorem getLsbD_zero_eq (a : Word) : a.getLsbD 0 = decide (a.toNat % 2 = 1) := by
  rw [BitVec.getLsbD, Nat.testBit_zero]

theorem evenAddr_of_even {a : Word} (h : a.getLsbD 0 = false) : evenAddr a = a := by
  rw [getLsbD_zero_eq, decide_eq_false_iff_not] at h
  apply BitVec.eq_of_toNat_eq
  rw [evenAddr_toNat]
  omega

@[simp] theorem evenAddr_lsb (a : Word) : (evenAddr a).getLsbD 0 = false := by
  rw [getLsbD_zero_eq, evenAddr_toNat]
  simp

/-- A byte after a word is written (R62). -/
theorem Memory.byte_setWord (m : Memory) (a x v : Word) :
    (m.setWord a v).byte x =
      if x = oddAddr a then rightByte v else if x = evenAddr a then leftByte v else m.byte x := by
  unfold Memory.setWord
  rw [Memory.byte_setByte, Memory.byte_setByte]

/-- A word read after it was written. -/
@[simp] theorem Memory.word_setWord_same (m : Memory) (a v : Word) : (m.setWord a v).word a = v := by
  unfold Memory.word
  rw [Memory.byte_setWord, Memory.byte_setWord, if_pos rfl, if_neg (evenAddr_ne_oddAddr a a), if_pos rfl]
  exact wordOfBytes_bytes v

/-- A word read after another word was written. -/
theorem Memory.word_setWord_ne (m : Memory) {a b : Word} (h : evenAddr b ≠ evenAddr a) (v : Word) :
    (m.setWord a v).word b = m.word b := by
  have ho : oddAddr b ≠ oddAddr a := by
    intro e
    apply h
    have := congrArg BitVec.toNat e
    rw [oddAddr_toNat, oddAddr_toNat] at this
    apply BitVec.eq_of_toNat_eq
    rw [evenAddr_toNat, evenAddr_toNat]
    omega
  unfold Memory.word
  rw [Memory.byte_setWord, Memory.byte_setWord, if_neg (evenAddr_ne_oddAddr b a), if_neg h, if_neg ho,
    if_neg (fun e => evenAddr_ne_oddAddr a b e.symm)]

/-- Words at the same even address are one word (R64). -/
theorem Memory.word_evenAddr (m : Memory) (a : Word) : m.word (evenAddr a) = m.word a := by
  unfold Memory.word
  simp

/-! ## The canonical form -/

theorem Memory.wf_iff (m : Memory) :
    m.wf = true ↔ (m.Pairwise fun x y => x.1 < y.1) ∧ ∀ c ∈ m, c.1 < 65536 ∧ c.2 ≠ unlistedByte := by
  simp [Memory.wf]

theorem Memory.wf_erase {m : Memory} (h : m.wf = true) (a : Nat) : (m.erase a).wf = true := by
  rw [Memory.wf_iff] at *
  exact ⟨h.1.filter _, fun c hc => h.2 c (List.mem_of_mem_filter hc)⟩

theorem Memory.mem_insert {m : Memory} {a : Nat} {b : Byte} {c : Host.Cell} (h : c ∈ m.insert a b) :
    c = (a, b) ∨ c ∈ m := by
  induction m with
  | nil => simpa [Memory.insert] using h
  | cons d rest ih =>
    obtain ⟨k, v⟩ := d
    by_cases hlt : a < k
    · simpa [Memory.insert, hlt] using h
    · simp only [Memory.insert, hlt, if_false, List.mem_cons] at h
      rcases h with h | h
      · right; simp [h]
      · rcases ih h with h | h
        · exact .inl h
        · right; simp [h]

theorem Memory.pairwise_insert {m : Memory} (h : m.Pairwise fun x y => x.1 < y.1) (a : Nat) (b : Byte)
    (hne : ∀ c ∈ m, c.1 ≠ a) : (m.insert a b).Pairwise fun x y => x.1 < y.1 := by
  induction m with
  | nil => simp [Memory.insert]
  | cons d rest ih =>
    obtain ⟨k, v⟩ := d
    have hk : k ≠ a := hne (k, v) (by simp)
    rw [List.pairwise_cons] at h
    by_cases hlt : a < k
    · simp only [Memory.insert, hlt, if_true, List.pairwise_cons]
      refine ⟨fun c hc => ?_, h.1, h.2⟩
      rcases List.mem_cons.1 hc with rfl | hc
      · exact hlt
      · exact Nat.lt_trans hlt (h.1 c hc)
    · simp only [Memory.insert, hlt, if_false, List.pairwise_cons]
      refine ⟨fun c hc => ?_, ih h.2 fun c hc => hne c (by simp [hc])⟩
      rcases Memory.mem_insert hc with rfl | hc
      · show k < a; omega
      · exact h.1 c hc

theorem Memory.wf_write {m : Memory} (h : m.wf = true) {a : Nat} (ha : a < 65536) (b : Byte) :
    (m.write a b).wf = true := by
  unfold Memory.write
  split
  · exact Memory.wf_erase h a
  · rename_i hb
    have he := Memory.wf_erase h a
    rw [Memory.wf_iff] at *
    refine ⟨Memory.pairwise_insert he.1 a b (by simp [Memory.erase]), fun c hc => ?_⟩
    rcases Memory.mem_insert hc with rfl | hc
    · exact ⟨ha, hb⟩
    · exact he.2 c hc

/-- A byte write keeps the canonical form. -/
theorem Memory.wf_setByte {m : Memory} (h : m.wf = true) (a : Word) (b : Byte) : (m.setByte a b).wf = true :=
  Memory.wf_write h a.isLt b

/-- A word write keeps the canonical form. -/
theorem Memory.wf_setWord {m : Memory} (h : m.wf = true) (a v : Word) : (m.setWord a v).wf = true :=
  Memory.wf_setByte (Memory.wf_setByte h _ _) _ _

/-- In the canonical form equal reads mean equal memories. -/
theorem Memory.find_of_lt_all {m : Memory} {a : Nat} (h : ∀ c ∈ m, a < c.1) : m.find a = unlistedByte := by
  induction m with
  | nil => rfl
  | cons d rest ih =>
    obtain ⟨k, v⟩ := d
    have : a < k := h (k, v) (by simp)
    rw [Memory.find, if_neg (by omega)]
    exact ih fun c hc => h c (by simp [hc])

/-- Two canonical memories that read alike are equal: equal memories are equal data. -/
theorem Memory.ext_of_find {m n : Memory} (hm : m.wf = true) (hn : n.wf = true)
    (h : ∀ a, m.find a = n.find a) : m = n := by
  rw [Memory.wf_iff] at hm hn
  induction m generalizing n with
  | nil =>
    cases n with
    | nil => rfl
    | cons d rest =>
      have := h d.1
      simp only [Memory.find, if_true] at this
      exact absurd this.symm (hn.2 d (by simp)).2
  | cons c rest ih =>
    cases n with
    | nil =>
      have := h c.1
      simp only [Memory.find, if_true] at this
      exact absurd this (hm.2 c (by simp)).2
    | cons d rest' =>
      obtain ⟨k, v⟩ := c
      obtain ⟨k', v'⟩ := d
      have hm1 := List.pairwise_cons.1 hm.1
      have hn1 := List.pairwise_cons.1 hn.1
      have hkk : k = k' := by
        rcases Nat.lt_trichotomy k k' with hlt | heq | hgt
        · have := h k
          rw [Memory.find, if_pos rfl, Memory.find, if_neg (by omega),
            Memory.find_of_lt_all fun c hc => Nat.lt_trans hlt (hn1.1 c hc)] at this
          exact absurd this (hm.2 (k, v) (by simp)).2
        · exact heq
        · have := h k'
          rw [Memory.find, if_neg (by omega), Memory.find, if_pos rfl,
            Memory.find_of_lt_all fun c hc => Nat.lt_trans hgt (hm1.1 c hc)] at this
          exact absurd this.symm (hn.2 (k', v') (by simp)).2
      subst hkk
      have hv : v = v' := by
        have := h k
        rwa [Memory.find, if_pos rfl, Memory.find, if_pos rfl] at this
      subst hv
      congr 1
      refine ih ⟨hm1.2, fun c hc => hm.2 c (by simp [hc])⟩ ⟨hn1.2, fun c hc => hn.2 c (by simp [hc])⟩
        (fun a => ?_)
      by_cases hka : k = a
      · subst hka
        rw [Memory.find_of_lt_all hm1.1, Memory.find_of_lt_all hn1.1]
      · have := h a
        rwa [Memory.find, if_neg hka, Memory.find, if_neg hka] at this

end Sys2Proof.Machine
end

