-- ==== Sys2Proof/Laws/State.lean ====
section
/-! SUPPORT. What each update of the state leaves alone, field by field, and what a register holds after it. -/

namespace Sys2Proof.Machine

variable (s : State)

section upd_setReg
variable (r : RegNo) (v : Word)

@[simp] theorem State.setReg_status : (s.setReg r v).status = s.status := rfl
@[simp] theorem State.setReg_key : (s.setReg r v).key = s.key := rfl
@[simp] theorem State.setReg_run : (s.setReg r v).run = s.run := rfl
@[simp] theorem State.setReg_pending : (s.setReg r v).pending = s.pending := rfl
@[simp] theorem State.setReg_runRequest : (s.setReg r v).runRequest = s.runRequest := rfl
@[simp] theorem State.setReg_mem : (s.setReg r v).mem = s.mem := rfl
@[simp] theorem State.setReg_instrRegister : (s.setReg r v).instrRegister = s.instrRegister := rfl
@[simp] theorem State.setReg_controlFlipFlops : (s.setReg r v).controlFlipFlops = s.controlFlipFlops := rfl
@[simp] theorem State.setReg_deviceIn : (s.setReg r v).deviceIn = s.deviceIn := rfl
@[simp] theorem State.setReg_deviceLog : (s.setReg r v).deviceLog = s.deviceLog := rfl
@[simp] theorem State.setReg_freeCount : (s.setReg r v).freeCount = s.freeCount := rfl
@[simp] theorem State.setReg_par : (s.setReg r v).par = s.par := rfl

end upd_setReg

section upd_setPc
variable (v : Word)

@[simp] theorem State.setPc_status : (s.setPc v).status = s.status := rfl
@[simp] theorem State.setPc_key : (s.setPc v).key = s.key := rfl
@[simp] theorem State.setPc_run : (s.setPc v).run = s.run := rfl
@[simp] theorem State.setPc_pending : (s.setPc v).pending = s.pending := rfl
@[simp] theorem State.setPc_runRequest : (s.setPc v).runRequest = s.runRequest := rfl
@[simp] theorem State.setPc_mem : (s.setPc v).mem = s.mem := rfl
@[simp] theorem State.setPc_instrRegister : (s.setPc v).instrRegister = s.instrRegister := rfl
@[simp] theorem State.setPc_controlFlipFlops : (s.setPc v).controlFlipFlops = s.controlFlipFlops := rfl
@[simp] theorem State.setPc_deviceIn : (s.setPc v).deviceIn = s.deviceIn := rfl
@[simp] theorem State.setPc_deviceLog : (s.setPc v).deviceLog = s.deviceLog := rfl
@[simp] theorem State.setPc_freeCount : (s.setPc v).freeCount = s.freeCount := rfl
@[simp] theorem State.setPc_par : (s.setPc v).par = s.par := rfl

end upd_setPc

section upd_advance
variable (l : Word)

@[simp] theorem State.advance_status : (s.advance l).status = s.status := rfl
@[simp] theorem State.advance_key : (s.advance l).key = s.key := rfl
@[simp] theorem State.advance_run : (s.advance l).run = s.run := rfl
@[simp] theorem State.advance_pending : (s.advance l).pending = s.pending := rfl
@[simp] theorem State.advance_runRequest : (s.advance l).runRequest = s.runRequest := rfl
@[simp] theorem State.advance_mem : (s.advance l).mem = s.mem := rfl
@[simp] theorem State.advance_instrRegister : (s.advance l).instrRegister = s.instrRegister := rfl
@[simp] theorem State.advance_controlFlipFlops : (s.advance l).controlFlipFlops = s.controlFlipFlops := rfl
@[simp] theorem State.advance_deviceIn : (s.advance l).deviceIn = s.deviceIn := rfl
@[simp] theorem State.advance_deviceLog : (s.advance l).deviceLog = s.deviceLog := rfl
@[simp] theorem State.advance_freeCount : (s.advance l).freeCount = s.freeCount := rfl
@[simp] theorem State.advance_par : (s.advance l).par = s.par := rfl

end upd_advance

section upd_put
variable (l : Word) (r : RegNo) (v : Word)

@[simp] theorem State.put_status : (s.put l r v).status = s.status := by unfold State.put; split <;> rfl
@[simp] theorem State.put_key : (s.put l r v).key = s.key := by unfold State.put; split <;> rfl
@[simp] theorem State.put_run : (s.put l r v).run = s.run := by unfold State.put; split <;> rfl
@[simp] theorem State.put_pending : (s.put l r v).pending = s.pending := by unfold State.put; split <;> rfl
@[simp] theorem State.put_runRequest : (s.put l r v).runRequest = s.runRequest := by unfold State.put; split <;> rfl
@[simp] theorem State.put_mem : (s.put l r v).mem = s.mem := by unfold State.put; split <;> rfl
@[simp] theorem State.put_instrRegister : (s.put l r v).instrRegister = s.instrRegister := by unfold State.put; split <;> rfl
@[simp] theorem State.put_controlFlipFlops : (s.put l r v).controlFlipFlops = s.controlFlipFlops := by unfold State.put; split <;> rfl
@[simp] theorem State.put_deviceIn : (s.put l r v).deviceIn = s.deviceIn := by unfold State.put; split <;> rfl
@[simp] theorem State.put_deviceLog : (s.put l r v).deviceLog = s.deviceLog := by unfold State.put; split <;> rfl
@[simp] theorem State.put_freeCount : (s.put l r v).freeCount = s.freeCount := by unfold State.put; split <;> rfl
@[simp] theorem State.put_par : (s.put l r v).par = s.par := by unfold State.put; split <;> rfl

end upd_put

section upd_spend
variable (n : Nat)

@[simp] theorem State.spend_regs : (s.spend n).regs = s.regs := rfl
@[simp] theorem State.spend_status : (s.spend n).status = s.status := rfl
@[simp] theorem State.spend_key : (s.spend n).key = s.key := rfl
@[simp] theorem State.spend_run : (s.spend n).run = s.run := rfl
@[simp] theorem State.spend_pending : (s.spend n).pending = s.pending := rfl
@[simp] theorem State.spend_runRequest : (s.spend n).runRequest = s.runRequest := rfl
@[simp] theorem State.spend_mem : (s.spend n).mem = s.mem := rfl
@[simp] theorem State.spend_instrRegister : (s.spend n).instrRegister = s.instrRegister := rfl
@[simp] theorem State.spend_controlFlipFlops : (s.spend n).controlFlipFlops = s.controlFlipFlops := rfl
@[simp] theorem State.spend_deviceIn : (s.spend n).deviceIn = s.deviceIn := rfl
@[simp] theorem State.spend_deviceLog : (s.spend n).deviceLog = s.deviceLog := rfl
@[simp] theorem State.spend_par : (s.spend n).par = s.par := rfl

end upd_spend

section upd_withLp
variable (b : Bool)

@[simp] theorem State.withLp_regs : (s.withLp b).regs = s.regs := rfl
@[simp] theorem State.withLp_key : (s.withLp b).key = s.key := rfl
@[simp] theorem State.withLp_run : (s.withLp b).run = s.run := rfl
@[simp] theorem State.withLp_pending : (s.withLp b).pending = s.pending := rfl
@[simp] theorem State.withLp_runRequest : (s.withLp b).runRequest = s.runRequest := rfl
@[simp] theorem State.withLp_mem : (s.withLp b).mem = s.mem := rfl
@[simp] theorem State.withLp_instrRegister : (s.withLp b).instrRegister = s.instrRegister := rfl
@[simp] theorem State.withLp_controlFlipFlops : (s.withLp b).controlFlipFlops = s.controlFlipFlops := rfl
@[simp] theorem State.withLp_deviceIn : (s.withLp b).deviceIn = s.deviceIn := rfl
@[simp] theorem State.withLp_deviceLog : (s.withLp b).deviceLog = s.deviceLog := rfl
@[simp] theorem State.withLp_freeCount : (s.withLp b).freeCount = s.freeCount := rfl
@[simp] theorem State.withLp_par : (s.withLp b).par = s.par := rfl

end upd_withLp

section upd_setPair
variable (r : RegNo) (hi lo : Word)

@[simp] theorem State.setPair_status : (s.setPair r hi lo).status = s.status := rfl
@[simp] theorem State.setPair_key : (s.setPair r hi lo).key = s.key := rfl
@[simp] theorem State.setPair_run : (s.setPair r hi lo).run = s.run := rfl
@[simp] theorem State.setPair_pending : (s.setPair r hi lo).pending = s.pending := rfl
@[simp] theorem State.setPair_runRequest : (s.setPair r hi lo).runRequest = s.runRequest := rfl
@[simp] theorem State.setPair_mem : (s.setPair r hi lo).mem = s.mem := rfl
@[simp] theorem State.setPair_instrRegister : (s.setPair r hi lo).instrRegister = s.instrRegister := rfl
@[simp] theorem State.setPair_controlFlipFlops : (s.setPair r hi lo).controlFlipFlops = s.controlFlipFlops := rfl
@[simp] theorem State.setPair_deviceIn : (s.setPair r hi lo).deviceIn = s.deviceIn := rfl
@[simp] theorem State.setPair_deviceLog : (s.setPair r hi lo).deviceLog = s.deviceLog := rfl
@[simp] theorem State.setPair_freeCount : (s.setPair r hi lo).freeCount = s.freeCount := rfl
@[simp] theorem State.setPair_par : (s.setPair r hi lo).par = s.par := rfl

end upd_setPair

section upd_put31
variable (e : RegNo) (p : BitVec 31)

@[simp] theorem State.put31_key : (s.put31 e p).key = s.key := rfl
@[simp] theorem State.put31_run : (s.put31 e p).run = s.run := rfl
@[simp] theorem State.put31_pending : (s.put31 e p).pending = s.pending := rfl
@[simp] theorem State.put31_runRequest : (s.put31 e p).runRequest = s.runRequest := rfl
@[simp] theorem State.put31_mem : (s.put31 e p).mem = s.mem := rfl
@[simp] theorem State.put31_instrRegister : (s.put31 e p).instrRegister = s.instrRegister := rfl
@[simp] theorem State.put31_controlFlipFlops : (s.put31 e p).controlFlipFlops = s.controlFlipFlops := rfl
@[simp] theorem State.put31_deviceIn : (s.put31 e p).deviceIn = s.deviceIn := rfl
@[simp] theorem State.put31_deviceLog : (s.put31 e p).deviceLog = s.deviceLog := rfl
@[simp] theorem State.put31_freeCount : (s.put31 e p).freeCount = s.freeCount := rfl
@[simp] theorem State.put31_par : (s.put31 e p).par = s.par := rfl

end upd_put31

section upd_afterDeviceWrite
variable (a v : Word)

@[simp] theorem State.afterDeviceWrite_regs : (s.afterDeviceWrite a v).regs = s.regs := rfl
@[simp] theorem State.afterDeviceWrite_status : (s.afterDeviceWrite a v).status = s.status := rfl
@[simp] theorem State.afterDeviceWrite_key : (s.afterDeviceWrite a v).key = s.key := rfl
@[simp] theorem State.afterDeviceWrite_run : (s.afterDeviceWrite a v).run = s.run := rfl
@[simp] theorem State.afterDeviceWrite_pending : (s.afterDeviceWrite a v).pending = s.pending := rfl
@[simp] theorem State.afterDeviceWrite_runRequest : (s.afterDeviceWrite a v).runRequest = s.runRequest := rfl
@[simp] theorem State.afterDeviceWrite_mem : (s.afterDeviceWrite a v).mem = s.mem := rfl
@[simp] theorem State.afterDeviceWrite_instrRegister : (s.afterDeviceWrite a v).instrRegister = s.instrRegister := rfl
@[simp] theorem State.afterDeviceWrite_controlFlipFlops : (s.afterDeviceWrite a v).controlFlipFlops = s.controlFlipFlops := rfl
@[simp] theorem State.afterDeviceWrite_deviceIn : (s.afterDeviceWrite a v).deviceIn = s.deviceIn := rfl
@[simp] theorem State.afterDeviceWrite_freeCount : (s.afterDeviceWrite a v).freeCount = s.freeCount := rfl
@[simp] theorem State.afterDeviceWrite_par : (s.afterDeviceWrite a v).par = s.par := rfl

end upd_afterDeviceWrite

section upd_afterDeviceRead
variable (a : Word)

@[simp] theorem State.afterDeviceRead_regs : (s.afterDeviceRead a).regs = s.regs := by unfold State.afterDeviceRead; split <;> rfl
@[simp] theorem State.afterDeviceRead_status : (s.afterDeviceRead a).status = s.status := by unfold State.afterDeviceRead; split <;> rfl
@[simp] theorem State.afterDeviceRead_key : (s.afterDeviceRead a).key = s.key := by unfold State.afterDeviceRead; split <;> rfl
@[simp] theorem State.afterDeviceRead_run : (s.afterDeviceRead a).run = s.run := by unfold State.afterDeviceRead; split <;> rfl
@[simp] theorem State.afterDeviceRead_pending : (s.afterDeviceRead a).pending = s.pending := by unfold State.afterDeviceRead; split <;> rfl
@[simp] theorem State.afterDeviceRead_runRequest : (s.afterDeviceRead a).runRequest = s.runRequest := by unfold State.afterDeviceRead; split <;> rfl
@[simp] theorem State.afterDeviceRead_mem : (s.afterDeviceRead a).mem = s.mem := by unfold State.afterDeviceRead; split <;> rfl
@[simp] theorem State.afterDeviceRead_instrRegister : (s.afterDeviceRead a).instrRegister = s.instrRegister := by unfold State.afterDeviceRead; split <;> rfl
@[simp] theorem State.afterDeviceRead_controlFlipFlops : (s.afterDeviceRead a).controlFlipFlops = s.controlFlipFlops := by unfold State.afterDeviceRead; split <;> rfl
@[simp] theorem State.afterDeviceRead_par : (s.afterDeviceRead a).par = s.par := by unfold State.afterDeviceRead; split <;> rfl

end upd_afterDeviceRead

section upd_freeNZO
variable (k : Nat)

@[simp] theorem State.freeNZO_regs : (s.freeNZO k).regs = s.regs := rfl
@[simp] theorem State.freeNZO_key : (s.freeNZO k).key = s.key := rfl
@[simp] theorem State.freeNZO_run : (s.freeNZO k).run = s.run := rfl
@[simp] theorem State.freeNZO_pending : (s.freeNZO k).pending = s.pending := rfl
@[simp] theorem State.freeNZO_runRequest : (s.freeNZO k).runRequest = s.runRequest := rfl
@[simp] theorem State.freeNZO_mem : (s.freeNZO k).mem = s.mem := rfl
@[simp] theorem State.freeNZO_instrRegister : (s.freeNZO k).instrRegister = s.instrRegister := rfl
@[simp] theorem State.freeNZO_controlFlipFlops : (s.freeNZO k).controlFlipFlops = s.controlFlipFlops := rfl
@[simp] theorem State.freeNZO_deviceIn : (s.freeNZO k).deviceIn = s.deviceIn := rfl
@[simp] theorem State.freeNZO_deviceLog : (s.freeNZO k).deviceLog = s.deviceLog := rfl
@[simp] theorem State.freeNZO_par : (s.freeNZO k).par = s.par := rfl

end upd_freeNZO

section upd_freeIndicators
variable (c : Bool)

@[simp] theorem State.freeIndicators_regs : (s.freeIndicators c).regs = s.regs := rfl
@[simp] theorem State.freeIndicators_key : (s.freeIndicators c).key = s.key := rfl
@[simp] theorem State.freeIndicators_run : (s.freeIndicators c).run = s.run := rfl
@[simp] theorem State.freeIndicators_pending : (s.freeIndicators c).pending = s.pending := rfl
@[simp] theorem State.freeIndicators_runRequest : (s.freeIndicators c).runRequest = s.runRequest := rfl
@[simp] theorem State.freeIndicators_mem : (s.freeIndicators c).mem = s.mem := rfl
@[simp] theorem State.freeIndicators_instrRegister : (s.freeIndicators c).instrRegister = s.instrRegister := rfl
@[simp] theorem State.freeIndicators_controlFlipFlops : (s.freeIndicators c).controlFlipFlops = s.controlFlipFlops := rfl
@[simp] theorem State.freeIndicators_deviceIn : (s.freeIndicators c).deviceIn = s.deviceIn := rfl
@[simp] theorem State.freeIndicators_deviceLog : (s.freeIndicators c).deviceLog = s.deviceLog := rfl
@[simp] theorem State.freeIndicators_par : (s.freeIndicators c).par = s.par := rfl

end upd_freeIndicators

section upd_afterCount
variable (xr : RegNo)

@[simp] theorem State.afterCount_regs : (s.afterCount xr).regs = s.regs := by unfold State.afterCount; split <;> rfl
@[simp] theorem State.afterCount_status : (s.afterCount xr).status = s.status := by unfold State.afterCount; split <;> rfl
@[simp] theorem State.afterCount_key : (s.afterCount xr).key = s.key := by unfold State.afterCount; split <;> rfl
@[simp] theorem State.afterCount_run : (s.afterCount xr).run = s.run := by unfold State.afterCount; split <;> rfl
@[simp] theorem State.afterCount_pending : (s.afterCount xr).pending = s.pending := by unfold State.afterCount; split <;> rfl
@[simp] theorem State.afterCount_runRequest : (s.afterCount xr).runRequest = s.runRequest := by unfold State.afterCount; split <;> rfl
@[simp] theorem State.afterCount_mem : (s.afterCount xr).mem = s.mem := by unfold State.afterCount; split <;> rfl
@[simp] theorem State.afterCount_instrRegister : (s.afterCount xr).instrRegister = s.instrRegister := by unfold State.afterCount; split <;> rfl
@[simp] theorem State.afterCount_controlFlipFlops : (s.afterCount xr).controlFlipFlops = s.controlFlipFlops := by unfold State.afterCount; split <;> rfl
@[simp] theorem State.afterCount_deviceIn : (s.afterCount xr).deviceIn = s.deviceIn := by unfold State.afterCount; split <;> rfl
@[simp] theorem State.afterCount_deviceLog : (s.afterCount xr).deviceLog = s.deviceLog := by unfold State.afterCount; split <;> rfl
@[simp] theorem State.afterCount_par : (s.afterCount xr).par = s.par := by unfold State.afterCount; split <;> rfl

end upd_afterCount

section upd_afterAccumulator
variable (i : Index) (ar xr : RegNo)

@[simp] theorem State.afterAccumulator_regs : (s.afterAccumulator i ar xr).regs = s.regs := by unfold State.afterAccumulator; split <;> rfl
@[simp] theorem State.afterAccumulator_status : (s.afterAccumulator i ar xr).status = s.status := by unfold State.afterAccumulator; split <;> rfl
@[simp] theorem State.afterAccumulator_key : (s.afterAccumulator i ar xr).key = s.key := by unfold State.afterAccumulator; split <;> rfl
@[simp] theorem State.afterAccumulator_run : (s.afterAccumulator i ar xr).run = s.run := by unfold State.afterAccumulator; split <;> rfl
@[simp] theorem State.afterAccumulator_pending : (s.afterAccumulator i ar xr).pending = s.pending := by unfold State.afterAccumulator; split <;> rfl
@[simp] theorem State.afterAccumulator_runRequest : (s.afterAccumulator i ar xr).runRequest = s.runRequest := by unfold State.afterAccumulator; split <;> rfl
@[simp] theorem State.afterAccumulator_mem : (s.afterAccumulator i ar xr).mem = s.mem := by unfold State.afterAccumulator; split <;> rfl
@[simp] theorem State.afterAccumulator_instrRegister : (s.afterAccumulator i ar xr).instrRegister = s.instrRegister := by unfold State.afterAccumulator; split <;> rfl
@[simp] theorem State.afterAccumulator_controlFlipFlops : (s.afterAccumulator i ar xr).controlFlipFlops = s.controlFlipFlops := by unfold State.afterAccumulator; split <;> rfl
@[simp] theorem State.afterAccumulator_deviceIn : (s.afterAccumulator i ar xr).deviceIn = s.deviceIn := by unfold State.afterAccumulator; split <;> rfl
@[simp] theorem State.afterAccumulator_deviceLog : (s.afterAccumulator i ar xr).deviceLog = s.deviceLog := by unfold State.afterAccumulator; split <;> rfl
@[simp] theorem State.afterAccumulator_par : (s.afterAccumulator i ar xr).par = s.par := by unfold State.afterAccumulator; split <;> rfl

end upd_afterAccumulator

section upd_closeIndex
variable (i : Index) (xr : RegNo)

@[simp] theorem State.closeIndex_status : (s.closeIndex i xr).status = s.status := by unfold State.closeIndex; split <;> rfl
@[simp] theorem State.closeIndex_key : (s.closeIndex i xr).key = s.key := by unfold State.closeIndex; split <;> rfl
@[simp] theorem State.closeIndex_run : (s.closeIndex i xr).run = s.run := by unfold State.closeIndex; split <;> rfl
@[simp] theorem State.closeIndex_pending : (s.closeIndex i xr).pending = s.pending := by unfold State.closeIndex; split <;> rfl
@[simp] theorem State.closeIndex_runRequest : (s.closeIndex i xr).runRequest = s.runRequest := by unfold State.closeIndex; split <;> rfl
@[simp] theorem State.closeIndex_mem : (s.closeIndex i xr).mem = s.mem := by unfold State.closeIndex; split <;> rfl
@[simp] theorem State.closeIndex_instrRegister : (s.closeIndex i xr).instrRegister = s.instrRegister := by unfold State.closeIndex; split <;> rfl
@[simp] theorem State.closeIndex_controlFlipFlops : (s.closeIndex i xr).controlFlipFlops = s.controlFlipFlops := by unfold State.closeIndex; split <;> rfl
@[simp] theorem State.closeIndex_deviceIn : (s.closeIndex i xr).deviceIn = s.deviceIn := by unfold State.closeIndex; split <;> rfl
@[simp] theorem State.closeIndex_deviceLog : (s.closeIndex i xr).deviceLog = s.deviceLog := by unfold State.closeIndex; split <;> rfl
@[simp] theorem State.closeIndex_par : (s.closeIndex i xr).par = s.par := by unfold State.closeIndex; split <;> rfl

end upd_closeIndex

section upd_loadStatus
variable (w : Word)

@[simp] theorem State.loadStatus_regs : (s.loadStatus w).regs = s.regs := by unfold State.loadStatus; split <;> rfl
@[simp] theorem State.loadStatus_key : (s.loadStatus w).key = s.key := by unfold State.loadStatus; split <;> rfl
@[simp] theorem State.loadStatus_pending : (s.loadStatus w).pending = s.pending := by unfold State.loadStatus; split <;> rfl
@[simp] theorem State.loadStatus_runRequest : (s.loadStatus w).runRequest = s.runRequest := by unfold State.loadStatus; split <;> rfl
@[simp] theorem State.loadStatus_mem : (s.loadStatus w).mem = s.mem := by unfold State.loadStatus; split <;> rfl
@[simp] theorem State.loadStatus_instrRegister : (s.loadStatus w).instrRegister = s.instrRegister := by unfold State.loadStatus; split <;> rfl
@[simp] theorem State.loadStatus_controlFlipFlops : (s.loadStatus w).controlFlipFlops = s.controlFlipFlops := by unfold State.loadStatus; split <;> rfl
@[simp] theorem State.loadStatus_deviceIn : (s.loadStatus w).deviceIn = s.deviceIn := by unfold State.loadStatus; split <;> rfl
@[simp] theorem State.loadStatus_deviceLog : (s.loadStatus w).deviceLog = s.deviceLog := by unfold State.loadStatus; split <;> rfl
@[simp] theorem State.loadStatus_par : (s.loadStatus w).par = s.par := by unfold State.loadStatus; split <;> rfl

end upd_loadStatus

section upd_addCount
variable (xr : RegNo) (b : Bool) (n : Nat)

@[simp] theorem State.addCount_status : (s.addCount xr b n).status = s.status := by unfold State.addCount; (repeat' split) <;> rfl
@[simp] theorem State.addCount_key : (s.addCount xr b n).key = s.key := by unfold State.addCount; (repeat' split) <;> rfl
@[simp] theorem State.addCount_run : (s.addCount xr b n).run = s.run := by unfold State.addCount; (repeat' split) <;> rfl
@[simp] theorem State.addCount_pending : (s.addCount xr b n).pending = s.pending := by unfold State.addCount; (repeat' split) <;> rfl
@[simp] theorem State.addCount_runRequest : (s.addCount xr b n).runRequest = s.runRequest := by unfold State.addCount; (repeat' split) <;> rfl
@[simp] theorem State.addCount_mem : (s.addCount xr b n).mem = s.mem := by unfold State.addCount; (repeat' split) <;> rfl
@[simp] theorem State.addCount_instrRegister : (s.addCount xr b n).instrRegister = s.instrRegister := by unfold State.addCount; (repeat' split) <;> rfl
@[simp] theorem State.addCount_controlFlipFlops : (s.addCount xr b n).controlFlipFlops = s.controlFlipFlops := by unfold State.addCount; (repeat' split) <;> rfl
@[simp] theorem State.addCount_deviceIn : (s.addCount xr b n).deviceIn = s.deviceIn := by unfold State.addCount; (repeat' split) <;> rfl
@[simp] theorem State.addCount_deviceLog : (s.addCount xr b n).deviceLog = s.deviceLog := by unfold State.addCount; (repeat' split) <;> rfl
@[simp] theorem State.addCount_par : (s.addCount xr b n).par = s.par := by unfold State.addCount; (repeat' split) <;> rfl

end upd_addCount

section upd_addCountOnly
variable (xr : RegNo) (n : Nat)

@[simp] theorem State.addCountOnly_status : (s.addCountOnly xr n).status = s.status := by unfold State.addCountOnly; split <;> rfl
@[simp] theorem State.addCountOnly_key : (s.addCountOnly xr n).key = s.key := by unfold State.addCountOnly; split <;> rfl
@[simp] theorem State.addCountOnly_run : (s.addCountOnly xr n).run = s.run := by unfold State.addCountOnly; split <;> rfl
@[simp] theorem State.addCountOnly_pending : (s.addCountOnly xr n).pending = s.pending := by unfold State.addCountOnly; split <;> rfl
@[simp] theorem State.addCountOnly_runRequest : (s.addCountOnly xr n).runRequest = s.runRequest := by unfold State.addCountOnly; split <;> rfl
@[simp] theorem State.addCountOnly_mem : (s.addCountOnly xr n).mem = s.mem := by unfold State.addCountOnly; split <;> rfl
@[simp] theorem State.addCountOnly_instrRegister : (s.addCountOnly xr n).instrRegister = s.instrRegister := by unfold State.addCountOnly; split <;> rfl
@[simp] theorem State.addCountOnly_controlFlipFlops : (s.addCountOnly xr n).controlFlipFlops = s.controlFlipFlops := by unfold State.addCountOnly; split <;> rfl
@[simp] theorem State.addCountOnly_deviceIn : (s.addCountOnly xr n).deviceIn = s.deviceIn := by unfold State.addCountOnly; split <;> rfl
@[simp] theorem State.addCountOnly_deviceLog : (s.addCountOnly xr n).deviceLog = s.deviceLog := by unfold State.addCountOnly; split <;> rfl
@[simp] theorem State.addCountOnly_par : (s.addCountOnly xr n).par = s.par := by unfold State.addCountOnly; split <;> rfl

end upd_addCountOnly

section upd_entered
variable (l : Nat) (b w : Word)

@[simp] theorem State.entered_key : (s.entered l b w).key = s.key := rfl
@[simp] theorem State.entered_pending : (s.entered l b w).pending = s.pending := rfl
@[simp] theorem State.entered_runRequest : (s.entered l b w).runRequest = s.runRequest := rfl
@[simp] theorem State.entered_instrRegister : (s.entered l b w).instrRegister = s.instrRegister := rfl
@[simp] theorem State.entered_controlFlipFlops : (s.entered l b w).controlFlipFlops = s.controlFlipFlops := rfl
@[simp] theorem State.entered_deviceIn : (s.entered l b w).deviceIn = s.deviceIn := rfl
@[simp] theorem State.entered_deviceLog : (s.entered l b w).deviceLog = s.deviceLog := rfl
@[simp] theorem State.entered_freeCount : (s.entered l b w).freeCount = s.freeCount := rfl
@[simp] theorem State.entered_par : (s.entered l b w).par = s.par := rfl

end upd_entered

/-! ## Registers -/

/-- A register after a register is written. -/
theorem State.reg_setReg (r q : RegNo) (v : Word) : (s.setReg r v).reg q = if q = r then v else s.reg q := by
  by_cases h : q = r
  · subst h; simp [State.reg, State.setReg]
  · have h' : r.toNat ≠ q.toNat := fun e => h (BitVec.eq_of_toNat_eq e.symm)
    simp [State.reg, State.setReg, h, Vector.getElem_set, h']

@[simp] theorem State.reg_setReg_same (r : RegNo) (v : Word) : (s.setReg r v).reg r = v := by
  rw [State.reg_setReg, if_pos rfl]

theorem State.reg_setReg_ne {r q : RegNo} (h : q ≠ r) (v : Word) : (s.setReg r v).reg q = s.reg q := by
  rw [State.reg_setReg, if_neg h]

@[simp] theorem State.pc_setPc (v : Word) : (s.setPc v).pc = v := by simp [State.pc, State.setPc]

theorem State.reg_setPc {q : RegNo} (h : q ≠ 0#3) (v : Word) : (s.setPc v).reg q = s.reg q := by
  rw [State.setPc, State.reg_setReg_ne s h]

@[simp] theorem State.pc_advance (l : Word) : (s.advance l).pc = s.pc + l := by simp [State.advance]

theorem State.reg_advance {q : RegNo} (h : q ≠ 0#3) (l : Word) : (s.advance l).reg q = s.reg q := by
  rw [State.advance, State.reg_setPc s h]

@[simp] theorem State.reg_spend (n : Nat) (q : RegNo) : (s.spend n).reg q = s.reg q := rfl

@[simp] theorem State.pc_spend (n : Nat) : (s.spend n).pc = s.pc := rfl

@[simp] theorem State.reg_withLp (b : Bool) (q : RegNo) : (s.withLp b).reg q = s.reg q := rfl

@[simp] theorem State.pc_withLp (b : Bool) : (s.withLp b).pc = s.pc := rfl

/-- `put` on a register that is not the program counter: the register, and the advance. -/
theorem State.put_ne {r : RegNo} (h : r ≠ 0#3) (l v : Word) : s.put l r v = (s.setReg r v).advance l := by
  rw [State.put, if_neg h]

/-- `put` on register 0 is a jump (R25). -/
@[simp] theorem State.put_zero (l v : Word) : s.put l 0#3 v = s.setPc v := by rw [State.put, if_pos rfl]

/-- The destination of `put`. -/
@[simp] theorem State.reg_put_same (l : Word) (r : RegNo) (v : Word) : (s.put l r v).reg r = v := by
  unfold State.put
  split
  · rename_i h; subst h; exact State.pc_setPc s v
  · rename_i h; rw [State.reg_advance _ h, State.reg_setReg_same]

/-- A register `put` does not name. -/
theorem State.reg_put_ne {q r : RegNo} (h0 : q ≠ 0#3) (h : q ≠ r) (l v : Word) : (s.put l r v).reg q = s.reg q := by
  unfold State.put
  split
  · exact State.reg_setPc s h0 v
  · rw [State.reg_advance _ h0, State.reg_setReg_ne s h]

/-- Where `put` leaves the program counter. -/
theorem State.pc_put (l : Word) (r : RegNo) (v : Word) :
    (s.put l r v).pc = if r = 0#3 then v else s.pc + l := by
  unfold State.put
  split
  · exact State.pc_setPc s v
  · rename_i h
    rw [State.pc_advance]
    exact congrArg (· + l) (State.reg_setReg_ne s (fun h' => h h'.symm) v)

/-- Writing the program counter twice: the last write stands. -/
@[simp] theorem State.setReg_setReg (r : RegNo) (v w : Word) : (s.setReg r v).setReg r w = s.setReg r w := by
  simp [State.setReg]

/-- The operand value of a register other than 0 (R24). -/
theorem State.data_ne {r : RegNo} (h : r ≠ 0#3) (l : Word) : s.data l r = s.reg r := by rw [State.data, if_neg h]

/-- Only the registers and the parameters are read by an operand. -/
theorem State.data_congr {s t : State} (h : t.regs = s.regs) (hp : t.par = s.par) (l : Word) (r : RegNo) :
    t.data l r = s.data l r := by
  simp [State.data, State.pc, State.reg, h, hp]

/-- Two states with the same registers read the same in each. -/
theorem State.reg_congr {s t : State} (h : t.regs = s.regs) (r : RegNo) : t.reg r = s.reg r := by simp [State.reg, h]

end Sys2Proof.Machine
end

