-- ==== Sys2Proof/Laws/Ops.lean ====
section
/-! SUPPORT. What the shared operations over memory, system registers and the blocks of the interrupts can do: one lemma
for each outcome, so that no later proof unfolds them. -/

namespace Sys2Proof.Machine

/-! ## One part after another -/

@[simp] theorem Res.bind_ok {α β : Type} (a : α) (s : State) (f : α → State → Res β) : (Res.ok a s).bind f = f a s := rfl
@[simp] theorem Res.bind_unimplemented {α β : Type} (s : State) (f : α → State → Res β) :
    (Res.unimplemented s).bind f = .unimplemented s := rfl
@[simp] theorem Res.bind_abort {α β : Type} (x : Word) (s : State) (f : α → State → Res β) :
    (Res.abort x s).bind f = .abort x s := rfl
@[simp] theorem Res.bind_refuse {α β : Type} (r : Refusal) (f : α → State → Res β) :
    (Res.refuse r).bind f = .refuse r := rfl

/-- A sequence that ends well went through a first part that ended well. -/
theorem Res.bind_eq_ok {α β : Type} {r : Res α} {f : α → State → Res β} {b : β} {t : State} :
    r.bind f = .ok b t ↔ ∃ a s, r = .ok a s ∧ f a s = .ok b t := by
  cases r <;> simp

@[simp] theorem Res.finish_ok (iw : Word) (s : State) : Res.finish iw (.ok () s) = .next s := rfl
@[simp] theorem Res.finish_unimplemented (iw : Word) (s : State) :
    Res.finish iw (.unimplemented s) = takeUnimplemented iw s := rfl
@[simp] theorem Res.finish_abort (iw x : Word) (s : State) : Res.finish iw (.abort x s) = takeAbort x s := rfl
@[simp] theorem Res.finish_refuse (iw : Word) (r : Refusal) : Res.finish iw (.refuse r) = .refused r := rfl

/-- An instruction ends in what its last part ends in (for the statements about stops). -/
theorem stopsWith_finish {α : Type} (iw : Word) (r : Res α) (f : α → State → Res Unit) :
    stopsWith iw r (Res.finish iw (r.bind f)) := by
  refine ⟨?_, ?_, ?_⟩ <;> intros <;> subst_vars <;> rfl

/-! ## States that differ only in the record of system registers -/

/-- `t` is `s` but for the accesses to system registers and the free values used. -/
def onlyDevices (s t : State) : Prop :=
  ∃ d l n, t = { s with deviceIn := d, deviceLog := l, freeCount := n }

theorem onlyDevices_refl (s : State) : onlyDevices s s := ⟨s.deviceIn, s.deviceLog, s.freeCount, rfl⟩

theorem onlyDevices_trans {s t u : State} (h : onlyDevices s t) (k : onlyDevices t u) : onlyDevices s u := by
  obtain ⟨d, l, n, rfl⟩ := h
  obtain ⟨d', l', n', rfl⟩ := k
  exact ⟨d', l', n', rfl⟩

theorem onlyDevices_afterDeviceRead (s : State) (a : Word) : onlyDevices s (s.afterDeviceRead a) := by
  unfold State.afterDeviceRead State.spend
  split
  · exact ⟨_, _, s.freeCount, rfl⟩
  · exact ⟨s.deviceIn, _, _, rfl⟩

theorem onlyDevices_afterDeviceWrite (s : State) (a v : Word) : onlyDevices s (s.afterDeviceWrite a v) :=
  ⟨s.deviceIn, _, s.freeCount, rfl⟩

theorem onlyDevices_spend (s : State) (n : Nat) : onlyDevices s (s.spend n) := ⟨s.deviceIn, s.deviceLog, _, rfl⟩

section
variable {s t : State} (h : onlyDevices s t)
include h

theorem onlyDevices.regs : t.regs = s.regs := by obtain ⟨_, _, _, rfl⟩ := h; rfl
theorem onlyDevices.status : t.status = s.status := by obtain ⟨_, _, _, rfl⟩ := h; rfl
theorem onlyDevices.mem : t.mem = s.mem := by obtain ⟨_, _, _, rfl⟩ := h; rfl
theorem onlyDevices.par : t.par = s.par := by obtain ⟨_, _, _, rfl⟩ := h; rfl
theorem onlyDevices.run : t.run = s.run := by obtain ⟨_, _, _, rfl⟩ := h; rfl
theorem onlyDevices.pc : t.pc = s.pc := by obtain ⟨_, _, _, rfl⟩ := h; rfl
theorem onlyDevices.reg (r : RegNo) : t.reg r = s.reg r := by obtain ⟨_, _, _, rfl⟩ := h; rfl
theorem onlyDevices.outside : sameOutside s t := by
  obtain ⟨_, _, _, rfl⟩ := h; exact ⟨rfl, rfl, rfl, rfl, rfl, rfl, rfl⟩

end

/-! ## Memory accesses -/

theorem readWord_memory {a : Word} {s : State} (h : s.inMemory (evenAddr a) = true) :
    readWord a s = .ok (s.mem.word a) s := by simp [readWord, State.wordPlace, h]

theorem writeWord_memory {a : Word} {s : State} (h : s.inMemory (evenAddr a) = true) (v : Word) :
    writeWord a v s = .ok () { s with mem := s.mem.setWord a v } := by simp [writeWord, State.wordPlace, h]

theorem readByte_memory {a : Word} {s : State} (h : s.inMemory a = true) :
    readByte a s = .ok ((s.mem.byte a).setWidth 16) s := by simp [readByte, State.bytePlace, h]

theorem writeByte_memory {a : Word} {s : State} (h : s.inMemory a = true) (v : Word) :
    writeByte a v s = .ok () { s with mem := s.mem.setByte a (rightByte v) } := by
  simp [writeByte, State.bytePlace, h]

/-- A word read that succeeds: the word in memory, or the value a system register supplies. -/
theorem readWord_ok {a v : Word} {s t : State} (h : readWord a s = .ok v t) :
    s.wordPlace a = .memory ∧ v = s.mem.word a ∧ t = s ∨
      s.wordPlace a = .device ∧ v = s.deviceValue ∧ t = s.afterDeviceRead a := by
  unfold readWord at h
  split at h
  · rename_i hp; cases h; exact .inl ⟨hp, rfl, rfl⟩
  · rename_i hp; cases h; exact .inr ⟨hp, rfl, rfl⟩
  · cases h
  · cases h

/-- A word read changes nothing but the record of system registers. -/
theorem readWord_onlyDevices {a v : Word} {s t : State} (h : readWord a s = .ok v t) : onlyDevices s t := by
  obtain ⟨_, _, rfl⟩ | ⟨_, _, rfl⟩ := readWord_ok h
  · exact onlyDevices_refl _
  · exact onlyDevices_afterDeviceRead s a

/-- A word read that stops leaves the state as it was; it never traps. -/
theorem readWord_stop {a : Word} {s t : State} :
    (∀ x, readWord a s = .abort x t → t = s) ∧ readWord a s ≠ .unimplemented t := by
  unfold readWord
  constructor
  · intro x h; split at h <;> cases h; rfl
  · intro h; split at h <;> cases h

/-- A word write that succeeds: the word in memory, or an access to a system register. -/
theorem writeWord_ok {a v : Word} {s t : State} (h : writeWord a v s = .ok () t) :
    s.wordPlace a = .memory ∧ t = { s with mem := s.mem.setWord a v } ∨
      s.wordPlace a = .device ∧ t = s.afterDeviceWrite a v := by
  unfold writeWord at h
  split at h
  · rename_i hp; cases h; exact .inl ⟨hp, rfl⟩
  · rename_i hp; cases h; exact .inr ⟨hp, rfl⟩
  · cases h
  · cases h

theorem writeWord_stop {a v : Word} {s t : State} :
    (∀ x, writeWord a v s = .abort x t → t = s) ∧ writeWord a v s ≠ .unimplemented t := by
  unfold writeWord
  constructor
  · intro x h; split at h <;> cases h; rfl
  · intro h; split at h <;> cases h

/-- A byte read that succeeds is one of program memory. -/
theorem readByte_ok {a v : Word} {s t : State} (h : readByte a s = .ok v t) :
    s.inMemory a = true ∧ v = (s.mem.byte a).setWidth 16 ∧ t = s := by
  by_cases hm : s.inMemory a = true
  · rw [readByte_memory hm] at h; cases h; exact ⟨hm, rfl, rfl⟩
  · by_cases hf : a.toNat < 0xF000 <;> simp [readByte, State.bytePlace, hm, hf] at h

/-- A byte write that succeeds is one of program memory. -/
theorem writeByte_ok {a v : Word} {s t : State} (h : writeByte a v s = .ok () t) :
    s.inMemory a = true ∧ t = { s with mem := s.mem.setByte a (rightByte v) } := by
  by_cases hm : s.inMemory a = true
  · rw [writeByte_memory hm] at h; cases h; exact ⟨hm, rfl⟩
  · by_cases hf : a.toNat < 0xF000 <;> simp [writeByte, State.bytePlace, hm, hf] at h

/-- Only the parameters decide what is program memory. -/
theorem inMemory_congr {s t : State} (hp : t.par = s.par) : t.inMemory = s.inMemory := by
  funext x; simp [State.inMemory, hp]

theorem holds_congr {s t : State} (hp : t.par = s.par) (size : Size) (a : Word) : t.holds size a = s.holds size a := by
  simp [State.holds, inMemory_congr hp]

/-- Only the parameters decide where an access goes. -/
theorem wordPlace_congr {s t : State} (hp : t.par = s.par) : t.wordPlace = s.wordPlace := by
  funext a; simp [State.wordPlace, inMemory_congr hp, hp]

theorem bytePlace_congr {s t : State} (hp : t.par = s.par) : t.bytePlace = s.bytePlace := by
  funext a; simp [State.bytePlace, inMemory_congr hp]

theorem operandPlace_congr {s t : State} (hp : t.par = s.par) (size : Size) (a : Word) :
    t.operandPlace size a = s.operandPlace size a := by
  cases size
  · exact congrFun (wordPlace_congr hp) a
  · exact congrFun (bytePlace_congr hp) a

/-- A word access where nothing answers raises Abort with that address, and changes nothing (R504). -/
theorem word_absent {a x : Word} {s : State} (h : s.wordPlace a = .absent x) :
    readWord a s = .abort x s ∧ ∀ v, writeWord a v s = .abort x s := by
  simp [readWord, writeWord, h]

/-- A word access that is refused (R71, R23). -/
theorem word_refused {a : Word} {r : Refusal} {s : State} (h : s.wordPlace a = .refused r) :
    readWord a s = .refuse r ∧ ∀ v, writeWord a v s = .refuse r := by
  simp [readWord, writeWord, h]

/-- An operand access where nothing answers (R504). -/
theorem operand_absent {size : Size} {a x : Word} {s : State} (h : s.operandPlace size a = .absent x) :
    readOperand size a s = .abort x s ∧ ∀ v, writeOperand size a v s = .abort x s := by
  cases size
  · exact word_absent h
  · have h : s.bytePlace a = .absent x := h
    simp [readOperand, writeOperand, readByte, writeByte, h]

/-- An operand access that is refused (R71, R23). -/
theorem operand_refused {size : Size} {a : Word} {r : Refusal} {s : State} (h : s.operandPlace size a = .refused r) :
    readOperand size a s = .refuse r ∧ ∀ v, writeOperand size a v s = .refuse r := by
  cases size
  · exact word_refused h
  · have h : s.bytePlace a = .refused r := h
    simp [readOperand, writeOperand, readByte, writeByte, h]

theorem operand_congr {s t : State} (hm : t.mem = s.mem) (size : Size) (a : Word) :
    t.operand size a = s.operand size a := by simp [State.operand, hm]

theorem holds_word {s : State} {a : Word} : s.holds .word a = (s.inMemory (evenAddr a) && s.inMemory (oddAddr a)) := by
  simp [State.holds, operandBytes]

theorem holds_byte {s : State} {a : Word} : s.holds .byte a = s.inMemory a := by simp [State.holds, operandBytes]

/-- Reading an operand that program memory holds. -/
theorem readOperand_holds {size : Size} {a : Word} {s : State} (h : s.holds size a = true) :
    readOperand size a s = .ok (s.operand size a) s := by
  cases size
  · rw [holds_word, Bool.and_eq_true] at h; exact readWord_memory h.1
  · rw [holds_byte] at h; exact readByte_memory h

/-- Memory after an operand is stored. -/
def Memory.setOperand (m : Memory) (size : Size) (a v : Word) : Memory :=
  match size with
  | .word => m.setWord a v
  | .byte => m.setByte a (rightByte v)

/-- Writing an operand that program memory holds. -/
theorem writeOperand_holds {size : Size} {a : Word} {s : State} (h : s.holds size a = true) (v : Word) :
    writeOperand size a v s = .ok () { s with mem := s.mem.setOperand size a v } := by
  cases size
  · rw [holds_word, Bool.and_eq_true] at h; exact writeWord_memory h.1 v
  · rw [holds_byte] at h; exact writeByte_memory h v

/-- An operand read back after it was stored. -/
theorem operand_setOperand (s : State) (size : Size) (a v : Word) :
    ({ s with mem := s.mem.setOperand size a v } : State).operand size a = stored size v := by
  cases size
  · exact Memory.word_setWord_same s.mem a v
  · show ((s.mem.setByte a (rightByte v)).byte a).setWidth 16 = v &&& 0x00FF#16
    rw [Memory.byte_setByte_same]
    unfold rightByte
    ext i hi
    have : i < 16 := hi
    interval_cases i <;> simp

/-- A byte that is not of the operand stored. -/
theorem byte_setOperand {size : Size} {a x : Word} (m : Memory) (v : Word) (h : x ∉ operandBytes size a) :
    (m.setOperand size a v).byte x = m.byte x := by
  cases size
  · simp only [operandBytes, List.mem_cons, List.not_mem_nil, or_false, not_or] at h
    show (m.setWord a v).byte x = m.byte x
    rw [Memory.byte_setWord, if_neg h.2, if_neg h.1]
  · simp only [operandBytes, List.mem_cons, List.not_mem_nil, or_false] at h
    exact Memory.byte_setByte_ne m h _

end Sys2Proof.Machine
end

