-- ==== Sys2Proof/Laws/Operands.lean ====
section
/-! SUPPORT. What the development of an address can do, and what the ends of the memory instructions leave. -/

namespace Sys2Proof.Machine

/-- The further levels of an indirect address only read. -/
theorem chase_ok {n : Nat} {a b : Word} {s t : State} (h : chase n a s = .ok b t) : onlyDevices s t := by
  induction n generalizing a s with
  | zero =>
    unfold chase at h
    split at h
    · cases h
    · cases h; exact onlyDevices_refl _
  | succ n ih =>
    unfold chase at h
    split at h
    · obtain ⟨w, s1, h1, h2⟩ := Res.bind_eq_ok.mp h
      exact onlyDevices_trans (readWord_onlyDevices h1) (ih h2)
    · cases h; exact onlyDevices_refl _

/-- An indirect address that is found was found by reads alone. -/
theorem indirectAddress_ok {size : Size} {ind : Bool} {a b : Word} {s t : State}
    (h : indirectAddress size ind a s = .ok b t) : onlyDevices s t := by
  unfold indirectAddress at h
  split at h
  · obtain ⟨w, s1, h1, h2⟩ := Res.bind_eq_ok.mp h
    cases size
    · exact onlyDevices_trans (readWord_onlyDevices h1) (chase_ok h2)
    · cases h2; exact readWord_onlyDevices h1
  · cases h; exact onlyDevices_refl _

/-- The state in which the effective address is known: the index updated with its LP, and what reads of system registers
left. -/
def indexed (index : Index) (size : Size) (xr : RegNo) (s : State) : State :=
  match index with
  | .none => s
  | .decrement =>
    if xr = 0#3 then s.withLp (s.freeBit 1)
    else (s.setReg xr (s.reg xr - indexStep size)).withLp (s.reg xr - indexStep size == 0#16)
  | .increment =>
    if xr = 0#3 then s.withLp (s.freeBit 1)
    else (s.setReg xr (s.reg xr + indexStep size)).withLp (s.reg xr + indexStep size == 0#16)


theorem onlyDevices_withLp {s t : State} (h : onlyDevices s t) (b : Bool) : onlyDevices (s.withLp b) (t.withLp b) := by
  obtain ⟨d, l, n, rfl⟩ := h; exact ⟨d, l, n, rfl⟩

theorem onlyDevices_setReg {s t : State} (h : onlyDevices s t) (r : RegNo) (v : Word) :
    onlyDevices (s.setReg r v) (t.setReg r v) := by
  obtain ⟨d, l, n, rfl⟩ := h; exact ⟨d, l, n, rfl⟩

/-- What the development of an effective address can do when it ends well (R153, R156). -/
theorem effectiveAddress_ok {index : Index} {size : Size} {m : MemOperand} {s t : State} {a : Word}
    (h : effectiveAddress index size m s = .ok a t) :
    noAddress m = false ∧ onlyDevices (indexed index size m.xr s) t := by
  unfold effectiveAddress at h
  split at h
  · cases h
  · rename_i hn
    refine ⟨by simpa using hn, ?_⟩
    cases index with
    | none => exact indirectAddress_ok h
    | decrement =>
      simp only at h
      unfold indexed
      split at h
      · rename_i hx
        obtain ⟨b, s1, h1, h2⟩ := Res.bind_eq_ok.mp h
        cases h2
        simp only [hx, if_true]
        exact onlyDevices_withLp (onlyDevices_trans (onlyDevices_spend s 2) (indirectAddress_ok h1)) _
      · rename_i hx
        obtain ⟨b, s1, h1, h2⟩ := Res.bind_eq_ok.mp h
        cases h2
        have ho := indirectAddress_ok h1
        simp only [hx, if_false, ho.reg, State.reg_setReg_same]
        exact onlyDevices_withLp ho _
    | increment =>
      simp only at h
      unfold indexed
      split at h
      · rename_i hx
        obtain ⟨b, s1, h1, h2⟩ := Res.bind_eq_ok.mp h
        cases h2
        simp only [hx, if_true]
        exact onlyDevices_withLp (onlyDevices_trans (onlyDevices_spend s 2) (indirectAddress_ok h1)) _
      · rename_i hx
        obtain ⟨b, s1, h1, h2⟩ := Res.bind_eq_ok.mp h
        cases h2
        have ho := indirectAddress_ok h1
        simp only [hx, if_false, ho.reg, State.reg_setReg_same]
        exact onlyDevices_withLp (onlyDevices_setReg ho _ _) _

/-- Without an index update the address is developed by reads alone. -/
theorem effectiveAddress_none_ok {size : Size} {m : MemOperand} {s t : State} {a : Word}
    (h : effectiveAddress .none size m s = .ok a t) : onlyDevices s t := (effectiveAddress_ok h).2

section
variable (index : Index) (size : Size) (xr : RegNo) (s : State)

@[simp] theorem indexed_mem : (indexed index size xr s).mem = s.mem := by
  cases index <;> by_cases hx : xr = 0#3 <;> simp [indexed, hx]

@[simp] theorem indexed_par : (indexed index size xr s).par = s.par := by
  cases index <;> by_cases hx : xr = 0#3 <;> simp [indexed, hx]

@[simp] theorem indexed_run : (indexed index size xr s).run = s.run := by
  cases index <;> by_cases hx : xr = 0#3 <;> simp [indexed, hx]

theorem indexed_outside : sameOutside s (indexed index size xr s) := by
  cases index <;> by_cases hx : xr = 0#3 <;> simp [indexed, hx, sameOutside]

/-- A register the index update does not write. -/
theorem indexed_reg {r : RegNo} (h : index = .none ∨ xr = 0#3 ∨ r ≠ xr) :
    (indexed index size xr s).reg r = s.reg r := by
  cases index with
  | none => rfl
  | decrement =>
    unfold indexed
    by_cases hx : xr = 0#3
    · simp [hx]
    · simp only [hx, if_false, State.reg_withLp]
      exact State.reg_setReg_ne s (by simpa [hx] using h) _
  | increment =>
    unfold indexed
    by_cases hx : xr = 0#3
    · simp [hx]
    · simp only [hx, if_false, State.reg_withLp]
      exact State.reg_setReg_ne s (by simpa [hx] using h) _

theorem indexed_pc : (indexed index size xr s).pc = s.pc := by
  by_cases hx : xr = 0#3
  · exact indexed_reg index size xr s (.inr (.inl hx))
  · exact indexed_reg index size xr s (.inr (.inr fun e => hx e.symm))

/-- The index after its update (R154). -/
theorem indexed_reg_same (h : index ≠ .none) (hx : xr ≠ 0#3) :
    (indexed index size xr s).reg xr = indexAfter index size (s.reg xr) := by
  cases index with
  | none => exact absurd rfl h
  | decrement => simp [indexed, hx, indexAfter]
  | increment => simp [indexed, hx, indexAfter]

/-- LP after an index update (R156). -/
theorem indexed_lp (h : index ≠ .none) (hx : xr ≠ 0#3) :
    (indexed index size xr s).flag .lp = (indexAfter index size (s.reg xr) == 0#16) := by
  cases index with
  | none => exact absurd rfl h
  | decrement => simp [indexed, hx, indexAfter, State.withLp, State.flag]
  | increment => simp [indexed, hx, indexAfter, State.withLp, State.flag]

/-- An indicator the index update does not write. -/
theorem indexed_flag {f : Flag} (h : index = .none ∨ f ≠ .lp) :
    (indexed index size xr s).flag f = s.flag f := by
  have hf : index ≠ .none → f ≠ .lp := fun hi => h.resolve_left hi
  cases index with
  | none => rfl
  | decrement =>
    have hl := hf (by decide)
    by_cases hx : xr = 0#3 <;> simp [indexed, hx, State.withLp, State.flag, getFlag_setFlag_ne hl]
  | increment =>
    have hl := hf (by decide)
    by_cases hx : xr = 0#3 <;> simp [indexed, hx, State.withLp, State.flag, getFlag_setFlag_ne hl]

end

/-- The indicators a general operation leaves alone. -/
theorem operationStatus_frame {op : Operation} {f : Flag} (h : f ∉ operationFlags op) (src tgt st : Word) :
    getFlag f (operationStatus op src tgt st) = getFlag f st := by
  cases op <;> simp only [operationFlags, List.mem_cons, List.not_mem_nil, or_false, not_or] at h <;>
    simp [operationStatus, getFlag_setNZO, getFlag_sumStatus, getFlag_compareStatus, h]

/-- The indicators an operation writes depend on the old status through OV alone. -/
theorem operationStatus_congr {op : Operation} {f : Flag} {st st' : Word} (h : f ∈ operationFlags op)
    (ho : getFlag .ov st = getFlag .ov st') (src tgt : Word) :
    getFlag f (operationStatus op src tgt st) = getFlag f (operationStatus op src tgt st') := by
  cases op <;> cases f <;> simp [operationFlags] at h <;>
    simp [operationStatus, getFlag_setNZO, getFlag_sumStatus, getFlag_compareStatus, ho]

/-- LP is no indicator a general operation writes. -/
theorem lp_notMem_operationFlags (op : Operation) : Flag.lp ∉ operationFlags op := by cases op <;> decide

/-- Without a conflict the accumulator is read as it was before the instruction. -/
theorem accumulator_plain {index : Index} {ar xr : RegNo} (h : indexPlain index ar xr) (len : Word) (s0 s : State) :
    accumulator index len ar xr s0 s = s0.data len ar ∧ clash index ar xr = false := by
  have hc : clash index ar xr = false := by
    unfold clash
    by_cases hi : index = .none
    · simp [hi]
    · have := (h hi).2; simp [this]
  exact ⟨by rw [accumulator, hc]; rfl, hc⟩

theorem afterAccumulator_plain {index : Index} {ar xr : RegNo} (h : clash index ar xr = false) (s : State) :
    s.afterAccumulator index ar xr = s := by rw [State.afterAccumulator, h]; rfl

theorem closeIndex_plain {index : Index} {ar xr : RegNo} (h : indexPlain index ar xr) (s : State) :
    s.closeIndex index xr = s := by
  unfold State.closeIndex
  rw [if_neg]
  by_cases hi : index = .none
  · simp [hi]
  · simp [(h hi).1]

end Sys2Proof.Machine
end

