-- ==== Sys2Proof/Laws/General.lean ====
section
/-! SUPPORT. Which shared operation each group of instructions is, and what the shared operations on an accumulator and an
operand in program memory leave. -/

namespace Sys2Proof.Machine

theorem exec_toMemory {cls : MemClass} (h : cls ∈ [MemClass.c1, .c2, .c3]) (size : Size) (op : Operation) (ar : RegNo)
    (m : MemOperand) (s : State) : exec (memInstr cls size op ar m) s = toMemory cls size op ar m s := by
  cases cls <;> first | (simp at h; done) | (cases size <;> cases op <;> rfl)

theorem exec_fromMemory {cls : MemClass} (h : cls ∈ [MemClass.c5, .c6, .c7]) (size : Size) (op : Operation) (ar : RegNo)
    (m : MemOperand) (s : State) : exec (memInstr cls size op ar m) s = fromMemory cls size op ar m s := by
  cases cls <;> first | (simp at h; done) | (cases size <;> cases op <;> rfl)

theorem exec_dataI (op : Operation) (ar : RegNo) (k : BitVec 4) (s : State) :
    exec (dataI op ar k) s = immediate op ar k s := by cases op <;> rfl

theorem exec_dataR (op : Operation) (ar xr : RegNo) (s : State) : exec (dataR op ar xr) s = register op ar xr s := by
  cases op <;> rfl

theorem exec_dataL (op : Operation) (ar xr : RegNo) (lit : Word) (s : State) :
    exec (dataL op ar xr lit) s = literal op ar xr lit s := by cases op <;> rfl

theorem exec_branchInstr (c : Condition) (sense : Bool) (d : BitVec 8) (s : State) :
    exec (branchInstr c sense d) s = branch c sense d s := by cases c <;> cases sense <;> rfl

theorem exec_shiftInstrK (op : ShiftOp) (ar : RegNo) (k : BitVec 4) (s : State) :
    exec (shiftInstrK op ar k) s = shiftByConstant op ar k s := by cases op <;> rfl

theorem exec_shiftInstrX (op : ShiftOp) (ar xr : RegNo) (s : State) :
    exec (shiftInstrX op ar xr) s = shiftByRegister op ar xr s := by cases op <;> rfl

theorem exec_dshiftInstrK (op : ShiftOp) (pair : BitVec 2) (k : BitVec 5) (s : State) :
    exec (dshiftInstrK op pair k) s = doubleByConstant op pair k s := by cases op <;> rfl

theorem exec_dshiftInstrX (op : ShiftOp) (ar xr : RegNo) (s : State) :
    exec (dshiftInstrX op ar xr) s = doubleByRegister op ar xr s := by cases op <;> rfl

theorem exec_normInstr (op : NormOp) (ar xr : RegNo) (s : State) :
    exec (normInstr op ar xr) s = normalizeSingle op ar xr s := by cases op <;> rfl

theorem exec_dnormInstr (op : NormOp) (ar xr : RegNo) (s : State) :
    exec (dnormInstr op ar xr) s = normalizePair op ar xr s := by cases op <;> rfl

theorem exec_bitInstrK (op : BitOp) (ar : RegNo) (k : BitVec 4) (s : State) :
    exec (bitInstrK op ar k) s = bitByConstant op ar k s := by cases op <;> rfl

theorem exec_bitInstrX (op : BitOp) (ar xr : RegNo) (s : State) :
    exec (bitInstrX op ar xr) s = bitByRegister op ar xr s := by cases op <;> rfl

theorem exec_bitInstrM (op : BitOp) (ar xr : RegNo) (mask : Word) (s : State) :
    exec (bitInstrM op ar xr mask) s = bitByMask op ar xr mask s := by cases op <;> rfl

theorem exec_moveInstr (op : MoveOp) (ar xr : RegNo) (s : State) :
    exec (moveInstr op ar xr) s = move op ar xr s := by cases op <;> rfl

/-- A general operation on an operand in program memory (R170, R171). -/
theorem operateOnMemory_holds {size : Size} {a : Word} {s : State} (h : s.holds size a = true) (op : Operation)
    (src : Word) :
    operateOnMemory size op a src s =
      .ok () { s with
        mem := if operationWrites op then s.mem.setOperand size a (operationResult op src (s.operand size a)) else s.mem
        status := operationStatus op src (s.operand size a) s.status } := by
  cases op <;>
    simp [operateOnMemory, operationReadsTarget, operationWrites, readOperand_holds h, writeOperand_holds h,
      operationResult, operationStatus]

end Sys2Proof.Machine
end

