-- ==== Sys2Proof/Laws/Frame.lean ====
section
/-! SUPPORT. Frames: how they compose, and the frame of each update an instruction is made of. -/

namespace Sys2Proof.Machine

theorem sameBut_refl (s : State) : sameBut [] [] [] s s :=
  ⟨fun _ _ _ => rfl, fun _ _ => rfl, fun _ _ => rfl, rfl, rfl, rfl, rfl, rfl, rfl, rfl⟩

/-- A frame may be weakened to longer lists. -/
theorem sameBut_mono {rs rs' : List RegNo} {fs fs' : List Flag} {bs bs' : List Word} {s t : State}
    (h : sameBut rs fs bs s t) (hr : ∀ r ∈ rs, r ≠ 0#3 → r ∈ rs') (hf : ∀ f ∈ fs, f ∈ fs') (hb : ∀ b ∈ bs, b ∈ bs') :
    sameBut rs' fs' bs' s t :=
  ⟨fun r h0 hn => h.1 r h0 fun hm => hn (hr r hm h0), fun f hn => h.2.1 f fun hm => hn (hf f hm),
    fun a hn => h.2.2.1 a fun hm => hn (hb a hm), h.2.2.2⟩

/-- Frames one after another. -/
theorem sameBut_trans {rs : List RegNo} {fs : List Flag} {bs : List Word} {s t u : State}
    (h : sameBut rs fs bs s t) (k : sameBut rs fs bs t u) : sameBut rs fs bs s u := by
  obtain ⟨h1, h2, h3, h4, h5, h6, h7, h8, h9, h10⟩ := h
  obtain ⟨k1, k2, k3, k4, k5, k6, k7, k8, k9, k10⟩ := k
  exact ⟨fun r h0 hn => (k1 r h0 hn).trans (h1 r h0 hn), fun f hn => (k2 f hn).trans (h2 f hn),
    fun a hn => (k3 a hn).trans (h3 a hn), k4.trans h4, k5.trans h5, k6.trans h6, k7.trans h7, k8.trans h8,
    k9.trans h9, k10.trans h10⟩

theorem sameDevices_refl (s : State) : sameDevices s s := ⟨rfl, rfl⟩

theorem sameDevices_trans {s t u : State} (h : sameDevices s t) (k : sameDevices t u) : sameDevices s u :=
  ⟨k.1.trans h.1, k.2.trans h.2⟩

section
variable (s : State)

theorem sameBut_setReg (r : RegNo) (v : Word) : sameBut [r] [] [] s (s.setReg r v) :=
  ⟨fun q _ hn => State.reg_setReg_ne s (by simpa using hn) v, fun _ _ => rfl, fun _ _ => rfl,
    rfl, rfl, rfl, rfl, rfl, rfl, rfl⟩

theorem sameBut_setPc (v : Word) : sameBut [] [] [] s (s.setPc v) :=
  ⟨fun _ h0 _ => State.reg_setPc s h0 v, fun _ _ => rfl, fun _ _ => rfl, rfl, rfl, rfl, rfl, rfl, rfl, rfl⟩

theorem sameBut_advance (l : Word) : sameBut [] [] [] s (s.advance l) := sameBut_setPc s _

theorem sameBut_put (l : Word) (r : RegNo) (v : Word) : sameBut [r] [] [] s (s.put l r v) := by
  refine ⟨fun q h0 hn => State.reg_put_ne s h0 (by simpa using hn) l v, fun f _ => ?_, fun a _ => ?_, ?_⟩
  · simp [State.flag]
  · simp
  · simp [sameOutside]

/-- A status word that differs in some indicators only. -/
theorem sameBut_status {fs : List Flag} {st : Word} (h : ∀ f, f ∉ fs → getFlag f st = getFlag f s.status) :
    sameBut [] fs [] s { s with status := st } :=
  ⟨fun _ _ _ => rfl, fun f hn => h f hn, fun _ _ => rfl, rfl, rfl, rfl, rfl, rfl, rfl, rfl⟩

theorem sameBut_mem {bs : List Word} {m : Memory} (h : ∀ a, a ∉ bs → m.byte a = s.mem.byte a) :
    sameBut [] [] bs s { s with mem := m } :=
  ⟨fun _ _ _ => rfl, fun _ _ => rfl, fun a hn => h a hn, rfl, rfl, rfl, rfl, rfl, rfl, rfl⟩

theorem sameBut_withLp (b : Bool) : sameBut [] [.lp] [] s (s.withLp b) :=
  sameBut_status s fun _ hn => getFlag_setFlag_ne (by simpa using hn) b _

theorem sameBut_spend (n : Nat) : sameBut [] [] [] s (s.spend n) :=
  ⟨fun _ _ _ => rfl, fun _ _ => rfl, fun _ _ => rfl, rfl, rfl, rfl, rfl, rfl, rfl, rfl⟩

theorem sameBut_setPair (r : RegNo) (hi lo : Word) : sameBut [r, oddRegister r] [] [] s (s.setPair r hi lo) :=
  sameBut_trans (sameBut_mono (sameBut_setReg s r hi) (by simp) (by simp) (by simp))
    (sameBut_mono (sameBut_setReg _ _ _) (by simp) (by simp) (by simp))

/-- NG, ZE and OD of a result. -/
theorem sameBut_setNZO (v : Word) : sameBut [] [.ng, .ze, .od] [] s { s with status := setNZO v s.status } :=
  sameBut_status s fun f hn => by
    simp only [List.mem_cons, List.not_mem_nil, or_false, not_or] at hn
    rw [getFlag_setNZO, if_neg hn.2.2, if_neg hn.2.1, if_neg hn.1]

theorem sameBut_operationStatus (op : Operation) (src tgt : Word) :
    sameBut [] (operationFlags op) [] s { s with status := operationStatus op src tgt s.status } :=
  sameBut_status s fun _ hn => operationStatus_frame hn src tgt _

theorem sameBut_freeNZO (k : Nat) : sameBut [] [.ng, .ze, .od] [] s (s.freeNZO k) := by
  refine sameBut_trans (sameBut_mono (sameBut_spend s (k + 3)) (by simp) (by simp) (by simp)) ?_
  refine sameBut_status _ fun f hn => ?_
  simp only [List.mem_cons, List.not_mem_nil, or_false, not_or] at hn
  rw [getFlag_setFlag_ne hn.2.2, getFlag_setFlag_ne hn.2.1, getFlag_setFlag_ne hn.1]
  rfl

end

theorem sameBut_onlyDevices {s t : State} (h : onlyDevices s t) : sameBut [] [] [] s t :=
  ⟨fun r _ _ => h.reg r, fun f _ => by rw [State.flag, h.status]; rfl, fun a _ => by rw [h.mem], h.outside⟩

/-- Where a result lies. -/
theorem delivered_put (s : State) (l : Word) (r : RegNo) (v : Word) : delivered l r v s (s.put l r v) := by
  unfold delivered
  split
  · rename_i h; subst h; simp
  · rename_i h; exact ⟨State.reg_put_same s l r v, by rw [State.pc_put, if_neg h]⟩

/-- Where a result lies, seen from a state with the same program counter. -/
theorem delivered_congr {s s' t : State} (h : s'.pc = s.pc) {l : Word} {r : RegNo} {v : Word}
    (k : delivered l r v s' t) : delivered l r v s t := by
  unfold delivered at *
  split
  · rename_i h0; rwa [if_pos h0] at k
  · rename_i h0; rw [if_neg h0, h] at k; exact k

/-- NG, ZE and OD after `setNZO`. -/
theorem shows_setNZO {v st : Word} {t : State} (h : t.status = setNZO v st) : shows v t := by
  simp [shows, State.flag, h, getFlag_setNZO]

/-- The frame of an address that is found. -/
theorem effectiveAddress_frame {index : Index} {size : Size} {m : MemOperand} {s t : State} {a : Word}
    (h : effectiveAddress index size m s = .ok a t) :
    sameBut (indexRegisters index m.xr) (indexFlags index) [] s t ∧ t.pc = s.pc ∧ t.mem = s.mem ∧ t.par = s.par := by
  obtain ⟨_, ho⟩ := effectiveAddress_ok h
  refine ⟨⟨fun r h0 hr => ?_, fun f hf => ?_, fun x _ => by rw [ho.mem, indexed_mem], ?_⟩, ?_, ?_, ?_⟩
  · rw [ho.reg]
    apply indexed_reg
    unfold indexRegisters at hr
    by_cases hi : index = .none
    · exact .inl hi
    · exact .inr (.inr (by simpa [hi] using hr))
  · rw [State.flag, ho.status]
    apply indexed_flag
    unfold indexFlags at hf
    by_cases hi : index = .none
    · exact .inl hi
    · exact .inr (by simpa [hi] using hf)
  · have := indexed_outside index size m.xr s
    have h2 := ho.outside
    simp [sameOutside] at *
    simp [this, h2]
  · rw [ho.pc, indexed_pc]
  · rw [ho.mem, indexed_mem]
  · rw [ho.par, indexed_par]

/-- The index and LP when an address is found. -/
theorem effectiveAddress_index {index : Index} {size : Size} {m : MemOperand} {s t : State} {a : Word}
    (h : effectiveAddress index size m s = .ok a t) (hx : m.xr ≠ 0#3) : indexUpdated index size m.xr s t := by
  obtain ⟨_, ho⟩ := effectiveAddress_ok h
  intro hi
  exact ⟨by rw [ho.reg, indexed_reg_same _ _ _ _ hi hx], by
    rw [State.flag, ho.status]; exact indexed_lp _ _ _ _ hi hx⟩

end Sys2Proof.Machine
end

