-- ==== Sys2Proof/Laws/Pairs.lean ====
section
/-! SUPPORT. Pairs of registers: the 31-bit number and the 32-bit string a pair holds after it is written, the indicators
from it, and what the loop of a normalize finds. -/

namespace Sys2Proof.Machine

/-- The high and the low bits of a string put together. -/
theorem extract_append (n m : Nat) (p : BitVec (m + n)) : p.extractLsb' n m ++ p.extractLsb' 0 n = p := by
  apply BitVec.eq_of_getLsbD_eq
  intro i hi
  rw [BitVec.getLsbD_append, BitVec.getLsbD_extractLsb', BitVec.getLsbD_extractLsb']
  split
  · rename_i h; simp [h]
  · rename_i h; simp [show i - n < m by omega, show n + (i - n) = i by omega]

/-- Bits 14..0 of the odd word of a number (R453). -/
theorem low31_digits (p : BitVec 31) : (low31 p).extractLsb' 0 15 = p.extractLsb' 0 15 := by
  apply BitVec.eq_of_getLsbD_eq
  intro i hi
  rw [BitVec.getLsbD_extractLsb', low31, fixS, getLsbD_setBit _ _ (by decide), if_neg (by omega)]
  rw [BitVec.getLsbD_extractLsb', BitVec.getLsbD_setWidth, BitVec.getLsbD_extractLsb']
  simp only [Nat.zero_add, hi, decide_true, Bool.true_and, show i < 16 by omega]

/-- The 31-bit number of the two words made of it (R400, R453). -/
@[simp] theorem pair31_high_low (p : BitVec 31) : pair31 (high31 p) (low31 p) = p := by
  rw [pair31, low31_digits, high31]
  exact extract_append 15 16 p

/-- The 32-bit string of the two words made of it (R421). -/
@[simp] theorem pair32_high_low (d : BitVec 32) : pair32 (high32 d) (low32 d) = d := extract_append 16 16 d

/-- S' of a number put into two words (R400). -/
theorem low31_sign (p : BitVec 31) :
    (low31 p).getLsbD 15 = ((low31 p).extractLsb' 0 15 != 0#15 && (high31 p).getLsbD 15) := by
  have h : ((p.extractLsb' 0 15).setWidth 16).extractLsb' 0 15 = p.extractLsb' 0 15 := by
    apply BitVec.eq_of_getLsbD_eq
    intro i hi
    rw [BitVec.getLsbD_extractLsb', BitVec.getLsbD_setWidth]
    simp only [Nat.zero_add, hi, decide_true, Bool.true_and, show i < 16 by omega]
  rw [low31_digits, low31, fixS, getLsbD_setBit _ _ (by decide), if_pos rfl, h]

/-- The registers of a pair are two. -/
theorem even_ne_odd {r : RegNo} (h : r ∈ [2#3, 4#3, 6#3]) : r ≠ oddRegister r ∧ r ≠ 0#3 ∧ oddRegister r ≠ 0#3 := by
  revert r; decide

section
variable (s : State) {r : RegNo} (h : r ∈ [2#3, 4#3, 6#3]) (hi lo : Word)
include h

theorem setPair_even : (s.setPair r hi lo).reg r = hi := by
  rw [State.setPair, State.reg_setReg_ne _ (even_ne_odd h).1, State.reg_setReg_same]

theorem setPair_odd : (s.setPair r hi lo).reg (oddRegister r) = lo := State.reg_setReg_same _ _ _

theorem setPair_pc : (s.setPair r hi lo).pc = s.pc := by
  rw [State.pc, State.setPair, State.reg_setReg_ne _ (Ne.symm (even_ne_odd h).2.2),
    State.reg_setReg_ne _ (Ne.symm (even_ne_odd h).2.1)]
  rfl

end

/-- A pair written whole, with NG, ZE and OD from it, at the end of an instruction of `len` bytes: `st` is the status
word before those three are set. -/
def State.pairDone (s : State) (len : Word) (r : RegNo) (hi lo st : Word) : State :=
  ({ s with status := setNZOpair hi lo st }.setPair r hi lo).advance len

section
variable (s : State) (len : Word) {r : RegNo} (h : r ∈ [2#3, 4#3, 6#3]) (hi lo st : Word)
include h

theorem pairDone_even : (s.pairDone len r hi lo st).reg r = hi := by
  rw [State.pairDone, State.reg_advance _ (even_ne_odd h).2.1, setPair_even _ h]

theorem pairDone_odd : (s.pairDone len r hi lo st).reg (oddRegister r) = lo := by
  rw [State.pairDone, State.reg_advance _ (even_ne_odd h).2.2, setPair_odd _ h]

/-- What an instruction that writes a pair leaves, where `st` differs from the status before in `fs` only. -/
theorem pairDone_wrotePair {fs : List Flag} (hst : ∀ f, f ∉ fs → getFlag f st = s.flag f) :
    wrotePair len r fs s (s.pairDone len r hi lo st) := by
  refine ⟨?_, ?_, ?_⟩
  · rw [State.pairDone, State.pc_advance, setPair_pc _ h]; rfl
  · simp only [showsPair, pairDone_even s len h, pairDone_odd s len h]
    refine ⟨?_, ?_, ?_⟩ <;> simp [State.flag, State.pairDone, getFlag_setNZOpair]
  · refine sameBut_trans (t := { s with status := setNZOpair hi lo st }) ?_
      (sameBut_trans (sameBut_mono (sameBut_setPair _ r hi lo) (by simp) (by simp) (by simp))
        (sameBut_mono (sameBut_advance _ len) (by simp) (by simp) (by simp)))
    refine sameBut_mono (sameBut_status s (fs := [.ng, .ze, .od] ++ fs) fun f hf => ?_) (by simp) (by simp) (by simp)
    simp only [List.mem_append, List.mem_cons, List.not_mem_nil, or_false, not_or] at hf
    rw [getFlag_setNZOpair, if_neg hf.1.2.2, if_neg hf.1.2.1, if_neg hf.1.1]
    exact hst f hf.2

/-- A number put into a pair is the number it holds, S' as R400 has it. -/
theorem pairDone_holdsNumber (p : BitVec 31) : holdsNumber r p (s.pairDone len r (high31 p) (low31 p) st) := by
  simp only [holdsNumber, State.number, pairDone_even s len h, pairDone_odd s len h, pair31_high_low]
  exact ⟨trivial, low31_sign p⟩

/-- A string put into a pair is the string it holds. -/
theorem pairDone_string (d : BitVec 32) : (s.pairDone len r (high32 d) (low32 d) st).string r = d := by
  simp only [State.string, pairDone_even s len h, pairDone_odd s len h, pair32_high_low]

end

/-! ## The loop of a normalize -/

/-- The loop stops at the first place where the condition holds, or after its `n` steps (R404). -/
theorem normalizeLoop_spec {α : Type} (done : α → Bool) (f : α → α) (n : Nat) (a : α) :
    (normalizeLoop done f n a).2 ≤ n ∧
      (normalizeLoop done f n a).1 = f^[(normalizeLoop done f n a).2] a ∧
      (∀ k, k < (normalizeLoop done f n a).2 → done (f^[k] a) = false) ∧
      ((normalizeLoop done f n a).2 < n → done (normalizeLoop done f n a).1 = true) := by
  induction n generalizing a with
  | zero => simp [normalizeLoop]
  | succ n ih =>
    unfold normalizeLoop
    by_cases hd : done a = true
    · simp [hd]
    · simp only [hd, if_false, Bool.false_eq_true]
      obtain ⟨h1, h2, h3, h4⟩ := ih (f a)
      refine ⟨by omega, ?_, ?_, fun hlt => h4 (by omega)⟩
      · rw [Function.iterate_succ_apply]; exact h2
      · intro k hk
        cases k with
        | zero => simpa using hd
        | succ k => rw [Function.iterate_succ_apply]; exact h3 k (by omega)

/-- Where the condition holds somewhere within `n` steps, the loop ends where it holds first. -/
theorem normalizeLoop_found {α : Type} {done : α → Bool} {f : α → α} {n m : Nat} {a : α} (hm : m ≤ n)
    (h : done (f^[m] a) = true) :
    done (normalizeLoop done f n a).1 = true ∧ (normalizeLoop done f n a).2 ≤ m := by
  obtain ⟨h1, h2, h3, h4⟩ := normalizeLoop_spec done f n a
  have hle : (normalizeLoop done f n a).2 ≤ m := by
    by_contra hc
    have := h3 m (by omega)
    rw [h] at this
    cases this
  refine ⟨?_, hle⟩
  by_cases hlt : (normalizeLoop done f n a).2 < n
  · exact h4 hlt
  · have : (normalizeLoop done f n a).2 = m := by omega
    rw [h2, this]; exact h

end Sys2Proof.Machine
end

