-- ==== Sys2Proof/Laws/Sequences.lean ====
section
/-! SUPPORT. What the operations made of several accesses leave where their words lie in program memory: the entry
sequence, the return from it, the loads and stores of several registers, the pair of words, fetch and clear. -/

namespace Sys2Proof.Machine

/-- A first part that ends well is followed by the second. -/
theorem Res.bind_of_ok {α β : Type} {r : Res α} {a : α} {s : State} (h : r = .ok a s) (f : α → State → Res β) :
    r.bind f = f a s := by rw [h]; rfl

/-! ## Taking an interrupt -/

/-- An interrupt is taken, with the state `entered` gives, exactly where its block is in program memory. -/
theorem takeEntry_next {level block : Nat} {w : Word} {s t : State} :
    takeEntry level block w s = .next t ↔
      block + 8 ≤ s.par.memTop.toNat ∧ t = s.entered level (BitVec.ofNat 16 block) w := by
  unfold takeEntry
  split
  · rename_i h; constructor
    · intro e; cases e; exact ⟨h, rfl⟩
    · rintro ⟨_, rfl⟩; rfl
  · rename_i h; constructor
    · intro e; cases e
    · intro e; exact absurd e.1 h

theorem unimplementedBlock_toNat (cpu : BitVec 2) :
    (BitVec.ofNat 16 (unimplementedBlock cpu)).toNat = 0x20 + 0x10 * cpu.toNat := by
  simp only [unimplementedBlock, BitVec.toNat_ofNat]; omega

theorem abortBlock_toNat (cpu : BitVec 2) :
    (BitVec.ofNat 16 (abortBlock cpu)).toNat = 0x28 + 0x10 * cpu.toNat := by
  simp only [abortBlock, BitVec.toNat_ofNat]; omega

/-- Words at even addresses that differ are different words. -/
theorem Memory.word_setWord_even {m : Memory} {a b : Word} (ha : a.getLsbD 0 = false) (hb : b.getLsbD 0 = false)
    (h : b ≠ a) (v : Word) : (m.setWord a v).word b = m.word b :=
  Memory.word_setWord_ne m (by rwa [evenAddr_of_even ha, evenAddr_of_even hb]) v

/-- Two bytes further on, evenness stays. -/
theorem even_add_two {a : Word} (h : a.getLsbD 0 = false) : (a + 2#16).getLsbD 0 = false := by
  rw [getLsbD_zero_eq, decide_eq_false_iff_not] at *
  rw [BitVec.toNat_add]
  simp only [BitVec.toNat_ofNat]
  omega

section
variable (level : Nat) (w0 : Word) (s : State) {b : Word} (he : b.getLsbD 0 = false)
include he

/-- Memory after an entry sequence, word by word (R507, R509). -/
theorem entered_word {x : Word} (hx : x.getLsbD 0 = false) :
    (s.entered level b w0).mem.word x =
      if x = b + 4#16 then s.pc else if x = b + 2#16 then s.status else if x = b then w0 else s.mem.word x := by
  have h2 := even_add_two he
  have h4 : (b + 4#16).getLsbD 0 = false := by
    have := even_add_two h2; rwa [BitVec.add_assoc] at this
  show (((s.mem.setWord b w0).setWord (b + 2#16) s.status).setWord (b + 4#16) s.pc).word x = _
  by_cases e4 : x = b + 4#16
  · subst e4; simp
  rw [Memory.word_setWord_even h4 hx e4, if_neg e4]
  by_cases e2 : x = b + 2#16
  · subst e2; simp
  rw [Memory.word_setWord_even h2 hx e2, if_neg e2]
  by_cases e0 : x = b
  · subst e0; simp
  rw [Memory.word_setWord_even he hx e0, if_neg e0]

/-- Control goes to the vector, the fourth word of the block (R507, R509). -/
theorem entered_pc : (s.entered level b w0).pc = s.mem.word (b + 6#16) := by
  have h2 := even_add_two he
  have h4 : (b + 4#16).getLsbD 0 = false := by
    have := even_add_two h2; rwa [BitVec.add_assoc] at this
  have h6 : (b + 6#16).getLsbD 0 = false := by
    have := even_add_two h4; rwa [BitVec.add_assoc] at this
  have h := entered_word level w0 s he h6
  rw [if_neg (by bv_omega), if_neg (by bv_omega), if_neg (by bv_omega)] at h
  exact (State.pc_setPc s _).trans h

/-- The bytes an entry sequence writes: the first six of the block. -/
theorem entered_byte {x : Word} (hx : x ∉ operandBytes .word b ++ operandBytes .word (b + 2#16) ++
    operandBytes .word (b + 4#16)) : (s.entered level b w0).mem.byte x = s.mem.byte x := by
  simp only [operandBytes, List.mem_append, List.mem_cons, List.not_mem_nil, or_false, not_or] at hx
  show (((s.mem.setWord b w0).setWord (b + 2#16) s.status).setWord (b + 4#16) s.pc).byte x = _
  rw [Memory.byte_setWord, if_neg hx.2.2, if_neg hx.2.1, Memory.byte_setWord, if_neg hx.1.2.2, if_neg hx.1.2.1,
    Memory.byte_setWord, if_neg hx.1.1.2, if_neg hx.1.1.1]

end

/-- An entry sequence keeps the memory's canonical form. -/
theorem entered_wf {level : Nat} {b w0 : Word} {s : State} (h : s.mem.wf = true) :
    (s.entered level b w0).mem.wf = true :=
  Memory.wf_setWord (Memory.wf_setWord (Memory.wf_setWord h _ _) _ _) _ _

/-- After an entry sequence the processor is Active if it was, whatever TRAP_STATUS is (R31, R514, log 5). -/
theorem entered_active {level : Nat} {b w0 : Word} {s : State} (h : s.flag .a = true) :
    (s.entered level b w0).flag .a = true := by
  show getFlag .a (s.trapStatus level) = true
  unfold State.trapStatus
  split
  · exact h
  · exact getFlag_setFlag_same _ _ _

/-- An entry sequence leaves the registers 1 to 7. -/
theorem entered_reg (level : Nat) (b w0 : Word) (s : State) {r : RegNo} (h : r ≠ 0#3) :
    (s.entered level b w0).reg r = s.reg r := State.reg_setPc s h _

/-! ## Loading the status and returning -/

/-- A status word whose Active bit is 1 is loaded as it is (R286, R287). -/
theorem loadStatus_active {w : Word} (h : w.getLsbD 11 = true) (s : State) :
    s.loadStatus w = { s with status := w } := by rw [State.loadStatus, if_pos h]

/-- One whose Active bit is 0: the processor stops, or Active is 1 (R31, log 14). -/
theorem loadStatus_inactive {w : Word} (h : w.getLsbD 11 = false) (s : State) :
    s.loadStatus w = { s.spend 1 with status := w, run := .halted } ∨
      s.loadStatus w = { s.spend 1 with status := w ||| 0x0800#16 } := by
  have hc : setFlag .a false w = w := by
    have h' : w[11] = false := (BitVec.getLsbD_eq_getElem (by decide)).symm.trans h
    ext i hi
    have : i < 16 := hi
    interval_cases i <;> simp [setFlag, setBit, Flag.bit, h']
  have hs : setFlag .a true w = w ||| 0x0800#16 := by
    ext i hi
    have : i < 16 := hi
    interval_cases i <;> simp [setFlag, setBit, Flag.bit]
  unfold State.loadStatus
  rw [if_neg (by rw [h]; exact Bool.false_ne_true)]
  cases hb : s.freeBit 0
  · exact .inr (by simp [hs])
  · exact .inl (by simp only [Bool.not_true, hc, if_true])

/-- RETN's loads where both words lie in program memory (R286). -/
theorem returnFrom_memory {m : Word} {s : State} (h : s.inMemory (evenAddr m) = true)
    (h2 : s.inMemory (evenAddr (m + 2#16)) = true) :
    returnFrom m s = .ok () ((s.loadStatus (s.mem.word m)).setPc (s.mem.word (m + 2#16))) := by
  simp [returnFrom, readWord_memory h, readWord_memory h2]

/-! ## Several words -/

/-- Two consecutive words in program memory (R452). -/
theorem readPair_memory {a : Word} {s : State} (h : s.inMemory (evenAddr a) = true)
    (h2 : s.inMemory (evenAddr (a + 2#16)) = true) :
    readPair a s = .ok (s.mem.word a, s.mem.word (a + 2#16)) s := by
  simp [readPair, readWord_memory h, readWord_memory h2]

/-- A pair of words read changes nothing but the record of system registers. -/
theorem readPair_onlyDevices {a : Word} {v : Word × Word} {s t : State} (h : readPair a s = .ok v t) :
    onlyDevices s t := by
  obtain ⟨w, s1, h1, h2⟩ := Res.bind_eq_ok.mp h
  obtain ⟨x, s2, h3, h4⟩ := Res.bind_eq_ok.mp h2
  cases h4
  exact onlyDevices_trans (readWord_onlyDevices h1) (readWord_onlyDevices h3)

/-- The read and clear of an operand in program memory (R314). -/
theorem fetchAndClear_holds {size : Size} {a : Word} {s : State} (h : s.holds size a = true) :
    fetchAndClear size a s = .ok (s.operand size a) { s with mem := s.mem.setOperand size a 0#16 } := by
  simp [fetchAndClear, readOperand_holds h, writeOperand_holds h]

/-- Memory after consecutive words are stored from `a` on. -/
def Memory.setWords (m : Memory) (vs : List Word) (a : Word) : Memory :=
  match vs with
  | [] => m
  | v :: rest => (m.setWord a v).setWords rest (a + 2#16)

/-- The addresses of `n` consecutive words from `a` on. -/
def wordAddresses (n : Nat) (a : Word) : List Word :=
  match n with
  | 0 => []
  | k + 1 => a :: wordAddresses k (a + 2#16)

theorem wordAddresses_seven (a : Word) : wordAddresses 7 a = sevenWords a := by
  simp [wordAddresses, sevenWords, List.range, List.range.loop, BitVec.add_assoc]

/-- The stores of REGM where all words lie in program memory (R285). -/
theorem storeRegisters_memory {rs : List RegNo} {a : Word} {s : State}
    (h : ∀ x ∈ wordAddresses rs.length a, s.inMemory (evenAddr x) = true) :
    storeRegisters rs a s = .ok () { s with mem := s.mem.setWords (rs.map s.reg) a } := by
  induction rs generalizing a s with
  | nil => rfl
  | cons r rest ih =>
    unfold storeRegisters
    rw [writeWord_memory (h a (by simp [wordAddresses])), Res.bind_ok, ih]
    · rfl
    · intro x hx
      exact h x (by simp only [List.length_cons, wordAddresses, List.mem_cons]; exact .inr hx)

/-- A byte that is in none of the words stored. -/
theorem Memory.byte_setWords {vs : List Word} {a x : Word} (m : Memory)
    (h : x ∉ (wordAddresses vs.length a).flatMap (operandBytes .word)) : (m.setWords vs a).byte x = m.byte x := by
  induction vs generalizing m a with
  | nil => rfl
  | cons v rest ih =>
    simp only [List.length_cons, wordAddresses, List.flatMap_cons, List.mem_append, not_or] at h
    unfold Memory.setWords
    rw [ih _ h.2]
    exact byte_setOperand (size := .word) m v h.1

/-- A word at an address whose bytes are in none of the words stored. -/
theorem Memory.word_setWords {vs : List Word} {a x : Word} (m : Memory)
    (h : ∀ y ∈ wordAddresses vs.length a, evenAddr x ≠ evenAddr y) : (m.setWords vs a).word x = m.word x := by
  induction vs generalizing m a with
  | nil => rfl
  | cons v rest ih =>
    simp only [List.length_cons, wordAddresses, List.mem_cons, forall_eq_or_imp] at h
    unfold Memory.setWords
    rw [ih _ h.2, Memory.word_setWord_ne m h.1]

/-- The state after registers are loaded from consecutive words from `a` on. -/
def State.withWords (s : State) (rs : List RegNo) (a : Word) : State :=
  match rs with
  | [] => s
  | r :: rest => (s.setReg r (s.mem.word a)).withWords rest (a + 2#16)

/-- The loads of MREG where all words lie in program memory (R288). -/
theorem loadRegisters_memory {rs : List RegNo} {a : Word} {s : State}
    (h : ∀ x ∈ wordAddresses rs.length a, s.inMemory (evenAddr x) = true) :
    loadRegisters rs a s = .ok () (s.withWords rs a) := by
  induction rs generalizing a s with
  | nil => rfl
  | cons r rest ih =>
    unfold loadRegisters
    rw [readWord_memory (h a (by simp [wordAddresses])), Res.bind_ok, ih]
    · rfl
    · intro x hx
      exact h x (by simp only [List.length_cons, wordAddresses, List.mem_cons]; exact .inr hx)

/-- A register that is not among those loaded. -/
theorem withWords_frame (s : State) (rs : List RegNo) (a : Word) : sameBut rs [] [] s (s.withWords rs a) := by
  induction rs generalizing s a with
  | nil => exact sameBut_refl s
  | cons r rest ih =>
    exact sameBut_trans (sameBut_mono (sameBut_setReg s r _) (by simp) (by simp) (by simp))
      (sameBut_mono (ih _ _) (by simp +contextual) (by simp) (by simp))

/-! ## The scratch words of the decimal instructions -/

/-- Registers 5, 6 and 7 stored at the level-5 block (R332, R68). -/
theorem saveScratch_memory {s : State} (h : 0x28 + 0x10 * s.par.cpu.toNat ≤ s.par.memTop.toNat) :
    saveScratch s = .ok () { s with
      mem := s.mem.setWords [s.reg 5#3, s.reg 6#3, s.reg 7#3] (BitVec.ofNat 16 (unimplementedBlock s.par.cpu)) } := by
  have hb := unimplementedBlock_toNat s.par.cpu
  have hc := s.par.cpu.isLt
  have hin : ∀ k : Nat, k ≤ 4 →
      s.inMemory (evenAddr (BitVec.ofNat 16 (unimplementedBlock s.par.cpu) + BitVec.ofNat 16 k)) = true := by
    intro k hk
    simp only [State.inMemory, decide_eq_true_eq, evenAddr_toNat, BitVec.toNat_add, hb, BitVec.toNat_ofNat]
    omega
  have h0 := hin 0 (by omega)
  have h2 := hin 2 (by omega)
  have h4 := hin 4 (by omega)
  rw [BitVec.add_zero] at h0
  refine (Res.bind_of_ok (writeWord_memory h0 _) _).trans ?_
  have k2 : ∀ m, State.inMemory { s with mem := m } (evenAddr (_ + 2#16)) = true := fun _ => h2
  have k4 : ∀ m, State.inMemory { s with mem := m } (evenAddr (_ + 4#16)) = true := fun _ => h4
  refine (Res.bind_of_ok (writeWord_memory (k2 _) _) _).trans ?_
  refine (writeWord_memory (k4 _) _).trans ?_
  simp [Memory.setWords, State.reg, BitVec.add_assoc]

end Sys2Proof.Machine
end

