-- ==== Sys2Proof/Laws/Fields.lean ====
section
/-! SUPPORT. Fields of the decimal and character instructions: where they lie, what a store leaves in them, their digits,
and the shared parts of the nine instructions. -/

namespace Sys2Proof.Machine

/-! ## Where a field lies -/

theorem fromLeft_mem {f : Field} {i : Nat} (h : i < f.len) : f.fromLeft i ∈ f.addresses :=
  List.mem_map.2 ⟨i, List.mem_range.2 h, rfl⟩

theorem fromRight_mem {f : Field} {i : Nat} (h : i < f.len) : f.fromRight i ∈ f.addresses :=
  fromLeft_mem (by omega)

theorem holdsField_iff {s : State} {f : Field} :
    s.holdsField f = true ↔ ∀ i, i < f.len → s.inMemory (f.fromLeft i) = true := by
  simp [State.holdsField, Field.addresses]

/-- A field that lies in program memory is shorter than the address space, whose last byte is not of program memory. -/
theorem holdsField_len {s : State} {f : Field} (h : s.holdsField f = true) : f.len < 65536 := by
  by_contra hc
  have := holdsField_iff.1 h (0xFFFF#16 - f.addr).toNat (by have := (0xFFFF#16 - f.addr).isLt; omega)
  have h2 : f.fromLeft (0xFFFF#16 - f.addr).toNat = 0xFFFF#16 := by
    rw [Field.fromLeft, BitVec.ofNat_toNat, BitVec.setWidth_eq]
    bv_omega
  rw [h2, State.inMemory, decide_eq_true_eq] at this
  have := s.par.memTop.isLt
  simp at *
  omega

theorem holdsField_congr {s t : State} (hp : t.par = s.par) (f : Field) : t.holdsField f = s.holdsField f := by
  simp [State.holdsField, inMemory_congr hp]

/-- Different bytes of a field shorter than the address space have different addresses. -/
theorem fromRight_inj {f : Field} (h : f.len < 65536) {i j : Nat} (hi : i < f.len) (hj : j < f.len)
    (e : f.fromRight i = f.fromRight j) : i = j := by
  simp only [Field.fromRight, Field.fromLeft] at e
  have := congrArg BitVec.toNat ((BitVec.add_right_inj f.addr).1 e)
  simp only [BitVec.toNat_ofNat] at this
  omega

/-- No byte of the fields lies outside program memory exactly where program memory holds each. -/
theorem badBytes_isEmpty (s : State) (fs : List Field) : (s.badBytes fs).isEmpty = fs.all s.holdsField := by
  rw [Bool.eq_iff_iff]
  simp only [State.badBytes, State.holdsField, List.isEmpty_iff, List.filter_eq_nil_iff, List.mem_flatMap,
    List.all_eq_true, Bool.not_eq_true', Bool.not_eq_false]
  exact ⟨fun h f hf x hx => h x ⟨f, hf, hx⟩, fun h x ⟨f, hf, hx⟩ => h f hf x hx⟩

theorem mem_badBytes {s : State} {fs : List Field} {x : Word} :
    x ∈ s.badBytes fs ↔ (∃ f ∈ fs, x ∈ f.addresses) ∧ s.inMemory x = false := by
  simp [State.badBytes]

/-- The byte at which a decimal instruction aborts is one of the bad ones. -/
theorem chooseBad_mem {s : State} {bad : List Word} (h : bad ≠ []) : s.chooseBad bad ∈ bad := by
  have hl : 0 < bad.length := List.length_pos_iff.2 h
  have hm := Nat.mod_lt (s.freeAt 0).toNat hl
  rw [State.chooseBad, List.getD_eq_getElem?_getD, List.getElem?_eq_getElem hm]
  exact List.getElem_mem hm

/-! ## Bytes stored -/

/-- A byte outside a field is left by a store in it. -/
theorem store_byte_ne {f : Field} {x : Word} {bs : List Byte} {i : Nat} {m : Memory}
    (h : ∀ k, i ≤ k → k < i + bs.length → x ≠ f.fromRight k) : (f.store i bs m).byte x = m.byte x := by
  induction bs generalizing i m with
  | nil => rfl
  | cons b rest ih =>
    unfold Field.store
    rw [ih fun k h1 h2 => h k (by omega) (by simp only [List.length_cons]; omega),
      Memory.byte_setByte_ne m (h i (by omega) (by simp))]

/-- Each byte stored in a field is there afterwards. -/
theorem store_byte {f : Field} (hf : f.len < 65536) {bs : List Byte} {i k : Nat} {m : Memory}
    (hl : i + bs.length ≤ f.len) (hk : k < bs.length) :
    (f.store i bs m).byte (f.fromRight (i + k)) = bs.getD k 0#8 := by
  induction bs generalizing i k m with
  | nil => simp at hk
  | cons b rest ih =>
    simp only [List.length_cons] at hl hk
    unfold Field.store
    cases k with
    | zero =>
      rw [store_byte_ne fun k h1 h2 e => by have := fromRight_inj hf (by omega) (by omega) e; omega]
      simp
    | succ k =>
      have := ih (i := i + 1) (k := k) (m := m.setByte (f.fromRight i) b) (by omega) (by omega)
      rw [show i + (k + 1) = i + 1 + k by omega, this]
      simp

/-- A field reads as the bytes stored in the whole of it. -/
theorem bytes_store {f : Field} (hf : f.len < 65536) {bs : List Byte} (h : bs.length = f.len) (m : Memory) :
    f.bytes (f.store 0 bs m) = bs := by
  apply List.ext_getElem
  · simp [Field.bytes, h]
  · intro k h1 h2
    have := store_byte hf (bs := bs) (i := 0) (k := k) (m := m) (by omega) h2
    rw [Nat.zero_add] at this
    simp only [Field.bytes, List.getElem_map, List.getElem_range, this]
    simp [h2]

/-- A store in a field keeps the memory's canonical form. -/
theorem store_wf {f : Field} {bs : List Byte} {i : Nat} {m : Memory} (h : m.wf = true) :
    (f.store i bs m).wf = true := by
  induction bs generalizing i m with
  | nil => exact h
  | cons b rest ih => exact ih (Memory.wf_setByte h _ _)

/-- A store in a field changes bytes of the field only. -/
theorem store_frame {f : Field} {bs : List Byte} (s : State) (h : bs.length ≤ f.len) :
    sameBut [] [] f.addresses s { s with mem := f.store 0 bs s.mem } :=
  sameBut_mem s fun a ha => store_byte_ne fun k _ hk e => ha (e ▸ fromRight_mem (by omega))

/-- Bytes written one after another, where a test allows it, change nothing but those places. -/
theorem foldl_setByte {α : Type} (l : List α) (p : α → Bool) (place : α → Word) (v : α → Byte) (m : Memory) {x : Word}
    (h : ∀ i ∈ l, p i = true → x ≠ place i) :
    (l.foldl (fun mem i => if p i then mem.setByte (place i) (v i) else mem) m).byte x = m.byte x := by
  induction l generalizing m with
  | nil => rfl
  | cons i rest ih =>
    rw [List.foldl_cons, ih _ fun j hj => h j (by simp [hj])]
    split
    · rename_i hp; exact Memory.byte_setByte_ne m (h i (by simp) hp) _
    · rfl

/-- Free bytes in a field change bytes of the field in program memory only. -/
theorem scramble_frame (f : Field) (s : State) :
    sameBut [] [] (f.addresses.filter s.inMemory) s (scramble f s) := by
  refine ⟨fun _ _ _ => rfl, fun _ _ => rfl, fun a ha => ?_, rfl, rfl, rfl, rfl, rfl, rfl, rfl⟩
  refine foldl_setByte (List.range f.len) (fun i => s.inMemory (f.fromLeft i)) f.fromLeft _ s.mem fun i hi hp e => ha ?_
  rw [List.mem_filter, e]
  exact ⟨fromLeft_mem (List.mem_range.1 hi), hp⟩

/-- Free bytes in a field keep the memory's canonical form. -/
theorem scramble_wf {f : Field} {s : State} (h : s.mem.wf = true) : (scramble f s).mem.wf = true := by
  have : ∀ (l : List Nat) (m : Memory), m.wf = true → (l.foldl (fun mem i =>
      if s.inMemory (f.fromLeft i) then mem.setByte (f.fromLeft i) (rightByte (s.freeAt i)) else mem) m).wf = true := by
    intro l
    induction l with
    | nil => intro m hm; exact hm
    | cons i rest ih =>
      intro m hm
      refine ih _ ?_
      dsimp only
      split
      · exact Memory.wf_setByte hm _ _
      · exact hm
  exact this _ _ h

/-- MOVR and MOVL where all bytes are in program memory: the bytes one after another, each read when its turn comes. -/
theorem moveBytes_memory {ps : List (Word × Word)} {s : State}
    (h : ∀ q ∈ ps, s.inMemory q.1 = true ∧ s.inMemory q.2 = true) :
    moveBytes ps s = .ok () { s with mem := ps.foldl (fun mem q => mem.setByte q.2 (mem.byte q.1)) s.mem } := by
  induction ps generalizing s with
  | nil => rfl
  | cons q rest ih =>
    obtain ⟨a, b⟩ := q
    have hq := h (a, b) (by simp)
    unfold moveBytes
    rw [if_pos hq.1, if_pos hq.2, ih]
    · rfl
    · exact fun q hq => h q (by simp [hq])

/-! ## Digits -/

@[simp] theorem length_nibbles (bs : List Byte) : (nibbles bs).length = 2 * bs.length := by
  induction bs with
  | nil => rfl
  | cons b rest ih =>
    simp only [nibbles, List.flatMap_cons, List.length_append, List.length_cons, List.length_nil] at *
    omega

/-- Nibbles put into bytes come out again. -/
theorem nibbles_packNibbles : ∀ {n : Nat} {l : List (BitVec 4)}, l.length = 2 * n → nibbles (packNibbles l) = l
  | 0, [], _ => rfl
  | n + 1, lo :: hi :: rest, h => by
    have ih := nibbles_packNibbles (n := n) (l := rest) (by simp only [List.length_cons] at h; omega)
    have h1 : (hi ++ lo).extractLsb' 0 4 = lo := by
      apply BitVec.eq_of_getLsbD_eq
      intro i hi'
      rw [BitVec.getLsbD_extractLsb', BitVec.getLsbD_append, if_pos (by omega)]
      simp only [Nat.zero_add, hi', decide_true, Bool.true_and]
    have h2 : (hi ++ lo).extractLsb' 4 4 = hi := by
      apply BitVec.eq_of_getLsbD_eq
      intro i hi'
      rw [BitVec.getLsbD_extractLsb', BitVec.getLsbD_append, if_neg (by omega), Nat.add_sub_cancel_left]
      simp only [hi', decide_true, Bool.true_and]
    show [(hi ++ lo).extractLsb' 0 4, (hi ++ lo).extractLsb' 4 4] ++ nibbles (packNibbles rest) = _
    rw [ih, h1, h2]
    rfl

/-- Bytes put into nibbles come out again. -/
theorem packNibbles_nibbles (bs : List Byte) : packNibbles (nibbles bs) = bs := by
  induction bs with
  | nil => rfl
  | cons b rest ih =>
    show (b.extractLsb' 4 4 ++ b.extractLsb' 0 4) :: packNibbles (nibbles rest) = _
    rw [ih]
    exact congrArg (· :: rest) (extract_append 4 4 b)

theorem length_packNibbles : ∀ {n : Nat} {l : List (BitVec 4)}, l.length = 2 * n → (packNibbles l).length = n
  | 0, [], _ => rfl
  | n + 1, lo :: hi :: rest, h => by
    have ih := length_packNibbles (n := n) (l := rest) (by simp only [List.length_cons] at h; omega)
    simp [packNibbles, ih]

@[simp] theorem length_decimalDigits (n m : Nat) : (decimalDigits n m).length = n := by
  induction n generalizing m with
  | zero => rfl
  | succ n ih => simp [decimalDigits, ih]

/-- Every decimal digit is one of 0 to 9. -/
theorem decimalDigits_le {n m : Nat} {d : BitVec 4} (h : d ∈ decimalDigits n m) : d.toNat ≤ 9 := by
  induction n generalizing m with
  | zero => simp [decimalDigits] at h
  | succ n ih =>
    simp only [decimalDigits, List.mem_cons] at h
    rcases h with rfl | h
    · simp only [BitVec.toNat_ofNat]; omega
    · exact ih h

/-- The digits of a number truncated to a field (R337(a), R339). -/
theorem magnitude_decimalDigits (n m : Nat) : magnitude (decimalDigits n m) = m % 10 ^ n := by
  induction n generalizing m with
  | zero => simp [decimalDigits, magnitude, Nat.mod_one]
  | succ n ih =>
    rw [decimalDigits, magnitude, ih, BitVec.toNat_ofNat, Nat.mod_eq_of_lt (by omega : m % 10 < 2 ^ 4), Nat.pow_succ,
      Nat.mul_comm (10 ^ n) 10, Nat.mod_mul]

section
variable {len : Nat} (h : 0 < len) (mag : Nat) (sign : BitVec 4)
include h

theorem nibbles_decimalField : nibbles (decimalField len mag sign) = sign :: decimalDigits (2 * len - 1) mag :=
  nibbles_packNibbles (n := len) (by simp only [List.length_cons, length_decimalDigits]; omega)

theorem length_decimalField : (decimalField len mag sign).length = len :=
  length_packNibbles (by simp only [List.length_cons, length_decimalDigits]; omega)

/-- The sign, the digits and the validity of a field made from a magnitude and a sign. -/
theorem decimalField_spec : fieldSign (decimalField len mag sign) = sign ∧
    magnitude (fieldDigits (decimalField len mag sign)) = mag % 10 ^ (2 * len - 1) ∧
    (sign = 12#4 ∨ sign = 13#4 → fieldValid (decimalField len mag sign) = true) := by
  have hn := nibbles_decimalField h mag sign
  have hd : fieldDigits (decimalField len mag sign) = decimalDigits (2 * len - 1) mag := by rw [fieldDigits, hn]; rfl
  have hs : fieldSign (decimalField len mag sign) = sign := by rw [fieldSign, hn]; rfl
  refine ⟨hs, by rw [hd, magnitude_decimalDigits], fun h2 => ?_⟩
  rw [fieldValid, hd, hs, Bool.and_eq_true]
  refine ⟨?_, by rcases h2 with rfl | rfl <;> decide⟩
  rw [List.all_eq_true]
  exact fun d hd => decide_eq_true (decimalDigits_le hd)

end

/-! ## The end of the nine instructions -/

/-- What the end of a decimal or character instruction may change (R333). -/
theorem freeIndicators_frame (compares : Bool) (s : State) :
    sameBut [] decimalFlags [] s (s.freeIndicators compares) ∧
      (compares = true → ∀ f, f = .eq ∨ f = .gt → (s.freeIndicators compares).flag f = s.flag f) := by
  refine ⟨⟨fun _ _ _ => rfl, fun f hf => ?_, fun _ _ => rfl, rfl, rfl, rfl, rfl, rfl, rfl, rfl⟩, fun hc f hf => ?_⟩
  · simp only [decimalFlags, List.mem_cons, List.not_mem_nil, or_false, not_or] at hf
    unfold State.freeIndicators State.flag
    cases compares <;> simp [getFlag_setFlag, hf]
  · unfold State.freeIndicators State.flag
    rcases hf with rfl | rfl <;> simp [getFlag_setFlag, hc]

theorem decimalEnd_ok (compares : Bool) (s : State) :
    ∃ t, decimalEnd compares s = .ok () t ∧ decimalDone [] s t ∧
      (compares = true → ∀ f, f = .eq ∨ f = .gt → t.flag f = s.flag f) ∧ t.mem = s.mem := by
  obtain ⟨h1, h2⟩ := freeIndicators_frame compares s
  refine ⟨_, rfl, ⟨?_, ?_, rfl, rfl⟩, fun hc f hf => h2 hc f hf, rfl⟩
  · exact State.pc_advance _ _
  · exact sameBut_trans h1 (sameBut_mono (sameBut_advance _ _) (by simp) (by simp) (by simp))

end Sys2Proof.Machine
end

