-- ==== Sys2Proof/Laws/Steady.lean ====
section
/-! SUPPORT. What the parts of an instruction keep whatever their data: everything outside the registers, the ordinary
indicators and program memory, and the canonical form of the memory. One relation, and one lemma for each shared
operation. -/

namespace Sys2Proof.Machine

/-- The indicators that only RSTS, SETS, the mask instructions, MSTS, RETN and HALT's end write. -/
def steadyFlags : List Flag := [.f1, .f2, .f3, .a, .m1, .m2, .m3, .m4]

/-- From `s` to `t` nothing changed but registers, the other indicators, bytes of program memory (where the parameters are
legal), the record of system registers and the free values used. -/
structure Steady (s t : State) : Prop where
  outside : sameOutside s t
  flags : ∀ f ∈ steadyFlags, t.flag f = s.flag f
  bytes : s.par.legal = true → ∀ a, s.inMemory a = false → t.mem.byte a = s.mem.byte a
  wf : s.mem.wf = true → t.mem.wf = true

theorem Steady.par {s t : State} (h : Steady s t) : t.par = s.par := h.outside.2.2.2.2.2.2

theorem Steady.refl (s : State) : Steady s s := ⟨⟨rfl, rfl, rfl, rfl, rfl, rfl, rfl⟩, fun _ _ => rfl, fun _ _ _ => rfl, id⟩

theorem Steady.trans {s t u : State} (h : Steady s t) (k : Steady t u) : Steady s u := by
  refine ⟨?_, fun f hf => (k.flags f hf).trans (h.flags f hf), fun hl a ha => ?_, fun hw => k.wf (h.wf hw)⟩
  · obtain ⟨h4, h5, h6, h7, h8, h9, h10⟩ := h.outside
    obtain ⟨k4, k5, k6, k7, k8, k9, k10⟩ := k.outside
    exact ⟨k4.trans h4, k5.trans h5, k6.trans h6, k7.trans h7, k8.trans h8, k9.trans h9, k10.trans h10⟩
  · exact (k.bytes (by rw [h.par]; exact hl) a (by rw [inMemory_congr h.par]; exact ha)).trans (h.bytes hl a ha)

/-- A frame of ordinary indicators without bytes, with the memory as it was, is steady. -/
theorem Steady.of_sameBut {rs : List RegNo} {fs : List Flag} {s t : State} (h : sameBut rs fs [] s t)
    (hf : ∀ f ∈ steadyFlags, f ∉ fs) (hm : t.mem = s.mem) : Steady s t :=
  ⟨h.2.2.2, fun f k => h.2.1 f (hf f k), fun _ a _ => by rw [hm], fun hw => by rw [hm]; exact hw⟩

theorem Steady.of_onlyDevices {s t : State} (h : onlyDevices s t) : Steady s t :=
  .of_sameBut (sameBut_onlyDevices h) (by simp) h.mem

/-- In legal parameters both bytes of a word lie in program memory, or neither (R6, R69). -/
theorem inMemory_oddAddr {s : State} (h : s.par.legal = true) (a : Word) :
    s.inMemory (oddAddr a) = s.inMemory (evenAddr a) := by
  have he : s.par.memTop.toNat % 2 = 0 := by
    simp only [Params.legal, Bool.and_eq_true, Bool.not_eq_true', getLsbD_zero_eq, decide_eq_false_iff_not] at h
    omega
  simp only [State.inMemory, evenAddr_toNat, oddAddr_toNat]
  rw [decide_eq_decide]
  omega

theorem Steady.setWord {s : State} {a : Word} (h : s.inMemory (evenAddr a) = true) (v : Word) :
    Steady s { s with mem := s.mem.setWord a v } := by
  refine ⟨⟨rfl, rfl, rfl, rfl, rfl, rfl, rfl⟩, fun _ _ => rfl, fun hl x hx => ?_, fun hw => Memory.wf_setWord hw _ _⟩
  have h1 : x ≠ evenAddr a := fun e => by rw [e, h] at hx; cases hx
  have h2 : x ≠ oddAddr a := fun e => by rw [e, inMemory_oddAddr hl, h] at hx; cases hx
  show (s.mem.setWord a v).byte x = _
  rw [Memory.byte_setWord, if_neg h2, if_neg h1]

theorem Steady.setByte {s : State} {a : Word} (h : s.inMemory a = true) (b : Byte) :
    Steady s { s with mem := s.mem.setByte a b } := by
  refine ⟨⟨rfl, rfl, rfl, rfl, rfl, rfl, rfl⟩, fun _ _ => rfl, fun hl x hx => ?_, fun hw => Memory.wf_setByte hw _ _⟩
  exact Memory.byte_setByte_ne _ (fun e => by rw [e, h] at hx; cases hx) _

section
variable {s t : State} (h : Steady s t)
include h

theorem Steady.setReg (r : RegNo) (v : Word) : Steady s (t.setReg r v) :=
  h.trans (.of_sameBut (sameBut_setReg t r v) (by simp) rfl)

theorem Steady.setPc (v : Word) : Steady s (t.setPc v) := h.trans (.of_sameBut (sameBut_setPc t v) (by simp) rfl)

theorem Steady.advance (l : Word) : Steady s (t.advance l) := h.setPc _

theorem Steady.put (l : Word) (r : RegNo) (v : Word) : Steady s (t.put l r v) :=
  h.trans (.of_sameBut (sameBut_put t l r v) (by simp) (by simp))

theorem Steady.setPair (r : RegNo) (hi lo : Word) : Steady s (t.setPair r hi lo) := (h.setReg _ _).setReg _ _

theorem Steady.spend (n : Nat) : Steady s (t.spend n) := h.trans (.of_sameBut (sameBut_spend t n) (by simp) rfl)

theorem Steady.withLp (b : Bool) : Steady s (t.withLp b) :=
  h.trans (.of_sameBut (sameBut_withLp t b) (by simp [steadyFlags]) rfl)

theorem Steady.freeNZO (k : Nat) : Steady s (t.freeNZO k) :=
  h.trans (.of_sameBut (sameBut_freeNZO t k) (by simp [steadyFlags]) rfl)

theorem Steady.freeIndicators (c : Bool) : Steady s (t.freeIndicators c) :=
  h.trans (.of_sameBut (freeIndicators_frame c t).1 (by simp [steadyFlags, decimalFlags]) rfl)

/-- A status word in which no steady indicator is written. -/
theorem Steady.withStatus {st : Word} (k : ∀ f ∈ steadyFlags, getFlag f st = t.flag f) :
    Steady s { t with status := st } :=
  h.trans ⟨⟨rfl, rfl, rfl, rfl, rfl, rfl, rfl⟩, k, fun _ _ _ => rfl, id⟩

theorem Steady.afterAccumulator (i : Index) (ar xr : RegNo) : Steady s (t.afterAccumulator i ar xr) := by
  unfold State.afterAccumulator
  split
  · exact h.spend 1
  · exact h

theorem Steady.afterCount (xr : RegNo) : Steady s (t.afterCount xr) := by
  unfold State.afterCount
  split
  · exact h.spend 1
  · exact h

theorem Steady.closeIndex (i : Index) (xr : RegNo) : Steady s (t.closeIndex i xr) := by
  unfold State.closeIndex
  split
  · exact (h.spend 1).setPc _
  · exact h

theorem Steady.addCount (xr : RegNo) (b : Bool) (n : Nat) : Steady s (t.addCount xr b n) := by
  unfold State.addCount
  split
  · exact (h.spend 1).setPc _
  · split
    · exact ((h.spend 1).setReg _ _).advance _
    · exact (h.setReg _ _).advance _

theorem Steady.addCountOnly (xr : RegNo) (n : Nat) : Steady s (t.addCountOnly xr n) := by
  unfold State.addCountOnly
  split
  · exact (h.spend 1).setPc _
  · exact h.setReg _ _

/-- Bytes stored in a field that lies in program memory. -/
theorem Steady.store {f : Field} {bs : List Byte} (hf : t.holdsField f = true) (hl : bs.length ≤ f.len) :
    Steady s { t with mem := f.store 0 bs t.mem } := by
  refine h.trans ⟨⟨rfl, rfl, rfl, rfl, rfl, rfl, rfl⟩, fun _ _ => rfl, fun _ x hx => ?_, fun hw => store_wf hw⟩
  refine store_byte_ne fun k _ hk e => ?_
  rw [e, (List.all_eq_true.1 hf) _ (fromRight_mem (by omega))] at hx
  cases hx

theorem Steady.scramble (f : Field) : Steady s (scramble f t) := by
  have k := scramble_frame f t
  refine h.trans ⟨k.2.2.2, fun f _ => k.2.1 f (by simp), fun _ x hx => k.2.2.1 x fun hm => ?_, fun hw => scramble_wf hw⟩
  rw [List.mem_filter, hx] at hm
  exact absurd hm.2 Bool.false_ne_true

end

/-! ## Parts of an instruction -/

/-- Whatever the part ends in, its state is steady beside `s`. -/
def Res.steady {α : Type} (s : State) : Res α → Prop
  | .ok _ t => Steady s t
  | .unimplemented t => Steady s t
  | .abort _ t => Steady s t
  | .refuse _ => True

/-- One part after another. -/
theorem Res.steady_bind {α β : Type} {s : State} {r : Res α} {f : α → State → Res β} (h : r.steady s)
    (k : ∀ a t, r = .ok a t → Steady s t → (f a t).steady s) : (r.bind f).steady s := by
  cases r with
  | ok a t => exact k a t rfl h
  | unimplemented t => exact h
  | abort x t => exact h
  | refuse q => trivial

section
variable {s t : State} (h : Steady s t)
include h

theorem steady_readWord (a : Word) : (readWord a t).steady s := by
  cases hr : readWord a t with
  | ok v u => exact h.trans (.of_onlyDevices (readWord_onlyDevices hr))
  | unimplemented u => exact absurd hr readWord_stop.2
  | abort x u => rw [readWord_stop.1 x hr]; exact h
  | refuse q => trivial

theorem steady_writeWord (a v : Word) : (writeWord a v t).steady s := by
  cases hr : writeWord a v t with
  | ok c u =>
    obtain ⟨hp, rfl⟩ | ⟨_, rfl⟩ := writeWord_ok hr
    · refine h.trans (.setWord ?_ v)
      unfold State.wordPlace at hp
      by_contra hc
      rw [if_neg hc] at hp
      (repeat' split at hp) <;> cases hp
    · exact h.trans (.of_onlyDevices (onlyDevices_afterDeviceWrite t a v))
  | unimplemented u => exact absurd hr writeWord_stop.2
  | abort x u => rw [writeWord_stop.1 x hr]; exact h
  | refuse q => trivial

theorem steady_readByte (a : Word) : (readByte a t).steady s := by
  unfold readByte
  split <;> first | exact h | trivial

theorem steady_writeByte (a v : Word) : (writeByte a v t).steady s := by
  unfold writeByte
  split
  · rename_i hp
    refine h.trans (.setByte ?_ _)
    unfold State.bytePlace at hp
    by_contra hc
    rw [if_neg hc] at hp
    split at hp <;> cases hp
  · trivial
  · exact h
  · trivial

theorem steady_readOperand (size : Size) (a : Word) : (readOperand size a t).steady s := by
  cases size
  · exact steady_readWord h a
  · exact steady_readByte h a

theorem steady_writeOperand (size : Size) (a v : Word) : (writeOperand size a v t).steady s := by
  cases size
  · exact steady_writeWord h a v
  · exact steady_writeByte h a v

theorem steady_chase (n : Nat) (a : Word) : (chase n a t).steady s := by
  induction n generalizing a t with
  | zero => unfold chase; split <;> exact h
  | succ n ih =>
    unfold chase
    split
    · exact Res.steady_bind (steady_readWord h _) fun w u _ hu => ih hu w
    · exact h

theorem steady_indirectAddress (size : Size) (ind : Bool) (a : Word) : (indirectAddress size ind a t).steady s := by
  unfold indirectAddress
  split
  · refine Res.steady_bind (steady_readWord h _) fun w u _ hu => ?_
    cases size
    · exact steady_chase hu _ _
    · exact hu
  · exact h

theorem steady_effectiveAddress (index : Index) (size : Size) (m : MemOperand) :
    (effectiveAddress index size m t).steady s := by
  unfold effectiveAddress
  split
  · exact h
  · cases index with
    | none => exact steady_indirectAddress h _ _ _
    | decrement =>
      dsimp only
      split
      · exact Res.steady_bind (steady_indirectAddress (h.spend 2) _ _ _) fun a u _ hu => hu.withLp _
      · exact Res.steady_bind (steady_indirectAddress (h.setReg _ _) _ _ _) fun a u _ hu => hu.withLp _
    | increment =>
      dsimp only
      split
      · exact Res.steady_bind (steady_indirectAddress (h.spend 2) _ _ _) fun a u _ hu => hu.withLp _
      · exact Res.steady_bind (steady_indirectAddress h _ _ _) fun a u _ hu => (hu.setReg _ _).withLp _

theorem steady_fetchAndClear (size : Size) (a : Word) : (fetchAndClear size a t).steady s :=
  Res.steady_bind (steady_readOperand h _ _) fun _ _ _ hu =>
    Res.steady_bind (steady_writeOperand hu _ _ _) fun _ _ _ hv => hv

theorem steady_readPair (a : Word) : (readPair a t).steady s :=
  Res.steady_bind (steady_readWord h _) fun _ _ _ hu => Res.steady_bind (steady_readWord hu _) fun _ _ _ hv => hv

theorem steady_storeRegisters (rs : List RegNo) (a : Word) : (storeRegisters rs a t).steady s := by
  induction rs generalizing a t with
  | nil => exact h
  | cons r rest ih => exact Res.steady_bind (steady_writeWord h _ _) fun _ u _ hu => ih hu _

theorem steady_loadRegisters (rs : List RegNo) (a : Word) : (loadRegisters rs a t).steady s := by
  induction rs generalizing a t with
  | nil => exact h
  | cons r rest ih => exact Res.steady_bind (steady_readWord h _) fun _ u _ hu => ih (hu.setReg _ _) _

theorem steady_saveScratch : (saveScratch t).steady s :=
  Res.steady_bind (steady_writeWord h _ _) fun _ _ _ hu =>
    Res.steady_bind (steady_writeWord hu _ _) fun _ _ _ hv => steady_writeWord hv _ _

theorem steady_moveBytes (ps : List (Word × Word)) : (moveBytes ps t).steady s := by
  induction ps generalizing t with
  | nil => exact h
  | cons q rest ih =>
    obtain ⟨a, b⟩ := q
    unfold moveBytes
    split
    · split
      · rename_i hb; exact ih (h.trans (.setByte hb _))
      · exact h
    · exact h

theorem steady_decimalAbort (bad : List Word) (dst : Option Field) : (decimalAbort bad dst t).steady s := by
  unfold decimalAbort
  cases dst with
  | none => exact h.spend 1
  | some f => exact (h.spend 1).scramble f

theorem steady_decimalEnd (c : Bool) : (decimalEnd c t).steady s := (h.freeIndicators c).advance _

/-- A general operation on memory writes no steady indicator and only program memory. -/
theorem steady_operateOnMemory (size : Size) (op : Operation) (a src : Word) :
    (operateOnMemory size op a src t).steady s := by
  have hop : ∀ x y st, ∀ f ∈ steadyFlags, getFlag f (operationStatus op x y st) = getFlag f st := by
    intro x y st f hf
    refine operationStatus_frame ?_ _ _ _
    revert hf; cases f <;> cases op <;> decide
  unfold operateOnMemory
  refine Res.steady_bind ?_ fun v u _ hu => Res.steady_bind ?_ fun _ w _ hw => hw.withStatus fun f hf => hop _ _ _ f hf
  · split
    · exact steady_readOperand h _ _
    · exact h
  · split
    · exact steady_writeOperand hu _ _ _
    · exact hu

end

/-! ## The end of an instruction -/

/-- An instruction whose parts are steady ends in a steady state, or in the entry of a self-interrupt from one. -/
theorem finish_steady {s t : State} {iw : Word} {r : Res Unit} (h : r.steady s) (k : Res.finish iw r = .next t) :
    Steady s t ∨ ∃ u level b w, Steady s u ∧ (level = 5 ∧ b = unimplementedBlock s.par.cpu ∨
      level = 6 ∧ b = abortBlock s.par.cpu) ∧ takeEntry level b w u = .next t := by
  cases r with
  | ok a u => cases k; exact .inl h
  | unimplemented u =>
    exact .inr ⟨u, 5, _, iw, h, .inl ⟨rfl, by rw [← Steady.par h]⟩, k⟩
  | abort x u =>
    exact .inr ⟨u, 6, _, x, h, .inr ⟨rfl, by rw [← Steady.par h]⟩, k⟩
  | refuse q => cases k

end Sys2Proof.Machine
end

