-- ==== Sys2Proof/Tests/Slice0.lean ====
section
/-! SUPPORT. Tests: what the well-formedness checks refuse, a word written out from the spec's encoding for every
constructor that has one, test vectors of the spec, and witnesses for the hypotheses of the statements. -/

namespace Sys2Proof.Machine

set_option Elab.async false

/-! ## Well-formedness: each check refuses an ill-formed term -/

theorem test_refuses_link : (Instr.jsbr 0#3 ⟨false, 2#3, none⟩).wellFormed = false := by decide

theorem test_refuses_waitMask : (Instr.enbw 0#4).wellFormed = false ∧ (Instr.dsbw 0#4).wellFormed = false := by decide

theorem test_refuses_pair : (Instr.dlan 3#3 1#3).wellFormed = false ∧ (Instr.dlaoX 0#3 1#3).wellFormed = false := by
  decide

theorem test_refuses_pairField : (Instr.dlloK 0#2 4#5).wellFormed = false := by decide

theorem test_refuses_fieldRegister :
    (Instr.zadd 0#3 1#3 0#4 0#4 0#3 0#3).wellFormed = false ∧ (Instr.comp 1#3 0#3 0#4 0#4 0#3 0#3).wellFormed = false ∧
      (Instr.sftl 0#3 0#4 0#4 0#3 0#3).wellFormed = false := by decide

/-! ## Decoding: words written out from the rows of the opcode table -/

theorem test_decode_control :
    decode 0x00C5#16 0#16 = some (.halt 0xC5#8) ∧
    decode 0x0993#16 0#16 = some (.stsm true 0x93#8) ∧
    decode 0x0259#16 0#16 = some (.rsts 0x59#7) ∧
    decode 0x02D9#16 0#16 = some (.sets 0x59#7) ∧
    decode 0x0393#16 0#16 = some (.regm false 0x93#8) ∧
    decode 0x0C93#16 0#16 = some (.retn true 0x93#8) ∧
    decode 0x0593#16 0#16 = some (.msts false 0x93#8) ∧
    decode 0x0639#16 0x8125#16 = some (.fclw 3#3 ⟨false, 1#3, some 0x8125#16⟩) ∧
    decode 0x0ED6#16 0#16 = some (.fclb 5#3 ⟨true, 6#3, none⟩) ∧
    decode 0x0F93#16 0#16 = some (.mreg true 0x93#8) ∧
    decode 0x0840#16 0#16 = some (.wait) ∧
    decode 0x08C0#16 0#16 = some (.waitD) ∧
    decode 0x080A#16 0#16 = some (.enbl 10#4) ∧
    decode 0x0849#16 0#16 = some (.enbw 9#4) ∧
    decode 0x088A#16 0#16 = some (.dsbl 10#4) ∧
    decode 0x08C9#16 0#16 = some (.dsbw 9#4) := by
  decide +kernel

theorem test_decode_class1 :
    decode 0x10D6#16 0#16 = some (.movwC1 5#3 ⟨true, 6#3, none⟩) ∧
    decode 0x1139#16 0x8125#16 = some (.subwC1 3#3 ⟨false, 1#3, some 0x8125#16⟩) ∧
    decode 0x12D6#16 0#16 = some (.addwC1 5#3 ⟨true, 6#3, none⟩) ∧
    decode 0x1339#16 0x8125#16 = some (.andwC1 3#3 ⟨false, 1#3, some 0x8125#16⟩) ∧
    decode 0x14D6#16 0#16 = some (.iorwC1 5#3 ⟨true, 6#3, none⟩) ∧
    decode 0x1539#16 0x8125#16 = some (.eorwC1 3#3 ⟨false, 1#3, some 0x8125#16⟩) ∧
    decode 0x16D6#16 0#16 = some (.cmpwC1 5#3 ⟨true, 6#3, none⟩) ∧
    decode 0x1739#16 0x8125#16 = some (.tstwC1 3#3 ⟨false, 1#3, some 0x8125#16⟩) ∧
    decode 0x18D6#16 0#16 = some (.movbC1 5#3 ⟨true, 6#3, none⟩) ∧
    decode 0x1939#16 0x8125#16 = some (.subbC1 3#3 ⟨false, 1#3, some 0x8125#16⟩) ∧
    decode 0x1AD6#16 0#16 = some (.addbC1 5#3 ⟨true, 6#3, none⟩) ∧
    decode 0x1B39#16 0x8125#16 = some (.andbC1 3#3 ⟨false, 1#3, some 0x8125#16⟩) ∧
    decode 0x1CD6#16 0#16 = some (.iorbC1 5#3 ⟨true, 6#3, none⟩) ∧
    decode 0x1D39#16 0x8125#16 = some (.eorbC1 3#3 ⟨false, 1#3, some 0x8125#16⟩) ∧
    decode 0x1ED6#16 0#16 = some (.cmpbC1 5#3 ⟨true, 6#3, none⟩) ∧
    decode 0x1F39#16 0x8125#16 = some (.tstbC1 3#3 ⟨false, 1#3, some 0x8125#16⟩) := by
  decide +kernel

theorem test_decode_class2 :
    decode 0x20D6#16 0#16 = some (.movwC2 5#3 ⟨true, 6#3, none⟩) ∧
    decode 0x2139#16 0x8125#16 = some (.subwC2 3#3 ⟨false, 1#3, some 0x8125#16⟩) ∧
    decode 0x22D6#16 0#16 = some (.addwC2 5#3 ⟨true, 6#3, none⟩) ∧
    decode 0x2339#16 0x8125#16 = some (.andwC2 3#3 ⟨false, 1#3, some 0x8125#16⟩) ∧
    decode 0x24D6#16 0#16 = some (.iorwC2 5#3 ⟨true, 6#3, none⟩) ∧
    decode 0x2539#16 0x8125#16 = some (.eorwC2 3#3 ⟨false, 1#3, some 0x8125#16⟩) ∧
    decode 0x26D6#16 0#16 = some (.cmpwC2 5#3 ⟨true, 6#3, none⟩) ∧
    decode 0x2739#16 0x8125#16 = some (.tstwC2 3#3 ⟨false, 1#3, some 0x8125#16⟩) ∧
    decode 0x28D6#16 0#16 = some (.movbC2 5#3 ⟨true, 6#3, none⟩) ∧
    decode 0x2939#16 0x8125#16 = some (.subbC2 3#3 ⟨false, 1#3, some 0x8125#16⟩) ∧
    decode 0x2AD6#16 0#16 = some (.addbC2 5#3 ⟨true, 6#3, none⟩) ∧
    decode 0x2B39#16 0x8125#16 = some (.andbC2 3#3 ⟨false, 1#3, some 0x8125#16⟩) ∧
    decode 0x2CD6#16 0#16 = some (.iorbC2 5#3 ⟨true, 6#3, none⟩) ∧
    decode 0x2D39#16 0x8125#16 = some (.eorbC2 3#3 ⟨false, 1#3, some 0x8125#16⟩) ∧
    decode 0x2ED6#16 0#16 = some (.cmpbC2 5#3 ⟨true, 6#3, none⟩) ∧
    decode 0x2F39#16 0x8125#16 = some (.tstbC2 3#3 ⟨false, 1#3, some 0x8125#16⟩) := by
  decide +kernel

theorem test_decode_class3 :
    decode 0x30D6#16 0#16 = some (.movwC3 5#3 ⟨true, 6#3, none⟩) ∧
    decode 0x3139#16 0x8125#16 = some (.subwC3 3#3 ⟨false, 1#3, some 0x8125#16⟩) ∧
    decode 0x32D6#16 0#16 = some (.addwC3 5#3 ⟨true, 6#3, none⟩) ∧
    decode 0x3339#16 0x8125#16 = some (.andwC3 3#3 ⟨false, 1#3, some 0x8125#16⟩) ∧
    decode 0x34D6#16 0#16 = some (.iorwC3 5#3 ⟨true, 6#3, none⟩) ∧
    decode 0x3539#16 0x8125#16 = some (.eorwC3 3#3 ⟨false, 1#3, some 0x8125#16⟩) ∧
    decode 0x36D6#16 0#16 = some (.cmpwC3 5#3 ⟨true, 6#3, none⟩) ∧
    decode 0x3739#16 0x8125#16 = some (.tstwC3 3#3 ⟨false, 1#3, some 0x8125#16⟩) ∧
    decode 0x38D6#16 0#16 = some (.movbC3 5#3 ⟨true, 6#3, none⟩) ∧
    decode 0x3939#16 0x8125#16 = some (.subbC3 3#3 ⟨false, 1#3, some 0x8125#16⟩) ∧
    decode 0x3AD6#16 0#16 = some (.addbC3 5#3 ⟨true, 6#3, none⟩) ∧
    decode 0x3B39#16 0x8125#16 = some (.andbC3 3#3 ⟨false, 1#3, some 0x8125#16⟩) ∧
    decode 0x3CD6#16 0#16 = some (.iorbC3 5#3 ⟨true, 6#3, none⟩) ∧
    decode 0x3D39#16 0x8125#16 = some (.eorbC3 3#3 ⟨false, 1#3, some 0x8125#16⟩) ∧
    decode 0x3ED6#16 0#16 = some (.cmpbC3 5#3 ⟨true, 6#3, none⟩) ∧
    decode 0x3F39#16 0x8125#16 = some (.tstbC3 3#3 ⟨false, 1#3, some 0x8125#16⟩) := by
  decide +kernel

theorem test_decode_jump :
    decode 0x4086#16 0#16 = some (.jump ⟨true, 6#3, none⟩) ∧
    decode 0x4039#16 0x8125#16 = some (.jsbr 3#3 ⟨false, 1#3, some 0x8125#16⟩) := by
  decide +kernel

theorem test_decode_bit :
    decode 0x41DA#16 0#16 = some (.rbitK 5#3 10#4) ∧
    decode 0x4131#16 0#16 = some (.rbitX 3#3 1#3) ∧
    decode 0x415E#16 0x8125#16 = some (.rbitM 5#3 6#3 0x8125#16) ∧
    decode 0x42B9#16 0#16 = some (.sbitK 3#3 9#4) ∧
    decode 0x4256#16 0#16 = some (.sbitX 5#3 6#3) ∧
    decode 0x4239#16 0x8125#16 = some (.sbitM 3#3 1#3 0x8125#16) ∧
    decode 0x43DA#16 0#16 = some (.cbitK 5#3 10#4) ∧
    decode 0x4331#16 0#16 = some (.cbitX 3#3 1#3) ∧
    decode 0x435E#16 0x8125#16 = some (.cbitM 5#3 6#3 0x8125#16) ∧
    decode 0x44B9#16 0#16 = some (.ibitK 3#3 9#4) ∧
    decode 0x4456#16 0#16 = some (.ibitX 5#3 6#3) ∧
    decode 0x4439#16 0x8125#16 = some (.ibitM 3#3 1#3 0x8125#16) ∧
    decode 0x45DA#16 0#16 = some (.tsbtK 5#3 10#4) ∧
    decode 0x4531#16 0#16 = some (.tsbtX 3#3 1#3) ∧
    decode 0x455E#16 0x8125#16 = some (.tsbtM 5#3 6#3 0x8125#16) ∧
    decode 0x46B9#16 0#16 = some (.tbitK 3#3 9#4) ∧
    decode 0x4656#16 0#16 = some (.tbitX 5#3 6#3) ∧
    decode 0x4639#16 0x8125#16 = some (.tbitM 3#3 1#3 0x8125#16) := by
  decide +kernel

theorem test_decode_move :
    decode 0x4756#16 0#16 = some (.negt 5#3 6#3) ∧
    decode 0x4739#16 0#16 = some (.cplm 3#3 1#3) ∧
    decode 0x47D6#16 0#16 = some (.movp 5#3 6#3) ∧
    decode 0x47B9#16 0#16 = some (.movn 3#3 1#3) := by
  decide +kernel

theorem test_decode_data :
    decode 0x48DA#16 0#16 = some (.movwI 5#3 10#4) ∧
    decode 0x4831#16 0#16 = some (.movwR 3#3 1#3) ∧
    decode 0x485E#16 0x8125#16 = some (.movwL 5#3 6#3 0x8125#16) ∧
    decode 0x49B9#16 0#16 = some (.subwI 3#3 9#4) ∧
    decode 0x4956#16 0#16 = some (.subwR 5#3 6#3) ∧
    decode 0x4939#16 0x8125#16 = some (.subwL 3#3 1#3 0x8125#16) ∧
    decode 0x4ADA#16 0#16 = some (.addwI 5#3 10#4) ∧
    decode 0x4A31#16 0#16 = some (.addwR 3#3 1#3) ∧
    decode 0x4A5E#16 0x8125#16 = some (.addwL 5#3 6#3 0x8125#16) ∧
    decode 0x4BB9#16 0#16 = some (.andwI 3#3 9#4) ∧
    decode 0x4B56#16 0#16 = some (.andwR 5#3 6#3) ∧
    decode 0x4B39#16 0x8125#16 = some (.andwL 3#3 1#3 0x8125#16) ∧
    decode 0x4CDA#16 0#16 = some (.iorwI 5#3 10#4) ∧
    decode 0x4C31#16 0#16 = some (.iorwR 3#3 1#3) ∧
    decode 0x4C5E#16 0x8125#16 = some (.iorwL 5#3 6#3 0x8125#16) ∧
    decode 0x4DB9#16 0#16 = some (.eorwI 3#3 9#4) ∧
    decode 0x4D56#16 0#16 = some (.eorwR 5#3 6#3) ∧
    decode 0x4D39#16 0x8125#16 = some (.eorwL 3#3 1#3 0x8125#16) ∧
    decode 0x4EDA#16 0#16 = some (.cmpwI 5#3 10#4) ∧
    decode 0x4E31#16 0#16 = some (.cmpwR 3#3 1#3) ∧
    decode 0x4E5E#16 0x8125#16 = some (.cmpwL 5#3 6#3 0x8125#16) ∧
    decode 0x4FB9#16 0#16 = some (.tstwI 3#3 9#4) ∧
    decode 0x4F56#16 0#16 = some (.tstwR 5#3 6#3) ∧
    decode 0x4F39#16 0x8125#16 = some (.tstwL 3#3 1#3 0x8125#16) := by
  decide +kernel

theorem test_decode_class5 :
    decode 0x50D6#16 0#16 = some (.movwC5 5#3 ⟨true, 6#3, none⟩) ∧
    decode 0x5139#16 0x8125#16 = some (.subwC5 3#3 ⟨false, 1#3, some 0x8125#16⟩) ∧
    decode 0x52D6#16 0#16 = some (.addwC5 5#3 ⟨true, 6#3, none⟩) ∧
    decode 0x5339#16 0x8125#16 = some (.andwC5 3#3 ⟨false, 1#3, some 0x8125#16⟩) ∧
    decode 0x54D6#16 0#16 = some (.iorwC5 5#3 ⟨true, 6#3, none⟩) ∧
    decode 0x5539#16 0x8125#16 = some (.eorwC5 3#3 ⟨false, 1#3, some 0x8125#16⟩) ∧
    decode 0x56D6#16 0#16 = some (.cmpwC5 5#3 ⟨true, 6#3, none⟩) ∧
    decode 0x5739#16 0x8125#16 = some (.tstwC5 3#3 ⟨false, 1#3, some 0x8125#16⟩) ∧
    decode 0x58D6#16 0#16 = some (.movbC5 5#3 ⟨true, 6#3, none⟩) ∧
    decode 0x5939#16 0x8125#16 = some (.subbC5 3#3 ⟨false, 1#3, some 0x8125#16⟩) ∧
    decode 0x5AD6#16 0#16 = some (.addbC5 5#3 ⟨true, 6#3, none⟩) ∧
    decode 0x5B39#16 0x8125#16 = some (.andbC5 3#3 ⟨false, 1#3, some 0x8125#16⟩) ∧
    decode 0x5CD6#16 0#16 = some (.iorbC5 5#3 ⟨true, 6#3, none⟩) ∧
    decode 0x5D39#16 0x8125#16 = some (.eorbC5 3#3 ⟨false, 1#3, some 0x8125#16⟩) ∧
    decode 0x5ED6#16 0#16 = some (.cmpbC5 5#3 ⟨true, 6#3, none⟩) ∧
    decode 0x5F39#16 0x8125#16 = some (.tstbC5 3#3 ⟨false, 1#3, some 0x8125#16⟩) := by
  decide +kernel

theorem test_decode_class6 :
    decode 0x60D6#16 0#16 = some (.movwC6 5#3 ⟨true, 6#3, none⟩) ∧
    decode 0x6139#16 0x8125#16 = some (.subwC6 3#3 ⟨false, 1#3, some 0x8125#16⟩) ∧
    decode 0x62D6#16 0#16 = some (.addwC6 5#3 ⟨true, 6#3, none⟩) ∧
    decode 0x6339#16 0x8125#16 = some (.andwC6 3#3 ⟨false, 1#3, some 0x8125#16⟩) ∧
    decode 0x64D6#16 0#16 = some (.iorwC6 5#3 ⟨true, 6#3, none⟩) ∧
    decode 0x6539#16 0x8125#16 = some (.eorwC6 3#3 ⟨false, 1#3, some 0x8125#16⟩) ∧
    decode 0x66D6#16 0#16 = some (.cmpwC6 5#3 ⟨true, 6#3, none⟩) ∧
    decode 0x6739#16 0x8125#16 = some (.tstwC6 3#3 ⟨false, 1#3, some 0x8125#16⟩) ∧
    decode 0x68D6#16 0#16 = some (.movbC6 5#3 ⟨true, 6#3, none⟩) ∧
    decode 0x6939#16 0x8125#16 = some (.subbC6 3#3 ⟨false, 1#3, some 0x8125#16⟩) ∧
    decode 0x6AD6#16 0#16 = some (.addbC6 5#3 ⟨true, 6#3, none⟩) ∧
    decode 0x6B39#16 0x8125#16 = some (.andbC6 3#3 ⟨false, 1#3, some 0x8125#16⟩) ∧
    decode 0x6CD6#16 0#16 = some (.iorbC6 5#3 ⟨true, 6#3, none⟩) ∧
    decode 0x6D39#16 0x8125#16 = some (.eorbC6 3#3 ⟨false, 1#3, some 0x8125#16⟩) ∧
    decode 0x6ED6#16 0#16 = some (.cmpbC6 5#3 ⟨true, 6#3, none⟩) ∧
    decode 0x6F39#16 0x8125#16 = some (.tstbC6 3#3 ⟨false, 1#3, some 0x8125#16⟩) := by
  decide +kernel

theorem test_decode_class7 :
    decode 0x70D6#16 0#16 = some (.movwC7 5#3 ⟨true, 6#3, none⟩) ∧
    decode 0x7139#16 0x8125#16 = some (.subwC7 3#3 ⟨false, 1#3, some 0x8125#16⟩) ∧
    decode 0x72D6#16 0#16 = some (.addwC7 5#3 ⟨true, 6#3, none⟩) ∧
    decode 0x7339#16 0x8125#16 = some (.andwC7 3#3 ⟨false, 1#3, some 0x8125#16⟩) ∧
    decode 0x74D6#16 0#16 = some (.iorwC7 5#3 ⟨true, 6#3, none⟩) ∧
    decode 0x7539#16 0x8125#16 = some (.eorwC7 3#3 ⟨false, 1#3, some 0x8125#16⟩) ∧
    decode 0x76D6#16 0#16 = some (.cmpwC7 5#3 ⟨true, 6#3, none⟩) ∧
    decode 0x7739#16 0x8125#16 = some (.tstwC7 3#3 ⟨false, 1#3, some 0x8125#16⟩) ∧
    decode 0x78D6#16 0#16 = some (.movbC7 5#3 ⟨true, 6#3, none⟩) ∧
    decode 0x7939#16 0x8125#16 = some (.subbC7 3#3 ⟨false, 1#3, some 0x8125#16⟩) ∧
    decode 0x7AD6#16 0#16 = some (.addbC7 5#3 ⟨true, 6#3, none⟩) ∧
    decode 0x7B39#16 0x8125#16 = some (.andbC7 3#3 ⟨false, 1#3, some 0x8125#16⟩) ∧
    decode 0x7CD6#16 0#16 = some (.iorbC7 5#3 ⟨true, 6#3, none⟩) ∧
    decode 0x7D39#16 0x8125#16 = some (.eorbC7 3#3 ⟨false, 1#3, some 0x8125#16⟩) ∧
    decode 0x7ED6#16 0#16 = some (.cmpbC7 5#3 ⟨true, 6#3, none⟩) ∧
    decode 0x7F39#16 0x8125#16 = some (.tstbC7 3#3 ⟨false, 1#3, some 0x8125#16⟩) := by
  decide +kernel

theorem test_decode_class8 :
    decode 0x80B6#16 0#16 = some (.nopr 0xB6#8) ∧
    decode 0x81B6#16 0#16 = some (.beqf 0xB6#8) ∧
    decode 0x82B6#16 0#16 = some (.bgtf 0xB6#8) ∧
    decode 0x83B6#16 0#16 = some (.bovf 0xB6#8) ∧
    decode 0x84B6#16 0#16 = some (.bcyf 0xB6#8) ∧
    decode 0x85B6#16 0#16 = some (.bf1f 0xB6#8) ∧
    decode 0x86B6#16 0#16 = some (.bf2f 0xB6#8) ∧
    decode 0x87B6#16 0#16 = some (.bf3f 0xB6#8) ∧
    decode 0x88B6#16 0#16 = some (.blpf 0xB6#8) ∧
    decode 0x89B6#16 0#16 = some (.bodf 0xB6#8) ∧
    decode 0x8AB6#16 0#16 = some (.bzef 0xB6#8) ∧
    decode 0x8BB6#16 0#16 = some (.bngf 0xB6#8) ∧
    decode 0x8CB6#16 0#16 = some (.bltf 0xB6#8) := by
  decide +kernel

theorem test_decode_class9 :
    decode 0x90B6#16 0#16 = some (.brun 0xB6#8) ∧
    decode 0x91B6#16 0#16 = some (.beqt 0xB6#8) ∧
    decode 0x92B6#16 0#16 = some (.bgtt 0xB6#8) ∧
    decode 0x93B6#16 0#16 = some (.bovt 0xB6#8) ∧
    decode 0x94B6#16 0#16 = some (.bcyt 0xB6#8) ∧
    decode 0x95B6#16 0#16 = some (.bf1t 0xB6#8) ∧
    decode 0x96B6#16 0#16 = some (.bf2t 0xB6#8) ∧
    decode 0x97B6#16 0#16 = some (.bf3t 0xB6#8) ∧
    decode 0x98B6#16 0#16 = some (.blpt 0xB6#8) ∧
    decode 0x99B6#16 0#16 = some (.bodt 0xB6#8) ∧
    decode 0x9AB6#16 0#16 = some (.bzet 0xB6#8) ∧
    decode 0x9BB6#16 0#16 = some (.bngt 0xB6#8) ∧
    decode 0x9CB6#16 0#16 = some (.bltt 0xB6#8) := by
  decide +kernel

theorem test_decode_shift :
    decode 0xA0DA#16 0#16 = some (.slaoK 5#3 10#4) ∧
    decode 0xA031#16 0#16 = some (.slaoX 3#3 1#3) ∧
    decode 0xA1DA#16 0#16 = some (.slllK 5#3 10#4) ∧
    decode 0xA131#16 0#16 = some (.slllX 3#3 1#3) ∧
    decode 0xA2DA#16 0#16 = some (.slloK 5#3 10#4) ∧
    decode 0xA231#16 0#16 = some (.slloX 3#3 1#3) ∧
    decode 0xA3DA#16 0#16 = some (.sllcK 5#3 10#4) ∧
    decode 0xA331#16 0#16 = some (.sllcX 3#3 1#3) ∧
    decode 0xA4DA#16 0#16 = some (.sraoK 5#3 10#4) ∧
    decode 0xA431#16 0#16 = some (.sraoX 3#3 1#3) ∧
    decode 0xA5DA#16 0#16 = some (.srllK 5#3 10#4) ∧
    decode 0xA531#16 0#16 = some (.srllX 3#3 1#3) ∧
    decode 0xA6DA#16 0#16 = some (.srloK 5#3 10#4) ∧
    decode 0xA631#16 0#16 = some (.srloX 3#3 1#3) ∧
    decode 0xA7DA#16 0#16 = some (.srlcK 5#3 10#4) ∧
    decode 0xA731#16 0#16 = some (.srlcX 3#3 1#3) := by
  decide +kernel

theorem test_decode_normalize :
    decode 0xA05E#16 0#16 = some (.slan 5#3 6#3) ∧
    decode 0xA239#16 0#16 = some (.slln 3#3 1#3) ∧
    decode 0xA45E#16 0#16 = some (.sran 5#3 6#3) ∧
    decode 0xA639#16 0#16 = some (.srln 3#3 1#3) ∧
    decode 0xA86E#16 0#16 = some (.dlan 6#3 6#3) ∧
    decode 0xAA69#16 0#16 = some (.dlln 6#3 1#3) ∧
    decode 0xAC6E#16 0#16 = some (.dran 6#3 6#3) ∧
    decode 0xAE69#16 0#16 = some (.drln 6#3 1#3) := by
  decide +kernel

theorem test_decode_double_shift :
    decode 0xA8D5#16 0#16 = some (.dlaoK 2#2 21#5) ∧
    decode 0xA841#16 0#16 = some (.dlaoX 4#3 1#3) ∧
    decode 0xA9D5#16 0#16 = some (.dlllK 2#2 21#5) ∧
    decode 0xA941#16 0#16 = some (.dlllX 4#3 1#3) ∧
    decode 0xAAD5#16 0#16 = some (.dlloK 2#2 21#5) ∧
    decode 0xAA41#16 0#16 = some (.dlloX 4#3 1#3) ∧
    decode 0xABD5#16 0#16 = some (.dllcK 2#2 21#5) ∧
    decode 0xAB41#16 0#16 = some (.dllcX 4#3 1#3) ∧
    decode 0xACD5#16 0#16 = some (.draoK 2#2 21#5) ∧
    decode 0xAC41#16 0#16 = some (.draoX 4#3 1#3) ∧
    decode 0xADD5#16 0#16 = some (.drllK 2#2 21#5) ∧
    decode 0xAD41#16 0#16 = some (.drllX 4#3 1#3) ∧
    decode 0xAED5#16 0#16 = some (.drloK 2#2 21#5) ∧
    decode 0xAE41#16 0#16 = some (.drloX 4#3 1#3) ∧
    decode 0xAFD5#16 0#16 = some (.drlcK 2#2 21#5) ∧
    decode 0xAF41#16 0#16 = some (.drlcX 4#3 1#3) := by
  decide +kernel

theorem test_decode_classB :
    decode 0xB0D6#16 0#16 = some (.dsta 5#3 ⟨true, 6#3, none⟩) ∧
    decode 0xB139#16 0x8125#16 = some (.dsub 3#3 ⟨false, 1#3, some 0x8125#16⟩) ∧
    decode 0xB2D6#16 0#16 = some (.dadd 5#3 ⟨true, 6#3, none⟩) ∧
    decode 0xB369#16 0x8125#16 = some (.mlta 3#2 ⟨false, 1#3, some 0x8125#16⟩) ∧
    decode 0xB3D6#16 0#16 = some (.mult 2#2 ⟨true, 6#3, none⟩) ∧
    decode 0xB439#16 0x8125#16 = some (.divd 3#3 ⟨false, 1#3, some 0x8125#16⟩) ∧
    decode 0xB5D6#16 0#16 = some (.dlod 5#3 ⟨true, 6#3, none⟩) := by
  decide +kernel

theorem test_decode_classC :
    decode 0xC231#16 0x9A43#16 = some (.zadd 3#3 1#3 9#4 10#4 4#3 3#3) ∧
    decode 0xC356#16 0x9A43#16 = some (.addd 5#3 6#3 9#4 10#4 4#3 3#3) ∧
    decode 0xC431#16 0x9A43#16 = some (.subd 3#3 1#3 9#4 10#4 4#3 3#3) ∧
    decode 0xC556#16 0x9A43#16 = some (.cmpd 5#3 6#3 9#4 10#4 4#3 3#3) ∧
    decode 0xC931#16 0x9A43#16 = some (.movr 3#3 1#3 9#4 10#4 4#3 3#3) ∧
    decode 0xCB56#16 0x9A43#16 = some (.movl 5#3 6#3 9#4 10#4 4#3 3#3) ∧
    decode 0xCC31#16 0x9A43#16 = some (.comp 3#3 1#3 9#4 10#4 4#3 3#3) ∧
    decode 0xC850#16 0x9A43#16 = some (.sftr 5#3 9#4 10#4 4#3 3#3) ∧
    decode 0xCA30#16 0x9A43#16 = some (.sftl 3#3 9#4 10#4 4#3 3#3) := by
  decide +kernel

/-- The four instructions without an encoding of their own, under a pattern for each, are found where no other instruction
has the word (R120, log 30). -/
theorem test_decode_key :
    let enc : KeyEncodings := ⟨some ⟨0x0A00#16, 0⟩, some ⟨0x0A40#16, 4⟩, some ⟨0x0A80#16, 0⟩, some ⟨0x0AC0#16, 0⟩⟩
    decodeWith enc 0x0A03#16 0#16 = some (.skey 3#2) ∧
    decodeWith enc 0x0A60#16 0x8125#16 = some (.jkey 2#2 0x8125#16) ∧
    decodeWith enc 0x0A85#16 0#16 = some (.lcpu 5#3) ∧
    decodeWith enc 0x0AC6#16 0#16 = some (.lkey 6#3) ∧
    decodeWith ⟨some ⟨0xD000#16, 0⟩, none, none, none⟩ 0xD001#16 0#16 = none := by decide +kernel

/-- Words of R112 to R116 that are no instruction. -/
theorem test_decode_none :
    decode 0x0A00#16 0#16 = none ∧ decode 0x8D00#16 0#16 = none ∧
    decode 0xC012#16 0#16 = none ∧ decode 0xD000#16 0#16 = none ∧ decode 0xFFFF#16 0#16 = none := by decide +kernel

/-- The host's numbering: the first word in the low bits. -/
theorem test_decodeTableWord :
    decodeTableWord 16 0x4A91 = some (.addwI 1#3 1#4) ∧ decodeTableWord 16 0x4008 = some (.jump ⟨false, 0#3, some 0#16⟩) ∧
    decodeTableWord 32 0x03004008 = some (.jump ⟨false, 0#3, some 0x0300#16⟩) := by decide +kernel

/-- What is placed is what the next step runs. -/
theorem test_withFetchWord : step (State.reset.withFetchWord 16 0x4A91) =
    exec (.addwI 1#3 1#4) (State.reset.withFetchWord 16 0x4A91) := by rfl

/-! ## Vectors of the spec -/

/-- A machine: model, processor number, MEMTOP, registers, status word, words of memory. -/
def machine (model : Model) (cpu : BitVec 2) (memTop : Word) (regs : List (RegNo × Word)) (status : Word)
    (mem : List (Word × Word)) : State :=
  let s := { State.reset with
    status := status
    mem := mem.foldl (fun m w => m.setWord w.1 w.2) []
    par := { resetParams with model := model, cpu := cpu, memTop := memTop } }
  regs.foldl (fun s r => s.setReg r.1 r.2) s

/-- The check holds of the state after one step. -/
def after (s : State) (check : State → Bool) : Bool :=
  match step s with
  | .next t => check t
  | _ => false

/-- V4 (95_test_vectors.md): MOVB R1,(R2) (byte store, flags from 16 bits). -/
theorem test_v4 : after
    (machine .m1110 0#2 0xF000#16 [(0#3, 0x0200#16), (1#3, 0xABCD#16), (2#3, 0x0301#16)] 0x0800#16
      [(0x0200#16, 0x3812#16), (0x0300#16, 0x1122#16)])
    (fun t => t.pc == 0x0202#16 && t.reg 1#3 == 0xABCD#16 && t.reg 2#3 == 0x0301#16 &&
        t.mem.word 0x0300#16 == 0x11CD#16 && t.status == 0x0D00#16) = true := by decide +kernel

/-- V8 (95_test_vectors.md): SUBW =1,R1 (8000h - 1, overflow). -/
theorem test_v8 : after
    (machine .m1110 0#2 0xF000#16 [(0#3, 0x0200#16), (1#3, 0x8000#16)] 0x0800#16
      [(0x0200#16, 0x4991#16)])
    (fun t => t.pc == 0x0202#16 && t.reg 1#3 == 0x7FFF#16 && t.status == 0x090C#16) = true := by decide +kernel

/-- V10 (95_test_vectors.md): SUBB (R2),R1 (byte 01h from 0100h). -/
theorem test_v10 : after
    (machine .m1110 0#2 0xF000#16 [(0#3, 0x0200#16), (1#3, 0x0100#16), (2#3, 0x0301#16)] 0x0800#16
      [(0x0200#16, 0x7912#16), (0x0300#16, 0x0001#16)])
    (fun t => t.pc == 0x0202#16 && t.reg 1#3 == 0x00FF#16 && t.reg 2#3 == 0x0301#16 && t.status == 0x0908#16) = true := by
  decide +kernel

/-- V13 (95_test_vectors.md): ADDW =1,R1 (OV stays set, CY rewritten). -/
theorem test_v13 : after
    (machine .m1110 0#2 0xF000#16 [(0#3, 0x0200#16), (1#3, 0x0001#16)] 0x080C#16
      [(0x0200#16, 0x4A91#16)])
    (fun t => t.pc == 0x0202#16 && t.reg 1#3 == 0x0002#16 && t.status == 0x0804#16) = true := by decide +kernel

/-- V16 (95_test_vectors.md): ADDB R1,(R2) (register to memory byte). -/
theorem test_v16 : after
    (machine .m1110 0#2 0xF000#16 [(0#3, 0x0200#16), (1#3, 0x01FF#16), (2#3, 0x0301#16)] 0x0800#16
      [(0x0200#16, 0x3A12#16), (0x0300#16, 0x7701#16)])
    (fun t => t.pc == 0x0202#16 && t.reg 1#3 == 0x01FF#16 && t.reg 2#3 == 0x0301#16 &&
        t.mem.word 0x0300#16 == 0x7700#16 && t.status == 0x0800#16) = true := by decide +kernel

/-- V19 (95_test_vectors.md): ANDW =15,R1 (class 4 is always 16-bit). -/
theorem test_v19 : after
    (machine .m1110 0#2 0xF000#16 [(0#3, 0x0200#16), (1#3, 0x12FF#16)] 0x0800#16
      [(0x0200#16, 0x4B9F#16)])
    (fun t => t.pc == 0x0202#16 && t.reg 1#3 == 0x000F#16 && t.status == 0x0900#16) = true := by decide +kernel

/-- V21 (95_test_vectors.md): IORB (R2),R1. -/
theorem test_v21 : after
    (machine .m1110 0#2 0xF000#16 [(0#3, 0x0200#16), (1#3, 0x1200#16), (2#3, 0x0301#16)] 0x0800#16
      [(0x0200#16, 0x7C12#16), (0x0300#16, 0x0081#16)])
    (fun t => t.pc == 0x0202#16 && t.reg 1#3 == 0x1281#16 && t.reg 2#3 == 0x0301#16 && t.status == 0x0900#16) = true := by
  decide +kernel

/-- V23 (95_test_vectors.md): EORB R1,(R2). -/
theorem test_v23 : after
    (machine .m1110 0#2 0xF000#16 [(0#3, 0x0200#16), (1#3, 0x00FF#16), (2#3, 0x0300#16)] 0x0800#16
      [(0x0200#16, 0x3D12#16), (0x0300#16, 0x0FAA#16)])
    (fun t => t.pc == 0x0202#16 && t.reg 1#3 == 0x00FF#16 && t.reg 2#3 == 0x0300#16 &&
        t.mem.word 0x0300#16 == 0xF0AA#16 && t.status == 0x0800#16) = true := by decide +kernel

/-- V24 (95_test_vectors.md): CMPW R2,R1 (unsigned: 8000h > 7FFFh). -/
theorem test_v24 : after
    (machine .m1110 0#2 0xF000#16 [(0#3, 0x0200#16), (1#3, 0x7FFF#16), (2#3, 0x8000#16)] 0x0800#16
      [(0x0200#16, 0x4E12#16)])
    (fun t => t.pc == 0x0202#16 && t.reg 1#3 == 0x7FFF#16 && t.reg 2#3 == 0x8000#16 && t.status == 0x0802#16) = true := by
  decide +kernel

/-- V31 (95_test_vectors.md): TSTB (R2),R1. -/
theorem test_v31 : after
    (machine .m1110 0#2 0xF000#16 [(0#3, 0x0200#16), (1#3, 0xFF81#16), (2#3, 0x0300#16)] 0x0800#16
      [(0x0200#16, 0x7F12#16), (0x0300#16, 0x8100#16)])
    (fun t => t.pc == 0x0202#16 && t.reg 1#3 == 0xFF81#16 && t.reg 2#3 == 0x0300#16 && t.status == 0x0900#16) = true := by
  decide +kernel

/-- V33 (95_test_vectors.md): MOVW R1,-(R6) (push). -/
theorem test_v33 : after
    (machine .m1110 0#2 0xF000#16 [(0#3, 0x0200#16), (1#3, 0x0042#16), (6#3, 0x0302#16)] 0x0800#16
      [(0x0200#16, 0x1016#16)])
    (fun t => t.pc == 0x0202#16 && t.reg 1#3 == 0x0042#16 && t.reg 6#3 == 0x0300#16 &&
        t.mem.word 0x0300#16 == 0x0042#16 && t.status == 0x0800#16) = true := by decide +kernel

/-- V34 (95_test_vectors.md): MOVW -(R2),R1 (XR reaches 0: LP). -/
theorem test_v34 : after
    (machine .m1110 0#2 0xF000#16 [(0#3, 0x0200#16), (2#3, 0x0002#16)] 0x0800#16
      [(0x0000#16, 0x1234#16), (0x0200#16, 0x5012#16)])
    (fun t => t.pc == 0x0202#16 && t.reg 1#3 == 0x1234#16 && t.reg 2#3 == 0x0000#16 && t.status == 0x0880#16) = true := by
  decide +kernel

/-- V36 (95_test_vectors.md): MOVB R1,-(R2) (byte step 1 to 0: LP). -/
theorem test_v36 : after
    (machine .m1110 0#2 0xF000#16 [(0#3, 0x0200#16), (1#3, 0x0041#16), (2#3, 0x0001#16)] 0x0800#16
      [(0x0200#16, 0x1812#16)])
    (fun t => t.pc == 0x0202#16 && t.reg 1#3 == 0x0041#16 && t.reg 2#3 == 0x0000#16 &&
        t.mem.word 0x0000#16 == 0x4100#16 && t.status == 0x0980#16) = true := by decide +kernel

/-- V37 (95_test_vectors.md): ADDW 0010h(R2)+,R1 (extended autoincrement). -/
theorem test_v37 : after
    (machine .m1110 0#2 0xF000#16 [(0#3, 0x0200#16), (1#3, 0x0001#16), (2#3, 0x02F0#16)] 0x0800#16
      [(0x0200#16, 0x621A#16), (0x0202#16, 0x0010#16), (0x0300#16, 0x0002#16)])
    (fun t => t.pc == 0x0204#16 && t.reg 1#3 == 0x0003#16 && t.reg 2#3 == 0x02F2#16 && t.status == 0x0900#16) = true := by
  decide +kernel

/-- V40 (95_test_vectors.md): MOVW FFFEh(R4),R1 (wraparound index). -/
theorem test_v40 : after
    (machine .m1110 0#2 0xF000#16 [(0#3, 0x0200#16), (4#3, 0x0302#16)] 0x0800#16
      [(0x0200#16, 0x701C#16), (0x0202#16, 0xFFFE#16), (0x0300#16, 0x2468#16)])
    (fun t => t.pc == 0x0204#16 && t.reg 1#3 == 0x2468#16 && t.reg 4#3 == 0x0302#16 && t.status == 0x0800#16) = true := by
  decide +kernel

/-- V42 (95_test_vectors.md): MOVW *(R2),R1 (three levels: odd words continue). -/
theorem test_v42 : after
    (machine .m1110 0#2 0xF000#16 [(0#3, 0x0200#16), (2#3, 0x0300#16)] 0x0800#16
      [(0x0200#16, 0x7092#16), (0x0300#16, 0x0401#16), (0x0400#16, 0x0501#16), (0x0500#16, 0x0600#16),
        (0x0600#16, 0xCAFE#16)])
    (fun t => t.pc == 0x0202#16 && t.reg 1#3 == 0xCAFE#16 && t.reg 2#3 == 0x0300#16 && t.status == 0x0C00#16) = true := by
  decide +kernel

/-- V43 (95_test_vectors.md): MOVB *(R2),R1 (byte mode: one level, odd allowed). -/
theorem test_v43 : after
    (machine .m1110 0#2 0xF000#16 [(0#3, 0x0200#16), (2#3, 0x0300#16)] 0x0800#16
      [(0x0200#16, 0x7892#16), (0x0300#16, 0x0401#16), (0x0400#16, 0x0099#16)])
    (fun t => t.pc == 0x0202#16 && t.reg 1#3 == 0x0099#16 && t.reg 2#3 == 0x0300#16 && t.status == 0x0900#16) = true := by
  decide +kernel

/-- V44 (95_test_vectors.md): MOVW *(R2),R1 (word at 0300h = 0301h: endless chain). -/
theorem test_v44 : after
    (machine .m1110 0#2 0xF000#16 [(0#3, 0x0200#16), (2#3, 0x0300#16)] 0x0800#16
      [(0x0026#16, 0x0700#16), (0x0200#16, 0x7092#16), (0x0300#16, 0x0301#16)])
    (fun t => t.pc == 0x0700#16 && t.reg 2#3 == 0x0300#16 && t.mem.word 0x0020#16 == 0x7092#16 &&
        t.mem.word 0x0022#16 == 0x0800#16 && t.mem.word 0x0024#16 == 0x0200#16 && t.status == 0x0800#16) = true := by
  decide +kernel

/-- V46 (95_test_vectors.md): MOVW (none),R1 (E = 0, XR = 0). -/
theorem test_v46 : after
    (machine .m1110 0#2 0xF000#16 [(0#3, 0x0200#16), (1#3, 0x1111#16)] 0x0800#16
      [(0x0026#16, 0x0700#16), (0x0200#16, 0x7010#16)])
    (fun t => t.pc == 0x0700#16 && t.reg 1#3 == 0x1111#16 && t.mem.word 0x0020#16 == 0x7010#16 &&
        t.mem.word 0x0022#16 == 0x0800#16 && t.mem.word 0x0024#16 == 0x0200#16 && t.status == 0x0800#16) = true := by
  decide +kernel

/-- V49 (95_test_vectors.md): MOVW =0010h(R2),R3 (literal plus index). -/
theorem test_v49 : after
    (machine .m1110 0#2 0xF000#16 [(0#3, 0x0200#16), (2#3, 0x0100#16)] 0x0800#16
      [(0x0200#16, 0x483A#16), (0x0202#16, 0x0010#16)])
    (fun t => t.pc == 0x0204#16 && t.reg 2#3 == 0x0100#16 && t.reg 3#3 == 0x0110#16 && t.status == 0x0800#16) = true := by
  decide +kernel

/-- V51 (95_test_vectors.md): MOVW =0400h,R0 (load of the program counter). -/
theorem test_v51 : after
    (machine .m1110 0#2 0xF000#16 [(0#3, 0x0200#16)] 0x0800#16
      [(0x0200#16, 0x4808#16), (0x0202#16, 0x0400#16)])
    (fun t => t.pc == 0x0400#16 && t.status == 0x0800#16) = true := by decide +kernel

/-- V55 (95_test_vectors.md): JUMP *0300h. -/
theorem test_v55 : after
    (machine .m1110 0#2 0xF000#16 [(0#3, 0x0200#16)] 0x0800#16
      [(0x0200#16, 0x4088#16), (0x0202#16, 0x0300#16), (0x0300#16, 0x0500#16)])
    (fun t => t.pc == 0x0500#16 && t.status == 0x0800#16) = true := by decide +kernel

/-- V58 (95_test_vectors.md): JSBR (R5),R5 (address formed before the link is stored). -/
theorem test_v58 : after
    (machine .m1110 0#2 0xF000#16 [(0#3, 0x0200#16), (5#3, 0x0600#16)] 0x0800#16
      [(0x0200#16, 0x4055#16)])
    (fun t => t.pc == 0x0600#16 && t.reg 5#3 == 0x0202#16 && t.status == 0x0800#16) = true := by decide +kernel

/-- V62 (95_test_vectors.md): MOVW R1,(R2) store outside memory. -/
theorem test_v62 : after
    (machine .m1110 0#2 0x4000#16 [(0#3, 0x0200#16), (1#3, 0x1234#16), (2#3, 0x4000#16)] 0x0800#16
      [(0x002E#16, 0x0500#16), (0x0200#16, 0x3012#16)])
    (fun t => t.pc == 0x0500#16 && t.reg 1#3 == 0x1234#16 && t.reg 2#3 == 0x4000#16 &&
        t.mem.word 0x0028#16 == 0x4000#16 && t.mem.word 0x002A#16 == 0x0800#16 &&
        t.mem.word 0x002C#16 == 0x0200#16 && t.status == 0x0800#16) = true := by decide +kernel

/-- V68 (95_test_vectors.md): BRUN -128. -/
theorem test_v68 : after
    (machine .m1110 0#2 0xF000#16 [(0#3, 0x0200#16)] 0x0800#16
      [(0x0200#16, 0x9080#16)])
    (fun t => t.pc == 0x0100#16 && t.status == 0x0800#16) = true := by decide +kernel

/-- V69 (95_test_vectors.md): NOPR (displacement ignored). -/
theorem test_v69 : after
    (machine .m1110 0#2 0xF000#16 [(0#3, 0x0200#16)] 0x0800#16
      [(0x0200#16, 0x8055#16)])
    (fun t => t.pc == 0x0202#16 && t.status == 0x0800#16) = true := by decide +kernel

/-- V70 (95_test_vectors.md): BEQT +5, EQ = 1. -/
theorem test_v70 : after
    (machine .m1110 0#2 0xF000#16 [(0#3, 0x0200#16)] 0x0801#16
      [(0x0200#16, 0x9105#16)])
    (fun t => t.pc == 0x020A#16 && t.status == 0x0801#16) = true := by decide +kernel

/-- V80 (95_test_vectors.md): BLPF -2, LP = 0. -/
theorem test_v80 : after
    (machine .m1110 0#2 0xF000#16 [(0#3, 0x0200#16)] 0x0800#16
      [(0x0200#16, 0x88FE#16)])
    (fun t => t.pc == 0x01FC#16 && t.status == 0x0800#16) = true := by decide +kernel

/-- V86 (95_test_vectors.md): BLTT +5, EQ = 1. -/
theorem test_v86 : after
    (machine .m1110 0#2 0xF000#16 [(0#3, 0x0200#16)] 0x0801#16
      [(0x0200#16, 0x9C05#16)])
    (fun t => t.pc == 0x0202#16 && t.status == 0x0801#16) = true := by decide +kernel

/-- V90 (95_test_vectors.md): T = F, false form, CPU 2. -/
theorem test_v90 : after
    (machine .m1110 2#2 0xF000#16 [(0#3, 0x0200#16)] 0x0C00#16
      [(0x0046#16, 0x0700#16), (0x0200#16, 0x8F05#16)])
    (fun t => t.pc == 0x0700#16 && t.mem.word 0x0040#16 == 0x8F05#16 && t.mem.word 0x0042#16 == 0x0C00#16 &&
        t.mem.word 0x0044#16 == 0x0200#16 && t.status == 0x0C00#16) = true := by decide +kernel

/-- V93 (95_test_vectors.md): SLAO R1,1 (sign shifted out). -/
theorem test_v93 : after
    (machine .m1110 0#2 0xF000#16 [(0#3, 0x0200#16), (1#3, 0xC000#16)] 0x0800#16
      [(0x0200#16, 0xA091#16)])
    (fun t => t.pc == 0x0202#16 && t.reg 1#3 == 0x8000#16 && t.status == 0x0C08#16) = true := by decide +kernel

/-- V96 (95_test_vectors.md): SLLL R1,2 with CY = 1 (17-bit rotate). -/
theorem test_v96 : after
    (machine .m1110 0#2 0xF000#16 [(0#3, 0x0200#16), (1#3, 0x4000#16)] 0x0808#16
      [(0x0200#16, 0xA192#16)])
    (fun t => t.pc == 0x0202#16 && t.reg 1#3 == 0x0002#16 && t.status == 0x080C#16) = true := by decide +kernel

/-- V99 (95_test_vectors.md): SLLC R1,(R2) (count = low 4 bits of R2). -/
theorem test_v99 : after
    (machine .m1110 0#2 0xF000#16 [(0#3, 0x0200#16), (1#3, 0x1234#16), (2#3, 0xFFF3#16)] 0x0800#16
      [(0x0200#16, 0xA312#16)])
    (fun t => t.pc == 0x0202#16 && t.reg 1#3 == 0x91A0#16 && t.reg 2#3 == 0xFFF3#16 && t.status == 0x0C00#16) = true := by
  decide +kernel

/-- V100 (95_test_vectors.md): SRAO R1,1 (CY reset). -/
theorem test_v100 : after
    (machine .m1110 0#2 0xF000#16 [(0#3, 0x0200#16), (1#3, 0x8003#16)] 0x0808#16
      [(0x0200#16, 0xA491#16)])
    (fun t => t.pc == 0x0202#16 && t.reg 1#3 == 0xC001#16 && t.status == 0x0D00#16) = true := by decide +kernel

/-- V103 (95_test_vectors.md): SRLL R1,1 with CY = 1. -/
theorem test_v103 : after
    (machine .m1110 0#2 0xF000#16 [(0#3, 0x0200#16), (1#3, 0x0002#16)] 0x0808#16
      [(0x0200#16, 0xA591#16)])
    (fun t => t.pc == 0x0202#16 && t.reg 1#3 == 0x8001#16 && t.status == 0x0D00#16) = true := by decide +kernel

/-- V105 (95_test_vectors.md): SRLC R1,4. -/
theorem test_v105 : after
    (machine .m1110 0#2 0xF000#16 [(0#3, 0x0200#16), (1#3, 0x1234#16)] 0x0800#16
      [(0x0200#16, 0xA794#16)])
    (fun t => t.pc == 0x0202#16 && t.reg 1#3 == 0x4123#16 && t.status == 0x0900#16) = true := by decide +kernel

/-- V107 (95_test_vectors.md): SRAO R1,0 (count 0 still resets CY). -/
theorem test_v107 : after
    (machine .m1110 0#2 0xF000#16 [(0#3, 0x0200#16), (1#3, 0x0002#16)] 0x0808#16
      [(0x0200#16, 0xA490#16)])
    (fun t => t.pc == 0x0202#16 && t.reg 1#3 == 0x0002#16 && t.status == 0x0800#16) = true := by decide +kernel

/-- V109 (95_test_vectors.md): HALT. -/
theorem test_v109 : after
    (machine .m1110 0#2 0xF000#16 [(0#3, 0x0200#16)] 0x0800#16
      [])
    (fun t => t.pc == 0x0202#16 && t.status == 0x0800#16 && t.run == .halted) = true := by decide +kernel

/-- V112 (95_test_vectors.md): RSTS all seven. -/
theorem test_v112 : after
    (machine .m1110 0#2 0xF000#16 [(0#3, 0x0200#16)] 0xFFFF#16
      [(0x0200#16, 0x027F#16)])
    (fun t => t.pc == 0x0202#16 && t.status == 0xFF80#16) = true := by decide +kernel

/-- V114 (95_test_vectors.md): SETS CY,EQ. -/
theorem test_v114 : after
    (machine .m1110 0#2 0xF000#16 [(0#3, 0x0200#16)] 0xF800#16
      [(0x0200#16, 0x0289#16)])
    (fun t => t.pc == 0x0202#16 && t.status == 0xF809#16) = true := by decide +kernel

/-- V116 (95_test_vectors.md): ENBL 4. -/
theorem test_v116 : after
    (machine .m1110 0#2 0xF000#16 [(0#3, 0x0200#16)] 0xF800#16
      [(0x0200#16, 0x0808#16)])
    (fun t => t.pc == 0x0202#16 && t.status == 0x7800#16) = true := by decide +kernel

/-- V118 (95_test_vectors.md): DSBL 1-4. -/
theorem test_v118 : after
    (machine .m1110 0#2 0xF000#16 [(0#3, 0x0200#16)] 0x0803#16
      [(0x0200#16, 0x088F#16)])
    (fun t => t.pc == 0x0202#16 && t.status == 0xF803#16) = true := by decide +kernel

/-- V119 (95_test_vectors.md): DSBW 1-4 (nothing enabled: trap). -/
theorem test_v119 : after
    (machine .m1110 0#2 0xF000#16 [(0#3, 0x0200#16)] 0x0800#16
      [(0x0026#16, 0x0700#16), (0x0200#16, 0x08CF#16)])
    (fun t => t.pc == 0x0700#16 && t.mem.word 0x0020#16 == 0x08CF#16 && t.mem.word 0x0022#16 == 0xF800#16 &&
        t.mem.word 0x0024#16 == 0x0200#16 && t.status == 0xF800#16) = true := by decide +kernel

/-- V121 (95_test_vectors.md): ENBW 4. -/
theorem test_v121 : after
    (machine .m1110 0#2 0xF000#16 [(0#3, 0x0200#16)] 0xF800#16
      [(0x0200#16, 0x0848#16)])
    (fun t => t.pc == 0x0200#16 && t.status == 0x7800#16 && t.run == .waiting) = true := by decide +kernel

/-- V123 (95_test_vectors.md): STSM +12h (relative). -/
theorem test_v123 : after
    (machine .m1110 0#2 0xF000#16 [(0#3, 0x0200#16)] 0x0805#16
      [(0x0200#16, 0x0912#16)])
    (fun t => t.pc == 0x0202#16 && t.mem.word 0x0224#16 == 0x0805#16 && t.status == 0x0805#16) = true := by
  decide +kernel

/-- V125 (95_test_vectors.md): REGM 0080h. -/
theorem test_v125 : after
    (machine .m1110 0#2 0xF000#16 [(0#3, 0x0200#16), (1#3, 0x1111#16), (2#3, 0x2222#16), (3#3, 0x3333#16),
        (4#3, 0x4444#16), (5#3, 0x5555#16), (6#3, 0x6666#16), (7#3, 0x7777#16)] 0x0800#16
      [(0x0200#16, 0x0340#16)])
    (fun t => t.pc == 0x0202#16 && t.reg 1#3 == 0x1111#16 && t.reg 2#3 == 0x2222#16 &&
        t.reg 3#3 == 0x3333#16 && t.reg 4#3 == 0x4444#16 && t.reg 5#3 == 0x5555#16 && t.reg 6#3 == 0x6666#16 &&
        t.reg 7#3 == 0x7777#16 && t.mem.word 0x0080#16 == 0x1111#16 && t.mem.word 0x0082#16 == 0x2222#16 &&
        t.mem.word 0x0084#16 == 0x3333#16 && t.mem.word 0x0086#16 == 0x4444#16 &&
        t.mem.word 0x0088#16 == 0x5555#16 && t.mem.word 0x008A#16 == 0x6666#16 &&
        t.mem.word 0x008C#16 == 0x7777#16 && t.status == 0x0800#16) = true := by decide +kernel

/-- V126 (95_test_vectors.md): MREG 0080h. -/
theorem test_v126 : after
    (machine .m1110 0#2 0xF000#16 [(0#3, 0x0200#16)] 0x0800#16
      [(0x0080#16, 0x0101#16), (0x0082#16, 0x0202#16), (0x0084#16, 0x0303#16), (0x0086#16, 0x0404#16),
        (0x0088#16, 0x0505#16), (0x008A#16, 0x0606#16), (0x008C#16, 0x0707#16), (0x0200#16, 0x0740#16)])
    (fun t => t.pc == 0x0202#16 && t.reg 1#3 == 0x0101#16 && t.reg 2#3 == 0x0202#16 &&
        t.reg 3#3 == 0x0303#16 && t.reg 4#3 == 0x0404#16 && t.reg 5#3 == 0x0505#16 && t.reg 6#3 == 0x0606#16 &&
        t.reg 7#3 == 0x0707#16 && t.status == 0x0800#16) = true := by decide +kernel

/-- V127 (95_test_vectors.md): MSTS 0080h. -/
theorem test_v127 : after
    (machine .m1110 0#2 0xF000#16 [(0#3, 0x0200#16)] 0x0800#16
      [(0x0080#16, 0x38FF#16), (0x0200#16, 0x0540#16)])
    (fun t => t.pc == 0x0202#16 && t.status == 0x38FF#16) = true := by decide +kernel

/-- V129 (95_test_vectors.md): RETN +10h (relative). -/
theorem test_v129 : after
    (machine .m1110 0#2 0xF000#16 [(0#3, 0x0200#16)] 0x0800#16
      [(0x0200#16, 0x0C10#16), (0x0220#16, 0x1803#16), (0x0222#16, 0x0300#16)])
    (fun t => t.pc == 0x0300#16 && t.status == 0x1803#16) = true := by decide +kernel

/-- V133 (95_test_vectors.md): level-2 request from module F820h at the boundary before 0240h. -/
theorem test_v133 : after
    { machine .m1110 0#2 0xF000#16 [(0#3, 0x0240#16)] 0x0800#16
      [(0x000E#16, 0x0600#16)] with
      pending := { Pending.none with level2 := some 0xF820#16 } }
    (fun t => t.pc == 0x0600#16 && t.mem.word 0x0008#16 == 0xF820#16 && t.mem.word 0x000A#16 == 0x0800#16 &&
        t.mem.word 0x000C#16 == 0x0240#16 && t.status == 0x0800#16) = true := by decide +kernel

/-- V137 (95_test_vectors.md): FCLB 0301h(R2),R1. -/
theorem test_v137 : after
    (machine .m1110B 0#2 0xF000#16 [(0#3, 0x0200#16), (1#3, 0xFFFF#16), (2#3, 0x0002#16)] 0x0800#16
      [(0x0200#16, 0x0E1A#16), (0x0202#16, 0x0301#16), (0x0302#16, 0xAA7F#16)])
    (fun t => t.pc == 0x0204#16 && t.reg 1#3 == 0x007F#16 && t.reg 2#3 == 0x0002#16 &&
        t.mem.word 0x0302#16 == 0xAA00#16) = true := by decide +kernel

/-- V138 (95_test_vectors.md): FCLW (R2),R1. -/
theorem test_v138 : after
    (machine .m1110A 0#2 0xF000#16 [(0#3, 0x0200#16), (1#3, 0xFFFF#16), (2#3, 0x0300#16)] 0x0800#16
      [(0x0200#16, 0x0612#16), (0x0300#16, 0x0001#16)])
    (fun t => t.pc == 0x0202#16 && t.reg 1#3 == 0x0000#16 && t.reg 2#3 == 0x0300#16 &&
        t.mem.word 0x0300#16 == 0x0000#16) = true := by decide +kernel

/-- V143 (95_test_vectors.md): ADDD +1385 to -615. -/
theorem test_v143 : after
    (machine .m1111A 0#2 0xF000#16 [(0#3, 0x0200#16), (1#3, 0x0300#16), (2#3, 0x0310#16), (5#3, 0x0055#16),
        (6#3, 0x0066#16), (7#3, 0x0077#16)] 0x0800#16
      [(0x0200#16, 0xC312#16), (0x0202#16, 0x2300#16), (0x0300#16, 0x0138#16), (0x0302#16, 0x5C00#16),
        (0x0312#16, 0x615D#16)])
    (fun t => t.pc == 0x0204#16 && t.reg 1#3 == 0x0300#16 && t.reg 2#3 == 0x0310#16 &&
        t.mem.word 0x0310#16 == 0x0000#16 && t.mem.word 0x0312#16 == 0x770C#16) = true := by decide +kernel

/-- V149 (95_test_vectors.md): SUBD +72705 from +20022645 (G3 example 2, corrected result). -/
theorem test_v149 : after
    (machine .m1111A 0#2 0xF000#16 [(0#3, 0x0200#16), (1#3, 0x0300#16), (2#3, 0x0310#16), (5#3, 0x0055#16),
        (6#3, 0x0066#16), (7#3, 0x0077#16)] 0x0800#16
      [(0x0200#16, 0xC412#16), (0x0202#16, 0x2400#16), (0x0300#16, 0x7270#16), (0x0302#16, 0x5C00#16),
        (0x0310#16, 0x0200#16), (0x0312#16, 0x2264#16), (0x0314#16, 0x5C00#16)])
    (fun t => t.pc == 0x0204#16 && t.reg 1#3 == 0x0300#16 && t.reg 2#3 == 0x0310#16 &&
        t.mem.word 0x0310#16 == 0x0199#16 && t.mem.word 0x0312#16 == 0x4994#16 &&
        t.mem.word 0x0314#16 == 0x0C00#16) = true := by decide +kernel

/-- V147 (95_test_vectors.md): ADDD +182 to -78294 (G3 example 1, corrected result). -/
theorem test_v147 : after
    (machine .m1111A 0#2 0xF000#16 [(0#3, 0x0200#16), (1#3, 0x0300#16), (2#3, 0x0310#16), (5#3, 0x0055#16),
        (6#3, 0x0066#16), (7#3, 0x0077#16)] 0x0800#16
      [(0x0200#16, 0xC312#16), (0x0202#16, 0x1200#16), (0x0300#16, 0x182C#16), (0x0310#16, 0x7829#16),
        (0x0312#16, 0x4D00#16)])
    (fun t => t.pc == 0x0204#16 && t.reg 1#3 == 0x0300#16 && t.reg 2#3 == 0x0310#16 &&
        t.mem.word 0x0310#16 == 0x7811#16 && t.mem.word 0x0312#16 == 0x2D00#16) = true := by decide +kernel

/-- V141 (95_test_vectors.md): ZADD (R1),3,(R2),4. -/
theorem test_v141 : after
    (machine .m1111A 0#2 0xF000#16 [(0#3, 0x0200#16), (1#3, 0x0300#16), (2#3, 0x0310#16), (5#3, 0x0055#16),
        (6#3, 0x0066#16), (7#3, 0x0077#16)] 0x0800#16
      [(0x0200#16, 0xC212#16), (0x0202#16, 0x2300#16), (0x0300#16, 0x0138#16), (0x0302#16, 0x5C00#16),
        (0x0310#16, 0x9999#16), (0x0312#16, 0x999D#16)])
    (fun t => t.pc == 0x0204#16 && t.reg 1#3 == 0x0300#16 && t.reg 2#3 == 0x0310#16 &&
        t.mem.word 0x0310#16 == 0x0001#16 && t.mem.word 0x0312#16 == 0x385C#16) = true := by decide +kernel

/-- V157 (95_test_vectors.md): SFTR (R1),3 by 5 (all digits out). -/
theorem test_v157 : after
    (machine .m1111A 0#2 0xF000#16 [(0#3, 0x0200#16), (1#3, 0x0300#16), (5#3, 0x0055#16), (6#3, 0x0066#16),
        (7#3, 0x0077#16)] 0x0800#16
      [(0x0200#16, 0xC810#16), (0x0202#16, 0x2500#16), (0x0300#16, 0x0138#16), (0x0302#16, 0x5D00#16)])
    (fun t => t.pc == 0x0204#16 && t.reg 1#3 == 0x0300#16 && t.mem.word 0x0300#16 == 0x0000#16 &&
        t.mem.word 0x0302#16 == 0x0D00#16) = true := by decide +kernel

/-- V159 (95_test_vectors.md): SFTL (R1),3 by 1 + x4 = 3. -/
theorem test_v159 : after
    (machine .m1111A 0#2 0xF000#16 [(0#3, 0x0200#16), (1#3, 0x0300#16), (4#3, 0x0002#16), (5#3, 0x0055#16),
        (6#3, 0x0066#16), (7#3, 0x0077#16)] 0x0800#16
      [(0x0200#16, 0xCA10#16), (0x0202#16, 0x2104#16), (0x0300#16, 0x0138#16), (0x0302#16, 0x5D00#16)])
    (fun t => t.pc == 0x0204#16 && t.reg 1#3 == 0x0300#16 && t.reg 4#3 == 0x0002#16 &&
        t.mem.word 0x0300#16 == 0x8500#16 && t.mem.word 0x0302#16 == 0x0D00#16) = true := by decide +kernel

/-- V161 (95_test_vectors.md): MOVR 4 bytes into 2 (left end lost). -/
theorem test_v161 : after
    (machine .m1111A 0#2 0xF000#16 [(0#3, 0x0200#16), (1#3, 0x0300#16), (2#3, 0x0310#16), (5#3, 0x0055#16),
        (6#3, 0x0066#16), (7#3, 0x0077#16)] 0x0800#16
      [(0x0200#16, 0xC912#16), (0x0202#16, 0x3100#16), (0x0300#16, 0xC1C2#16), (0x0302#16, 0xC3C4#16),
        (0x0310#16, 0xA0A0#16)])
    (fun t => t.pc == 0x0204#16 && t.reg 1#3 == 0x0300#16 && t.reg 2#3 == 0x0310#16 &&
        t.mem.word 0x0310#16 == 0xC3C4#16) = true := by decide +kernel

/-- V163 (95_test_vectors.md): MOVL 2 bytes into 4. -/
theorem test_v163 : after
    (machine .m1111A 0#2 0xF000#16 [(0#3, 0x0200#16), (1#3, 0x0300#16), (2#3, 0x0310#16), (5#3, 0x0055#16),
        (6#3, 0x0066#16), (7#3, 0x0077#16)] 0x0800#16
      [(0x0200#16, 0xCB12#16), (0x0202#16, 0x1300#16), (0x0300#16, 0xC1C2#16), (0x0310#16, 0xA0A0#16),
        (0x0312#16, 0xA0A0#16)])
    (fun t => t.pc == 0x0204#16 && t.reg 1#3 == 0x0300#16 && t.reg 2#3 == 0x0310#16 &&
        t.mem.word 0x0310#16 == 0xC1C2#16) = true := by decide +kernel

/-- V173 (95_test_vectors.md): RBIT R1, bit 0 (was 0). -/
theorem test_v173 : after
    (machine .m1112A 0#2 0xF000#16 [(0#3, 0x0200#16), (1#3, 0x0002#16)] 0x0808#16
      [(0x0200#16, 0x4190#16)])
    (fun t => t.pc == 0x0202#16 && t.reg 1#3 == 0x0002#16 && t.status == 0x0800#16) = true := by decide +kernel

/-- V176 (95_test_vectors.md): CBIT R1, bit 15. -/
theorem test_v176 : after
    (machine .m1112A 0#2 0xF000#16 [(0#3, 0x0200#16), (1#3, 0x8001#16)] 0x0800#16
      [(0x0200#16, 0x439F#16)])
    (fun t => t.pc == 0x0202#16 && t.reg 1#3 == 0x0001#16 && t.status == 0x0908#16) = true := by decide +kernel

/-- V178 (95_test_vectors.md): IBIT R1, mask 0F0Fh and R2. -/
theorem test_v178 : after
    (machine .m1112A 0#2 0xF000#16 [(0#3, 0x0200#16), (1#3, 0x1234#16), (2#3, 0x00FF#16)] 0x0800#16
      [(0x0200#16, 0x441A#16), (0x0202#16, 0x0F0F#16)])
    (fun t => t.pc == 0x0204#16 && t.reg 1#3 == 0x0004#16 && t.reg 2#3 == 0x00FF#16 && t.status == 0x0808#16) = true := by
  decide +kernel

/-- V180 (95_test_vectors.md): TSBT R1, bit 15. -/
theorem test_v180 : after
    (machine .m1112A 0#2 0xF000#16 [(0#3, 0x0200#16), (1#3, 0xC000#16)] 0x0800#16
      [(0x0200#16, 0x459F#16)])
    (fun t => t.pc == 0x0202#16 && t.reg 1#3 == 0x8000#16 && t.status == 0x0C08#16) = true := by decide +kernel

/-- V182 (95_test_vectors.md): TBIT R1, bit (R2). -/
theorem test_v182 : after
    (machine .m1112A 0#2 0xF000#16 [(0#3, 0x0200#16), (1#3, 0x0080#16), (2#3, 0x0007#16)] 0x0800#16
      [(0x0200#16, 0x4612#16)])
    (fun t => t.pc == 0x0202#16 && t.reg 1#3 == 0x0080#16 && t.reg 2#3 == 0x0007#16) = true := by decide +kernel

/-- V184 (95_test_vectors.md): NEGT R2,R1 (8000h). -/
theorem test_v184 : after
    (machine .m1112A 0#2 0xF000#16 [(0#3, 0x0200#16), (2#3, 0x8000#16)] 0x0800#16
      [(0x0200#16, 0x4712#16)])
    (fun t => t.pc == 0x0202#16 && t.reg 1#3 == 0x8000#16 && t.reg 2#3 == 0x8000#16 && t.status == 0x0C00#16) = true := by
  decide +kernel

/-- V188 (95_test_vectors.md): MOVP R2,R1 (8000h). -/
theorem test_v188 : after
    (machine .m1112A 0#2 0xF000#16 [(0#3, 0x0200#16), (2#3, 0x8000#16)] 0x0800#16
      [(0x0200#16, 0x4792#16)])
    (fun t => t.pc == 0x0202#16 && t.reg 1#3 == 0x8000#16 && t.reg 2#3 == 0x8000#16 && t.status == 0x0C00#16) = true := by
  decide +kernel

/-- V189 (95_test_vectors.md): MOVN R2,R1 (positive source). -/
theorem test_v189 : after
    (machine .m1112A 0#2 0xF000#16 [(0#3, 0x0200#16), (2#3, 0x0002#16)] 0x0800#16
      [(0x0200#16, 0x479A#16)])
    (fun t => t.pc == 0x0202#16 && t.reg 1#3 == 0xFFFE#16 && t.reg 2#3 == 0x0002#16 && t.status == 0x0C00#16) = true := by
  decide +kernel

/-- V193 (95_test_vectors.md): SLAN R1,R2 (FFFFh). -/
theorem test_v193 : after
    (machine .m1112A 0#2 0xF000#16 [(0#3, 0x0200#16), (1#3, 0xFFFF#16)] 0x0800#16
      [(0x0200#16, 0xA01A#16)])
    (fun t => t.pc == 0x0202#16 && t.reg 1#3 == 0x8000#16 && t.reg 2#3 == 0x000F#16 && t.status == 0x0C00#16) = true := by
  decide +kernel

/-- V195 (95_test_vectors.md): SLLN R1,R2. -/
theorem test_v195 : after
    (machine .m1112A 0#2 0xF000#16 [(0#3, 0x0200#16), (1#3, 0x0001#16), (2#3, 0x0010#16)] 0x0800#16
      [(0x0200#16, 0xA21A#16)])
    (fun t => t.pc == 0x0202#16 && t.reg 1#3 == 0x8000#16 && t.reg 2#3 == 0x001F#16 && t.status == 0x0C00#16) = true := by
  decide +kernel

/-- V196 (95_test_vectors.md): SRAN R1,R2. -/
theorem test_v196 : after
    (machine .m1112A 0#2 0xF000#16 [(0#3, 0x0200#16), (1#3, 0xFF00#16)] 0x0800#16
      [(0x0200#16, 0xA41A#16)])
    (fun t => t.pc == 0x0202#16 && t.reg 1#3 == 0xFFFF#16 && t.reg 2#3 == 0x0008#16 && t.status == 0x0D00#16) = true := by
  decide +kernel

/-- V198 (95_test_vectors.md): SRLN R1,R2 (already normal). -/
theorem test_v198 : after
    (machine .m1112A 0#2 0xF000#16 [(0#3, 0x0200#16), (1#3, 0x0003#16), (2#3, 0x0003#16)] 0x0800#16
      [(0x0200#16, 0xA61A#16)])
    (fun t => t.pc == 0x0202#16 && t.reg 1#3 == 0x0003#16 && t.reg 2#3 == 0x0003#16 && t.status == 0x0900#16) = true := by
  decide +kernel

/-- V199 (95_test_vectors.md): DLAN R2,R4. -/
theorem test_v199 : after
    (machine .m1112A 0#2 0xF000#16 [(0#3, 0x0200#16), (3#3, 0x0001#16)] 0x0800#16
      [(0x0200#16, 0xA82C#16)])
    (fun t => t.pc == 0x0202#16 && t.reg 2#3 == 0x4000#16 && t.reg 3#3 == 0x0000#16 &&
        t.reg 4#3 == 0x001D#16 && t.status == 0x0800#16) = true := by decide +kernel

/-- V203 (95_test_vectors.md): DLAN R2,R4 (zero: only S' of the odd register changes). -/
theorem test_v203 : after
    (machine .m1112A 0#2 0xF000#16 [(0#3, 0x0200#16), (3#3, 0x8000#16), (4#3, 0x0007#16)] 0x0800#16
      [(0x0200#16, 0xA82C#16)])
    (fun t => t.pc == 0x0202#16 && t.reg 2#3 == 0x0000#16 && t.reg 3#3 == 0x0000#16 &&
        t.reg 4#3 == 0x0007#16 && t.status == 0x0A00#16) = true := by decide +kernel

/-- V202 (95_test_vectors.md): DRLN R2,R4. -/
theorem test_v202 : after
    (machine .m1112A 0#2 0xF000#16 [(0#3, 0x0200#16), (2#3, 0x0001#16)] 0x0800#16
      [(0x0200#16, 0xAE2C#16)])
    (fun t => t.pc == 0x0202#16 && t.reg 2#3 == 0x0000#16 && t.reg 3#3 == 0x0001#16 &&
        t.reg 4#3 == 0x0010#16 && t.status == 0x0900#16) = true := by decide +kernel

/-- V204 (95_test_vectors.md): DLAO pair 2, 1. -/
theorem test_v204 : after
    (machine .m1112A 0#2 0xF000#16 [(0#3, 0x0200#16), (2#3, 0x4000#16), (3#3, 0x4000#16)] 0x0800#16
      [(0x0200#16, 0xA8A1#16)])
    (fun t => t.pc == 0x0202#16 && t.reg 2#3 == 0x8001#16 && t.reg 3#3 == 0x0000#16 && t.status == 0x0C04#16) = true := by
  decide +kernel

/-- V208 (95_test_vectors.md): DRAO pair 2, 1. -/
theorem test_v208 : after
    (machine .m1112A 0#2 0xF000#16 [(0#3, 0x0200#16), (2#3, 0x8001#16)] 0x0808#16
      [(0x0200#16, 0xACA1#16)])
    (fun t => t.pc == 0x0202#16 && t.reg 2#3 == 0xC000#16 && t.reg 3#3 == 0xC000#16 && t.status == 0x0C08#16) = true := by
  decide +kernel

/-- V211 (95_test_vectors.md): DRLC pair 2, 4. -/
theorem test_v211 : after
    (machine .m1112A 0#2 0xF000#16 [(0#3, 0x0200#16), (2#3, 0x1234#16), (3#3, 0x5678#16)] 0x0800#16
      [(0x0200#16, 0xAFA4#16)])
    (fun t => t.pc == 0x0202#16 && t.reg 2#3 == 0x8123#16 && t.reg 3#3 == 0x4567#16 && t.status == 0x0D00#16) = true := by
  decide +kernel

/-- V212 (95_test_vectors.md): DLLO pair 2 by (R4), R4 = 0028h (count 8). -/
theorem test_v212 : after
    (machine .m1112A 0#2 0xF000#16 [(0#3, 0x0200#16), (2#3, 0x1234#16), (3#3, 0x5678#16), (4#3, 0x0028#16)] 0x0800#16
      [(0x0200#16, 0xAA24#16)])
    (fun t => t.pc == 0x0202#16 && t.reg 2#3 == 0x3456#16 && t.reg 3#3 == 0x7800#16 &&
        t.reg 4#3 == 0x0028#16 && t.status == 0x0800#16) = true := by decide +kernel

/-- V214 (95_test_vectors.md): DRLO pair 4, 0 (count 0). -/
theorem test_v214 : after
    (machine .m1112A 0#2 0xF000#16 [(0#3, 0x0200#16), (4#3, 0x8000#16), (5#3, 0x0001#16)] 0x0800#16
      [(0x0200#16, 0xAEC0#16)])
    (fun t => t.pc == 0x0202#16 && t.reg 4#3 == 0x8000#16 && t.reg 5#3 == 0x0001#16 && t.status == 0x0D00#16) = true := by
  decide +kernel

/-- V220 (95_test_vectors.md): MULT (R4),R3: -32767 x -32767. -/
theorem test_v220 : after
    (machine .m1112A 0#2 0xF000#16 [(0#3, 0x0200#16), (3#3, 0x8001#16), (4#3, 0x0300#16)] 0x0800#16
      [(0x0200#16, 0xB334#16), (0x0300#16, 0x8001#16)])
    (fun t => t.pc == 0x0202#16 && t.reg 2#3 == 0x7FFE#16 && t.reg 3#3 == 0x0001#16 &&
        t.reg 4#3 == 0x0300#16 && t.status == 0x0900#16) = true := by decide +kernel

/-- V221 (95_test_vectors.md): MLTA (R4),R2: 3 x 5 + 7. -/
theorem test_v221 : after
    (machine .m1112A 0#2 0xF000#16 [(0#3, 0x0200#16), (2#3, 0x0007#16), (3#3, 0x0003#16), (4#3, 0x0300#16)] 0x0800#16
      [(0x0200#16, 0xB324#16), (0x0300#16, 0x0005#16)])
    (fun t => t.pc == 0x0202#16 && t.reg 2#3 == 0x0000#16 && t.reg 3#3 == 0x0016#16 && t.reg 4#3 == 0x0300#16) = true := by
  decide +kernel

/-- V224 (95_test_vectors.md): DIVD (R4),R2: -23 / 5. -/
theorem test_v224 : after
    (machine .m1112A 0#2 0xF000#16 [(0#3, 0x0200#16), (2#3, 0xFFFF#16), (3#3, 0xFFE9#16), (4#3, 0x0300#16)] 0x0800#16
      [(0x0200#16, 0xB424#16), (0x0300#16, 0x0005#16)])
    (fun t => t.pc == 0x0202#16 && t.reg 2#3 == 0xFFFD#16 && t.reg 3#3 == 0xFFFC#16 &&
        t.reg 4#3 == 0x0300#16 && t.status == 0x0C00#16) = true := by decide +kernel

/-- V226 (95_test_vectors.md): DIVD (R4),R3 (odd AR names the same pair). -/
theorem test_v226 : after
    (machine .m1112A 0#2 0xF000#16 [(0#3, 0x0200#16), (3#3, 0x0017#16), (4#3, 0x0300#16)] 0x0800#16
      [(0x0200#16, 0xB434#16), (0x0300#16, 0x0005#16)])
    (fun t => t.pc == 0x0202#16 && t.reg 2#3 == 0x0003#16 && t.reg 3#3 == 0x0004#16 &&
        t.reg 4#3 == 0x0300#16 && t.status == 0x0800#16) = true := by decide +kernel

/-- V231 (95_test_vectors.md): MULT with AR = 1. -/
theorem test_v231 : after
    (machine .m1112A 0#2 0xF000#16 [(0#3, 0x0200#16), (4#3, 0x0300#16)] 0x0800#16
      [(0x0026#16, 0x0700#16), (0x0200#16, 0xB314#16), (0x0300#16, 0x0005#16)])
    (fun t => t.pc == 0x0700#16 && t.reg 4#3 == 0x0300#16 && t.mem.word 0x0020#16 == 0xB314#16 &&
        t.mem.word 0x0022#16 == 0x0800#16 && t.mem.word 0x0024#16 == 0x0200#16 && t.status == 0x0800#16) = true := by
  decide +kernel

/-- V232 (95_test_vectors.md): DLOD (R4),R2. -/
theorem test_v232 : after
    (machine .m1112A 0#2 0xF000#16 [(0#3, 0x0200#16), (4#3, 0x0400#16)] 0x0800#16
      [(0x0200#16, 0xB524#16), (0x0400#16, 0x0001#16), (0x0402#16, 0x8000#16)])
    (fun t => t.pc == 0x0202#16 && t.reg 2#3 == 0x0001#16 && t.reg 3#3 == 0x8000#16 &&
        t.reg 4#3 == 0x0400#16 && t.status == 0x0800#16) = true := by decide +kernel

/-- V233 (95_test_vectors.md): DSTA R2,0500h. -/
theorem test_v233 : after
    (machine .m1112A 0#2 0xF000#16 [(0#3, 0x0200#16), (2#3, 0xFFFF#16), (3#3, 0xFFFE#16)] 0x0800#16
      [(0x0200#16, 0xB028#16), (0x0202#16, 0x0500#16)])
    (fun t => t.pc == 0x0204#16 && t.reg 2#3 == 0xFFFF#16 && t.reg 3#3 == 0xFFFE#16 &&
        t.mem.word 0x0500#16 == 0xFFFF#16 && t.mem.word 0x0502#16 == 0xFFFE#16 && t.status == 0x0C00#16) = true := by
  decide +kernel

/-- V236 (95_test_vectors.md): DADD (R4),R2: 2^30 - 1 + 1. -/
theorem test_v236 : after
    (machine .m1112A 0#2 0xF000#16 [(0#3, 0x0200#16), (2#3, 0x7FFF#16), (3#3, 0x7FFF#16), (4#3, 0x0400#16)] 0x0800#16
      [(0x0200#16, 0xB224#16), (0x0402#16, 0x0001#16)])
    (fun t => t.pc == 0x0202#16 && t.reg 2#3 == 0x8000#16 && t.reg 3#3 == 0x0000#16 &&
        t.reg 4#3 == 0x0400#16 && t.status == 0x0C04#16) = true := by decide +kernel

/-- V239 (95_test_vectors.md): DSUB (R4),R2: -2^30 - 1. -/
theorem test_v239 : after
    (machine .m1112A 0#2 0xF000#16 [(0#3, 0x0200#16), (2#3, 0x8000#16), (4#3, 0x0400#16)] 0x0800#16
      [(0x0200#16, 0xB124#16), (0x0402#16, 0x0001#16)])
    (fun t => t.pc == 0x0202#16 && t.reg 2#3 == 0x7FFF#16 && t.reg 3#3 == 0x7FFF#16 &&
        t.reg 4#3 == 0x0400#16 && t.status == 0x090C#16) = true := by decide +kernel

/-- V241 (95_test_vectors.md): class D word. -/
theorem test_v241 : after
    (machine .m1112A 0#2 0xF000#16 [(0#3, 0x0200#16)] 0x0800#16
      [(0x0026#16, 0x0700#16), (0x0200#16, 0xD000#16)])
    (fun t => t.pc == 0x0700#16 && t.mem.word 0x0020#16 == 0xD000#16 && t.mem.word 0x0022#16 == 0x0800#16 &&
        t.mem.word 0x0024#16 == 0x0200#16 && t.status == 0x0800#16) = true := by decide +kernel

/-! ## Witnesses: states and operands that meet the hypotheses of the statements, clause by clause -/

/-- A part of an instruction that ends well with a value and a state that pass a check. -/
def goes {α : Type} (r : Res α) (check : α → State → Bool) : Bool :=
  match r with
  | .ok a s => check a s
  | _ => false

theorem goes_ok {α : Type} {r : Res α} {check : α → State → Bool} (h : goes r check = true) :
    ∃ a s, r = .ok a s ∧ check a s = true := by
  cases r <;> simp_all [goes]

/-- An outcome that is a next state that passes a check. -/
def goesOn (o : Outcome) (check : State → Bool) : Bool :=
  match o with
  | .next t => check t
  | _ => false

theorem goesOn_next {o : Outcome} {check : State → Bool} (h : goesOn o check = true) :
    ∃ t, o = .next t ∧ check t = true := by
  cases o <;> simp_all [goesOn]

/-- A 1112B with a few registers and words. -/
def scientific (memTop : Word) (regs : List (RegNo × Word)) (mem : List (Word × Word)) : State :=
  machine .m1112B 0#2 memTop ((0#3, 0x0200#16) :: regs) 0x0800#16 mem

/-- A 1111B with two fields of two bytes: +123 at 0300h and -45 at 0310h. -/
def decimalState (memTop : Word) : State :=
  machine .m1111B 3#2 memTop [(0#3, 0x0200#16), (1#3, 0x0300#16), (2#3, 0x0310#16), (3#3, 0x0002#16)] 0x0800#16
    [(0x0300#16, 0x123C#16), (0x0310#16, 0x045D#16)]

/-! DecodeOfEncode, EncodeOfDecode: instructions of one word and of two. -/

theorem test_hyp_DecodeOfEncode :
    (Instr.jsbr 7#3 ⟨true, 7#3, some 0xFFFF#16⟩).wellFormed = true ∧
    encode (.jsbr 7#3 ⟨true, 7#3, some 0xFFFF#16⟩) = 0x40FF#16 :: [0xFFFF#16] ∧
    (Instr.enbw 15#4).wellFormed = true ∧ encode (.enbw 15#4) = 0x084F#16 :: [] := by decide +kernel

theorem test_hyp_EncodeOfDecode :
    decode 0x40FF#16 0xFFFF#16 = some (.jsbr 7#3 ⟨true, 7#3, some 0xFFFF#16⟩) ∧
    decode 0x084F#16 0xFFFF#16 = some (.enbw 15#4) := by decide +kernel

/-! StepRunsDecoded: the last words of memory, an instruction of one word and one of two. -/

theorem test_hyp_StepRunsDecoded_one :
    let s := machine .m1110 0#2 0xF000#16 [(0#3, 0xEFFE#16)] 0x0800#16 [(0xEFFE#16, 0x8000#16)]
    s.run = .running ∧ s.request = none ∧ s.pc.getLsbD 0 = false ∧ s.inMemory s.pc = true ∧
      hasSecondWord s.par.model s.par.encodings (s.mem.word s.pc) = false ∧
      decodeWith s.par.encodings (s.mem.word s.pc) 0#16 = some (.nopr 0#8) ∧
      (Instr.nopr 0#8).wellFormed = true ∧ encode (.nopr 0#8) = [s.mem.word s.pc] := by decide +kernel

theorem test_hyp_StepRunsDecoded_two :
    let s := machine .m1110 0#2 0xF000#16 [(0#3, 0xEFFC#16)] 0x0800#16 [(0xEFFC#16, 0x4008#16), (0xEFFE#16, 0x0300#16)]
    s.run = .running ∧ s.request = none ∧ s.pc.getLsbD 0 = false ∧ s.inMemory s.pc = true ∧
      hasSecondWord s.par.model s.par.encodings (s.mem.word s.pc) = true ∧ s.inMemory (s.pc + 2#16) = true ∧
      decodeWith s.par.encodings (s.mem.word s.pc) (s.mem.word (s.pc + 2#16)) =
        some (.jump ⟨false, 0#3, some 0x0300#16⟩) ∧
      encode (.jump ⟨false, 0#3, some 0x0300#16⟩) = [s.mem.word s.pc, s.mem.word (s.pc + 2#16)] := by decide +kernel

/-! FetchStops: an odd program counter; the first address past memory; a second word past memory; no instruction. -/

theorem test_hyp_FetchStops :
    let odd := machine .m1110 0#2 0xF000#16 [(0#3, 0xEFFF#16)] 0x0800#16 []
    let past := machine .m1110 0#2 0x8000#16 [(0#3, 0x8000#16)] 0x0800#16 []
    let second := machine .m1110 0#2 0x8000#16 [(0#3, 0x7FFE#16)] 0x0800#16 [(0x7FFE#16, 0x4008#16)]
    let undecodable := machine .m1110 0#2 0xF000#16 [(0#3, 0x0200#16)] 0x0800#16 [(0x0200#16, 0x0A00#16)]
    odd.run = .running ∧ odd.request = none ∧ odd.pc.getLsbD 0 = true ∧
    past.request = none ∧ past.pc.getLsbD 0 = false ∧ past.inMemory past.pc = false ∧
    second.request = none ∧ second.inMemory second.pc = true ∧
      hasSecondWord second.par.model second.par.encodings (second.mem.word second.pc) = true ∧
      second.inMemory (second.pc + 2#16) = false ∧
    undecodable.request = none ∧ undecodable.inMemory undecodable.pc = true ∧
      hasSecondWord undecodable.par.model undecodable.par.encodings (undecodable.mem.word undecodable.pc) = false ∧
      decodeWith undecodable.par.encodings (undecodable.mem.word undecodable.pc) 0#16 = none := by decide +kernel

/-- A 1111B with a ZADD in the last two words of memory, the second word as given. -/
def classC (w : Word) : State :=
  machine .m1111B 0#2 0xF000#16 [(0#3, 0xEFFC#16)] 0x0800#16 [(0xEFFC#16, 0xC212#16), (0xEFFE#16, w)]

/-- What `FetchStops` asks of such a machine but for bits 7 and 3 of the second word. -/
def classCFetched (w : Word) : Bool :=
  (classC w).request == none && !(classC w).pc.getLsbD 0 && (classC w).inMemory 0xEFFC#16 && (classC w).inMemory 0xEFFE#16 &&
    (classC w).mem.word 0xEFFC#16 == 0xC212#16 && (classC w).mem.word 0xEFFE#16 == w &&
    hasSecondWord .m1111B resetParams.encodings 0xC212#16 && decodeWith resetParams.encodings 0xC212#16 w == none

/-- Bit 7 set, and bit 3 set. -/
theorem test_hyp_FetchStops_classC :
    classCFetched 0x0080#16 = true ∧ (0x0080#16 : Word).getLsbD 7 = true ∧ classCFetched 0x0008#16 = true ∧
      (0x0008#16 : Word).getLsbD 3 = true ∧ fieldC 0xC212#16 = 12#4 := by decide +kernel

/-! StepTakesRequest and WaitEnds: the lowest and the highest level, the smallest memory that holds the block. -/

/-- A machine with a request of a level from the module F820h. -/
def requested (run : RunState) (memTop status : Word) (pending : Pending) : State :=
  { machine .m1110 0#2 memTop [(0#3, 0x0200#16)] status [] with run := run, pending := pending }

theorem test_hyp_StepTakesRequest :
    (let s := requested .running 0x0008#16 0x0800#16 { Pending.none with level1 := some 0xF820#16 }
     s.run = .running ∧ s.pending.level 1 = some 0xF820#16 ∧ s.status.getLsbD (11 + 1) = false ∧
       (∀ k, k ≤ 4 → 1 < k → s.pending.level k = none ∨ s.status.getLsbD (11 + k) = true) ∧
       8 * 1 ≤ s.par.memTop.toNat) ∧
    (let s := requested .running 0x0020#16 0x7800#16 ⟨some 1#16, some 2#16, some 3#16, some 0xF820#16⟩
     s.pending.level 4 = some 0xF820#16 ∧ s.status.getLsbD (11 + 4) = false ∧
       (∀ k, k ≤ 4 → 4 < k → s.pending.level k = none ∨ s.status.getLsbD (11 + k) = true) ∧
       8 * 4 ≤ s.par.memTop.toNat) := by decide +kernel

theorem test_hyp_WaitEnds :
    (let s := requested .waiting 0x0020#16 0x7800#16 { Pending.none with level4 := some 0xF820#16 }
     s.run = .waiting ∧ s.pending.level 4 = some 0xF820#16 ∧ s.status.getLsbD (11 + 4) = false ∧
       0x20 ≤ s.par.memTop.toNat) ∧
    (let s := requested .waiting 0x0020#16 0x8800#16 { Pending.none with level3 := some 0xF820#16, level4 := some 0#16 }
     s.run = .waiting ∧ s.pending.level 3 = some 0xF820#16 ∧ s.status.getLsbD (11 + 3) = false ∧
       (∀ k, k ≤ 4 → 3 < k → s.pending.level k = none ∨ s.status.getLsbD (11 + k) = true)) := by decide +kernel

theorem test_hyp_IdleSteps :
    (let s := requested .halted 0xF000#16 0x0800#16 Pending.none
     s.run = .halted ∧ s.runRequest = false) ∧
    (let s := requested .waiting 0xF000#16 0xF800#16 ⟨some 1#16, some 2#16, some 3#16, some 4#16⟩
     s.run = .waiting ∧ ∀ j, j ≤ 4 → 1 ≤ j → s.pending.level j = none ∨ s.status.getLsbD (11 + j) = true) ∧
    (let s := { requested .halted 0xF000#16 0x0000#16 Pending.none with runRequest := true }
     s.run = .halted ∧ s.runRequest = true) := by decide +kernel

/-! Accesses: the two sides of MEMTOP, of F000h and of the own block; an odd address; a register that answers. -/

theorem test_hyp_Accesses :
    let s := { machine .m1110 1#2 0x8000#16 [] 0x0800#16 [] with
      par := { resetParams with model := .m1110, cpu := 1#2, memTop := 0x8000#16, devices := [0xFFFE#16] } }
    s.par.legal = true ∧ (0x7FFF#16 : Word).toNat < s.par.memTop.toNat ∧
      s.par.memTop.toNat ≤ (0x8000#16 : Word).toNat ∧ (0xEFFF#16 : Word).toNat < 0xF000 ∧
      0xF000 ≤ (0xF001#16 : Word).toNat ∧ (0xF001#16 : Word).getLsbD 0 = true ∧
      isOwnRegister s.par.cpu 0xFF20#16 = true ∧ isOwnRegister s.par.cpu 0xFF3E#16 = true ∧
      isOwnRegister s.par.cpu 0xFF1E#16 = false ∧ isOwnRegister s.par.cpu 0xFF34#16 = false ∧
      0xF000#16 ∉ s.par.devices ∧ isOwnRegister s.par.cpu 0xF000#16 = false ∧
      0xFFFE#16 ∈ s.par.devices ∧ isOwnRegister s.par.cpu 0xFFFE#16 = false := by decide +kernel

/-! StepKeepsWf, StepKeepsOutside, OnlyTheseWrite: a running, a waiting and a halted state with a next state. -/

theorem test_hyp_StepKeepsWf :
    (State.reset.wf = true ∧ ∃ t, step State.reset = .next t ∧ t.wf = true) ∧
    (let s := requested .halted 0xF000#16 0x0000#16 Pending.none
     s.wf = true ∧ ∃ t, step s = .next t ∧ t.wf = true) :=
  ⟨⟨by decide +kernel, goesOn_next (check := State.wf) (by decide +kernel)⟩,
    by decide +kernel, goesOn_next (check := State.wf) (by decide +kernel)⟩

theorem test_hyp_StepKeepsOutside :
    (∃ t, step State.reset = .next t ∧ t.wf = true) ∧ State.reset.par.legal = true ∧
    State.reset.inMemory 0xF000#16 = false :=
  ⟨goesOn_next (check := State.wf) (by decide +kernel), by decide +kernel⟩

theorem test_hyp_OnlyTheseWrite :
    State.reset.par.trapStatus = .identity ∧
    (∃ t, exec (.enbl 15#4) State.reset = .next t ∧ (t.flag .f1 == State.reset.flag .f1) = true) ∧
    (∃ t, exec (.sets 127#7) State.reset = .next t ∧ (t.flag .m1 == State.reset.flag .m1) = true) :=
  ⟨rfl, goesOn_next (check := fun t => t.flag .f1 == State.reset.flag .f1) (by decide +kernel),
    goesOn_next (check := fun t => t.flag .m1 == State.reset.flag .m1) (by decide +kernel)⟩

/-! Addresses. -/

theorem test_hyp_DirectAddress :
    (let m : MemOperand := ⟨false, 0#3, some 0xFFFF#16⟩
     m.ind = false ∧ (m.ext.isSome = true ∨ m.xr ≠ 0#3) ∧ (Index.none ≠ .none → m.xr ≠ 0#3)) ∧
    (let m : MemOperand := ⟨false, 7#3, none⟩
     m.ind = false ∧ (m.ext.isSome = true ∨ m.xr ≠ 0#3) ∧ (Index.decrement ≠ .none → m.xr ≠ 0#3)) := by decide +kernel

/-- A chain of odd words from 0301h on, the word after the last being at 0400h. -/
def chain (n : Nat) (last : Word) (i : Nat) : Word := if i = n then last else 0x0301#16 + BitVec.ofNat 16 (2 * i)

/-- The memory of the chain, and an index. -/
def chained (n : Nat) (last : Word) : State :=
  scientific 0xF000#16 [(2#3, 0x0002#16)] ((List.range n).map fun i => (0x0300#16 + BitVec.ofNat 16 (2 * i), chain n last (i + 1)))

theorem test_hyp_IndirectAddress :
    (∀ p ∈ [(1, 0x0400#16), (1, 0x0401#16), (15, 0x0400#16), (15, 0x0401#16)],
      1 ≤ p.1 ∧ p.1 ≤ 15 ∧
      (∀ i, i < p.1 → (chained p.1 p.2).inMemory (evenAddr (chain p.1 p.2 i)) = true ∧
        (chained p.1 p.2).mem.word (chain p.1 p.2 i) = chain p.1 p.2 (i + 1)) ∧
      (∀ i, i < p.1 → 1 ≤ i → (chain p.1 p.2 i).getLsbD 0 = true)) ∧
    (chain 15 0x0400#16 15).getLsbD 0 = false ∧ (chain 15 0x0401#16 15).getLsbD 0 = true := by decide +kernel

/-- The chain begins where base and index lead, in each kind of index. -/
theorem test_hyp_IndirectAddress_whole :
    developedAddress .none .word ⟨true, 2#3, some 0x02FF#16⟩ (chained 1 0x0401#16) = chain 1 0x0401#16 0 ∧
    developedAddress .increment .word ⟨true, 2#3, some 0x02FF#16⟩ (chained 1 0x0400#16) = chain 1 0x0400#16 0 ∧
    developedAddress .decrement .word ⟨true, 2#3, some 0x0301#16⟩ (chained 1 0x0400#16) = chain 1 0x0400#16 0 ∧
    developedAddress .decrement .byte ⟨true, 2#3, some 0x0300#16⟩ (chained 1 0x0401#16) = chain 1 0x0401#16 0 ∧
    (2#3 : RegNo) ≠ 0#3 := by decide +kernel

/-- A chain whose last word lies where nothing answers, and one whose last word lies in the own block. -/
theorem test_hyp_IndirectAddress_later :
    (chained 1 0xF001#16).mem.word (chain 1 0xF001#16 0) = 0xF001#16 ∧
    (chained 1 0xF001#16).wordPlace (evenAddr 0xF001#16) = .absent 0xF000#16 ∧
    (chained 1 0xFF01#16).mem.word (chain 1 0xFF01#16 0) = 0xFF01#16 ∧
    (chained 1 0xFF01#16).wordPlace (evenAddr 0xFF01#16) = .refused (.ownRegisterBlock 0xFF00#16) := by decide +kernel

/-- A first address where nothing answers, and one that is refused. -/
theorem test_hyp_IndirectAddress_first :
    State.reset.wordPlace (developedAddress .none .word ⟨true, 0#3, some 0xF000#16⟩ State.reset) = .absent 0xF000#16 ∧
    State.reset.wordPlace (developedAddress .none .word ⟨true, 0#3, some 0xF001#16⟩ State.reset) =
      .refused (.systemRegisterByteOrOdd 0xF001#16) := by decide +kernel

theorem test_hyp_NoAddressTraps : (⟨true, 0#3, none⟩ : MemOperand).ext = none ∧
    (⟨true, 0#3, none⟩ : MemOperand).xr = 0#3 := ⟨rfl, rfl⟩

theorem test_hyp_OperationArithmetic :
    (15 < 16) ∧ Operation.tst ≠ .cmp ∧ Flag.lp ∉ operationFlags .add ∧ Flag.ng ∉ operationFlags .cmp := by decide

/-! Memory classes: an operand at the end of memory. -/

theorem test_hyp_AccumulatorToMemory :
    (let s := scientific 0x8000#16 [(2#3, 0x8000#16)] []
     MemClass.c1 ∈ [MemClass.c1, .c2, .c3] ∧ ((1#3 : RegNo) ≠ 2#3) ∧
       ∃ a s1, effectiveAddress (classIndex .c1) .word ⟨false, 2#3, none⟩ s = .ok a s1 ∧ s.holds .word a = true) ∧
    (let s := scientific 0x8000#16 [(2#3, 0x7FFF#16)] []
     MemClass.c2 ∈ [MemClass.c1, .c2, .c3] ∧
       ∃ a s1, effectiveAddress (classIndex .c2) .byte ⟨false, 2#3, none⟩ s = .ok a s1 ∧ s.holds .byte a = true) :=
  ⟨⟨by decide, by decide, goes_ok (check := fun a _ => (scientific 0x8000#16 [(2#3, 0x8000#16)] []).holds .word a)
      (by decide +kernel)⟩,
    by decide, goes_ok (check := fun a _ => (scientific 0x8000#16 [(2#3, 0x7FFF#16)] []).holds .byte a)
      (by decide +kernel)⟩

theorem test_hyp_MemoryToAccumulator :
    let s := scientific 0x8000#16 [(2#3, 0x7FFE#16)] []
    MemClass.c6 ∈ [MemClass.c5, .c6, .c7] ∧ indexPlain (classIndex .c6) 0#3 2#3 ∧
      ∃ a s1, effectiveAddress (classIndex .c6) .word ⟨false, 2#3, none⟩ s = .ok a s1 ∧ s.holds .word a = true :=
  ⟨by decide, fun _ => by decide,
    goes_ok (check := fun a _ => (scientific 0x8000#16 [(2#3, 0x7FFE#16)] []).holds .word a) (by decide +kernel)⟩

theorem test_hyp_AccumulatorIsIndex :
    let s := scientific 0x8000#16 [(2#3, 0x0002#16)] []
    classIndex .c1 ≠ .none ∧ classIndex .c6 ≠ .none ∧ (2#3 : RegNo) ≠ 0#3 ∧
      (∃ a s1, effectiveAddress (classIndex .c1) .word ⟨false, 2#3, none⟩ s = .ok a s1 ∧ s.holds .word a = true) ∧
      ∃ a s1, effectiveAddress (classIndex .c6) .byte ⟨false, 2#3, none⟩ s = .ok a s1 ∧ s.holds .byte a = true :=
  ⟨by decide, by decide, by decide,
    goes_ok (check := fun a _ => (scientific 0x8000#16 [(2#3, 0x0002#16)] []).holds .word a) (by decide +kernel),
    goes_ok (check := fun a _ => (scientific 0x8000#16 [(2#3, 0x0002#16)] []).holds .byte a) (by decide +kernel)⟩

/-- With XR = 0 the address rests on a free value; the extension word here takes it away again. -/
theorem test_hyp_IndexIsProgramCounter :
    let m : MemOperand := ⟨false, 0#3, some (0x0300#16 - Config.freeWord 0)⟩
    classIndex .c2 ≠ .none ∧ classIndex .c5 ≠ .none ∧ m.xr = 0#3 ∧
      (∃ s1, effectiveAddress (classIndex .c2) .word m State.reset = .ok 0x0300#16 s1) ∧
      (∃ s1, effectiveAddress (classIndex .c5) .word m State.reset = .ok 0x0300#16 s1) ∧
      State.reset.holds .word 0x0300#16 = true := by
  refine ⟨by decide, by decide, rfl, ?_, ?_, by decide +kernel⟩ <;>
  · have h : 0x0300#16 - Config.freeWord 0 + Config.freeWord State.reset.freeCount = 0x0300#16 :=
      BitVec.sub_add_cancel _ _
    simp [effectiveAddress, noAddress, classIndex, indirectAddress, Res.bind, baseAddress, State.freeAt, h]

/-- A machine on which the system register FFFEh answers. -/
def withDevice : State :=
  { scientific 0xF000#16 [(2#3, 0xFFFE#16)] [] with par := { resetParams with devices := [0xFFFE#16] } }

theorem test_hyp_SystemRegisterOperand :
    indexPlain (classIndex .c2) 1#3 2#3 ∧
      ∃ a s1, effectiveAddress (classIndex .c2) .word ⟨false, 2#3, none⟩ withDevice = .ok a s1 ∧
        (s1.wordPlace a == .device) = true :=
  ⟨fun _ => by decide, goes_ok (check := fun a s1 => s1.wordPlace a == .device) (by decide +kernel)⟩

theorem test_hyp_OperandStops :
    (∃ a s1, effectiveAddress .increment .word ⟨false, 2#3, none⟩ (scientific 0x8000#16 [(2#3, 0x8001#16)] []) = .ok a s1 ∧
      (s1.wordPlace a == .absent 0x8000#16) = true) ∧
    (∃ a s1, effectiveAddress .none .byte ⟨false, 2#3, none⟩ (scientific 0x8000#16 [(2#3, 0xF000#16)] []) = .ok a s1 ∧
      (s1.bytePlace a == .refused (.systemRegisterByteOrOdd 0xF000#16)) = true) ∧
    (∃ a s1, effectiveAddress .none .word ⟨false, 2#3, none⟩ (scientific 0x8000#16 [(2#3, 0xFF12#16)] []) = .ok a s1 ∧
      (s1.wordPlace a == .refused (.ownRegisterBlock 0xFF12#16)) = true) :=
  ⟨goes_ok (check := fun a s1 => s1.wordPlace a == .absent 0x8000#16) (by decide +kernel),
    goes_ok (check := fun a s1 => s1.bytePlace a == .refused (.systemRegisterByteOrOdd 0xF000#16)) (by decide +kernel),
    goes_ok (check := fun a s1 => s1.wordPlace a == .refused (.ownRegisterBlock 0xFF12#16)) (by decide +kernel)⟩

/-- FCL and class B: the operand past memory, or refused; the second word of a pair past memory. -/
theorem test_hyp_OperandStops_pairs :
    State.reset.par.model ≠ .m1110 ∧ State.reset.par.model.scientific = true ∧ 2 ≤ (2#3 : RegNo).toNat ∧
    (3#2 : BitVec 2) ≠ 0#2 ∧ 6#3 ∈ [2#3, 4#3, 6#3] ∧
    (∃ a s1, effectiveAddress .none .word ⟨false, 2#3, none⟩ (scientific 0x8000#16 [(2#3, 0x8000#16)] []) = .ok a s1 ∧
      (s1.operandPlace .word a == .absent 0x8000#16) = true) ∧
    (∃ a s1, effectiveAddress .none .byte ⟨false, 2#3, none⟩ (scientific 0x8000#16 [(2#3, 0xF001#16)] []) = .ok a s1 ∧
      (s1.operandPlace .byte a == .refused (.systemRegisterByteOrOdd 0xF001#16)) = true) ∧
    (∃ a s1, effectiveAddress .none .word ⟨false, 2#3, none⟩ (scientific 0x8000#16 [(2#3, 0x7FFE#16)] []) = .ok a s1 ∧
      (goes (readWord a s1) (fun _ _ => s1.wordPlace (a + 2#16) == .absent 0x8000#16) &&
        goes (writeWord a 0#16 s1) (fun _ _ => s1.wordPlace (a + 2#16) == .absent 0x8000#16)) = true) :=
  ⟨by decide, by decide, by decide, by decide, by decide,
    goes_ok (check := fun a s1 => s1.operandPlace .word a == .absent 0x8000#16) (by decide +kernel),
    goes_ok (check := fun a s1 => s1.operandPlace .byte a == .refused (.systemRegisterByteOrOdd 0xF001#16))
      (by decide +kernel),
    goes_ok (check := fun a s1 => goes (readWord a s1) (fun _ _ => s1.wordPlace (a + 2#16) == .absent 0x8000#16) &&
      goes (writeWord a 0#16 s1) (fun _ _ => s1.wordPlace (a + 2#16) == .absent 0x8000#16)) (by decide +kernel)⟩

/-- What a part of an instruction stops with. -/
def stopOf {α : Type} : Res α → Nat
  | .ok _ _ => 0
  | .unimplemented _ => 1
  | .abort _ _ => 2
  | .refuse _ => 3

theorem test_hyp_AddressStops :
    stopOf (effectiveAddress .none .word ⟨true, 0#3, none⟩ State.reset) = 1 ∧
    stopOf (effectiveAddress .none .word ⟨true, 0#3, some 0x8000#16⟩ (scientific 0x8000#16 [] [])) = 2 ∧
    stopOf (effectiveAddress .none .word ⟨true, 0#3, some 0xFF12#16⟩ State.reset) = 3 ∧
    State.reset.par.model ≠ .m1110 ∧ State.reset.par.model.scientific = true ∧ 2 ≤ (2#3 : RegNo).toNat ∧
    (3#2 : BitVec 2) ≠ 0#2 := by decide +kernel

theorem test_hyp_Jumps :
    ∃ a s1, effectiveAddress .none .word ⟨true, 0#3, some 0x0300#16⟩ (scientific 0x8000#16 [] [(0x0300#16, 0x0500#16)]) =
      .ok a s1 ∧ (a == 0x0500#16) = true :=
  goes_ok (check := fun a _ => a == 0x0500#16) (by decide +kernel)

/-! Shifts and normalizes: the ends of the operand range, zero, a pair and a register that are not zero. -/

theorem test_hyp_SingleShifts : (7#3 : RegNo) ≠ 0#3 ∧ (0#4).toNat < 16 ∧ (15#4).toNat < 16 := by decide

theorem test_hyp_DoubleShifts :
    State.reset.par.model.scientific = true ∧ (1#2 : BitVec 2) ≠ 0#2 ∧ 6#3 ∈ [2#3, 4#3, 6#3] ∧
      (7#3 : RegNo) ≠ 0#3 := by decide

theorem test_hyp_SingleNormalize :
    let zero := scientific 0xF000#16 [(1#3, 0#16)] []
    let least := scientific 0xF000#16 [(1#3, 0xFFFF#16), (2#3, 5#16)] []
    zero.par.model.scientific = true ∧ zero.data 2#16 1#3 = 0#16 ∧
      least.par.model.scientific = true ∧ least.data 2#16 1#3 ≠ 0#16 ∧ (2#3 : RegNo) ≠ 0#3 ∧ (2#3 : RegNo) ≠ 1#3 := by
  decide +kernel

theorem test_hyp_DoubleArithmeticNormalize :
    let zero := scientific 0xF000#16 [(3#3, 0x8000#16)] []
    let least := scientific 0xF000#16 [(2#3, 0xFFFF#16), (3#3, 0x7FFF#16)] []
    zero.par.model.scientific = true ∧ 2#3 ∈ [2#3, 4#3, 6#3] ∧ zero.number 2#3 = 0#31 ∧
      least.number 2#3 ≠ 0#31 ∧ (4#3 : RegNo) ≠ 0#3 ∧ (4#3 : RegNo) ≠ 2#3 ∧ 4#3 ≠ oddRegister 2#3 := by decide +kernel

theorem test_hyp_DoubleLogicalNormalize :
    let zero := scientific 0xF000#16 [] []
    let least := scientific 0xF000#16 [(3#3, 0x8000#16)] []
    zero.par.model.scientific = true ∧ zero.string 2#3 = 0#32 ∧ least.string 2#3 ≠ 0#32 ∧
      (4#3 : RegNo) ≠ 0#3 ∧ (4#3 : RegNo) ≠ 2#3 ∧ 4#3 ≠ oddRegister 2#3 := by decide +kernel

theorem test_hyp_NormalizeIndexOpen :
    let s := scientific 0xF000#16 [(3#3, 1#16)] []
    s.par.model.scientific = true ∧ 2#3 ∈ [2#3, 4#3, 6#3] ∧
      (∀ xr ∈ [0#3, 2#3, 3#3], xr = 0#3 ∨ xr = 2#3 ∨ xr = oddRegister 2#3) ∧
      (∀ op ∈ [NormOp.lan, .lln, .ran, .rln], doubleZero op (s.reg 2#3) (s.reg (oddRegister 2#3)) = false) := by
  decide +kernel

/-! Control instructions: an address at the end of memory, a run of words that ends there, and one past it. -/

theorem test_hyp_HaltsAndWaits :
    (0x7800#16 : Word) >>> 12 ≠ 15#16 ∧ (0xF800#16 : Word) >>> 12 = 15#16 ∧
      (0x0800#16 : Word) ||| ((15#4).setWidth 16 <<< 12) = 0xF800#16 := by decide

theorem test_hyp_StoresStatusAndRegisters :
    let s := scientific 0x01FE#16 [] []
    s.inMemory (evenAddr (2#16 * (0xFE#8).setWidth 16)) = true ∧
      (∀ a ∈ sevenWords (2#16 * (0xF8#8).setWidth 16), s.inMemory (evenAddr a) = true) :=
  ⟨by decide +kernel, List.all_eq_true.mp (by decide +kernel)⟩

theorem test_hyp_LoadsStatusAndRegisters :
    let s := scientific 0x01FE#16 [] [(0x01FC#16, 0xFFFF#16)]
    let m := 2#16 * (0xFE#8).setWidth 16
    s.inMemory (evenAddr m) = true ∧ (s.mem.word m).getLsbD 11 = true ∧
      (∀ a ∈ sevenWords (2#16 * (0xF8#8).setWidth 16), s.inMemory (evenAddr a) = true) :=
  ⟨by decide +kernel, by decide +kernel, List.all_eq_true.mp (by decide +kernel)⟩

theorem test_hyp_Returns :
    let s := scientific 0x01FE#16 [] [(0x01FA#16, 0x0800#16)]
    let m := 2#16 * (0xFD#8).setWidth 16
    s.inMemory (evenAddr m) = true ∧ s.inMemory (evenAddr (m + 2#16)) = true ∧
      (s.mem.word m).getLsbD 11 = true := by decide +kernel

theorem test_hyp_InactiveStatus :
    let s := scientific 0x01FE#16 [] [(0x01FA#16, 0xF7FF#16)]
    let m := 2#16 * (0xFD#8).setWidth 16
    s.inMemory (evenAddr m) = true ∧ (s.mem.word m).getLsbD 11 = false ∧
      s.inMemory (evenAddr (m + 2#16)) = true := by decide +kernel

theorem test_hyp_ControlAborts :
    (scientific 0x01FE#16 [] []).wordPlace (2#16 * (0xFF#8).setWidth 16) = .absent 0x01FE#16 ∧
    (let s := (scientific 0xF000#16 [] []).setPc 0xEFFF#16
     s.wordPlace (s.pc + 2#16 * (1#8).signExtend 16) = .refused (.systemRegisterByteOrOdd 0xF001#16)) ∧
    (∃ v s1, readWord 0x01FC#16 (scientific 0x01FE#16 [] []) = .ok v s1 ∧
      (s1.wordPlace (0x01FC#16 + 2#16) == .absent 0x01FE#16) = true) :=
  ⟨by decide +kernel, by decide +kernel,
    goes_ok (check := fun _ s1 => s1.wordPlace (0x01FC#16 + 2#16) == .absent 0x01FE#16) (by decide +kernel)⟩

/-- Word 6 of a run that begins at 01F2h past memory, and word 1 of one at the odd address EFFFh refused. -/
theorem test_hyp_ControlAborts_later :
    (let s := scientific 0x01FE#16 [] []
     (∀ i, i < 6 → s.wordPlace (2#16 * (0xF9#8).setWidth 16 + BitVec.ofNat 16 (2 * i)) = .memory) ∧
       s.wordPlace (2#16 * (0xF9#8).setWidth 16 + BitVec.ofNat 16 (2 * 6)) = .absent 0x01FE#16) ∧
    (let s := (scientific 0xF000#16 [] []).setPc 0xEFFF#16
     (∀ i, i < 1 → s.wordPlace (s.pc + BitVec.ofNat 16 (2 * i)) = .memory) ∧
       s.wordPlace (s.pc + BitVec.ofNat 16 (2 * 1)) = .refused (.systemRegisterByteOrOdd 0xF001#16)) := by decide +kernel

/-! Interrupts: the block just inside memory, and just outside it. -/

theorem test_hyp_SelfInterrupts :
    let block := 0x20#16 + 0x10#16 * (3#2).setWidth 16 + 8#16
    (machine .m1110 3#2 0x005E#16 [] 0x0800#16 []).par.memTop.toNat < block.toNat + 8 ∧
      block.toNat + 8 ≤ (machine .m1110 3#2 0x0060#16 [] 0x0800#16 []).par.memTop.toNat := by decide +kernel

theorem test_hyp_ReturnRestores :
    let s := machine .m1110 3#2 0x0060#16 [] 0x0800#16 []
    s.flag .a = true ∧ (∃ t, takeAbort 0xFFFF#16 s = .next t ∧ t.wf = true) ∧
      ∃ t, takeUnimplemented 0xFFFF#16 s = .next t ∧ t.wf = true :=
  ⟨by decide +kernel, goesOn_next (check := State.wf) (by decide +kernel),
    goesOn_next (check := State.wf) (by decide +kernel)⟩

/-! Fetch and clear, key, bits, moves, fixed point. -/

theorem test_hyp_FetchAndClear :
    let s := scientific 0x8000#16 [(2#3, 0x7FFF#16)] []
    State.reset.par.model ≠ .m1110 ∧ (machine .m1110 0#2 0xF000#16 [] 0#16 []).par.model = .m1110 ∧
      (∃ a s1, effectiveAddress .none .word ⟨false, 2#3, none⟩ s = .ok a s1 ∧ s.holds .word a = true) ∧
      ∃ a s1, effectiveAddress .none .byte ⟨false, 2#3, none⟩ s = .ok a s1 ∧ s.holds .byte a = true :=
  ⟨by decide, by decide,
    goes_ok (check := fun a _ => (scientific 0x8000#16 [(2#3, 0x7FFF#16)] []).holds .word a) (by decide +kernel),
    goes_ok (check := fun a _ => (scientific 0x8000#16 [(2#3, 0x7FFF#16)] []).holds .byte a) (by decide +kernel)⟩

theorem test_hyp_KeyInstructions :
    Model.m1110A ≠ .m1110 ∧ Model.m1112A.scientific = true ∧ Model.m1111B.scientific = false ∧
      (7#3 : RegNo) ≠ 0#3 := by decide

theorem test_hyp_BitInstructions : State.reset.par.model.scientific = true ∧ (7#3 : RegNo) ≠ 0#3 := by decide

theorem test_hyp_Moves : State.reset.par.model.scientific = true := rfl

theorem test_hyp_LoadAndStorePair :
    let s := scientific 0x8000#16 [(4#3, 0x7FFC#16)] []
    s.par.model.scientific = true ∧ 6#3 ∈ [2#3, 4#3, 6#3] ∧
      ∃ a s1, effectiveAddress .none .word ⟨false, 4#3, none⟩ s = .ok a s1 ∧
        (s.holds .word a && s.holds .word (a + 2#16)) = true :=
  ⟨rfl, by decide, goes_ok (check := fun a _ => (scientific 0x8000#16 [(4#3, 0x7FFC#16)] []).holds .word a &&
    (scientific 0x8000#16 [(4#3, 0x7FFC#16)] []).holds .word (a + 2#16)) (by decide +kernel)⟩

/-- The same operand lies where both words are in memory. -/
theorem test_hyp_AddAndSubtractPair :
    let s := scientific 0x8000#16 [(2#3, 0x8000#16), (4#3, 0x7FFC#16)] [(0x7FFC#16, 0x8000#16)]
    s.par.model.scientific = true ∧ 2#3 ∈ [2#3, 4#3, 6#3] ∧
      ∃ a s1, effectiveAddress .none .word ⟨false, 4#3, none⟩ s = .ok a s1 ∧
        (s.holds .word a && s.holds .word (a + 2#16)) = true :=
  ⟨rfl, by decide, goes_ok
    (check := fun a _ => (scientific 0x8000#16 [(2#3, 0x8000#16), (4#3, 0x7FFC#16)] [(0x7FFC#16, 0x8000#16)]).holds .word a &&
      (scientific 0x8000#16 [(2#3, 0x8000#16), (4#3, 0x7FFC#16)] [(0x7FFC#16, 0x8000#16)]).holds .word (a + 2#16))
    (by decide +kernel)⟩

theorem test_hyp_Multiplies :
    let s := scientific 0x8000#16 [(3#3, 0x8000#16), (4#3, 0x7FFE#16)] [(0x7FFE#16, 0x8001#16)]
    s.par.model.scientific = true ∧ (1#2 : BitVec 2) ≠ 0#2 ∧
      ∃ a s1, effectiveAddress .none .word ⟨false, 4#3, none⟩ s = .ok a s1 ∧
        (s.holds .word a && s.mem.word a == 0x8001#16) = true :=
  ⟨rfl, by decide, goes_ok
    (check := fun a _ => (scientific 0x8000#16 [(3#3, 0x8000#16), (4#3, 0x7FFE#16)] [(0x7FFE#16, 0x8001#16)]).holds .word a &&
      (scientific 0x8000#16 [(3#3, 0x8000#16), (4#3, 0x7FFE#16)] [(0x7FFE#16, 0x8001#16)]).mem.word a == 0x8001#16)
    (by decide +kernel)⟩

/-- The dividend of the pair (2, 3). -/
def dividend (hi lo w : Word) : State :=
  scientific 0x8000#16 [(2#3, hi), (3#3, lo), (4#3, 0x7FFE#16)] [(0x7FFE#16, w)]

/-- The condition of the divide check in the words of `Divides`. -/
def checked (hi lo w : Word) : Prop :=
  let n := ((dividend hi lo w).number 2#3).toInt
  w = 0#16 ∨ w = 0x8000#16 ∨ n = -2 ^ 30 ∨ 32767 < n.natAbs / w.toInt.natAbs

/-- Each ground of the divide check, and both sides of its boundary. -/
theorem test_hyp_Divides :
    let s := dividend 0#16 0x7FFF#16 1#16
    s.par.model.scientific = true ∧ 2 ≤ (2#3 : RegNo).toNat ∧
      (∃ a s1, effectiveAddress .none .word ⟨false, 4#3, none⟩ s = .ok a s1 ∧ s.holds .word a = true) ∧
      checked 0#16 1#16 0#16 ∧ checked 0#16 1#16 0x8000#16 ∧ checked 0x8000#16 0#16 2#16 ∧ checked 1#16 0#16 1#16 ∧
      ¬ checked 0#16 0x7FFF#16 1#16 ∧ ¬ checked 0xFFFF#16 0x0001#16 0xFFFF#16 :=
  ⟨rfl, by decide, goes_ok (check := fun a _ => (dividend 0#16 0x7FFF#16 1#16).holds .word a) (by decide +kernel),
    by unfold checked; decide +kernel, by unfold checked; decide +kernel, by unfold checked; decide +kernel,
    by unfold checked; decide +kernel, by unfold checked; decide +kernel, by unfold checked; decide +kernel⟩

theorem test_hyp_ClassDesignators :
    Model.m1111B.scientific = false ∧ Model.m1112B.decimal = false ∧ (1#3 : RegNo).toNat < 2 ∧
      (let s := scientific 0x8000#16 [] []
       s.par.model.scientific = true ∧ 7#3 ∈ [3#3, 5#3, 7#3] ∧
         ∃ a s1, effectiveAddress .none .word ⟨false, 0#3, some 0xFFFF#16⟩ s = .ok a s1 ∧ (a == 0xFFFF#16) = true) ∧
      (decimalState 0xF000#16).par.model.decimal = true :=
  ⟨rfl, rfl, by decide, ⟨rfl, by decide, goes_ok (check := fun a _ => a == 0xFFFF#16) (by decide +kernel)⟩, rfl⟩

/-! Decimal and character instructions. -/

theorem test_hyp_DecimalArithmetic :
    let s := decimalState 0x0312#16
    let src := s.field 1#3 1#4 0#3
    let dst := s.field 2#3 1#4 0#3
    s.par.model.decimal = true ∧ (1#3 : RegNo) ≠ 0#3 ∧ (2#3 : RegNo) ≠ 0#3 ∧ s.holdsField src = true ∧
      s.holdsField dst = true ∧ src.overlap dst = false ∧
      (∃ u s1, saveScratch s = .ok u s1 ∧ (fieldValid (src.bytes s1.mem) && fieldValid (dst.bytes s1.mem) &&
        decide (magnitude (fieldDigits (src.bytes s1.mem)) < 10 ^ (2 * dst.len - 1))) = true) :=
  ⟨by decide +kernel, by decide, by decide, by decide +kernel, by decide +kernel, by decide +kernel,
    goes_ok (check := fun _ s1 =>
      let src := (decimalState 0x0312#16).field 1#3 1#4 0#3
      let dst := (decimalState 0x0312#16).field 2#3 1#4 0#3
      fieldValid (src.bytes s1.mem) && fieldValid (dst.bytes s1.mem) &&
        decide (magnitude (fieldDigits (src.bytes s1.mem)) < 10 ^ (2 * dst.len - 1))) (by decide +kernel)⟩

theorem test_hyp_DecimalFrame :
    let s := machine .m1111B 3#2 0x0058#16 [(1#3, 0x0056#16), (2#3, 0x0057#16)] 0x0800#16 []
    0x28 + 0x10 * s.par.cpu.toNat ≤ s.par.memTop.toNat ∧ s.par.model.decimal = true ∧ (1#3 : RegNo) ≠ 0#3 ∧
      s.holdsField (s.field 1#3 0#4 0#3) = true ∧ (2#3 : RegNo) ≠ 0#3 ∧
      s.holdsField (s.field 2#3 0#4 0#3) = true := by decide +kernel

theorem test_hyp_DecimalAborts :
    let s := decimalState 0x0311#16
    s.par.model.decimal = true ∧ (1#3 : RegNo) ≠ 0#3 ∧ (∃ u s1, saveScratch s = .ok u s1 ∧ s1.mem.wf = true) ∧
      s.holdsField (s.field 2#3 1#4 0#3) = false ∧ s.holdsField (s.field 1#3 15#4 3#3) = false ∧
      s.extended 1#4 0#3 ≠ 0 :=
  ⟨by decide +kernel, by decide, goes_ok (check := fun _ s1 => s1.mem.wf) (by decide +kernel), by decide +kernel,
    by decide +kernel, by decide +kernel⟩

theorem test_hyp_FieldCompare :
    let s := decimalState 0x0312#16
    let src := s.field 1#3 1#4 0#3
    let dst := s.field 2#3 1#4 0#3
    s.holdsField src = true ∧ s.holdsField dst = true ∧
      ∃ u s1, saveScratch s = .ok u s1 ∧ (fieldValid (src.bytes s1.mem) && fieldValid (dst.bytes s1.mem)) = true :=
  ⟨by decide +kernel, by decide +kernel, goes_ok (check := fun _ s1 =>
    fieldValid (((decimalState 0x0312#16).field 1#3 1#4 0#3).bytes s1.mem) &&
      fieldValid (((decimalState 0x0312#16).field 2#3 1#4 0#3).bytes s1.mem)) (by decide +kernel)⟩

theorem test_hyp_DecimalShifts :
    let s := decimalState 0x0312#16
    s.holdsField (s.field 2#3 1#4 0#3) = true ∧ (0#4).toNat + (if (0#3 : RegNo) = 0#3 then 0 else 1) = 0 ∧
      (15#4).toNat + (if (3#3 : RegNo) = 0#3 then 0 else (s.reg 3#3).toNat) ≠ 0 ∧
      ∃ u s1, saveScratch s = .ok u s1 ∧ fieldValid ((s.field 2#3 1#4 0#3).bytes s1.mem) = true :=
  ⟨by decide +kernel, by decide, by decide +kernel, goes_ok (check := fun _ s1 =>
    fieldValid (((decimalState 0x0312#16).field 2#3 1#4 0#3).bytes s1.mem)) (by decide +kernel)⟩

/-- Fields of different lengths that overlap. -/
theorem test_hyp_FieldMoves :
    let s := machine .m1111A 0#2 0x0304#16 [(1#3, 0x0300#16), (2#3, 0x0301#16)] 0x0800#16 []
    s.par.model.decimal = true ∧ s.holdsField (s.field 1#3 3#4 0#3) = true ∧
      s.holdsField (s.field 2#3 2#4 0#3) = true ∧ ∃ u s1, saveScratch s = .ok u s1 ∧ s1.mem.wf = true :=
  ⟨by decide +kernel, by decide +kernel, by decide +kernel, goes_ok (check := fun _ s1 => s1.mem.wf) (by decide +kernel)⟩

theorem test_hyp_OtherModels :
    Model.m1110.scientific = false ∧ Model.m1112B.scientific = true ∧ 1#3 ∉ [2#3, 4#3, 6#3] := by decide

/-! Decimal values, from the worked examples of the spec (E1 of 95_test_vectors.md) and V153, V164 to V167. -/

theorem test_decimal_values :
    fieldValue [0x5C#8, 0x38#8, 0x01#8] = 1385 ∧ fieldValue [0x3D#8, 0x57#8, 0x35#8] = -35573 ∧
      fieldValue [0x0D#8] = fieldValue [0x0C#8, 0x00#8] ∧
      firstGreater [0xC1#8, 0xC3#8, 0xA0#8] [0xC1#8, 0xC2#8, 0xDA#8] = true ∧
      firstGreater [0xC1#8, 0xA0#8] [0xC1#8, 0x87#8] = true ∧
      firstGreater [0xC1#8, 0xC2#8] [0xC1#8, 0xC3#8] = false := by decide +kernel

/-! An Abort on the operand of an autoincrement class comes after the increment and LP (R153, R161, R515, log 10): the saved
status shows LP, as ADDW of class 6 finds nothing at 8000h with the index at FFFEh. -/

theorem test_abort_after_increment :
    goesOn (exec (.addwC6 1#3 ⟨false, 2#3, some 0x8002#16⟩) (scientific 0x8000#16 [(2#3, 0xFFFE#16)] []))
      (fun t => t.reg 2#3 == 0#16 && t.mem.word 0x28#16 == 0x8000#16 && t.mem.word 0x2A#16 == 0x0880#16) = true := by
  decide +kernel

end Sys2Proof.Machine
end

section
/-! SUPPORT. The formats of the instructions, with the words of each, and the decoder on the words of the encoder; then
the step of a running processor that finds an instruction (O4). -/

namespace Sys2Proof

/-- The forms of the instruction formats (R102, R106 to R110, R117 to R122): the words of an instruction and the
instruction they name, a group of rows of the opcode table that share a format being one form. -/
inductive Instr.Form : List Word → Instr → Prop
  | halt (d) : Form [displacementWord 0#4 0#4 d] (.halt d)
  | stsm (rel d) : Form [displacementWord 0#4 (bit1 rel ++ 1#3) d] (.stsm rel d)
  | rsts (f) : Form [statusWord 0#1 f] (.rsts f)
  | sets (f) : Form [statusWord 1#1 f] (.sets f)
  | regm (rel d) : Form [displacementWord 0#4 (bit1 rel ++ 3#3) d] (.regm rel d)
  | retn (rel d) : Form [displacementWord 0#4 (bit1 rel ++ 4#3) d] (.retn rel d)
  | msts (rel d) : Form [displacementWord 0#4 (bit1 rel ++ 5#3) d] (.msts rel d)
  | mreg (rel d) : Form [displacementWord 0#4 (bit1 rel ++ 7#3) d] (.mreg rel d)
  | wait : Form [maskWord 4#4 0#4] .wait
  | waitD : Form [maskWord 12#4 0#4] .waitD
  | enbl (k) : Form [maskWord 0#4 k] (.enbl k)
  | enbw (k) : Form [maskWord 4#4 k] (.enbw k)
  | dsbl (k) : Form [maskWord 8#4 k] (.dsbl k)
  | dsbw (k) : Form [maskWord 12#4 k] (.dsbw k)
  | fclw (ar m) : Form (fclWord .word ar m :: m.words) (.fclw ar m)
  | fclb (ar m) : Form (fclWord .byte ar m :: m.words) (.fclb ar m)
  | skey (k) : Form [] (.skey k)
  | jkey (k target) : Form [] (.jkey k target)
  | lcpu (xr) : Form [] (.lcpu xr)
  | lkey (xr) : Form [] (.lkey xr)
  | mem (cls size op ar m) : Form (memWord cls size op ar m :: m.words) (memInstr cls size op ar m)
  | jump (m) : Form (jumpWord 0#3 m :: m.words) (.jump m)
  | jsbr (ar m) : Form (jumpWord ar m :: m.words) (.jsbr ar m)
  | dataI (op ar k) : Form [constantWord 4#4 1#1 (Operation.code op) 1#1 ar k] (dataI op ar k)
  | dataR (op ar xr) : Form [assemble 4#4 1#1 (Operation.code op) 0#1 ar 0#1 xr] (dataR op ar xr)
  | dataL (op ar xr lit) : Form [assemble 4#4 1#1 (Operation.code op) 0#1 ar 1#1 xr, lit] (dataL op ar xr lit)
  | bitK (op ar k) : Form [constantWord 4#4 0#1 (BitOp.code op) 1#1 ar k] (bitInstrK op ar k)
  | bitX (op ar xr) : Form [assemble 4#4 0#1 (BitOp.code op) 0#1 ar 0#1 xr] (bitInstrX op ar xr)
  | bitM (op ar xr mask) : Form [assemble 4#4 0#1 (BitOp.code op) 0#1 ar 1#1 xr, mask] (bitInstrM op ar xr mask)
  | move (op ar xr) : Form [assemble 4#4 0#1 7#3 (MoveOp.iBit op) ar (MoveOp.jBit op) xr] (moveInstr op ar xr)
  | nopr (d) : Form [displacementWord 8#4 0#4 d] (.nopr d)
  | brun (d) : Form [displacementWord 9#4 0#4 d] (.brun d)
  | branchFalse (c d) : Form [displacementWord 8#4 (Condition.code c) d] (branchInstr c false d)
  | branchTrue (c d) : Form [displacementWord 9#4 (Condition.code c) d] (branchInstr c true d)
  | shiftK (op ar k) : Form [constantWord 10#4 0#1 (ShiftOp.code op) 1#1 ar k] (shiftInstrK op ar k)
  | shiftX (op ar xr) : Form [assemble 10#4 0#1 (ShiftOp.code op) 0#1 ar 0#1 xr] (shiftInstrX op ar xr)
  | norm (op ar xr) : Form [assemble 10#4 0#1 (NormOp.code op) 0#1 ar 1#1 xr] (normInstr op ar xr)
  | dnorm (op ar xr) : Form [assemble 10#4 1#1 (NormOp.code op) 0#1 ar 1#1 xr] (dnormInstr op ar xr)
  | dshiftK (op pair k) : Form [dshiftWordK (ShiftOp.code op) pair k] (dshiftInstrK op pair k)
  | dshiftX (op ar xr) : Form [assemble 10#4 1#1 (ShiftOp.code op) 0#1 ar 0#1 xr] (dshiftInstrX op ar xr)
  | dsta (ar m) : Form (fixedWord 0#3 ar m :: m.words) (.dsta ar m)
  | dsub (ar m) : Form (fixedWord 1#3 ar m :: m.words) (.dsub ar m)
  | dadd (ar m) : Form (fixedWord 2#3 ar m :: m.words) (.dadd ar m)
  | mlta (pair m) : Form (fixedWord 3#3 (pair ++ 0#1) m :: m.words) (.mlta pair m)
  | mult (pair m) : Form (fixedWord 3#3 (pair ++ 1#1) m :: m.words) (.mult pair m)
  | divd (ar m) : Form (fixedWord 4#3 ar m :: m.words) (.divd ar m)
  | dlod (ar m) : Form (fixedWord 5#3 ar m :: m.words) (.dlod ar m)
  | zadd (r1 r2 l1 l2 x1 x2) : Form [decimalWord 2#4 r1 r2, decimalWord2 l1 l2 x1 x2] (.zadd r1 r2 l1 l2 x1 x2)
  | addd (r1 r2 l1 l2 x1 x2) : Form [decimalWord 3#4 r1 r2, decimalWord2 l1 l2 x1 x2] (.addd r1 r2 l1 l2 x1 x2)
  | subd (r1 r2 l1 l2 x1 x2) : Form [decimalWord 4#4 r1 r2, decimalWord2 l1 l2 x1 x2] (.subd r1 r2 l1 l2 x1 x2)
  | cmpd (r1 r2 l1 l2 x1 x2) : Form [decimalWord 5#4 r1 r2, decimalWord2 l1 l2 x1 x2] (.cmpd r1 r2 l1 l2 x1 x2)
  | movr (r1 r2 l1 l2 x1 x2) : Form [decimalWord 9#4 r1 r2, decimalWord2 l1 l2 x1 x2] (.movr r1 r2 l1 l2 x1 x2)
  | movl (r1 r2 l1 l2 x1 x2) : Form [decimalWord 11#4 r1 r2, decimalWord2 l1 l2 x1 x2] (.movl r1 r2 l1 l2 x1 x2)
  | comp (r1 r2 l1 l2 x1 x2) : Form [decimalWord 12#4 r1 r2, decimalWord2 l1 l2 x1 x2] (.comp r1 r2 l1 l2 x1 x2)
  | sftr (r1 l1 sh x1 x2) : Form [decimalWord 8#4 r1 0#3, decimalWord2 l1 sh x1 x2] (.sftr r1 l1 sh x1 x2)
  | sftl (r1 l1 sh x1 x2) : Form [decimalWord 10#4 r1 0#3, decimalWord2 l1 sh x1 x2] (.sftl r1 l1 sh x1 x2)

/-- Every instruction with its words has one of the forms: each row of the opcode table is found by its encoding. -/
theorem Instr.form (i : Instr) : Instr.Form (encode i) i := by
  cases i with
  | movwC1 | subwC1 | addwC1 | andwC1 | iorwC1 | eorwC1 | cmpwC1 | tstwC1 | movbC1 | subbC1 | addbC1 | andbC1
  | iorbC1 | eorbC1 | cmpbC1 | tstbC1 | movwC2 | subwC2 | addwC2 | andwC2 | iorwC2 | eorwC2 | cmpwC2 | tstwC2
  | movbC2 | subbC2 | addbC2 | andbC2 | iorbC2 | eorbC2 | cmpbC2 | tstbC2 | movwC3 | subwC3 | addwC3 | andwC3
  | iorwC3 | eorwC3 | cmpwC3 | tstwC3 | movbC3 | subbC3 | addbC3 | andbC3 | iorbC3 | eorbC3 | cmpbC3 | tstbC3
  | movwC5 | subwC5 | addwC5 | andwC5 | iorwC5 | eorwC5 | cmpwC5 | tstwC5 | movbC5 | subbC5 | addbC5 | andbC5
  | iorbC5 | eorbC5 | cmpbC5 | tstbC5 | movwC6 | subwC6 | addwC6 | andwC6 | iorwC6 | eorwC6 | cmpwC6 | tstwC6
  | movbC6 | subbC6 | addbC6 | andbC6 | iorbC6 | eorbC6 | cmpbC6 | tstbC6 | movwC7 | subwC7 | addwC7 | andwC7
  | iorwC7 | eorwC7 | cmpwC7 | tstwC7 | movbC7 | subbC7 | addbC7 | andbC7 | iorbC7 | eorbC7 | cmpbC7 | tstbC7 =>
    exact .mem _ _ _ _ _
  | movwI | subwI | addwI | andwI | iorwI | eorwI | cmpwI | tstwI => exact .dataI _ _ _
  | movwR | subwR | addwR | andwR | iorwR | eorwR | cmpwR | tstwR => exact .dataR _ _ _
  | movwL | subwL | addwL | andwL | iorwL | eorwL | cmpwL | tstwL => exact .dataL _ _ _ _
  | rbitK | sbitK | cbitK | ibitK | tsbtK | tbitK => exact .bitK _ _ _
  | rbitX | sbitX | cbitX | ibitX | tsbtX | tbitX => exact .bitX _ _ _
  | rbitM | sbitM | cbitM | ibitM | tsbtM | tbitM => exact .bitM _ _ _ _
  | negt | cplm | movp | movn => exact .move _ _ _
  | beqf | bgtf | bovf | bcyf | bf1f | bf2f | bf3f | blpf | bodf | bzef | bngf | bltf => exact .branchFalse _ _
  | beqt | bgtt | bovt | bcyt | bf1t | bf2t | bf3t | blpt | bodt | bzet | bngt | bltt => exact .branchTrue _ _
  | slaoK | slllK | slloK | sllcK | sraoK | srllK | srloK | srlcK => exact .shiftK _ _ _
  | slaoX | slllX | slloX | sllcX | sraoX | srllX | srloX | srlcX => exact .shiftX _ _ _
  | dlaoK | dlllK | dlloK | dllcK | draoK | drllK | drloK | drlcK => exact .dshiftK _ _ _
  | dlaoX | dlllX | dlloX | dllcX | draoX | drllX | drloX | drlcX => exact .dshiftX _ _ _
  | slan | slln | sran | srln => exact .norm _ _ _
  | dlan | dlln | dran | drln => exact .dnorm _ _ _
  | halt => exact .halt _
  | stsm => exact .stsm _ _
  | rsts => exact .rsts _
  | sets => exact .sets _
  | regm => exact .regm _ _
  | retn => exact .retn _ _
  | msts => exact .msts _ _
  | mreg => exact .mreg _ _
  | wait => exact .wait
  | waitD => exact .waitD
  | enbl => exact .enbl _
  | enbw => exact .enbw _
  | dsbl => exact .dsbl _
  | dsbw => exact .dsbw _
  | fclw => exact .fclw _ _
  | fclb => exact .fclb _ _
  | skey => exact .skey _
  | jkey => exact .jkey _ _
  | lcpu => exact .lcpu _
  | lkey => exact .lkey _
  | jump => exact .jump _
  | jsbr => exact .jsbr _ _
  | nopr => exact .nopr _
  | brun => exact .brun _
  | dsta => exact .dsta _ _
  | dsub => exact .dsub _ _
  | dadd => exact .dadd _ _
  | mlta => exact .mlta _ _
  | mult => exact .mult _ _
  | divd => exact .divd _ _
  | dlod => exact .dlod _ _
  | zadd => exact .zadd _ _ _ _ _ _
  | addd => exact .addd _ _ _ _ _ _
  | subd => exact .subd _ _ _ _ _ _
  | cmpd => exact .cmpd _ _ _ _ _ _
  | movr => exact .movr _ _ _ _ _ _
  | movl => exact .movl _ _ _ _ _ _
  | comp => exact .comp _ _ _ _ _ _
  | sftr => exact .sftr _ _ _ _ _
  | sftl => exact .sftl _ _ _ _ _


/-! ## Decoding an encoding -/

theorem bitOp_code_ne_zero (op : BitOp) : op.code ≠ 0#3 := by cases op <;> decide

theorem bitOp_ofCode_seven : BitOp.ofCode 7#3 = none := by decide

theorem condition_code_ne_zero (c : Condition) : c.code ≠ 0#4 := by cases c <;> decide

/-- `operandOf_operandWord` with the second word as `simp` writes it. -/
@[simp] theorem operandOf_operandWord_getD (c : BitVec 4) (b : BitVec 1) (op ar : BitVec 3) (m : MemOperand) :
    operandOf (operandWord c b op ar m) (m.words.head?.getD 0#16) = m := by
  rw [← List.headD_eq_head?_getD, operandOf_operandWord]

/-- Every operand of a well-formed instruction comes back from its encoding (R101 to R111, R117 to R122). The three
forms that need it well formed share their words with another instruction: ENBW and DSBW with WAIT, JSBR with JUMP. -/
theorem decode_encode {i : Instr} {iw : Word} {rest : List Word} (hi : i.wellFormed = true)
    (h : encode i = iw :: rest) : decode iw (rest.headD 0#16) = some i := by
  have hf := i.form
  rw [h] at hf
  cases hf with
  | halt | rsts | sets | wait | waitD | enbl | dsbl => simp [decode, decodeControl]
  | stsm rel | regm rel | retn rel | msts rel | mreg rel => cases rel <;> simp [decode, decodeControl, bit1]
  | enbw k | dsbw k =>
    have hk : k ≠ 0#4 := bne_iff_ne.1 (show waitMaskOk k = true from hi)
    simp [decode, decodeControl, hk]
  | fclw | fclb => simp [decode, decodeControl, fclWord, Size.code]
  | mem cls => cases cls <;> simp [decode, memWord, MemClass.code]
  | jump => simp [decode, decodeClass4, jumpWord]
  | jsbr ar =>
    have har : ar ≠ 0#3 := bne_iff_ne.1 (show linkOk ar = true from hi)
    simp [decode, decodeClass4, jumpWord, har]
  | dataI | dataR | dataL => simp [decode, decodeClass4]
  | bitK op | bitX op | bitM op => simp [decode, decodeClass4, bitOp_code_ne_zero op]
  | move => simp [decode, decodeClass4, bitOp_ofCode_seven]
  | nopr | brun => simp [decode, decodeBranch]
  | branchFalse c | branchTrue c => simp [decode, decodeBranch, condition_code_ne_zero c]
  | shiftK | shiftX | norm | dnorm | dshiftK | dshiftX => simp [decode, decodeClassA]
  | dsta | dsub | dadd | mlta | mult | divd | dlod => simp [decode, decodeClassB, fixedWord]
  | zadd | addd | subd | cmpd | movr | movl | comp | sftr | sftl => simp [decode, decodeDecimal]

/-- What `decode` finds, `decodeWith` finds under any encodings of the key instructions. -/
theorem decodeWith_of_decode {enc : KeyEncodings} {iw iw2 : Word} {i : Instr} (h : decode iw iw2 = some i) :
    decodeWith enc iw iw2 = some i := by rw [decodeWith, h, Option.some_or]

end Sys2Proof

namespace Sys2Proof.Machine

/-! ## The fetch and the step of a running processor -/

theorem fetchWord_memory {a : Word} {s : State} (h : s.inMemory a = true) : fetchWord a s = .ok (s.mem.word a) s :=
  if_pos h

/-- The two words an instruction is decoded from where all that are fetched lie in program memory; a second word that is
not fetched counts as 0 (R66, R104). -/
theorem fetch_memory {s : State} (he : s.pc.getLsbD 0 = false) (h1 : s.inMemory s.pc = true)
    (h2 : hasSecondWord s.par.model s.par.encodings (s.mem.word s.pc) = true → s.inMemory (s.pc + 2#16) = true) :
    fetch s = .ok (s.mem.word s.pc, if hasSecondWord s.par.model s.par.encodings (s.mem.word s.pc) then
      s.mem.word (s.pc + 2#16) else 0#16) s := by
  rw [fetch, he, if_neg Bool.false_ne_true, fetchWord_memory h1, Res.bind_ok]
  split
  · rename_i ht; rw [fetchWord_memory (h2 ht), Res.bind_ok]
  · rfl

/-- Words fetched that decode to `i` make the step the meaning of `i` (R12, R523). -/
theorem step_of_fetch {s : State} {i : Instr} {w : Word × Word} (hrun : s.run = .running) (hreq : s.request = none)
    (hf : fetch s = .ok w s) (hd : decodeWith s.par.encodings w.1 w.2 = some i) : step s = exec i s := by
  simp only [step, hrun, hreq, instruction, hf, hd]

/-- Settles O4: the fetch leaves the state, and a well-formed instruction is what its words decode to. -/
theorem stepRunsDecoded : Obligations.StepRunsDecoded := by
  intro s i iw two hrun hreq he h1 h2
  have hf := fetch_memory he h1 h2
  refine ⟨fun hd => step_of_fetch hrun hreq hf hd, fun hi hw => step_of_fetch hrun hreq hf (decodeWith_of_decode ?_)⟩
  show decode iw (if two then s.mem.word (s.pc + 2#16) else 0#16) = some i
  split at hw
  · rename_i ht
    rw [if_pos ht]
    exact decode_encode hi hw
  · rename_i ht
    rw [if_neg ht]
    exact decode_encode hi hw

end Sys2Proof.Machine
end

section
/-! SUPPORT. Every instruction but those that write the status, the key or the run state ends steady, or in the entry of
a self-interrupt from a steady state: one lemma for each shared operation. -/

namespace Sys2Proof.Machine

/-! ## Status words that keep the steady indicators -/

/-- What no step of a shift changes, no number of steps changes. -/
theorem steady_iterate {f : Flag} {α : Type} (status : α → Word) {g : α → α}
    (h : ∀ x, getFlag f (status (g x)) = getFlag f (status x)) (n : Nat) (x : α) :
    getFlag f (status (g^[n] x)) = getFlag f (status x) := by
  induction n with
  | zero => rfl
  | succ n ih => rw [Function.iterate_succ_apply', h, ih]

section
variable {f : Flag} (hf : f ∈ steadyFlags)
include hf

theorem steady_setFlag {g : Flag} (hg : g ∉ steadyFlags) (b : Bool) (st : Word) :
    getFlag f (setFlag g b st) = getFlag f st := getFlag_setFlag_ne (ne_of_mem_of_not_mem hf hg) b st

theorem steady_setNZO (v st : Word) : getFlag f (setNZO v st) = getFlag f st := by
  rw [setNZO, steady_setFlag hf (by decide), steady_setFlag hf (by decide), steady_setFlag hf (by decide)]

theorem steady_setNZOpair (hi lo st : Word) : getFlag f (setNZOpair hi lo st) = getFlag f st := by
  rw [setNZOpair, steady_setFlag hf (by decide), steady_setFlag hf (by decide), steady_setFlag hf (by decide)]

theorem steady_compareStatus (gt eq : Bool) (st : Word) : getFlag f (compareStatus gt eq st) = getFlag f st := by
  rw [compareStatus, steady_setFlag hf (by decide), steady_setFlag hf (by decide)]

theorem steady_carryOverflow (c v : Bool) (st : Word) :
    getFlag f (setFlag .cy c (setFlag .ov v st)) = getFlag f st := by
  rw [steady_setFlag hf (by decide), steady_setFlag hf (by decide)]

theorem steady_operationStatus (op : Operation) (src tgt st : Word) :
    getFlag f (operationStatus op src tgt st) = getFlag f st :=
  operationStatus_frame (by revert hf; cases op <;> revert f <;> decide) src tgt st

theorem steady_singleStep (op : ShiftOp) (x : Single) : getFlag f (singleStep op x).st = getFlag f x.st := by
  cases op with
  | lao | lll => exact steady_carryOverflow hf _ _ _
  | rll => exact steady_setFlag hf (by decide) _ _
  | llo | llc | rao | rlo | rlc => rfl

theorem steady_singleShift (op : ShiftOp) (n : Nat) (a st : Word) :
    getFlag f (singleShift op n a st).st = getFlag f st := by
  have hn := steady_iterate Single.st (steady_singleStep hf op) n { a := a, st := st }
  cases op with
  | rao => exact (steady_setFlag hf (by decide) _ _).trans hn
  | lao | lll | llo | llc | rll | rlo | rlc => exact hn

theorem steady_arithmeticStep (left : Bool) (x : Double 31) :
    getFlag f (arithmeticStep left x).st = getFlag f x.st := by
  cases left with
  | true => exact steady_carryOverflow hf _ _ _
  | false => rfl

theorem steady_logicalStep (op : ShiftOp) (x : Double 32) : getFlag f (logicalStep op x).st = getFlag f x.st := by
  cases op with
  | lll | rll => exact steady_setFlag hf (by decide) _ _
  | llo | llc | rlo | rlc | lao | rao => rfl

theorem steady_doubleShift (op : ShiftOp) (n : Nat) (hi lo st : Word) :
    getFlag f (doubleShift op n hi lo st).2.2 = getFlag f st := by
  cases op with
  | lao => exact steady_iterate Double.st (steady_arithmeticStep hf true) n _
  | rao => exact steady_iterate Double.st (steady_arithmeticStep hf false) n _
  | lll | llo | llc | rll | rlo | rlc => exact steady_iterate Double.st (steady_logicalStep hf _) n _

end

/-! ## Instructions that end steady -/

/-- The outcome `o` of an instruction begun in `s`, where it is a state, is steady beside `s`, or it is the entry of a
self-interrupt from a state that is. -/
def EndsSteady (s : State) (o : Outcome) : Prop :=
  ∀ t, o = .next t → Steady s t ∨ ∃ u level b w, Steady s u ∧ (level = 5 ∧ b = unimplementedBlock s.par.cpu ∨
    level = 6 ∧ b = abortBlock s.par.cpu) ∧ takeEntry level b w u = .next t

theorem endsSteady_finish {s : State} {iw : Word} {r : Res Unit} (h : r.steady s) : EndsSteady s (Res.finish iw r) :=
  fun _ k => finish_steady h k

theorem endsSteady_next {s t : State} (h : Steady s t) : EndsSteady s (.next t) :=
  endsSteady_finish (iw := 0#16) (r := .ok () t) h

theorem endsSteady_takeUnimplemented (iw : Word) (s : State) : EndsSteady s (takeUnimplemented iw s) :=
  endsSteady_finish (r := .unimplemented s) (.refl s)

theorem endsSteady_refused (s : State) (r : Refusal) : EndsSteady s (.refused r) := fun _ k => nomatch k

theorem endsSteady_undefinedWord (iw : Word) (s : State) : EndsSteady s (undefinedWord iw s) := by
  unfold undefinedWord
  split
  · exact endsSteady_refused _ _
  · exact endsSteady_takeUnimplemented _ _

/-- An instruction that the configured model may lack: it goes on, or its word is undefined. -/
theorem endsSteady_implemented {s t : State} (c : Bool) (iw : Word) (h : Steady s t) :
    EndsSteady s (if c then .next t else undefinedWord iw s) := by
  split
  · exact endsSteady_next h
  · exact endsSteady_undefinedWord _ _

/-! ### General register instructions, JUMP and JSBR -/

theorem endsSteady_toMemory (cls : MemClass) (size : Size) (op : Operation) (ar : RegNo) (m : MemOperand) (s : State) :
    EndsSteady s (toMemory cls size op ar m s) :=
  endsSteady_finish <| Res.steady_bind (steady_effectiveAddress (.refl s) _ _ _) fun _ _ _ hu =>
    Res.steady_bind (steady_operateOnMemory (hu.afterAccumulator _ _ _) _ _ _ _) fun _ _ _ hv =>
      (hv.advance _).closeIndex _ _

theorem Steady.deliver {s t : State} (h : Steady s t) (index : Index) (len : Word) (op : Operation) (ar xr : RegNo)
    (r : Word) : Steady s (deliver index len op ar xr r t) := by
  unfold Machine.deliver
  split
  · split
    · exact (((h.spend 2).setReg _ _).withLp _).advance _
    · exact h.put _ _ _
  · exact h.advance _

theorem endsSteady_fromMemory (cls : MemClass) (size : Size) (op : Operation) (ar : RegNo) (m : MemOperand)
    (s : State) : EndsSteady s (fromMemory cls size op ar m s) :=
  endsSteady_finish <| Res.steady_bind (steady_effectiveAddress (.refl s) _ _ _) fun _ _ _ hu =>
    Res.steady_bind (steady_readOperand hu _ _) fun _ _ _ hv =>
      have hs := (hv.afterAccumulator _ _ _).withStatus fun _ hf => steady_operationStatus hf _ _ _ _
      (hs.deliver _ _ _ _ _ _).closeIndex _ _

theorem endsSteady_memInstr (cls : MemClass) (size : Size) (op : Operation) (ar : RegNo) (m : MemOperand) (s : State) :
    EndsSteady s (exec (memInstr cls size op ar m) s) := by
  cases cls with
  | c1 | c2 | c3 => rw [exec_toMemory (by decide)]; exact endsSteady_toMemory _ _ _ _ _ _
  | c5 | c6 | c7 => rw [exec_fromMemory (by decide)]; exact endsSteady_fromMemory _ _ _ _ _ _

theorem endsSteady_dataToAccumulator (op : Operation) (len : Word) (ar : RegNo) (src : Word) (s : State) :
    EndsSteady s (dataToAccumulator op len ar src s) := by
  have hs := (Steady.refl s).withStatus fun _ hf => steady_operationStatus hf op src (s.data len ar) s.status
  unfold dataToAccumulator
  refine endsSteady_next ?_
  split
  · exact hs.put _ _ _
  · exact hs.advance _

theorem endsSteady_execJump (m : MemOperand) (s : State) : EndsSteady s (execJump m s) :=
  endsSteady_finish <| Res.steady_bind (steady_effectiveAddress (.refl s) _ _ _) fun _ _ _ hu => hu.setPc _

theorem endsSteady_execJsbr (ar : RegNo) (m : MemOperand) (s : State) : EndsSteady s (execJsbr ar m s) :=
  endsSteady_finish <| Res.steady_bind (steady_effectiveAddress (.refl s) _ _ _) fun _ _ _ hu =>
    (hu.setReg _ _).setPc _

/-! ### Branches and single shifts -/

theorem endsSteady_branch (c : Condition) (sense : Bool) (d : BitVec 8) (s : State) :
    EndsSteady s (branch c sense d s) := by
  unfold branch
  refine endsSteady_next ?_
  split
  · exact (Steady.refl s).setPc _
  · exact (Steady.refl s).advance _

theorem Steady.shift {s t : State} (h : Steady s t) (op : ShiftOp) (ar : RegNo) (n : Nat) :
    Steady s (shift op ar n t) :=
  (h.withStatus fun _ hf => (steady_setNZO hf _ _).trans (steady_singleShift hf op n _ _)).put _ _ _

theorem endsSteady_shiftByConstant (op : ShiftOp) (ar : RegNo) (k : BitVec 4) (s : State) :
    EndsSteady s (shiftByConstant op ar k s) := endsSteady_next ((Steady.refl s).shift _ _ _)

theorem endsSteady_shiftByRegister (op : ShiftOp) (ar xr : RegNo) (s : State) :
    EndsSteady s (shiftByRegister op ar xr s) := endsSteady_next (((Steady.refl s).afterCount _).shift _ _ _)

/-! ### Bits and moves -/

theorem Steady.bitOperation {s t : State} (h : Steady s t) (op : BitOp) (len : Word) (ar : RegNo) (m : Word) :
    Steady s (bitOperation op len ar m t) := by
  have hc := h.withStatus fun _ hf => steady_setFlag hf (g := .cy) (by decide) (t.data len ar &&& m != 0#16) t.status
  unfold Machine.bitOperation
  dsimp only
  split
  · exact (hc.freeNZO 0).advance _
  · exact (hc.withStatus fun _ hf => steady_setNZO hf _ _).put _ _ _

theorem endsSteady_bitByConstant (op : BitOp) (ar : RegNo) (k : BitVec 4) (s : State) :
    EndsSteady s (bitByConstant op ar k s) :=
  endsSteady_implemented _ _ ((Steady.refl s).bitOperation _ _ _ _)

theorem endsSteady_bitByRegister (op : BitOp) (ar xr : RegNo) (s : State) :
    EndsSteady s (bitByRegister op ar xr s) :=
  endsSteady_implemented _ _ (((Steady.refl s).afterCount _).bitOperation _ _ _ _)

theorem endsSteady_bitByMask (op : BitOp) (ar xr : RegNo) (mask : Word) (s : State) :
    EndsSteady s (bitByMask op ar xr mask s) :=
  endsSteady_implemented _ _ ((Steady.refl s).bitOperation _ _ _ _)

theorem endsSteady_move (op : MoveOp) (ar xr : RegNo) (s : State) : EndsSteady s (move op ar xr s) :=
  endsSteady_implemented _ _ (((Steady.refl s).withStatus fun _ hf => steady_setNZO hf _ _).put _ _ _)

/-! ### Normalize and double shifts -/

theorem Steady.normalize {s t : State} (h : Steady s t) (op : NormOp) (ar xr : RegNo) :
    Steady s (normalize op ar xr t) := by
  have hs (v : Word) := h.withStatus fun _ hf => steady_setNZO hf v t.status
  unfold Machine.normalize
  dsimp only
  split
  · exact (hs _).advance _
  · split
    · exact ((hs _).setPc _).addCountOnly _ _
    · exact ((hs _).setReg _ _).addCount _ _ _

theorem endsSteady_normalizeSingle (op : NormOp) (ar xr : RegNo) (s : State) :
    EndsSteady s (normalizeSingle op ar xr s) := endsSteady_implemented _ _ ((Steady.refl s).normalize _ _ _)

theorem endsSteady_onPair (iw : Word) (ok : Bool) (s : State) {g : State → State} (h : Steady s (g s)) :
    EndsSteady s (onPair iw ok s g) := by
  unfold onPair
  split
  · exact endsSteady_implemented _ _ h
  · exact endsSteady_takeUnimplemented _ _

theorem Steady.normalizeDouble {s t : State} (h : Steady s t) (op : NormOp) (r xr : RegNo) :
    Steady s (normalizeDouble op r xr t) := by
  have hs (hi lo : Word) := h.withStatus fun _ hf => steady_setNZOpair hf hi lo t.status
  unfold Machine.normalizeDouble
  dsimp only
  split
  · exact ((hs _ _).setReg _ _).advance _
  · exact ((hs _ _).setPair _ _ _).addCount _ _ _

theorem endsSteady_normalizePair (op : NormOp) (ar xr : RegNo) (s : State) :
    EndsSteady s (normalizePair op ar xr s) := endsSteady_onPair _ _ _ ((Steady.refl s).normalizeDouble _ _ _)

theorem Steady.shiftPair {s t : State} (h : Steady s t) (op : ShiftOp) (r : RegNo) (n : Nat) :
    Steady s (shiftPair op r n t) :=
  ((h.withStatus fun _ hf => (steady_setNZOpair hf _ _ _).trans (steady_doubleShift hf op n _ _ _)).setPair
    _ _ _).advance _

theorem endsSteady_doubleByConstant (op : ShiftOp) (pair : BitVec 2) (k : BitVec 5) (s : State) :
    EndsSteady s (doubleByConstant op pair k s) := endsSteady_onPair _ _ _ ((Steady.refl s).shiftPair _ _ _)

theorem endsSteady_doubleByRegister (op : ShiftOp) (ar xr : RegNo) (s : State) :
    EndsSteady s (doubleByRegister op ar xr s) :=
  endsSteady_onPair _ _ _ (((Steady.refl s).afterCount _).shiftPair _ _ _)

/-! ### Fixed point -/

theorem endsSteady_fixedPoint (iw : Word) (ar : RegNo) (m : MemOperand) (s : State) {g : Word → State → Res Unit}
    (h : ∀ a u, Steady s u → (g a u).steady s) : EndsSteady s (fixedPoint iw ar m s g) := by
  unfold fixedPoint
  split
  · exact endsSteady_finish (Res.steady_bind (steady_effectiveAddress (.refl s) _ _ _) fun a u _ hu => h a u hu)
  · exact endsSteady_takeUnimplemented _ _

theorem steady_onEvenPair {s : State} (ar : RegNo) {r : Res Unit} (h : r.steady s) : (onEvenPair ar r).steady s := by
  unfold onEvenPair
  split
  · trivial
  · exact h

section
variable {s t : State} (h : Steady s t)
include h

theorem Steady.put31 (e : RegNo) (p : BitVec 31) : Steady s (t.put31 e p) :=
  (h.withStatus fun _ hf => steady_setNZOpair hf _ _ _).setPair _ _ _

theorem Steady.multiply (accumulate : Bool) (e : RegNo) (w : Word) : Steady s (multiply accumulate e w t) := by
  unfold Machine.multiply
  dsimp only
  split
  · exact ((h.put31 _ _).spend 1).withStatus fun _ hf => steady_setFlag hf (by decide) _ _
  · exact h.put31 _ _

theorem Steady.divide (e : RegNo) (w : Word) : Steady s (divide e w t) := by
  unfold Machine.divide
  dsimp only
  split
  · exact ((h.withStatus fun _ hf => steady_setFlag hf (by decide) _ _).freeNZO 2).setPair _ _ _
  · exact (h.withStatus fun _ hf => steady_setNZO hf _ _).setPair _ _ _

theorem Steady.addPair (e : RegNo) (hi lo : Word) : Steady s (addPair e hi lo t) :=
  (h.withStatus fun _ hf => steady_carryOverflow hf _ _ _).put31 _ _

theorem Steady.subPair (e : RegNo) (hi lo : Word) : Steady s (subPair e hi lo t) :=
  (h.withStatus fun _ hf => steady_carryOverflow hf _ _ _).put31 _ _

end

theorem endsSteady_execDsta (ar : RegNo) (m : MemOperand) (s : State) : EndsSteady s (execDsta ar m s) :=
  endsSteady_fixedPoint _ _ _ _ fun _ _ hu => steady_onEvenPair _ <| Res.steady_bind (steady_writeWord hu _ _)
    fun _ _ _ hv => Res.steady_bind (steady_writeWord hv _ _) fun _ _ _ hw =>
      (hw.withStatus fun _ hf => steady_setNZOpair hf _ _ _).advance _

theorem endsSteady_execDsub (ar : RegNo) (m : MemOperand) (s : State) : EndsSteady s (execDsub ar m s) :=
  endsSteady_fixedPoint _ _ _ _ fun _ _ hu => steady_onEvenPair _ <| Res.steady_bind (steady_readPair hu _)
    fun _ _ _ hv => (hv.subPair _ _ _).advance _

theorem endsSteady_execDadd (ar : RegNo) (m : MemOperand) (s : State) : EndsSteady s (execDadd ar m s) :=
  endsSteady_fixedPoint _ _ _ _ fun _ _ hu => steady_onEvenPair _ <| Res.steady_bind (steady_readPair hu _)
    fun _ _ _ hv => (hv.addPair _ _ _).advance _

theorem endsSteady_execMlta (pair : BitVec 2) (m : MemOperand) (s : State) : EndsSteady s (execMlta pair m s) :=
  endsSteady_fixedPoint _ _ _ _ fun _ _ hu => Res.steady_bind (steady_readWord hu _)
    fun _ _ _ hv => (hv.multiply _ _ _).advance _

theorem endsSteady_execMult (pair : BitVec 2) (m : MemOperand) (s : State) : EndsSteady s (execMult pair m s) :=
  endsSteady_fixedPoint _ _ _ _ fun _ _ hu => Res.steady_bind (steady_readWord hu _)
    fun _ _ _ hv => (hv.multiply _ _ _).advance _

theorem endsSteady_execDivd (ar : RegNo) (m : MemOperand) (s : State) : EndsSteady s (execDivd ar m s) :=
  endsSteady_fixedPoint _ _ _ _ fun _ _ hu => Res.steady_bind (steady_readWord hu _)
    fun _ _ _ hv => (hv.divide _ _).advance _

theorem endsSteady_execDlod (ar : RegNo) (m : MemOperand) (s : State) : EndsSteady s (execDlod ar m s) :=
  endsSteady_fixedPoint _ _ _ _ fun _ _ hu => steady_onEvenPair _ <| Res.steady_bind (steady_readPair hu _)
    fun _ _ _ hv => ((hv.withStatus fun _ hf => steady_setNZOpair hf _ _ _).setPair _ _ _).advance _

/-! ### Fetch and clear, the processor number, the key, registers and status stored -/

theorem endsSteady_fcl (size : Size) (ar : RegNo) (m : MemOperand) (s : State) : EndsSteady s (fcl size ar m s) := by
  unfold fcl
  split
  · exact endsSteady_takeUnimplemented _ _
  · exact endsSteady_finish <| Res.steady_bind (steady_effectiveAddress (.refl s) _ _ _) fun _ _ _ hu =>
      Res.steady_bind (steady_fetchAndClear hu _ _) fun _ _ _ hv => (hv.freeNZO 0).put _ _ _

theorem Steady.loadSpecial {s t : State} (h : Steady s t) (xr : RegNo) (v : Word) : Steady s (loadSpecial xr v t) := by
  unfold Machine.loadSpecial
  split
  · exact (h.spend 1).setPc _
  · exact h.put _ _ _

theorem steady_thenAdvance {s : State} {r : Res Unit} (h : r.steady s) (len : Word) : (r.thenAdvance len).steady s :=
  Res.steady_bind h fun _ _ _ hu => hu.advance len

theorem endsSteady_execStsm (rel : Bool) (d : BitVec 8) (s : State) : EndsSteady s (execStsm rel d s) :=
  endsSteady_finish (steady_thenAdvance (steady_writeWord (.refl s) _ _) _)

theorem endsSteady_execRegm (rel : Bool) (d : BitVec 8) (s : State) : EndsSteady s (execRegm rel d s) :=
  endsSteady_finish (steady_thenAdvance (steady_storeRegisters (.refl s) _ _) _)

theorem endsSteady_execMreg (rel : Bool) (d : BitVec 8) (s : State) : EndsSteady s (execMreg rel d s) :=
  endsSteady_finish (steady_thenAdvance (steady_loadRegisters (.refl s) _ _) _)

/-! ### Decimal and character instructions -/

theorem endsSteady_decimal (iw : Word) (ok : Bool) (s : State) {g : State → Res Unit}
    (h : ∀ u, Steady s u → (g u).steady s) : EndsSteady s (decimal iw ok s g) := by
  unfold decimal
  split
  · split
    · exact endsSteady_finish (Res.steady_bind (steady_saveScratch (.refl s)) fun _ u _ hu => h u hu)
    · exact endsSteady_refused _ _
  · exact endsSteady_takeUnimplemented _ _

@[simp] theorem length_bytes (f : Field) (mem : Memory) : (f.bytes mem).length = f.len := by simp [Field.bytes]

@[simp] theorem length_zeroAddBytes (n : Nat) (src : List Byte) : (zeroAddBytes n src).length = n := by
  simp [zeroAddBytes]

theorem length_arithmeticBytes (subtract : Bool) {n : Nat} (hn : 0 < n) (src dst : List Byte) :
    (arithmeticBytes subtract n src dst).length = n := length_decimalField hn _ _

/-- A rearrangement of a field's digits fits the field. -/
theorem length_packDigits {bs : List Byte} (hb : 0 < bs.length) (sign : BitVec 4) {ds : List (BitVec 4)}
    (hd : ds.length = (fieldDigits bs).length) : (packNibbles (sign :: ds)).length = bs.length := by
  refine length_packNibbles ?_
  rw [List.length_cons, hd, fieldDigits, List.length_tail, length_nibbles]
  omega

theorem length_shiftDigitsRight (n : Nat) (ds : List (BitVec 4)) : (shiftDigitsRight n ds).length = ds.length := by
  simp only [shiftDigitsRight, List.length_append, List.length_drop, List.length_replicate]
  omega

theorem length_shiftDigitsLeft (n : Nat) (ds : List (BitVec 4)) : (shiftDigitsLeft n ds).length = ds.length := by
  simp only [shiftDigitsLeft, List.length_take, List.length_append, List.length_replicate]
  omega

section
variable {s t : State} (h : Steady s t)
include h

theorem Steady.storeResult {described : Bool} {dst : Field} {bs : List Byte} (hf : t.holdsField dst = true)
    (hl : bs.length = dst.len) : Steady s (storeResult described dst bs t) := by
  unfold Machine.storeResult
  split
  · exact h.store hf hl.le
  · exact h.scramble _

theorem steady_decimalResult (described : List Byte → List Byte → Bool)
    {result : List Byte → List Byte → List Byte} (src : Field) {dst : Field}
    (hl : ∀ a b, b.length = dst.len → (result a b).length = dst.len) :
    (decimalResult described result src dst t).steady s := by
  unfold decimalResult
  dsimp only
  split
  · rename_i hb
    rw [badBytes_isEmpty, List.all_eq_true] at hb
    exact steady_decimalEnd (h.storeResult (hb dst (by simp)) (hl _ _ (length_bytes dst _))) _
  · exact steady_decimalAbort h _ _

theorem steady_arithmetic (subtract : Bool) (described : List Byte → List Byte → Bool) (src : Field) {dst : Field}
    (hd : 0 < dst.len) :
    (decimalResult described (fun a b => arithmeticBytes subtract b.length a b) src dst t).steady s :=
  steady_decimalResult h _ _ fun _ _ hb => (length_arithmeticBytes _ (hb ▸ hd) _ _).trans hb

theorem steady_compareFields (described gt eq : Bool) : (compareFields described gt eq t).steady s := by
  unfold compareFields
  refine steady_decimalEnd ?_ _
  split
  · exact h.withStatus fun _ hf => steady_compareStatus hf _ _ _
  · exact (h.spend 2).withStatus fun _ hf => steady_compareStatus hf _ _ _

/-- A comparison where the bytes of both fields are in program memory, an Abort where they are not. -/
theorem steady_comparison (bad : List Word) (described gt eq : Bool) :
    (if bad.isEmpty then compareFields described gt eq t else decimalAbort bad .none t).steady s := by
  split
  · exact steady_compareFields h _ _ _
  · exact steady_decimalAbort h _ _

theorem steady_moveField (pairs : List (Word × Word)) (src dst : Field) :
    (moveField pairs src dst t).steady s := by
  unfold moveField
  refine Res.steady_bind (steady_moveBytes h _) fun _ u _ hu => ?_
  dsimp only
  split
  · exact steady_decimalEnd hu _
  · exact steady_decimalAbort hu _ _

theorem steady_shiftField {g : Nat → List (BitVec 4) → List (BitVec 4)} (hg : ∀ n ds, (g n ds).length = ds.length)
    (cnt : Nat) {f : Field} (hf : 0 < f.len) : (shiftField g cnt f t).steady s := by
  unfold shiftField
  split
  · exact steady_decimalEnd h _
  · dsimp only
    split
    · rename_i hb
      rw [badBytes_isEmpty, List.all_eq_true] at hb
      have hl := length_packDigits (bs := f.bytes t.mem) (by rwa [length_bytes]) (fieldSign (f.bytes t.mem)) (hg cnt _)
      exact steady_decimalEnd (h.storeResult (hb f (by simp)) (hl.trans (length_bytes _ _))) _
    · exact steady_decimalAbort h _ _

end

theorem field_len_pos (s : State) (r : RegNo) (l : BitVec 4) (x : RegNo) : 0 < (s.field r l x).len := Nat.succ_pos _

section
variable (r1 r2 : RegNo) (l1 l2 : BitVec 4) (x1 x2 : RegNo) (s : State)

theorem endsSteady_execZadd : EndsSteady s (execZadd r1 r2 l1 l2 x1 x2 s) :=
  endsSteady_decimal _ _ _ fun _ hu =>
    steady_decimalResult hu _ _ fun _ b hb => (length_zeroAddBytes b.length _).trans hb

theorem endsSteady_execAddd : EndsSteady s (execAddd r1 r2 l1 l2 x1 x2 s) :=
  endsSteady_decimal _ _ _ fun _ hu => steady_arithmetic hu _ _ _ (field_len_pos _ _ _ _)

theorem endsSteady_execSubd : EndsSteady s (execSubd r1 r2 l1 l2 x1 x2 s) :=
  endsSteady_decimal _ _ _ fun _ hu => steady_arithmetic hu _ _ _ (field_len_pos _ _ _ _)

theorem endsSteady_execCmpd : EndsSteady s (execCmpd r1 r2 l1 l2 x1 x2 s) :=
  endsSteady_decimal _ _ _ fun _ hu => steady_comparison hu _ _ _ _

theorem endsSteady_execComp : EndsSteady s (execComp r1 r2 l1 l2 x1 x2 s) :=
  endsSteady_decimal _ _ _ fun _ hu => steady_comparison hu _ _ _ _

theorem endsSteady_execMovr : EndsSteady s (execMovr r1 r2 l1 l2 x1 x2 s) :=
  endsSteady_decimal _ _ _ fun _ hu => steady_moveField hu _ _ _

theorem endsSteady_execMovl : EndsSteady s (execMovl r1 r2 l1 l2 x1 x2 s) :=
  endsSteady_decimal _ _ _ fun _ hu => steady_moveField hu _ _ _

theorem endsSteady_execSftr : EndsSteady s (execSftr r1 l1 l2 x1 x2 s) :=
  endsSteady_decimal _ _ _ fun _ hu => steady_shiftField hu length_shiftDigitsRight _ (field_len_pos _ _ _ _)

theorem endsSteady_execSftl : EndsSteady s (execSftl r1 l1 l2 x1 x2 s) :=
  endsSteady_decimal _ _ _ fun _ hu => steady_shiftField hu length_shiftDigitsLeft _ (field_len_pos _ _ _ _)

end

/-! ### Every instruction but those that write the status, the key or the run state outright -/

/-- The instructions of R270 to R282, R286, R287, R311 and R484, which write a steady indicator, the run state or the
key. -/
def writesControl : Instr → Bool
  | .halt _ | .rsts _ | .sets _ | .enbl _ | .enbw _ | .dsbl _ | .dsbw _ | .wait | .waitD | .msts _ _ | .retn _ _
  | .skey _ | .jkey _ _ => true
  | _ => false

/-- Of every other instruction the parts are steady, whatever its operands. -/
theorem exec_endsSteady {i : Instr} (hi : writesControl i = false) (s : State) : EndsSteady s (exec i s) := by
  have hform := i.form
  generalize encode i = ws at hform
  cases hform with
  | halt | rsts | sets | enbl | enbw | dsbl | dsbw | wait | waitD | msts | retn | skey | jkey => cases hi
  | stsm => exact endsSteady_execStsm _ _ _
  | regm => exact endsSteady_execRegm _ _ _
  | mreg => exact endsSteady_execMreg _ _ _
  | fclw | fclb => exact endsSteady_fcl _ _ _ _
  | lcpu | lkey => exact endsSteady_implemented _ _ ((Steady.refl s).loadSpecial _ _)
  | mem => exact endsSteady_memInstr _ _ _ _ _ _
  | jump => exact endsSteady_execJump _ _
  | jsbr => exact endsSteady_execJsbr _ _ _
  | dataI => rw [exec_dataI]; exact endsSteady_dataToAccumulator _ _ _ _ _
  | dataR => rw [exec_dataR]; exact endsSteady_dataToAccumulator _ _ _ _ _
  | dataL => rw [exec_dataL]; exact endsSteady_dataToAccumulator _ _ _ _ _
  | bitK => rw [exec_bitInstrK]; exact endsSteady_bitByConstant _ _ _ _
  | bitX => rw [exec_bitInstrX]; exact endsSteady_bitByRegister _ _ _ _
  | bitM => rw [exec_bitInstrM]; exact endsSteady_bitByMask _ _ _ _ _
  | move => rw [exec_moveInstr]; exact endsSteady_move _ _ _ _
  | nopr => exact endsSteady_next ((Steady.refl s).advance _)
  | brun => exact endsSteady_next ((Steady.refl s).setPc _)
  | branchFalse | branchTrue => rw [exec_branchInstr]; exact endsSteady_branch _ _ _ _
  | shiftK => rw [exec_shiftInstrK]; exact endsSteady_shiftByConstant _ _ _ _
  | shiftX => rw [exec_shiftInstrX]; exact endsSteady_shiftByRegister _ _ _ _
  | norm => rw [exec_normInstr]; exact endsSteady_normalizeSingle _ _ _ _
  | dnorm => rw [exec_dnormInstr]; exact endsSteady_normalizePair _ _ _ _
  | dshiftK => rw [exec_dshiftInstrK]; exact endsSteady_doubleByConstant _ _ _ _
  | dshiftX => rw [exec_dshiftInstrX]; exact endsSteady_doubleByRegister _ _ _ _
  | dsta => exact endsSteady_execDsta _ _ _
  | dsub => exact endsSteady_execDsub _ _ _
  | dadd => exact endsSteady_execDadd _ _ _
  | mlta => exact endsSteady_execMlta _ _ _
  | mult => exact endsSteady_execMult _ _ _
  | divd => exact endsSteady_execDivd _ _ _
  | dlod => exact endsSteady_execDlod _ _ _
  | zadd => exact endsSteady_execZadd _ _ _ _ _ _ _
  | addd => exact endsSteady_execAddd _ _ _ _ _ _ _
  | subd => exact endsSteady_execSubd _ _ _ _ _ _ _
  | cmpd => exact endsSteady_execCmpd _ _ _ _ _ _ _
  | movr => exact endsSteady_execMovr _ _ _ _ _ _ _
  | movl => exact endsSteady_execMovl _ _ _ _ _ _ _
  | comp => exact endsSteady_execComp _ _ _ _ _ _ _
  | sftr => exact endsSteady_execSftr _ _ _ _ _ _
  | sftl => exact endsSteady_execSftl _ _ _ _ _ _

end Sys2Proof.Machine
end

section
/-! SUPPORT. What every step keeps, proved for the updates a step is made of and for each kind of step (O11, O13). -/

namespace Sys2Proof.Machine

/-! ## What every step keeps -/

/-- What a step keeps: the parameters, the two inert registers, the bytes outside program memory and the canonical form
of the memory; and a processor that is halted or Active stays so. -/
structure Kept (s t : State) : Prop where
  par : t.par = s.par
  instrRegister : t.instrRegister = s.instrRegister
  controlFlipFlops : t.controlFlipFlops = s.controlFlipFlops
  bytes : s.par.legal = true → ∀ a, s.inMemory a = false → t.mem.byte a = s.mem.byte a
  wf : s.mem.wf = true → t.mem.wf = true
  active : s.run = .halted ∨ s.flag .a = true → t.run = .halted ∨ t.flag .a = true

theorem Kept.refl (s : State) : Kept s s := ⟨rfl, rfl, rfl, fun _ _ _ => rfl, id, id⟩

theorem Kept.trans {s t u : State} (h : Kept s t) (k : Kept t u) : Kept s u where
  par := k.par.trans h.par
  instrRegister := k.instrRegister.trans h.instrRegister
  controlFlipFlops := k.controlFlipFlops.trans h.controlFlipFlops
  bytes hl a ha :=
    (k.bytes (by rw [h.par]; exact hl) a (by rw [inMemory_congr h.par]; exact ha)).trans (h.bytes hl a ha)
  wf hw := k.wf (h.wf hw)
  active ha := k.active (h.active ha)

theorem Steady.run {s t : State} (h : Steady s t) : t.run = s.run := by
  obtain ⟨-, hrun, -⟩ := h.outside
  exact hrun

theorem Steady.kept {s t : State} (h : Steady s t) : Kept s t := by
  obtain ⟨-, hrun, -, -, hir, hcf, hpar⟩ := h.outside
  exact ⟨hpar, hir, hcf, h.bytes, h.wf, by rw [hrun, h.flags .a (by decide)]; exact id⟩

/-- A state that differs from `s` in no more than registers, status, key, run state and requests. -/
theorem Kept.of_sameMemory {s t : State} (hp : t.par = s.par) (hi : t.instrRegister = s.instrRegister)
    (hc : t.controlFlipFlops = s.controlFlipFlops) (hm : t.mem = s.mem)
    (ha : s.run = .halted ∨ s.flag .a = true → t.run = .halted ∨ t.flag .a = true) : Kept s t :=
  ⟨hp, hi, hc, fun _ _ _ => by rw [hm], fun hw => by rwa [hm], ha⟩

/-- A status word with the same Active bit. -/
theorem Kept.withStatus {s : State} {st : Word} (h : getFlag .a st = s.flag .a) :
    Kept s { s with status := st } :=
  .of_sameMemory rfl rfl rfl rfl fun ha => ha.imp_right fun hf => h.trans hf

theorem Kept.advance {s t : State} (h : Kept s t) (len : Word) : Kept s (t.advance len) :=
  h.trans ((Steady.refl t).advance len).kept

theorem Kept.setPc {s t : State} (h : Kept s t) (v : Word) : Kept s (t.setPc v) :=
  h.trans ((Steady.refl t).setPc v).kept

/-! ### Interrupts -/

/-- A block in program memory holds the bytes an entry writes. -/
theorem entry_bytes_inMemory {s : State} {block : Nat} (hb : block + 8 ≤ s.par.memTop.toNat) {x : Word}
    (hx : s.inMemory x = false) :
    x ∉ operandBytes .word (BitVec.ofNat 16 block) ++ operandBytes .word (BitVec.ofNat 16 block + 2#16) ++
      operandBytes .word (BitVec.ofNat 16 block + 4#16) := by
  have hm := s.par.memTop.isLt
  simp only [State.inMemory, decide_eq_false_iff_not] at hx
  simp only [operandBytes, List.mem_append, List.mem_cons, List.not_mem_nil, or_false, ← BitVec.toNat_inj,
    evenAddr_toNat, oddAddr_toNat, BitVec.toNat_add, BitVec.toNat_ofNat]
  omega

/-- The entry of an interrupt of a processor that is not halted. -/
theorem Kept.takeEntry {level block : Nat} {w : Word} {s t : State} (he : block % 2 = 0) (hr : s.run ≠ .halted)
    (h : takeEntry level block w s = .next t) : Kept s t := by
  obtain ⟨hb, rfl⟩ := takeEntry_next.1 h
  have heven : (BitVec.ofNat 16 block).getLsbD 0 = false := by
    rw [getLsbD_zero_eq, decide_eq_false_iff_not, BitVec.toNat_ofNat]
    omega
  exact ⟨rfl, rfl, rfl, fun _ _ hx => entered_byte level w s heven (entry_bytes_inMemory hb hx), entered_wf,
    fun ha => .inr (entered_active (ha.resolve_left hr))⟩

theorem Kept.takeUnimplemented {iw : Word} {s t : State} (hr : s.run ≠ .halted)
    (h : takeUnimplemented iw s = .next t) : Kept s t := .takeEntry (by unfold unimplementedBlock; omega) hr h

theorem Kept.takeAbort {addr : Word} {s t : State} (hr : s.run ≠ .halted) (h : takeAbort addr s = .next t) : Kept s t :=
  .takeEntry (by unfold abortBlock; omega) hr h

theorem Kept.takeSystem {j : Nat} {w : Word} {s t : State} (hr : s.run ≠ .halted)
    (h : takeSystem j w s = .next t) : Kept s t :=
  Kept.trans (t := { s with pending := s.pending.consume j }) (.of_sameMemory rfl rfl rfl rfl id)
    (.takeEntry (by unfold systemBlock; omega) hr h)

theorem EndsSteady.kept {s t : State} {o : Outcome} (h : EndsSteady s o) (hr : s.run ≠ .halted) (ho : o = .next t) :
    Kept s t := by
  obtain hs | ⟨u, level, b, w, hu, hb, hk⟩ := h t ho
  · exact hs.kept
  · have heven : b % 2 = 0 := by
      obtain ⟨-, rfl⟩ | ⟨-, rfl⟩ := hb
      · unfold unimplementedBlock; omega
      · unfold abortBlock; omega
    exact hu.kept.trans (.takeEntry heven (by rwa [hu.run]) hk)

/-! ### The instructions that write the status, the key or the run state -/

/-- A part of an instruction that keeps what a step keeps, and stops with the run state of `s`. -/
def Res.kept {α : Type} (s : State) : Res α → Prop
  | .ok _ t => Kept s t
  | .unimplemented t => Kept s t ∧ t.run = s.run
  | .abort _ t => Kept s t ∧ t.run = s.run
  | .refuse _ => True

theorem Res.kept_bind {α β : Type} {s : State} {r : Res α} {f : α → State → Res β} (h : r.steady s)
    (k : ∀ a t, Steady s t → (f a t).kept s) : (r.bind f).kept s := by
  cases r with
  | ok a t => exact k a t h
  | unimplemented t => exact ⟨Steady.kept h, Steady.run h⟩
  | abort x t => exact ⟨Steady.kept h, Steady.run h⟩
  | refuse q => trivial

theorem Kept.finish {iw : Word} {r : Res Unit} {s t : State} (hr : s.run ≠ .halted) (h : r.kept s)
    (k : Res.finish iw r = .next t) : Kept s t := by
  cases r with
  | ok _ u => cases k; exact h
  | unimplemented u => exact h.1.trans (.takeUnimplemented (by rwa [h.2]) k)
  | abort x u => exact h.1.trans (.takeAbort (by rwa [h.2]) k)
  | refuse q => cases k

/-- After a status word is loaded the processor is Active or halted (R31, log 14). -/
theorem loadStatus_sound (w : Word) (s : State) : (s.loadStatus w).run = .halted ∨ (s.loadStatus w).flag .a = true := by
  cases hw : w.getLsbD 11 with
  | true => rw [loadStatus_active hw]; exact .inr hw
  | false =>
    obtain h | h := loadStatus_inactive hw s
    · exact .inl (by rw [h])
    · exact .inr (by rw [h]; simp [State.flag, getFlag, Flag.bit])

theorem Kept.loadStatus {s t : State} (h : Kept s t) (w : Word) : Kept s (t.loadStatus w) :=
  h.trans (.of_sameMemory (by simp) (by simp) (by simp) (by simp) fun _ => loadStatus_sound w t)

theorem kept_returnFrom (m : Word) (s : State) : (returnFrom m s).kept s :=
  Res.kept_bind (steady_readWord (.refl s) _) fun _ _ hu =>
    Res.kept_bind (steady_readWord hu _) fun _ _ hv => (hv.kept.loadStatus _).setPc _

/-- The mask bits lie above the Active bit (R27, R275). -/
theorem active_applyMask (disable : Bool) (k : BitVec 4) (st : Word) :
    getFlag .a (applyMask disable k st) = getFlag .a st := by
  cases disable <;> simp [applyMask, getFlag, Flag.bit]

theorem kept_enterWait {s t : State} (h : Kept s t) (hrun : t.run = s.run) (hr : s.run ≠ .halted) :
    (enterWait t).kept s := by
  unfold enterWait
  split
  · exact ⟨h, hrun⟩
  · exact h.trans (.of_sameMemory rfl rfl rfl rfl fun ha => .inr (ha.resolve_left (hrun ▸ hr)))

theorem Kept.maskAndWait {h3 : BitVec 4} {disable : Bool} {k : BitVec 4} {s t : State} (hr : s.run ≠ .halted)
    (h : maskAndWait h3 disable k s = .next t) : Kept s t :=
  .finish hr (kept_enterWait (.withStatus (active_applyMask _ _ _)) rfl hr) h

/-- RSTS and SETS reach the indicators below bit 7, of which Active is none (R27, R272, R273). -/
theorem active_programmed (f : BitVec 7) (st : Word) :
    getFlag .a (st &&& ~~~(f.setWidth 16)) = getFlag .a st ∧ getFlag .a (st ||| f.setWidth 16) = getFlag .a st := by
  simp [getFlag, Flag.bit]

theorem Kept.undefinedWord {iw : Word} {s t : State} (hr : s.run ≠ .halted) (h : undefinedWord iw s = .next t) :
    Kept s t := (endsSteady_undefinedWord iw s).kept hr h

theorem Kept.execSkey {k : BitVec 2} {s t : State} (hr : s.run ≠ .halted) (h : execSkey k s = .next t) : Kept s t := by
  unfold Machine.execSkey at h
  split at h
  · exact .undefinedWord hr h
  · cases h; exact .of_sameMemory rfl rfl rfl rfl id

theorem Kept.execJkey {k : BitVec 2} {target : Word} {s t : State} (hr : s.run ≠ .halted)
    (h : execJkey k target s = .next t) : Kept s t := by
  unfold Machine.execJkey at h
  split at h
  · cases h; exact .of_sameMemory rfl rfl rfl rfl id
  · exact .undefinedWord hr h

/-- Every instruction of a processor that is not halted keeps what a step keeps. -/
theorem exec_kept {i : Instr} {s t : State} (hr : s.run ≠ .halted) (h : exec i s = .next t) : Kept s t := by
  cases hi : writesControl i with
  | false => exact (exec_endsSteady hi s).kept hr h
  | true =>
    cases i with
    | halt => cases h; exact .of_sameMemory rfl rfl rfl rfl fun _ => .inl rfl
    | rsts f => cases h; exact (Kept.withStatus (active_programmed f _).1).advance _
    | sets f => cases h; exact (Kept.withStatus (active_programmed f _).2).advance _
    | enbl | dsbl => cases h; exact (Kept.withStatus (active_applyMask _ _ _)).advance _
    | enbw | dsbw | wait | waitD => exact .maskAndWait hr h
    | retn => exact .finish hr (kept_returnFrom _ s) h
    | msts rel d =>
      refine .finish hr (Res.kept_bind (steady_readWord (.refl s) (s.controlAddress rel d)) fun w u hu => ?_) h
      exact (hu.kept.loadStatus w).advance 2#16
    | skey => exact .execSkey hr h
    | jkey => exact .execJkey hr h
    | _ => cases hi

/-! ### The step -/

theorem steady_fetchWord {s t : State} (h : Steady s t) (a : Word) : (fetchWord a t).steady s := by
  unfold fetchWord
  split <;> exact h

theorem steady_fetch (s : State) : (fetch s).steady s := by
  unfold fetch
  split
  · trivial
  · refine Res.steady_bind (steady_fetchWord (.refl s) _) fun iw u _ hu => ?_
    split
    · exact Res.steady_bind (steady_fetchWord hu _) fun _ _ _ hv => hv
    · exact hu

theorem Kept.undecoded {iw : Word} {s t : State} (hr : s.run ≠ .halted) (h : undecoded iw s = .next t) : Kept s t := by
  unfold Machine.undecoded at h
  split at h
  · exact .takeUnimplemented hr h
  · exact .undefinedWord hr h

theorem instruction_kept {s t : State} (hr : s.run ≠ .halted) (h : instruction s = .next t) : Kept s t := by
  have hf := steady_fetch s
  unfold instruction at h
  cases hw : fetch s with
  | ok w u =>
    rw [hw] at hf h
    have hu : u.run ≠ .halted := by rwa [hf.run]
    refine hf.kept.trans ?_
    dsimp only at h
    split at h
    · exact exec_kept hu h
    · exact .undecoded hu h
  | unimplemented u => rw [hw] at hf h; exact hf.kept.trans (.takeUnimplemented (by rwa [hf.run]) h)
  | abort x u => rw [hw] at hf h; exact hf.kept.trans (.takeAbort (by rwa [hf.run]) h)
  | refuse q => rw [hw] at h; cases h

theorem haltedStep_kept {s t : State} (h : haltedStep s = .next t) : Kept s t := by
  unfold haltedStep at h
  split at h
  · cases h; exact .of_sameMemory rfl rfl rfl rfl fun _ => .inr (getFlag_setFlag_same _ _ _)
  · cases h; exact .refl s

theorem waitingStep_kept {s t : State} (hr : s.run ≠ .halted) (h : waitingStep s = .next t) : Kept s t := by
  unfold waitingStep at h
  split at h
  · split at h
    · exact .takeSystem hr h
    · cases h; exact .of_sameMemory rfl rfl rfl rfl fun ha => .inr (ha.resolve_left hr)
  · cases h; exact .refl s

theorem step_kept {s t : State} (h : step s = .next t) : Kept s t := by
  unfold step at h
  cases hrun : s.run with
  | halted => rw [hrun] at h; exact haltedStep_kept h
  | waiting => rw [hrun] at h; exact waitingStep_kept (by rw [hrun]; decide) h
  | running =>
    have hr : s.run ≠ .halted := by rw [hrun]; decide
    rw [hrun] at h
    dsimp only at h
    split at h
    · exact .takeSystem hr h
    · exact instruction_kept hr h

/-- Settles O11: the parameters, the canonical form and the Active bit are part of what every step keeps. -/
theorem stepKeepsWf : Obligations.StepKeepsWf := by
  intro s t hs h
  have hk := step_kept h
  simp only [State.wf, Bool.and_eq_true, Bool.or_eq_true, beq_iff_eq] at hs ⊢
  obtain ⟨⟨hl, hm⟩, ha⟩ := hs
  exact ⟨⟨by rw [hk.par]; exact hl, hk.wf hm⟩, hk.active ha⟩

/-- Settles O13: so are the inert registers and the bytes outside program memory. -/
theorem stepKeepsOutside : Obligations.StepKeepsOutside := by
  intro s t h
  have hk := step_kept h
  exact ⟨hk.par, hk.instrRegister, hk.controlFlipFlops, hk.bytes⟩

end Sys2Proof.Machine
end

section
/-! SUPPORT. The recognition of a request and the entry it makes, the steps without an event, and the state after reset
(O6, O8, O12). -/

namespace Sys2Proof.Machine

/-! ## Requests -/

/-- The request of one level, where its mask lets it through (R32, R520). -/
def State.levelRequest (s : State) (j : Nat) : Option (Nat × Word) :=
  if unmasked s.status j then (s.pending.level j).map fun w => (j, w) else .none

/-- The levels are looked at from the highest down (R521). -/
theorem request_eq_findSome (s : State) : s.request = [4, 3, 2, 1].findSome? s.levelRequest := rfl

theorem levelRequest_eq_none {s : State} {j : Nat}
    (h : s.pending.level j = none ∨ s.status.getLsbD (11 + j) = true) : s.levelRequest j = none := by
  obtain h | h := h <;> simp [State.levelRequest, unmasked, h]

theorem levelRequest_eq_some {s : State} {j : Nat} {w : Word} (hp : s.pending.level j = some w)
    (hm : s.status.getLsbD (11 + j) = false) : s.levelRequest j = some (j, w) := by
  simp [State.levelRequest, unmasked, hp, hm]

/-- Nothing is recognised where every level is without a request or masked. -/
theorem request_eq_none {s : State}
    (h : ∀ j, 1 ≤ j → j ≤ 4 → s.pending.level j = none ∨ s.status.getLsbD (11 + j) = true) : s.request = none := by
  have hlevels : ∀ j ∈ [4, 3, 2, 1], 1 ≤ j ∧ j ≤ 4 := by decide
  rw [request_eq_findSome, List.findSome?_eq_none_iff]
  intro j hj
  obtain ⟨h1, h4⟩ := hlevels j hj
  exact levelRequest_eq_none (h j h1 h4)

/-- The levels before `j` in the order of R521 are the higher ones. -/
theorem levels_split {j : Nat} (h1 : 1 ≤ j) (h4 : j ≤ 4) :
    ∃ higher lower, [4, 3, 2, 1] = higher ++ j :: lower ∧ ∀ k ∈ higher, j < k ∧ k ≤ 4 := by
  interval_cases j
  exacts [⟨[4, 3, 2], [], rfl, by decide⟩, ⟨[4, 3], [1], rfl, by decide⟩, ⟨[4], [2, 1], rfl, by decide⟩,
    ⟨[], [3, 2, 1], rfl, by decide⟩]

/-- The request recognised is the unmasked one of the highest level (R521). -/
theorem request_eq_some {s : State} {j : Nat} {w : Word} (h1 : 1 ≤ j) (h4 : j ≤ 4)
    (hp : s.pending.level j = some w) (hm : s.status.getLsbD (11 + j) = false)
    (hhigh : ∀ k, j < k → k ≤ 4 → s.pending.level k = none ∨ s.status.getLsbD (11 + k) = true) :
    s.request = some (j, w) := by
  obtain ⟨higher, lower, hsplit, hmem⟩ := levels_split h1 h4
  rw [request_eq_findSome, List.findSome?_eq_some_iff]
  refine ⟨higher, j, lower, hsplit, levelRequest_eq_some hp hm, fun k hk => ?_⟩
  obtain ⟨hjk, hk4⟩ := hmem k hk
  exact levelRequest_eq_none (hhigh k hjk hk4)

/-- A consumed request is gone (R524). -/
@[simp] theorem Pending.level_consume_same (p : Pending) (j : Nat) : (p.consume j).level j = .none := by
  unfold Pending.consume
  split
  case h_5 => simp [Pending.level]
  all_goals rfl

/-- The other requests stay (R524). -/
theorem Pending.level_consume_ne (p : Pending) {j k : Nat} (h : k ≠ j) : (p.consume j).level k = p.level k := by
  unfold Pending.consume
  split
  case h_5 => rfl
  all_goals
    unfold Pending.level
    split <;> first | rfl | exact absurd rfl h

@[simp] theorem Pending.level_none (j : Nat) : Pending.none.level j = .none := by
  unfold Pending.level
  split <;> rfl

/-! ## The kinds of step -/

theorem step_of_halted {s : State} (h : s.run = .halted) : step s = haltedStep s := by simp only [step, h]

theorem step_of_waiting {s : State} (h : s.run = .waiting) : step s = waitingStep s := by simp only [step, h]

/-- A request recognised at an instruction boundary is taken (R520, R523). -/
theorem step_of_request {s : State} {j : Nat} {w : Word} (h : s.run = .running) (hr : s.request = some (j, w)) :
    step s = takeSystem j w s := by simp only [step, h, hr]

theorem step_of_no_request {s : State} (h : s.run = .running) (hr : s.request = none) : step s = instruction s := by
  simp only [step, h, hr]

/-! ## The entry of a system interrupt -/

theorem evenAddr_ofNat {n : Nat} (h : n % 2 = 0) : evenAddr (BitVec.ofNat 16 n) = BitVec.ofNat 16 n := by
  apply BitVec.eq_of_toNat_eq
  rw [evenAddr_toNat, BitVec.toNat_ofNat]
  omega

theorem oddAddr_ofNat {n : Nat} (h : n % 2 = 0) : oddAddr (BitVec.ofNat 16 n) = BitVec.ofNat 16 (n + 1) := by
  apply BitVec.eq_of_toNat_eq
  rw [oddAddr_toNat, BitVec.toNat_ofNat, BitVec.toNat_ofNat]
  omega

/-- The three words an entry stores are the first six bytes of its block (R507, R509). -/
theorem entry_bytes {block : Nat} (h : block % 2 = 0) :
    operandBytes .word (BitVec.ofNat 16 block) ++ operandBytes .word (BitVec.ofNat 16 block + 2#16) ++
      operandBytes .word (BitVec.ofNat 16 block + 4#16) =
    (List.range 6).map fun i => BitVec.ofNat 16 (block + i) := by
  have h2 : (block + 2) % 2 = 0 := by omega
  have h4 : (block + 4) % 2 = 0 := by omega
  rw [← BitVec.ofNat_add, ← BitVec.ofNat_add]
  simp only [operandBytes, evenAddr_ofNat h, oddAddr_ofNat h, evenAddr_ofNat h2, oddAddr_ofNat h2, evenAddr_ofNat h4,
    oddAddr_ofNat h4]
  rfl

/-- The words of its block after an entry: the given word, the status and the program counter (R507, R509, R520). -/
theorem entered_block (level : Nat) (w : Word) (s : State) {b : Word} (h : b.getLsbD 0 = false) :
    (s.entered level b w).mem.word b = w ∧ (s.entered level b w).mem.word (b + 2#16) = s.status ∧
      (s.entered level b w).mem.word (b + 4#16) = s.pc := by
  have h2 := even_add_two h
  have h4 : (b + 4#16).getLsbD 0 = false := by
    have := even_add_two h2
    rwa [BitVec.add_assoc] at this
  rw [entered_word level w s h h, entered_word level w s h h2, entered_word level w s h h4,
    if_neg (by bv_omega), if_neg (by bv_omega), if_pos rfl, if_neg (by bv_omega), if_pos rfl, if_pos rfl]
  exact ⟨rfl, rfl, rfl⟩

/-- With the identity as TRAP_STATUS an entry leaves the status (R514). -/
theorem entered_status {s : State} (h : s.par.trapStatus = .identity) (level : Nat) (b w : Word) :
    (s.entered level b w).status = s.status := by
  show s.trapStatus level = s.status
  simp only [State.trapStatus, h]

/-- A system interrupt whose block lies in program memory is taken (R520). -/
theorem takeSystem_next {j : Nat} (h1 : 1 ≤ j) {s : State} (hb : 8 * j ≤ s.par.memTop.toNat) (w : Word) :
    takeSystem j w s =
      .next (({ s with pending := s.pending.consume j }).entered j (BitVec.ofNat 16 (8 * (j - 1))) w) :=
  takeEntry_next.2 ⟨show 8 * (j - 1) + 8 ≤ s.par.memTop.toNat by omega, rfl⟩

/-- Settles O6: the request of the highest unmasked level is the one recognised, and its entry writes the first three
words of the block at `8 * (j - 1)`. -/
theorem stepTakesRequest : Obligations.StepTakesRequest := by
  intro s j w hrun h1 h4 hp hm hhigh hb
  have hreq := request_eq_some h1 h4 hp hm hhigh
  have hblock : (8 * (j - 1)) % 2 = 0 := by omega
  have heven : (BitVec.ofNat 16 (8 * (j - 1))).getLsbD 0 = false := by
    rw [← evenAddr_ofNat hblock]; exact evenAddr_lsb _
  rw [BitVec.ofNat_add (8 * (j - 1)) 2, BitVec.ofNat_add (8 * (j - 1)) 4, BitVec.ofNat_add (8 * (j - 1)) 6,
    ← entry_bytes hblock]
  obtain ⟨hfirst, hsecond, hthird⟩ := entered_block j w { s with pending := s.pending.consume j } heven
  refine ⟨_, (step_of_request hrun hreq).trans (takeSystem_next h1 hb w), s.pending.level_consume_same j,
    fun k hk => s.pending.level_consume_ne hk, rfl, entered_pc _ _ _ heven, hfirst, hsecond, hthird,
    fun a ha => entered_byte _ _ _ heven ha, fun r h0 _ => entered_reg _ _ _ _ h0, ⟨rfl, rfl⟩, rfl, rfl,
    fun ht => entered_status (s := { s with pending := s.pending.consume j }) ht _ _ _⟩

/-! ## Without an event, and after reset -/

theorem haltedStep_idle {s : State} (h : s.runRequest = false) : haltedStep s = .next s := by simp [haltedStep, h]

/-- The RUN event lets a halted processor go on (R270, log 20). -/
theorem haltedStep_run {s : State} (h : s.runRequest = true) :
    haltedStep s = .next { s with run := .running, runRequest := false, status := setFlag .a true s.status } := by
  simp [haltedStep, h]

theorem waitingStep_idle {s : State} (h : s.request = none) : waitingStep s = .next s := by simp [waitingStep, h]

/-- Settles O8: of the three idle states only the one with a RUN event changes, in the Active bit. -/
theorem idleSteps : Obligations.IdleSteps := by
  intro s
  refine ⟨fun hrun he => ?_, fun hrun hmasked => ?_, fun hrun he => ?_⟩
  · exact (step_of_halted hrun).trans (haltedStep_idle he)
  · exact (step_of_waiting hrun).trans (waitingStep_idle (request_eq_none hmasked))
  · refine ⟨_, (step_of_halted hrun).trans (haltedStep_run he), rfl, rfl, rfl, ?_, getFlag_setFlag_same _ _ _, rfl, rfl⟩
    exact sameBut_status { s with run := .running, runRequest := false } fun f hf =>
      getFlag_setFlag_ne (by simpa using hf) _ _

/-- Settles O12: the reset state has legal parameters, an empty memory and the Active bit. -/
theorem resetWf : Obligations.ResetWf := by
  have hlegal : State.reset.par.legal = true := by decide
  have hmem : State.reset.mem.wf = true := by decide
  have hactive : State.reset.flag .a = true := by decide
  refine ⟨?_, rfl, hactive, fun j _ _ => Pending.level_none j, rfl⟩
  rw [State.wf, hlegal, hmem, hactive, Bool.or_true]
  rfl

end Sys2Proof.Machine
end

section
/-! SUPPORT. Where the step of a running processor finds no instruction: the fetch that stops, and the words that decode
to nothing (O5). -/

namespace Sys2Proof

/-- An instruction of class C has one of the nine digits T of R330. -/
theorem fieldT_of_decodeDecimal {iw iw2 : Word} (h : (decodeDecimal iw iw2).isSome = true) :
    [0, 1, 6, 7, 13, 14, 15].contains (fieldT iw).toNat = false := by
  unfold decodeDecimal at h
  split at h
  · cases h
  · dsimp only at h
    split at h <;> rename_i hT <;> first | (rw [hT]; rfl) | cases h

/-- A word of class C that has a second word on its model is an instruction of that model, so it does not trap by itself
(R330, R347). -/
theorem statedTrap_of_classC {model : Model} {enc : KeyEncodings} {iw : Word} (hc : fieldC iw = 12#4)
    (h : hasSecondWord model enc iw = true) : statedTrap model iw = false := by
  have hn : (fieldC iw).toNat = 12 := by rw [hc]; rfl
  simp only [hasSecondWord, decode, hn, Bool.and_eq_true] at h
  obtain ⟨hmodel, hdecode⟩ := h
  simp only [statedTrap, hn, hmodel, fieldT_of_decodeDecimal hdecode, Bool.not_true, Bool.or_false]

/-- A field of one bit that is set. -/
theorem extractLsb'_one_of_getLsbD {w : Word} {i : Nat} (h : w.getLsbD i = true) : w.extractLsb' i 1 = 1#1 := by
  apply BitVec.eq_of_getLsbD_eq
  intro k hk
  obtain rfl : k = 0 := by omega
  simp [h]

/-- Bits 7 and 3 of the second word of class C are 0 (R330, D42). -/
theorem decodeWith_classC_eq_none {enc : KeyEncodings} {iw iw2 : Word} (hc : fieldC iw = 12#4)
    (h : iw2.getLsbD 7 = true ∨ iw2.getLsbD 3 = true) : decodeWith enc iw iw2 = none := by
  have hn : (fieldC iw).toNat = 12 := by rw [hc]; rfl
  have hkey : decodeKey enc iw iw2 = none := by
    rw [decodeKey, hc]
    rfl
  have hfields : fieldI iw2 = 1#1 ∨ fieldE iw2 = 1#1 :=
    h.imp extractLsb'_one_of_getLsbD extractLsb'_one_of_getLsbD
  have hdecode : decode iw iw2 = none := by
    simp only [decode, hn]
    exact if_pos (.inr (.inr hfields))
  rw [decodeWith, hdecode, hkey]
  rfl

end Sys2Proof

namespace Sys2Proof.Machine

theorem fetchWord_absent {a : Word} {s : State} (h : s.inMemory a = false) : fetchWord a s = .abort a s := by
  simp [fetchWord, h]

/-- An odd program counter is refused (R26, log 18). -/
theorem fetch_odd {s : State} (h : s.pc.getLsbD 0 = true) : fetch s = .refuse .oddProgramCounter := by
  simp [fetch, h]

/-- A first word outside program memory (R26, R509, log 17). -/
theorem fetch_first_absent {s : State} (he : s.pc.getLsbD 0 = false) (h : s.inMemory s.pc = false) :
    fetch s = .abort s.pc s := by
  rw [fetch, he, if_neg Bool.false_ne_true, fetchWord_absent h, Res.bind_abort]

/-- A second word outside program memory (R104, R509, log 17). -/
theorem fetch_second_absent {s : State} (he : s.pc.getLsbD 0 = false) (h1 : s.inMemory s.pc = true)
    (htwo : hasSecondWord s.par.model s.par.encodings (s.mem.word s.pc) = true)
    (h2 : s.inMemory (s.pc + 2#16) = false) : fetch s = .abort (s.pc + 2#16) s := by
  rw [fetch, he, if_neg Bool.false_ne_true, fetchWord_memory h1, Res.bind_ok, if_pos htwo, fetchWord_absent h2,
    Res.bind_abort]

/-- Words fetched that decode to nothing (R112, R115, R116). -/
theorem instruction_undecoded {s : State} {iw iw2 : Word} (hf : fetch s = .ok (iw, iw2) s)
    (hd : decodeWith s.par.encodings iw iw2 = none) : instruction s = undecoded iw s := by
  simp only [instruction, hf, hd]

theorem undecoded_untrapped {iw : Word} {s : State} (h : statedTrap s.par.model iw = false) :
    undecoded iw s = undefinedWord iw s := by simp [undecoded, h]

/-- Settles O5: each way the fetch stops, then the words no instruction has; those of the last clause decode to nothing
for their second word and do not trap for their first. -/
theorem fetchStops : Obligations.FetchStops := by
  intro s hrun hreq iw two iw2
  have hstep := step_of_no_request hrun hreq
  refine ⟨fun ho => ?_, fun he h1 => ?_, fun he h1 htwo h2 => ?_, fun he h1 h2 => ?_⟩
  · rw [hstep, instruction, fetch_odd ho]
  · rw [hstep, instruction, fetch_first_absent he h1]
  · rw [hstep, instruction, fetch_second_absent he h1 htwo h2]
  · have hf := fetch_memory he h1 h2
    have hnone (hd : decodeWith s.par.encodings iw iw2 = none) : step s = undecoded iw s :=
      hstep.trans (instruction_undecoded hf hd)
    refine ⟨hnone, fun hc htwo hbits => ?_⟩
    exact (hnone (decodeWith_classC_eq_none hc hbits)).trans (undecoded_untrapped (statedTrap_of_classC hc htwo))

end Sys2Proof.Machine
end

section
/-! SUPPORT. MSTS and RETN of a word whose Active bit is 0 (O41). -/

namespace Sys2Proof.Machine

/-- A transfer of control after free values were used. -/
theorem controlled_spend_setPc (s : State) (n : Nat) (pc : Word) : controlled pc [] [] [] s ((s.spend n).setPc pc) :=
  ⟨State.pc_setPc _ _, sameBut_trans (sameBut_spend s n) (sameBut_setPc _ pc), rfl, rfl⟩

/-- The two states that control goes on from where the status word loaded has Active 0 (R31, log 14). -/
theorem loadStatus_setPc_inactive {w : Word} (h : w.getLsbD 11 = false) (s : State) (pc : Word) :
    controlled pc [] [] [] { s with status := w, run := .halted } ((s.loadStatus w).setPc pc) ∨
      controlled pc [] [] [] { s with status := w ||| 0x0800#16 } ((s.loadStatus w).setPc pc) := by
  obtain e | e := loadStatus_inactive h s
  · rw [e]; exact .inl (controlled_spend_setPc { s with status := w, run := .halted } 1 pc)
  · rw [e]; exact .inr (controlled_spend_setPc { s with status := w ||| 0x0800#16 } 1 pc)

/-- MSTS of a word in program memory (R287). -/
theorem exec_msts_memory {rel : Bool} {d : BitVec 8} {s : State}
    (h : s.inMemory (evenAddr (s.controlAddress rel d)) = true) :
    exec (.msts rel d) s =
      .next ((s.loadStatus (s.mem.word (s.controlAddress rel d))).setPc (s.pc + 2#16)) := by
  have hpc (w : Word) : (s.loadStatus w).pc = s.pc := State.reg_congr (State.loadStatus_regs s w) 0#3
  show execMsts rel d s = _
  rw [execMsts, readWord_memory h, Res.bind_ok, Res.finish_ok, State.advance, hpc]

/-- RETN where both words lie in program memory (R286). -/
theorem exec_retn_memory {rel : Bool} {d : BitVec 8} {s : State}
    (h : s.inMemory (evenAddr (s.controlAddress rel d)) = true)
    (h2 : s.inMemory (evenAddr (s.controlAddress rel d + 2#16)) = true) :
    exec (.retn rel d) s =
      .next ((s.loadStatus (s.mem.word (s.controlAddress rel d))).setPc
        (s.mem.word (s.controlAddress rel d + 2#16))) := by
  show execRetn rel d s = _
  rw [execRetn, returnFrom_memory h h2, Res.finish_ok]

/-- Settles O41: both instructions load the word and then transfer control. -/
theorem inactiveStatus : Obligations.InactiveStatus := by
  intro rel d s m w loaded hm hw
  exact ⟨⟨_, exec_msts_memory hm, loadStatus_setPc_inactive hw s _⟩,
    fun h2 => ⟨_, exec_retn_memory hm h2, loadStatus_setPc_inactive hw s _⟩⟩

end Sys2Proof.Machine
end

section
/-! SUPPORT. Which instructions write the programmable flags, the interrupt masks and the key (O14). -/

namespace Sys2Proof.Machine

/-- The programmable flags (R28). -/
def programmedFlags : List Flag := [.f1, .f2, .f3]

/-- The interrupt masks (R32). -/
def maskFlags : List Flag := [.m1, .m2, .m3, .m4]

/-- Between `s` and `t` the requests, the RUN event and TRAP_STATUS are as before, the programmable flags and masks
outside `fs` are, and so is the key unless `keyed`. -/
structure ControlKept (fs : List Flag) (keyed : Bool) (s t : State) : Prop where
  trapStatus : t.par.trapStatus = s.par.trapStatus
  pending : t.pending = s.pending
  runRequest : t.runRequest = s.runRequest
  key : keyed = false → t.key = s.key
  flags : ∀ f ∈ programmedFlags ++ maskFlags, f ∉ fs → t.flag f = s.flag f

section
variable {fs : List Flag} {keyed : Bool} {s t u : State}

theorem ControlKept.trans (h : ControlKept fs keyed s t) (k : ControlKept fs keyed t u) : ControlKept fs keyed s u where
  trapStatus := k.trapStatus.trans h.trapStatus
  pending := k.pending.trans h.pending
  runRequest := k.runRequest.trans h.runRequest
  key hk := (k.key hk).trans (h.key hk)
  flags f hf hn := (k.flags f hf hn).trans (h.flags f hf hn)

theorem Steady.controlKept (h : Steady s t) : ControlKept fs keyed s t := by
  have hsteady : ∀ f ∈ programmedFlags ++ maskFlags, f ∈ steadyFlags := by decide
  obtain ⟨hkey, -, hpending, hrequest, -, -, hpar⟩ := h.outside
  exact ⟨by rw [hpar], hpending, hrequest, fun _ => hkey, fun f hf _ => h.flags f (hsteady f hf)⟩

/-- A new status word in which the flags and masks outside `fs` are as before. -/
theorem ControlKept.withStatus {st : Word} (h : ∀ f ∈ programmedFlags ++ maskFlags, f ∉ fs → getFlag f st = s.flag f) :
    ControlKept fs keyed s { s with status := st } :=
  ⟨rfl, rfl, rfl, fun _ => rfl, h⟩

theorem ControlKept.setPc (h : ControlKept fs keyed s t) (v : Word) : ControlKept fs keyed s (t.setPc v) :=
  h.trans ((Steady.refl t).setPc v).controlKept

theorem ControlKept.advance (h : ControlKept fs keyed s t) (len : Word) : ControlKept fs keyed s (t.advance len) :=
  h.setPc _

/-- A status word loaded whole (R286, R287) writes every flag and mask. -/
theorem ControlKept.loadStatus (h : ControlKept (programmedFlags ++ maskFlags) keyed s t) (w : Word) :
    ControlKept (programmedFlags ++ maskFlags) keyed s (t.loadStatus w) :=
  h.trans ⟨by simp, by simp, by simp, fun _ => by simp, fun _ hf hn => absurd hf hn⟩

/-! ### Interrupts -/

/-- The entry of an interrupt where TRAP_STATUS is the identity (R514). -/
theorem ControlKept.takeEntry {level block : Nat} {w : Word} (hi : s.par.trapStatus = .identity)
    (h : takeEntry level block w s = .next t) : ControlKept fs keyed s t := by
  obtain ⟨-, rfl⟩ := takeEntry_next.1 h
  exact ⟨rfl, rfl, rfl, fun _ => rfl, fun f _ _ => congrArg (getFlag f) (entered_status hi _ _ _)⟩

theorem EndsSteady.controlKept {o : Outcome} (h : EndsSteady s o) (hi : s.par.trapStatus = .identity)
    (ho : o = .next t) : ControlKept fs keyed s t := by
  obtain hs | ⟨u, level, b, w, hu, -, hk⟩ := h t ho
  · exact hs.controlKept
  · exact hu.controlKept.trans (.takeEntry (by rwa [hu.par]) hk)

theorem ControlKept.undefinedWord {iw : Word} (hi : s.par.trapStatus = .identity)
    (h : undefinedWord iw s = .next t) : ControlKept fs keyed s t := (endsSteady_undefinedWord iw s).controlKept hi h

/-! ### The instructions that write the status, the key or the run state -/

/-- A part of an instruction that leaves what `ControlKept` says wherever it ends. -/
def Res.controlKept {α : Type} (fs : List Flag) (keyed : Bool) (s : State) : Res α → Prop
  | .ok _ t => ControlKept fs keyed s t
  | .unimplemented t => ControlKept fs keyed s t
  | .abort _ t => ControlKept fs keyed s t
  | .refuse _ => True

theorem Res.controlKept_bind {α β : Type} {r : Res α} {f : α → State → Res β} (h : r.steady s)
    (k : ∀ a u, Steady s u → (f a u).controlKept fs keyed s) : (r.bind f).controlKept fs keyed s := by
  cases r with
  | ok a u => exact k a u h
  | unimplemented u => exact Steady.controlKept h
  | abort x u => exact Steady.controlKept h
  | refuse q => trivial

theorem ControlKept.finish {iw : Word} {r : Res Unit} (hi : s.par.trapStatus = .identity)
    (h : r.controlKept fs keyed s) (k : Res.finish iw r = .next t) : ControlKept fs keyed s t := by
  cases r with
  | ok _ u => cases k; exact h
  | unimplemented u => exact h.trans (.takeEntry (h.trapStatus.trans hi) k)
  | abort x u => exact h.trans (.takeEntry (h.trapStatus.trans hi) k)
  | refuse q => cases k

/-- RETN loads a status word and then the program counter (R286). -/
theorem controlKept_returnFrom (m : Word) (s : State) :
    (returnFrom m s).controlKept (programmedFlags ++ maskFlags) keyed s :=
  Res.controlKept_bind (steady_readWord (.refl s) _) fun _ _ hu =>
    Res.controlKept_bind (steady_readWord hu _) fun _ _ hv => (hv.controlKept.loadStatus _).setPc _

/-- The mask instructions write no programmable flag (R275 to R277). -/
theorem getFlag_applyMask {f : Flag} (hf : f ∈ programmedFlags) (disable : Bool) (k : BitVec 4) (st : Word) :
    getFlag f (applyMask disable k st) = getFlag f st := by
  simp only [programmedFlags, List.mem_cons, List.not_mem_nil, or_false] at hf
  obtain rfl | rfl | rfl := hf <;> cases disable <;> simp [applyMask, getFlag, Flag.bit]

theorem ControlKept.applyMask (disable : Bool) (k : BitVec 4) (s : State) :
    ControlKept maskFlags keyed s { s with status := applyMask disable k s.status } :=
  .withStatus fun _ hf hn => getFlag_applyMask ((List.mem_append.1 hf).resolve_right hn) disable k s.status

theorem controlKept_enterWait (h : ControlKept fs keyed s t) : (enterWait t).controlKept fs keyed s := by
  unfold enterWait
  split
  · exact h
  · exact h.trans ⟨rfl, rfl, rfl, fun _ => rfl, fun _ _ _ => rfl⟩

theorem ControlKept.maskAndWait {h3 : BitVec 4} {disable : Bool} {k : BitVec 4}
    (hi : s.par.trapStatus = .identity) (h : maskAndWait h3 disable k s = .next t) : ControlKept maskFlags keyed s t :=
  .finish hi (controlKept_enterWait (.applyMask _ _ _)) h

/-- With K = 0, the WAIT instruction, no mask is written (R281). -/
theorem applyMask_zero (disable : Bool) (st : Word) : applyMask disable 0#4 st = st := by
  cases disable with
  | false => exact BitVec.and_allOnes
  | true => exact BitVec.or_zero

/-- RSTS and SETS write no mask (R272, R273). -/
theorem getFlag_programmed {f : Flag} (hf : f ∈ maskFlags) (k : BitVec 7) (st : Word) :
    getFlag f (st &&& ~~~(k.setWidth 16)) = getFlag f st ∧ getFlag f (st ||| k.setWidth 16) = getFlag f st := by
  simp only [maskFlags, List.mem_cons, List.not_mem_nil, or_false] at hf
  obtain rfl | rfl | rfl | rfl := hf <;> simp [getFlag, Flag.bit]

theorem ControlKept.execSkey {k : BitVec 2} (hi : s.par.trapStatus = .identity) (h : execSkey k s = .next t) :
    ControlKept fs true s t := by
  unfold Machine.execSkey at h
  split at h
  · exact .undefinedWord hi h
  · cases h; exact ⟨rfl, rfl, rfl, nofun, fun _ _ _ => rfl⟩

theorem ControlKept.execJkey {k : BitVec 2} {target : Word} (hi : s.par.trapStatus = .identity)
    (h : execJkey k target s = .next t) : ControlKept fs true s t := by
  unfold Machine.execJkey at h
  split at h
  · cases h; exact ⟨rfl, rfl, rfl, nofun, fun _ _ _ => rfl⟩
  · exact .undefinedWord hi h

end

/-! ### Every instruction -/

/-- The programmable flags and masks an instruction may write (R272 to R282, R286, R287). -/
def writtenFlags : Instr → List Flag
  | .rsts _ | .sets _ => programmedFlags
  | .enbl _ | .dsbl _ | .enbw _ | .dsbw _ => maskFlags
  | .msts _ _ | .retn _ _ => programmedFlags ++ maskFlags
  | _ => []

/-- The instructions that write the key (R311, R484). -/
def writesKey : Instr → Bool
  | .skey _ | .jkey _ _ => true
  | _ => false

/-- Every instruction leaves the flags and masks it does not write, the key unless it writes it, and the requests. -/
theorem exec_controlKept {i : Instr} {s t : State} (hi : s.par.trapStatus = .identity) (h : exec i s = .next t) :
    ControlKept (writtenFlags i) (writesKey i) s t := by
  cases hw : writesControl i with
  | false => exact (exec_endsSteady hw s).controlKept hi h
  | true =>
    cases i with
    | halt => cases h; exact ⟨rfl, rfl, rfl, fun _ => rfl, fun _ _ _ => rfl⟩
    | rsts k =>
      cases h
      refine .advance (.withStatus fun f hf hn => ?_) 2#16
      exact (getFlag_programmed ((List.mem_append.1 hf).resolve_left hn) k s.status).1
    | sets k =>
      cases h
      refine .advance (.withStatus fun f hf hn => ?_) 2#16
      exact (getFlag_programmed ((List.mem_append.1 hf).resolve_left hn) k s.status).2
    | enbl | dsbl => cases h; exact (ControlKept.applyMask _ _ s).advance 2#16
    | enbw | dsbw => exact .maskAndWait hi h
    | wait | waitD =>
      refine .finish hi (controlKept_enterWait (.withStatus fun f _ _ => ?_)) h
      exact congrArg (getFlag f) (applyMask_zero _ s.status)
    | retn => exact .finish hi (controlKept_returnFrom _ s) h
    | msts rel d =>
      refine .finish hi (Res.controlKept_bind (steady_readWord (.refl s) (s.controlAddress rel d)) fun w u hu => ?_) h
      exact (hu.controlKept.loadStatus w).advance 2#16
    | skey => exact .execSkey hi h
    | jkey => exact .execJkey hi h
    | _ => cases hw

theorem programmed_notMem_maskFlags : ∀ f ∈ programmedFlags, f ∉ maskFlags := by decide

/-- Only RSTS, SETS, MSTS and RETN write programmable flags (R28). -/
theorem programmed_notMem_writtenFlags {i : Instr} (h : ∀ f, i ≠ .rsts f ∧ i ≠ .sets f)
    (hl : ∀ r d, i ≠ .msts r d ∧ i ≠ .retn r d) : ∀ f ∈ programmedFlags, f ∉ writtenFlags i := by
  unfold writtenFlags
  split
  case h_1 k => exact absurd rfl (h k).1
  case h_2 k => exact absurd rfl (h k).2
  case h_7 r d => exact absurd rfl (hl r d).1
  case h_8 r d => exact absurd rfl (hl r d).2
  case h_9 => exact fun _ _ => List.not_mem_nil
  all_goals exact programmed_notMem_maskFlags

/-- Only ENBL, DSBL, ENBW, DSBW, MSTS and RETN write masks (R32). -/
theorem mask_notMem_writtenFlags {i : Instr} (h : ∀ k, i ≠ .enbl k ∧ i ≠ .dsbl k ∧ i ≠ .enbw k ∧ i ≠ .dsbw k)
    (hl : ∀ r d, i ≠ .msts r d ∧ i ≠ .retn r d) : ∀ f ∈ maskFlags, f ∉ writtenFlags i := by
  unfold writtenFlags
  split
  case h_3 k => exact absurd rfl (h k).1
  case h_4 k => exact absurd rfl (h k).2.1
  case h_5 k => exact absurd rfl (h k).2.2.1
  case h_6 k => exact absurd rfl (h k).2.2.2
  case h_7 r d => exact absurd rfl (hl r d).1
  case h_8 r d => exact absurd rfl (hl r d).2
  case h_9 => exact fun _ _ => List.not_mem_nil
  all_goals exact fun f hf hm => programmed_notMem_maskFlags f hm hf

/-- Only SKEY and JKEY write the key (R33). -/
theorem writesKey_eq_false {i : Instr} (h : ∀ k, i ≠ .skey k) (hj : ∀ k a, i ≠ .jkey k a) : writesKey i = false := by
  unfold writesKey
  split
  case h_1 k => exact absurd rfl (h k)
  case h_2 k a => exact absurd rfl (hj k a)
  case h_3 => rfl

/-- Settles O14: an instruction that is none of those named writes none of the indicators concerned. -/
theorem onlyTheseWrite : Obligations.OnlyTheseWrite := by
  intro i s t hi h
  have hk := exec_controlKept hi h
  refine ⟨fun hp hl => ?_, fun hm hl => ?_, fun hs hj => hk.key (writesKey_eq_false hs hj), hk.pending, hk.runRequest⟩
  · have hf (f : Flag) (hf : f ∈ programmedFlags) : t.flag f = s.flag f :=
      hk.flags f (List.mem_append_left _ hf) (programmed_notMem_writtenFlags hp hl f hf)
    exact ⟨hf .f1 (by decide), hf .f2 (by decide), hf .f3 (by decide)⟩
  · have hf (f : Flag) (hf : f ∈ maskFlags) : t.flag f = s.flag f :=
      hk.flags f (List.mem_append_right _ hf) (mask_notMem_writtenFlags hm hl f hf)
    exact ⟨hf .m1 (by decide), hf .m2 (by decide), hf .m3 (by decide), hf .m4 (by decide)⟩

end Sys2Proof.Machine
end

section
/-! SUPPORT. Words and bytes of memory, and where an access of legal parameters goes (O9, O10). -/

namespace Sys2Proof.Machine

/-! ## Words and bytes -/

theorem oddAddr_eq_add_one (a : Word) : oddAddr a = evenAddr a + 1#16 := by
  apply BitVec.eq_of_toNat_eq
  rw [oddAddr_toNat, BitVec.toNat_add, evenAddr_toNat, BitVec.toNat_ofNat]
  omega

/-- A word read after a word was written: bit 0 of neither address matters (R62, R64). -/
theorem Memory.word_setWord (m : Memory) (a x v : Word) :
    (m.setWord a v).word x = if evenAddr x = evenAddr a then v else m.word x := by
  split
  · rename_i h
    rw [← Memory.word_evenAddr, h, Memory.word_evenAddr, Memory.word_setWord_same]
  · rename_i h
    exact Memory.word_setWord_ne m h v

/-- Settles O9: the right byte of a word lies one past its even address, and the two bytes differ. -/
theorem wordsAndBytes : Obligations.WordsAndBytes := by
  intro m a v b
  change m.word a = m.byte (evenAddr a) ++ m.byte (evenAddr a + 1#16) ∧
    (∀ x, (m.setWord a v).byte x =
      if x = evenAddr a then leftByte v else if x = evenAddr a + 1#16 then rightByte v else m.byte x) ∧
    (∀ x, (m.setByte a b).byte x = if x = a then b else m.byte x) ∧
    ∀ x, (m.setWord a v).word x = if evenAddr x = evenAddr a then v else m.word x
  rw [← oddAddr_eq_add_one]
  refine ⟨rfl, fun x => ?_, fun x => m.byte_setByte a x b, fun x => m.word_setWord a x v⟩
  rw [Memory.byte_setWord]
  by_cases hx : x = evenAddr a
  · have hodd : x ≠ oddAddr a := hx ▸ evenAddr_ne_oddAddr a a
    rw [if_neg hodd, if_pos hx, if_pos hx]
  · rw [if_neg hx, if_neg hx]

/-! ## Where an access goes -/

theorem rightByte_eq_setWidth (v : Word) : rightByte v = v.setWidth 8 :=
  (BitVec.setWidth_eq_extractLsb' (by decide)).symm

/-- Legal parameters: MEMTOP is even, and the system registers lie above it (R6). -/
theorem Params.legal_memTop {p : Params} (h : p.legal = true) : p.memTop.toNat % 2 = 0 ∧ p.memTop.toNat ≤ 0xF000 := by
  simp only [Params.legal, Bool.and_eq_true, Bool.not_eq_true', getLsbD_zero_eq, decide_eq_false_iff_not,
    decide_eq_true_eq] at h
  omega

theorem inMemory_iff {s : State} {a : Word} : s.inMemory a = true ↔ a.toNat < s.par.memTop.toNat := by
  simp [State.inMemory]

/-- A word begins in program memory as soon as one of its bytes lies there (R64, R69). -/
theorem inMemory_evenAddr {s : State} (hl : s.par.legal = true) (a : Word) :
    s.inMemory (evenAddr a) = s.inMemory a := by
  obtain ⟨heven, -⟩ := Params.legal_memTop hl
  rw [Bool.eq_iff_iff, inMemory_iff, inMemory_iff, evenAddr_toNat]
  omega

/-- Between MEMTOP and the system registers nothing answers (R504, D33). -/
theorem operandPlace_absent {s : State} (hl : s.par.legal = true) {a : Word}
    (hm : s.inMemory a = false) (hf : a.toNat < 0xF000) :
    s.wordPlace a = .absent (evenAddr a) ∧ s.bytePlace a = .absent a := by
  have he : (evenAddr a).toNat < 0xF000 := by rw [evenAddr_toNat]; omega
  simp [State.wordPlace, State.bytePlace, inMemory_evenAddr hl, hm, hf, he]

/-- The system registers answer no byte access (R71, D23). -/
theorem bytePlace_systemRegister {s : State} {a : Word} (hm : s.inMemory a = false) (hf : 0xF000 ≤ a.toNat) :
    s.bytePlace a = .refused (.systemRegisterByteOrOdd a) := by
  simp [State.bytePlace, hm, hf]

/-- The place of a word access among the system registers (R70, R71, R23, R504). -/
theorem wordPlace_systemRegister {s : State} (hl : s.par.legal = true) {a : Word} (hm : s.inMemory a = false)
    (hf : 0xF000 ≤ a.toNat) :
    s.wordPlace a = if a.getLsbD 0 then .refused (.systemRegisterByteOrOdd a)
      else if isOwnRegister s.par.cpu a then .refused (.ownRegisterBlock a)
      else if s.par.devices.contains a then .device else .absent a := by
  have he : ¬ (evenAddr a).toNat < 0xF000 := by rw [evenAddr_toNat]; omega
  rw [State.wordPlace, inMemory_evenAddr hl, hm, if_neg Bool.false_ne_true, if_neg he]

/-- Reading and writing a system register that answers (R70, R80). -/
theorem word_device {s : State} {a : Word} (h : s.wordPlace a = .device) :
    readWord a s = .ok s.deviceValue (s.afterDeviceRead a) ∧
      ∀ v, writeWord a v s = .ok () (s.afterDeviceWrite a v) := by
  simp [readWord, writeWord, h]

/-- Settles O10: the ranges in the order of the addresses, the last one by the place of the word. -/
theorem accesses : Obligations.Accesses := by
  intro s a v hl
  refine ⟨fun hlow => ?_, fun hmid hf => ?_, fun hf => ?_⟩
  · have hm : s.inMemory a = true := inMemory_iff.2 hlow
    have he : s.inMemory (evenAddr a) = true := (inMemory_evenAddr hl a).trans hm
    rw [← rightByte_eq_setWidth]
    exact ⟨readWord_memory he, writeWord_memory he v, readByte_memory hm, writeByte_memory hm v⟩
  · have hm : s.inMemory a = false := by simpa [State.inMemory] using hmid
    obtain ⟨hword, hbyte⟩ := operandPlace_absent hl hm hf
    obtain ⟨hread, hwrite⟩ := word_absent hword
    obtain ⟨hreadByte, hwriteByte⟩ := operand_absent (size := .byte) hbyte
    exact ⟨hread, hwrite v, hreadByte, hwriteByte v⟩
  · have hm : s.inMemory a = false := by
      obtain ⟨-, htop⟩ := Params.legal_memTop hl
      simpa [State.inMemory] using htop.trans hf
    obtain ⟨hreadByte, hwriteByte⟩ := operand_refused (size := .byte) (bytePlace_systemRegister hm hf)
    have hplace := wordPlace_systemRegister hl hm hf
    refine ⟨hreadByte, hwriteByte v, fun hodd => ?_, fun heven hown => ?_, fun heven hown =>
      ⟨fun hd => ?_, fun hd => ?_⟩⟩
    · rw [if_pos hodd] at hplace
      exact (word_refused hplace).imp_right (· v)
    all_goals rw [if_neg (by rw [heven]; decide)] at hplace
    · rw [if_pos hown] at hplace
      exact (word_refused hplace).imp_right (· v)
    all_goals rw [if_neg (by rw [hown]; decide)] at hplace
    · rw [if_neg (by simpa using hd)] at hplace
      exact (word_absent hplace).imp_right (· v)
    · rw [if_pos (by simpa using hd)] at hplace
      exact (word_device hplace).imp_right (· v)

end Sys2Proof.Machine
end

section
/-! SUPPORT. Word instructions of the six classes whose operand is a system register that answers (O23). -/

namespace Sys2Proof.Machine

/-! ## Frames and indicators -/

/-- Frames one after another, their lists joined. -/
theorem sameBut_append {rs rs' : List RegNo} {fs fs' : List Flag} {bs bs' : List Word} {s t u : State}
    (h : sameBut rs fs bs s t) (k : sameBut rs' fs' bs' t u) : sameBut (rs' ++ rs) (fs' ++ fs) (bs' ++ bs) s u :=
  sameBut_trans
    (sameBut_mono h (fun _ hr _ => List.mem_append_right _ hr) (fun _ => List.mem_append_right _)
      (fun _ => List.mem_append_right _))
    (sameBut_mono k (fun _ hr _ => List.mem_append_left _ hr) (fun _ => List.mem_append_left _)
      (fun _ => List.mem_append_left _))

/-- The index update stands after later parts that write neither the index register nor LP. -/
theorem indexUpdated_of_sameBut {index : Index} {size : Size} {xr : RegNo} {rs : List RegNo} {fs : List Flag}
    {bs : List Word} {s t u : State} (h : indexUpdated index size xr s t) (k : sameBut rs fs bs t u)
    (hx : index ≠ .none → xr ≠ 0#3 ∧ xr ∉ rs) (hf : Flag.lp ∉ fs) : indexUpdated index size xr s u := by
  intro hi
  obtain ⟨hregs, hflags, -, -⟩ := k
  obtain ⟨hreg, hlp⟩ := h hi
  obtain ⟨h0, hr⟩ := hx hi
  exact ⟨(hregs xr h0 hr).trans hreg, (hflags .lp hf).trans hlp⟩

/-- The indicators of an operation, seen from the state before the address was developed (R29, R156). -/
theorem operationShown_of_address {index : Index} {size : Size} {m : MemOperand} {s s1 t : State} {a : Word}
    (ha : effectiveAddress index size m s = .ok a s1) {op : Operation} {src tgt : Word}
    (ht : t.status = operationStatus op src tgt s1.status) : operationShown op src tgt s t := by
  obtain ⟨⟨-, hflags, -, -⟩, -, -, -⟩ := effectiveAddress_frame ha
  have hov : Flag.ov ∉ indexFlags index := by cases index <;> decide
  intro f hf
  rw [State.flag, ht]
  exact operationStatus_congr hf (hflags .ov hov) src tgt

/-- An operation that does not read its target depends on the source alone (R170). -/
theorem operation_of_not_reads {op : Operation} (h : operationReadsTarget op = false) (src tgt tgt' st : Word) :
    operationResult op src tgt = operationResult op src tgt' ∧
      operationStatus op src tgt st = operationStatus op src tgt' st := by
  cases op with
  | mov => exact ⟨rfl, rfl⟩
  | _ => cases h

/-- Without a conflict of AR and XR the result goes to the accumulator, and nothing else is written (R25, R160). -/
theorem deliver_plain {index : Index} {ar xr : RegNo} (h : clash index ar xr = false) (len : Word) (op : Operation)
    (r : Word) (s : State) :
    (if operationWrites op then delivered len ar r s (deliver index len op ar xr r s)
     else (deliver index len op ar xr r s).pc = s.pc + len) ∧
      (deliver index len op ar xr r s).status = s.status ∧ sameDevices s (deliver index len op ar xr r s) ∧
      sameBut (if operationWrites op then [ar] else []) [] [] s (deliver index len op ar xr r s) := by
  rw [deliver, h, Bool.false_and, if_neg Bool.false_ne_true]
  cases operationWrites op with
  | true => exact ⟨delivered_put s len ar r, State.put_status s len ar r,
      ⟨State.put_deviceIn s len ar r, State.put_deviceLog s len ar r⟩, sameBut_put s len ar r⟩
  | false => exact ⟨State.pc_advance s len, rfl, ⟨rfl, rfl⟩, sameBut_advance s len⟩

/-- Where an instruction of classes 5 to 7 leaves its result, seen from a state with the same program counter. -/
theorem delivered_or_pc_congr {s s' t : State} (h : s'.pc = s.pc) {writes : Bool} {l : Word} {r : RegNo} {v : Word}
    (k : if writes then delivered l r v s' t else t.pc = s'.pc + l) :
    if writes then delivered l r v s t else t.pc = s.pc + l := by
  unfold delivered at *
  rwa [h] at k

/-- The status of an operation written after accesses to system registers: what it leaves, seen from before them. -/
theorem operated_of_onlyDevices {s u : State} (hu : onlyDevices s u) (op : Operation) (src tgt : Word) :
    ∃ w : State, w = { u with status := operationStatus op src tgt u.status } ∧ w.pc = s.pc ∧
      w.status = operationStatus op src tgt s.status ∧ w.deviceLog = u.deviceLog ∧
      sameBut [] (operationFlags op) [] s w := by
  obtain ⟨_, _, _, rfl⟩ := hu
  exact ⟨_, rfl, rfl, rfl, rfl, sameBut_operationStatus s op src tgt⟩

/-! ## Accesses -/

/-- A read of a system register is recorded with the value supplied (R80, log 15). -/
@[simp] theorem State.afterDeviceRead_deviceLog (s : State) (a : Word) :
    (s.afterDeviceRead a).deviceLog = s.deviceLog ++ [.read a s.deviceValue] := by
  unfold State.afterDeviceRead State.deviceValue
  cases s.deviceIn <;> rfl

/-- The target of a general operation on a system register that answers, read where the operation reads it (R70,
R170). -/
theorem readTarget_device {s : State} {a : Word} (h : s.wordPlace a = .device) (op : Operation) (src : Word) :
    ∃ tgt u, (if operationReadsTarget op then readOperand .word a s else .ok 0#16 s) = .ok tgt u ∧ onlyDevices s u ∧
      u.deviceLog = s.deviceLog ++ (if operationReadsTarget op then [.read a s.deviceValue] else []) ∧
      operationResult op src tgt = operationResult op src s.deviceValue ∧
      operationStatus op src tgt s.status = operationStatus op src s.deviceValue s.status := by
  cases hr : operationReadsTarget op with
  | true =>
    exact ⟨s.deviceValue, s.afterDeviceRead a, (word_device h).1, onlyDevices_afterDeviceRead s a,
      s.afterDeviceRead_deviceLog a, rfl, rfl⟩
  | false =>
    exact ⟨0#16, s, rfl, onlyDevices_refl s, (List.append_nil _).symm, operation_of_not_reads hr src _ _ s.status⟩

/-- The result of a general operation written to a system register that answers, where the operation writes (R70). -/
theorem writeTarget_device {s : State} {a : Word} (h : s.wordPlace a = .device) (op : Operation) (v : Word) :
    ∃ u, (if operationWrites op then writeOperand .word a v s else .ok () s) = .ok () u ∧ onlyDevices s u ∧
      u.deviceLog = s.deviceLog ++ (if operationWrites op then [.write a v] else []) := by
  cases operationWrites op with
  | true => exact ⟨s.afterDeviceWrite a v, (word_device h).2 v, onlyDevices_afterDeviceWrite s a v, rfl⟩
  | false => exact ⟨s, rfl, onlyDevices_refl s, (List.append_nil _).symm⟩

/-- A general operation on a system register that answers: one read, one write, and the status (R70, R170, R171). -/
theorem operateOnMemory_device {s : State} {a : Word} (h : s.wordPlace a = .device) (op : Operation) (src : Word) :
    ∃ w, operateOnMemory .word op a src s = .ok () w ∧ w.pc = s.pc ∧
      w.status = operationStatus op src s.deviceValue s.status ∧
      w.deviceLog = s.deviceLog ++ (if operationReadsTarget op then [.read a s.deviceValue] else []) ++
        (if operationWrites op then [.write a (operationResult op src s.deviceValue)] else []) ∧
      sameBut [] (operationFlags op) [] s w := by
  obtain ⟨tgt, u, hread, hu, hulog, hresult, hstatus⟩ := readTarget_device h op src
  have hplace : u.wordPlace a = .device := (congrFun (wordPlace_congr hu.par) a).trans h
  obtain ⟨v, hwrite, hv, hvlog⟩ := writeTarget_device hplace op (operationResult op src tgt)
  obtain ⟨w, hw, hpc, hwstatus, hwlog, hframe⟩ := operated_of_onlyDevices (onlyDevices_trans hu hv) op src tgt
  refine ⟨w, ?_, hpc, hwstatus.trans hstatus, ?_, hframe⟩
  · rw [operateOnMemory, hread, Res.bind_ok, hwrite, Res.bind_ok, hw]
  · rw [hwlog, hvlog, hulog, hresult]

/-! ## Whole instructions -/

/-- An instruction of classes 1 to 3 once its address is found, without a conflict of AR and XR (R161). -/
theorem toMemory_plain {cls : MemClass} {size : Size} {ar : RegNo} {m : MemOperand} {s s1 : State} {a : Word}
    (hp : indexPlain (classIndex cls) ar m.xr) (ha : effectiveAddress (classIndex cls) size m s = .ok a s1)
    (op : Operation) :
    toMemory cls size op ar m s = Res.finish (memWord cls size op ar m)
      ((operateOnMemory size op a (s.data (operandLength m) ar) s1).bind fun _ s2 =>
        .ok () (s2.advance (operandLength m))) := by
  obtain ⟨hacc, hclash⟩ := accumulator_plain hp (operandLength m) s s1
  simp only [toMemory, ha, Res.bind_ok, hacc, afterAccumulator_plain hclash, closeIndex_plain hp]

/-- An instruction of classes 5 to 7 once its operand is read, without a conflict of AR and XR (R161). -/
theorem fromMemory_plain {cls : MemClass} {size : Size} {ar : RegNo} {m : MemOperand} {s s1 s2 : State} {a src : Word}
    (hp : indexPlain (classIndex cls) ar m.xr) (ha : effectiveAddress (classIndex cls) size m s = .ok a s1)
    (hr : readOperand size a s1 = .ok src s2) (op : Operation) :
    fromMemory cls size op ar m s =
      .next (deliver (classIndex cls) (operandLength m) op ar m.xr (operationResult op src (s.data (operandLength m) ar))
        { s2 with status := operationStatus op src (s.data (operandLength m) ar) s2.status }) := by
  obtain ⟨hacc, hclash⟩ := accumulator_plain hp (operandLength m) s s2
  simp only [fromMemory, ha, hr, Res.bind_ok, hacc, afterAccumulator_plain hclash, closeIndex_plain hp, Res.finish_ok]

/-- Accumulator to system register (R195 to R197), with the frame from the address on. -/
theorem toMemory_device {cls : MemClass} {ar : RegNo} {m : MemOperand} {s s1 : State} {a : Word}
    (hp : indexPlain (classIndex cls) ar m.xr) (ha : effectiveAddress (classIndex cls) .word m s = .ok a s1)
    (hd : s1.wordPlace a = .device) (op : Operation) :
    ∃ t, toMemory cls .word op ar m s = .next t ∧ t.pc = s1.pc + operandLength m ∧
      t.status = operationStatus op (s.data (operandLength m) ar) s1.deviceValue s1.status ∧
      t.deviceLog = s1.deviceLog ++ (if operationReadsTarget op then [.read a s1.deviceValue] else []) ++
        (if operationWrites op then
          [.write a (operationResult op (s.data (operandLength m) ar) s1.deviceValue)] else []) ∧
      sameBut [] (operationFlags op) [] s1 t := by
  obtain ⟨w, hop, hpc, hstatus, hlog, hframe⟩ := operateOnMemory_device hd op (s.data (operandLength m) ar)
  refine ⟨w.advance (operandLength m), ?_, ?_, hstatus, hlog, sameBut_append hframe (sameBut_advance w _)⟩
  · rw [toMemory_plain hp ha, hop, Res.bind_ok, Res.finish_ok]
  · rw [State.pc_advance, hpc]

/-- System register to accumulator (R198 to R200), with the frame from the address on. -/
theorem fromMemory_device {cls : MemClass} {ar : RegNo} {m : MemOperand} {s s1 : State} {a : Word}
    (hp : indexPlain (classIndex cls) ar m.xr) (ha : effectiveAddress (classIndex cls) .word m s = .ok a s1)
    (hd : s1.wordPlace a = .device) (op : Operation) :
    ∃ t, fromMemory cls .word op ar m s = .next t ∧
      (if operationWrites op then
        delivered (operandLength m) ar (operationResult op s1.deviceValue (s.data (operandLength m) ar)) s1 t
       else t.pc = s1.pc + operandLength m) ∧
      t.status = operationStatus op s1.deviceValue (s.data (operandLength m) ar) s1.status ∧
      t.deviceLog = s1.deviceLog ++ [.read a s1.deviceValue] ∧
      sameBut (if operationWrites op then [ar] else []) (operationFlags op) [] s1 t := by
  obtain ⟨w, hw, hpc, hstatus, hlog, hframe⟩ :=
    operated_of_onlyDevices (onlyDevices_afterDeviceRead s1 a) op s1.deviceValue (s.data (operandLength m) ar)
  obtain ⟨hend, hsame, ⟨-, hdev⟩, hput⟩ := deliver_plain (accumulator_plain hp (operandLength m) s s1).2
    (operandLength m) op (operationResult op s1.deviceValue (s.data (operandLength m) ar)) w
  refine ⟨_, (fromMemory_plain hp ha (word_device hd).1 op).trans (by rw [← hw]), delivered_or_pc_congr hpc hend,
    hsame.trans hstatus, ?_, ?_⟩
  · rw [hdev, hlog, State.afterDeviceRead_deviceLog]
  · simpa only [List.append_nil, List.nil_append] using sameBut_append hframe hput

/-- Settles O23: the address is developed first, then the accesses and the operation. -/
theorem systemRegisterOperand : Obligations.SystemRegisterOperand := by
  intro cls op ar m s s1 a hp ha hd
  obtain ⟨haddr, hpc, -, -⟩ := effectiveAddress_frame ha
  have hindex : indexUpdated (classIndex cls) .word m.xr s s1 :=
    fun hi => effectiveAddress_index ha (hp hi).1 hi
  have hlp := lp_notMem_operationFlags op
  have hclass : cls ∈ [MemClass.c1, .c2, .c3] ∧ cls ∉ [MemClass.c5, .c6, .c7] ∨
      cls ∉ [MemClass.c1, .c2, .c3] ∧ cls ∈ [MemClass.c5, .c6, .c7] := by cases cls <;> decide
  obtain ⟨hto, hnot⟩ | ⟨hnot, hfrom⟩ := hclass
  · obtain ⟨t, ht, htpc, hstatus, hlog, hframe⟩ := toMemory_device hp ha hd op
    refine ⟨t, (exec_toMemory hto _ op ar m s).trans ht,
      indexUpdated_of_sameBut hindex hframe (fun hi => ⟨(hp hi).1, List.not_mem_nil⟩) hlp,
      fun _ => ⟨?_, operationShown_of_address ha hstatus, hlog, sameBut_append haddr hframe⟩, fun h => absurd h hnot⟩
    rw [htpc, hpc]
  · obtain ⟨t, ht, hend, hstatus, hlog, hframe⟩ := fromMemory_device hp ha hd op
    have hx (hi : classIndex cls ≠ .none) : m.xr ≠ 0#3 ∧ m.xr ∉ if operationWrites op then [ar] else [] := by
      obtain ⟨h0, hne⟩ := hp hi
      refine ⟨h0, ?_⟩
      split
      · simpa using hne.symm
      · exact List.not_mem_nil
    exact ⟨t, (exec_fromMemory hfrom _ op ar m s).trans ht, indexUpdated_of_sameBut hindex hframe hx hlp,
      fun h => absurd h hnot, fun _ => ⟨delivered_or_pc_congr hpc hend, operationShown_of_address ha hstatus, hlog,
        sameBut_append haddr hframe⟩⟩

end Sys2Proof.Machine
end

section
/-! SUPPORT. The encoder on what the decoder answers: the codes written back, the words put together again from their
fields, then the instruction of each class code (O1, O2, O3). -/

namespace Sys2Proof

/-! ## Codes written back -/

@[simp] theorem size_code_ofBit (b : BitVec 1) : (Size.ofBit b).code = b := by revert b; decide

@[simp] theorem operation_code_ofCode (c : BitVec 3) : (Operation.ofCode c).code = c := by revert c; decide

@[simp] theorem shiftOp_code_ofCode (c : BitVec 3) : (ShiftOp.ofCode c).code = c := by revert c; decide

@[simp] theorem moveOp_iBit_ofBits (i j : BitVec 1) : (MoveOp.ofBits i j).iBit = i := by revert i j; decide

@[simp] theorem moveOp_jBit_ofBits (i j : BitVec 1) : (MoveOp.ofBits i j).jBit = j := by revert i j; decide

theorem condition_code_of_ofCode {t : BitVec 4} {c : Condition} (h : Condition.ofCode t = some c) : c.code = t := by
  revert t; cases c <;> decide

theorem normOp_code_of_ofCode {t : BitVec 3} {op : NormOp} (h : NormOp.ofCode t = some op) : op.code = t := by
  revert t; cases op <;> decide

theorem bitOp_code_of_ofCode {t : BitVec 3} {op : BitOp} (h : BitOp.ofCode t = some op) : op.code = t := by
  revert t; cases op <;> decide

/-- The code that is neither JUMP and JSBR nor a bit manipulation is that of the moves (R379). -/
theorem eq_seven_of_bitOp_ofCode {t : BitVec 3} (h : t ≠ 0#3) (hn : BitOp.ofCode t = none) : t = 7#3 := by
  revert t; decide

theorem bit_eq_zero {b : BitVec 1} (h : b ≠ 1#1) : b = 0#1 := by revert b; decide

theorem bit_eq_one {b : BitVec 1} (h : b ≠ 0#1) : b = 1#1 := by revert b; decide

@[simp] theorem bit1_beq_one (b : BitVec 1) : bit1 (b == 1#1) = b := by revert b; decide

/-! ## A word from its fields -/

section
variable {w : Word} {c t k h3 : BitVec 4} {b i e : BitVec 1} {op ar xr r2 : BitVec 3}

theorem assemble_of_fields (hc : fieldC w = c) (hb : fieldB w = b) (hop : fieldOp w = op) (hi : fieldI w = i)
    (har : fieldAr w = ar) (he : fieldE w = e) (hxr : fieldXr w = xr) : assemble c b op i ar e xr = w := by
  rw [← hc, ← hb, ← hop, ← hi, ← har, ← he, ← hxr, assemble_fields]

/-- AR of MLTA and MULT, the pair and the bit that tells them apart (R121). -/
theorem fieldAr_of_pair {x : BitVec 1} (h : w.extractLsb' 4 1 = x) : fieldAr w = fieldPair w ++ x := by
  subst h
  apply BitVec.eq_of_toNat_eq
  simp only [toNat_append_eq, fieldAr, fieldPair, BitVec.extractLsb'_toNat, Nat.shiftRight_eq_div_pow]
  omega

theorem constantWord_of_fields (hc : fieldC w = c) (hb : fieldB w = b) (hop : fieldOp w = op) (hi : fieldI w = i) :
    constantWord c b op i (fieldAr w) (fieldK w) = w := by
  rw [← hc, ← hb, ← hop, ← hi, constantWord_fields]

theorem displacementWord_of_fields (hc : fieldC w = c) (ht : fieldT w = t) :
    displacementWord c t (fieldD w) = w := by
  rw [← hc, ← ht, displacementWord_fields]

/-- Field T is B and OP (R101, R108). -/
theorem fieldB_fieldOp_of_fieldT (ht : (fieldT w).toNat = t.toNat) :
    fieldB w = t.extractLsb' 3 1 ∧ fieldOp w = t.extractLsb' 0 3 := by
  obtain rfl := BitVec.eq_of_toNat_eq ht
  constructor <;> apply BitVec.eq_of_toNat_eq <;>
    simp only [fieldB, fieldOp, fieldT, BitVec.extractLsb'_toNat, Nat.shiftRight_eq_div_pow] <;> omega

theorem statusWord_of_fields (hc : fieldC w = 0#4) (ht : fieldT w = 2#4) : statusWord (fieldI w) (fieldF w) = w := by
  have hc := congrArg BitVec.toNat hc
  have ht := congrArg BitVec.toNat ht
  apply BitVec.eq_of_toNat_eq
  rw [statusWord_toNat]
  simp only [fieldC, fieldT, fieldI, fieldF, BitVec.extractLsb'_toNat, Nat.shiftRight_eq_div_pow,
    BitVec.toNat_ofNat] at hc ht ⊢
  omega

theorem maskWord_of_fields (hc : fieldC w = 0#4) (ht : fieldT w = 8#4) (hh : fieldH3 w = h3) (hk : fieldK w = k) :
    maskWord h3 k = w := by
  subst hh hk
  have hc := congrArg BitVec.toNat hc
  have ht := congrArg BitVec.toNat ht
  apply BitVec.eq_of_toNat_eq
  rw [maskWord_toNat]
  simp only [fieldC, fieldT, fieldH3, fieldK, BitVec.extractLsb'_toNat, Nat.shiftRight_eq_div_pow,
    BitVec.toNat_ofNat] at hc ht ⊢
  omega

theorem dshiftWordK_of_fields (hc : fieldC w = 10#4) (hb : fieldB w = 1#1) (hop : fieldOp w = op) (hi : fieldI w = 1#1) :
    dshiftWordK op (fieldPair w) (fieldK5 w) = w := by
  subst hop
  have hc := congrArg BitVec.toNat hc
  have hb := congrArg BitVec.toNat hb
  have hi := congrArg BitVec.toNat hi
  apply BitVec.eq_of_toNat_eq
  rw [dshiftWordK_toNat]
  simp only [fieldC, fieldB, fieldOp, fieldI, fieldPair, fieldK5, BitVec.extractLsb'_toNat, Nat.shiftRight_eq_div_pow,
    BitVec.toNat_ofNat] at hc hb hi ⊢
  omega

theorem decimalWord_of_fields (hc : fieldC w = 12#4) (ht : fieldT w = t) (hi : fieldI w = 0#1) (he : fieldE w = 0#1)
    (hr2 : fieldXr w = r2) : decimalWord t (fieldAr w) r2 = w := by
  subst ht hr2
  have hc := congrArg BitVec.toNat hc
  have hi := congrArg BitVec.toNat hi
  have he := congrArg BitVec.toNat he
  apply BitVec.eq_of_toNat_eq
  rw [decimalWord_toNat]
  simp only [fieldC, fieldT, fieldI, fieldE, fieldAr, fieldXr, BitVec.extractLsb'_toNat, Nat.shiftRight_eq_div_pow,
    BitVec.toNat_ofNat] at hc hi he ⊢
  omega

theorem decimalWord2_of_fields (hi : fieldI w = 0#1) (he : fieldE w = 0#1) :
    decimalWord2 (fieldC w) (fieldT w) (fieldAr w) (fieldXr w) = w := by
  have hi := congrArg BitVec.toNat hi
  have he := congrArg BitVec.toNat he
  apply BitVec.eq_of_toNat_eq
  rw [decimalWord2_toNat]
  simp only [fieldC, fieldT, fieldI, fieldE, fieldAr, fieldXr, BitVec.extractLsb'_toNat, Nat.shiftRight_eq_div_pow,
    BitVec.toNat_ofNat] at hi he ⊢
  omega

end

/-! ## The words of an instruction and the words it was read from -/

/-- An instruction has the words of its form. -/
theorem Instr.Form.encode_eq {ws : List Word} {i : Instr} (h : Instr.Form ws i) : encode i = ws := by
  cases h with
  | mem cls size op => cases cls <;> cases size <;> cases op <;> rfl
  | dataI op | dataR op | dataL op => cases op <;> rfl
  | bitK op | bitX op | bitM op => cases op <;> rfl
  | move op => cases op <;> rfl
  | branchFalse c | branchTrue c => cases c <;> rfl
  | shiftK op | shiftX op | dshiftK op | dshiftX op => cases op <;> rfl
  | norm op | dnorm op => cases op <;> rfl
  | _ => rfl

/-- The words `ws` are the two that were read, or the first of them where there is no second. -/
def ReadFrom (iw iw2 : Word) (ws : List Word) : Prop := ws = [iw] ∨ ws = [iw, iw2]

section
variable {iw iw2 w : Word} {i : Instr}

theorem ReadFrom.one (h : w = iw) : ReadFrom iw iw2 [w] := .inl (by rw [h])

theorem ReadFrom.two {w2 : Word} (h : w = iw) (h2 : w2 = iw2) : ReadFrom iw iw2 [w, w2] := .inr (by rw [h, h2])

/-- The operand part is read with the second word where E = 1, and without it where E = 0 (R104). -/
theorem ReadFrom.operand {c : BitVec 4} {b : BitVec 1} {op ar : BitVec 3} (hc : fieldC iw = c) (hb : fieldB iw = b)
    (hop : fieldOp iw = op) (har : fieldAr iw = ar) :
    ReadFrom iw iw2 (operandWord c b op ar (operandOf iw iw2) :: (operandOf iw iw2).words) := by
  have hi : fieldI iw = bit1 (operandOf iw iw2).ind := (bit1_beq_one _).symm
  by_cases he : fieldE iw = 1#1
  · rw [operandOf, if_pos he] at hi ⊢
    exact .two (assemble_of_fields hc hb hop hi har he rfl) rfl
  · rw [operandOf, if_neg he] at hi ⊢
    exact .one (assemble_of_fields hc hb hop hi har (bit_eq_zero he) rfl)

theorem ReadFrom.displacement {c t : BitVec 4} (hc : fieldC iw = c) (ht : (fieldT iw).toNat = t.toNat) :
    ReadFrom iw iw2 [displacementWord c t (fieldD iw)] :=
  .one (displacementWord_of_fields hc (BitVec.eq_of_toNat_eq ht))

theorem ReadFrom.mask {h3 k : BitVec 4} (hc : fieldC iw = 0#4) (ht : (fieldT iw).toNat = 8)
    (hh : (fieldH3 iw).toNat = h3.toNat) (hk : fieldK iw = k) : ReadFrom iw iw2 [maskWord h3 k] :=
  .one (maskWord_of_fields hc (BitVec.eq_of_toNat_eq ht) (BitVec.eq_of_toNat_eq hh) hk)

theorem ReadFrom.status {s : BitVec 1} (hc : fieldC iw = 0#4) (ht : (fieldT iw).toNat = 2) (hs : fieldI iw = s) :
    ReadFrom iw iw2 [statusWord s (fieldF iw)] :=
  .one (hs ▸ statusWord_of_fields hc (BitVec.eq_of_toNat_eq ht))

/-- The words of a form that were read are those the encoder gives. -/
theorem ReadFrom.encode {ws : List Word} (hf : Instr.Form ws i) (h : ReadFrom iw iw2 ws) :
    ReadFrom iw iw2 (encode i) := by rwa [hf.encode_eq]

/-! ## The classes of the decoder -/

/-- Class 0 (R105, R110, R117). -/
theorem encode_of_decodeControl (hc : fieldC iw = 0#4) (h : decodeControl iw iw2 = some i) :
    ReadFrom iw iw2 (encode i) := by
  unfold decodeControl at h
  split at h
  case h_1 ht => cases h; exact .encode (.halt _) (.displacement hc ht)
  case h_2 ht => cases h; exact .encode (.stsm false _) (.displacement hc ht)
  case h_3 ht =>
    split at h <;> rename_i hi <;> cases h
    · exact .encode (.rsts _) (.status hc ht hi)
    · exact .encode (.sets _) (.status hc ht (bit_eq_one hi))
  case h_4 ht => cases h; exact .encode (.regm false _) (.displacement hc ht)
  case h_5 ht => cases h; exact .encode (.retn false _) (.displacement hc ht)
  case h_6 ht => cases h; exact .encode (.msts false _) (.displacement hc ht)
  case h_7 ht =>
    cases h
    obtain ⟨hb, hop⟩ := fieldB_fieldOp_of_fieldT (t := 6#4) ht
    exact .encode (.fclw _ _) (.operand hc hb hop rfl)
  case h_8 ht => cases h; exact .encode (.mreg false _) (.displacement hc ht)
  case h_9 ht =>
    split at h
    case h_1 hh => cases h; exact .encode (.enbl _) (.mask hc ht hh rfl)
    case h_2 hh =>
      split at h <;> rename_i hk <;> cases h
      · exact .encode .wait (.mask hc ht hh hk)
      · exact .encode (.enbw _) (.mask hc ht hh rfl)
    case h_3 hh => cases h; exact .encode (.dsbl _) (.mask hc ht hh rfl)
    case h_4 hh =>
      split at h <;> rename_i hk <;> cases h
      · exact .encode .waitD (.mask hc ht hh hk)
      · exact .encode (.dsbw _) (.mask hc ht hh rfl)
    case h_5 => cases h
  case h_10 ht => cases h; exact .encode (.stsm true _) (.displacement hc ht)
  case h_11 ht => cases h; exact .encode (.regm true _) (.displacement hc ht)
  case h_12 ht => cases h; exact .encode (.retn true _) (.displacement hc ht)
  case h_13 ht => cases h; exact .encode (.msts true _) (.displacement hc ht)
  case h_14 ht =>
    cases h
    obtain ⟨hb, hop⟩ := fieldB_fieldOp_of_fieldT (t := 14#4) ht
    exact .encode (.fclb _ _) (.operand hc hb hop rfl)
  case h_15 ht => cases h; exact .encode (.mreg true _) (.displacement hc ht)
  case h_16 => cases h

/-- Class 4 (R105, R107, R118). -/
theorem encode_of_decodeClass4 (hc : fieldC iw = 4#4) (h : decodeClass4 iw iw2 = some i) :
    ReadFrom iw iw2 (encode i) := by
  unfold decodeClass4 at h
  split at h
  case isTrue hb =>
    have hop := (operation_code_ofCode (fieldOp iw)).symm
    split at h
    case isTrue hi => cases h; exact .encode (.dataI _ _ _) (.one (constantWord_of_fields hc hb hop hi))
    case isFalse hi =>
      have hi := bit_eq_zero hi
      split at h <;> rename_i he <;> cases h
      · exact .encode (.dataR _ _ _) (.one (assemble_of_fields hc hb hop hi rfl he rfl))
      · exact .encode (.dataL _ _ _ _) (.two (assemble_of_fields hc hb hop hi rfl (bit_eq_one he) rfl) rfl)
  case isFalse hb =>
    have hb := bit_eq_zero hb
    split at h
    case isTrue hop =>
      split at h <;> rename_i har <;> cases h
      · exact .encode (.jump _) (.operand hc hb hop har)
      · exact .encode (.jsbr _ _) (.operand hc hb hop rfl)
    case isFalse hnot =>
      split at h
      case h_1 op hbit =>
        have hop := (bitOp_code_of_ofCode hbit).symm
        split at h
        case isTrue hi => cases h; exact .encode (.bitK _ _ _) (.one (constantWord_of_fields hc hb hop hi))
        case isFalse hi =>
          have hi := bit_eq_zero hi
          split at h <;> rename_i he <;> cases h
          · exact .encode (.bitX _ _ _) (.one (assemble_of_fields hc hb hop hi rfl he rfl))
          · exact .encode (.bitM _ _ _ _) (.two (assemble_of_fields hc hb hop hi rfl (bit_eq_one he) rfl) rfl)
      case h_2 hbit =>
        cases h
        exact .encode (.move _ _ _) (.one (assemble_of_fields hc hb (eq_seven_of_bitOp_ofCode hnot hbit)
          (moveOp_iBit_ofBits _ _).symm rfl (moveOp_jBit_ofBits _ _).symm rfl))

/-- Classes 8 and 9 (R108). -/
theorem encode_of_decodeBranch {sense : Bool} (hc : fieldC iw = if sense then 9#4 else 8#4)
    (h : decodeBranch sense iw = some i) : ReadFrom iw iw2 (encode i) := by
  unfold decodeBranch at h
  split at h
  case isTrue ht =>
    cases h
    cases sense
    · exact .encode (.nopr _) (.one (displacementWord_of_fields hc ht))
    · exact .encode (.brun _) (.one (displacementWord_of_fields hc ht))
  case isFalse =>
    obtain ⟨c, hcond, rfl⟩ := Option.map_eq_some_iff.1 h
    have ht := (condition_code_of_ofCode hcond).symm
    cases sense
    · exact .encode (.branchFalse _ _) (.one (displacementWord_of_fields hc ht))
    · exact .encode (.branchTrue _ _) (.one (displacementWord_of_fields hc ht))

/-- Class A (R105, R109, R119, R122). -/
theorem encode_of_decodeClassA (hc : fieldC iw = 10#4) (h : decodeClassA iw = some i) :
    ReadFrom iw iw2 (encode i) := by
  have hshift := (shiftOp_code_ofCode (fieldOp iw)).symm
  unfold decodeClassA at h
  split at h
  case isTrue hb =>
    split at h
    case isTrue hi => cases h; exact .encode (.shiftK _ _ _) (.one (constantWord_of_fields hc hb hshift hi))
    case isFalse hi =>
      have hi := bit_eq_zero hi
      split at h <;> rename_i he
      · cases h; exact .encode (.shiftX _ _ _) (.one (assemble_of_fields hc hb hshift hi rfl he rfl))
      · obtain ⟨op, hop, rfl⟩ := Option.map_eq_some_iff.1 h
        exact .encode (.norm _ _ _) (.one
          (assemble_of_fields hc hb (normOp_code_of_ofCode hop).symm hi rfl (bit_eq_one he) rfl))
  case isFalse hb =>
    have hb := bit_eq_one hb
    split at h
    case isTrue hi => cases h; exact .encode (.dshiftK _ _ _) (.one (dshiftWordK_of_fields hc hb hshift hi))
    case isFalse hi =>
      have hi := bit_eq_zero hi
      split at h <;> rename_i he
      · cases h; exact .encode (.dshiftX _ _ _) (.one (assemble_of_fields hc hb hshift hi rfl he rfl))
      · obtain ⟨op, hop, rfl⟩ := Option.map_eq_some_iff.1 h
        exact .encode (.dnorm _ _ _) (.one
          (assemble_of_fields hc hb (normOp_code_of_ofCode hop).symm hi rfl (bit_eq_one he) rfl))

/-- Class B (R105, R121). -/
theorem encode_of_decodeClassB (hc : fieldC iw = 11#4) (h : decodeClassB iw iw2 = some i) :
    ReadFrom iw iw2 (encode i) := by
  unfold decodeClassB at h
  split at h
  case isTrue => cases h
  case isFalse hb =>
    have fixed {op ar : BitVec 3} (hop : (fieldOp iw).toNat = op.toNat) (har : fieldAr iw = ar) :
        ReadFrom iw iw2 (fixedWord op ar (operandOf iw iw2) :: (operandOf iw iw2).words) :=
      .operand hc (bit_eq_zero hb) (BitVec.eq_of_toNat_eq hop) har
    split at h
    case h_1 hop => cases h; exact .encode (.dsta _ _) (fixed hop rfl)
    case h_2 hop => cases h; exact .encode (.dsub _ _) (fixed hop rfl)
    case h_3 hop => cases h; exact .encode (.dadd _ _) (fixed hop rfl)
    case h_4 hop =>
      split at h <;> rename_i hlow <;> cases h
      · exact .encode (.mlta _ _) (fixed hop (fieldAr_of_pair hlow))
      · exact .encode (.mult _ _) (fixed hop (fieldAr_of_pair (bit_eq_one hlow)))
    case h_5 hop => cases h; exact .encode (.divd _ _) (fixed hop rfl)
    case h_6 hop => cases h; exact .encode (.dlod _ _) (fixed hop rfl)
    case h_7 => cases h

/-- Class C (R105, R330, R114). -/
theorem encode_of_decodeDecimal (hc : fieldC iw = 12#4) (h : decodeDecimal iw iw2 = some i) :
    ReadFrom iw iw2 (encode i) := by
  unfold decodeDecimal at h
  split at h
  case isTrue => cases h
  case isFalse hbits =>
    simp only [not_or] at hbits
    obtain ⟨hi, he, hi2, he2⟩ := hbits
    have decimal {t : BitVec 4} {r2 : RegNo} (ht : (fieldT iw).toNat = t.toNat) (hr2 : fieldXr iw = r2) :
        ReadFrom iw iw2 [decimalWord t (fieldAr iw) r2,
          decimalWord2 (fieldC iw2) (fieldT iw2) (fieldAr iw2) (fieldXr iw2)] :=
      .two (decimalWord_of_fields hc (BitVec.eq_of_toNat_eq ht) (bit_eq_zero hi) (bit_eq_zero he) hr2)
        (decimalWord2_of_fields (bit_eq_zero hi2) (bit_eq_zero he2))
    dsimp only at h
    split at h
    case h_1 ht => cases h; exact .encode (.zadd ..) (decimal ht rfl)
    case h_2 ht => cases h; exact .encode (.addd ..) (decimal ht rfl)
    case h_3 ht => cases h; exact .encode (.subd ..) (decimal ht rfl)
    case h_4 ht => cases h; exact .encode (.cmpd ..) (decimal ht rfl)
    case h_5 ht =>
      split at h <;> rename_i hr2 <;> cases h
      exact .encode (.sftr ..) (decimal ht hr2)
    case h_6 ht => cases h; exact .encode (.movr ..) (decimal ht rfl)
    case h_7 ht =>
      split at h <;> rename_i hr2 <;> cases h
      exact .encode (.sftl ..) (decimal ht hr2)
    case h_8 ht => cases h; exact .encode (.movl ..) (decimal ht rfl)
    case h_9 ht => cases h; exact .encode (.comp ..) (decimal ht rfl)
    case h_10 => cases h

/-- Classes 1, 2, 3, 5, 6, 7 (R106). -/
theorem encode_of_memClass (cls : MemClass) (hc : fieldC iw = cls.code) :
    ReadFrom iw iw2 (encode (memInstr cls (.ofBit (fieldB iw)) (.ofCode (fieldOp iw)) (fieldAr iw)
      (operandOf iw iw2))) :=
  .encode (.mem ..) (.operand hc (size_code_ofBit _).symm (operation_code_ofCode _).symm rfl)

/-- No bit of the words read is lost, whatever their class. -/
theorem encode_of_decode (h : decode iw iw2 = some i) : ReadFrom iw iw2 (encode i) := by
  unfold decode at h
  split at h <;> rename_i hc
  case h_1 => exact encode_of_decodeControl (BitVec.eq_of_toNat_eq hc) h
  case h_2 => cases h; exact encode_of_memClass .c1 (BitVec.eq_of_toNat_eq hc)
  case h_3 => cases h; exact encode_of_memClass .c2 (BitVec.eq_of_toNat_eq hc)
  case h_4 => cases h; exact encode_of_memClass .c3 (BitVec.eq_of_toNat_eq hc)
  case h_5 => exact encode_of_decodeClass4 (BitVec.eq_of_toNat_eq hc) h
  case h_6 => cases h; exact encode_of_memClass .c5 (BitVec.eq_of_toNat_eq hc)
  case h_7 => cases h; exact encode_of_memClass .c6 (BitVec.eq_of_toNat_eq hc)
  case h_8 => cases h; exact encode_of_memClass .c7 (BitVec.eq_of_toNat_eq hc)
  case h_9 => exact encode_of_decodeBranch (sense := false) (BitVec.eq_of_toNat_eq hc) h
  case h_10 => exact encode_of_decodeBranch (sense := true) (BitVec.eq_of_toNat_eq hc) h
  case h_11 => exact encode_of_decodeClassA (BitVec.eq_of_toNat_eq hc) h
  case h_12 => exact encode_of_decodeClassB (BitVec.eq_of_toNat_eq hc) h
  case h_13 => exact encode_of_decodeDecimal (BitVec.eq_of_toNat_eq hc) h
  case h_14 => cases h

end

/-- Settles O1: each form of word decodes to the instruction that has it. -/
theorem decodeOfEncode : Obligations.DecodeOfEncode := fun _ _ _ hi h => decode_encode hi h

/-- Settles O2: the words of each class are put together again from the fields the decoder takes out of them. -/
theorem encodeOfDecode : Obligations.EncodeOfDecode := fun _ _ _ h => encode_of_decode h

/-- Settles O3: one evaluation of the decoder for each word. -/
theorem decodesSpecWords : Obligations.DecodesSpecWords :=
  ⟨rfl, rfl, rfl, rfl, rfl, rfl, rfl, rfl, rfl, rfl, rfl, rfl, rfl, rfl, rfl, rfl, rfl⟩

end Sys2Proof
end

section
/-! SUPPORT. Where class B and class C trap or are refused by their designators (O53). -/

namespace Sys2Proof.Machine

section
variable {iw : Word} {ar : RegNo} {m : MemOperand} {s : State}

/-- The models without class B, and AR = 0 or 1 (R450, R451). -/
theorem fixedPoint_lacking (h : s.par.model.scientific = false ∨ ar.toNat < 2) (f : Word → State → Res Unit) :
    fixedPoint iw ar m s f = takeUnimplemented iw s := by
  refine if_neg ?_
  rw [Bool.and_eq_true, decide_eq_true_eq, not_and_or, Bool.not_eq_true, not_le]
  exact h

/-- The pair 0 is that of AR = 0 and 1. -/
theorem toNat_pair_lt_two {x : BitVec 1} : (0#2 ++ x : RegNo).toNat < 2 := by revert x; decide

/-- A double-precision instruction with an odd AR, its address found (R460, log 29). -/
theorem fixedPoint_onEvenPair_odd {s1 : State} {a : Word} (hmodel : s.par.model.scientific = true)
    (har : ar ∈ [3#3, 5#3, 7#3]) (ha : effectiveAddress .none .word m s = .ok a s1) (f : Word → State → Res Unit) :
    fixedPoint iw ar m s (fun a s1 => onEvenPair ar (f a s1)) = .refused (.pairDesignator ar) := by
  have hodd : 2 ≤ ar.toNat ∧ ar.getLsbD 0 = true := by
    revert ar; decide
  rw [fixedPoint, hmodel, decide_eq_true hodd.1, Bool.and_true, if_pos rfl, ha, Res.bind_ok, onEvenPair, if_pos hodd.2,
    Res.finish_refuse]

/-- The models without class C (R330). -/
theorem decimal_lacking (h : s.par.model.decimal = false) (ok : Bool) (f : State → Res Unit) :
    decimal iw ok s f = takeUnimplemented iw s := by
  rw [decimal, h, if_neg Bool.false_ne_true]

/-- A designator that R331 does not allow (log 22). -/
theorem decimal_refused (h : s.par.model.decimal = true) {ok : Bool} (hok : ok = false) (f : State → Res Unit) :
    decimal iw ok s f = .refused .decimalRegisterZero := by
  rw [decimal, h, if_pos rfl, hok, if_neg Bool.false_ne_true]

theorem fieldRegisterOk_zero {r : RegNo} (h : r = 0#3) : fieldRegisterOk r = false := by rw [h]; rfl

theorem fieldRegistersOk_zero {r1 r2 : RegNo} (h : r1 = 0#3 ∨ r2 = 0#3) :
    (fieldRegisterOk r1 && fieldRegisterOk r2) = false :=
  Bool.and_eq_false_iff.2 (h.imp fieldRegisterOk_zero fieldRegisterOk_zero)

end

/-- Settles O53: every instruction of the two classes is the shared operation of its class on its own word. -/
theorem classDesignators : Obligations.ClassDesignators := by
  intro ar r1 r2 x1 x2 l1 l2 pair m s
  refine ⟨fun h => ?_, fun h => ?_, fun hmodel har a s1 ha => ?_, fun p hp => ?_, fun p hp => ?_⟩
  · exact ⟨fixedPoint_lacking h _, fixedPoint_lacking h _, fixedPoint_lacking h _, fixedPoint_lacking h _,
      fixedPoint_lacking h _⟩
  · have hpair (x : BitVec 1) : s.par.model.scientific = false ∨ (pair ++ x : RegNo).toNat < 2 :=
      h.imp_right fun (h0 : pair = 0#2) => h0 ▸ toNat_pair_lt_two
    exact ⟨fixedPoint_lacking (hpair 0#1) _, fixedPoint_lacking (hpair 1#1) _⟩
  · have refused (iw : Word) (f : Word → State → Res Unit) := fixedPoint_onEvenPair_odd (iw := iw) hmodel har ha f
    exact ⟨refused _ _, refused _ _, refused _ _, refused _ _⟩
  · simp only [List.mem_cons, List.not_mem_nil, or_false] at hp
    obtain rfl | rfl | rfl | rfl | rfl | rfl | rfl := hp <;>
      exact ⟨fun h => decimal_lacking h _ _, fun h hr => decimal_refused h (fieldRegistersOk_zero hr) _⟩
  · simp only [List.mem_cons, List.not_mem_nil, or_false] at hp
    obtain rfl | rfl := hp <;>
      exact ⟨fun h => decimal_lacking h _ _, fun h hr => decimal_refused h (fieldRegisterOk_zero hr) _⟩

end Sys2Proof.Machine
end

section
/-! SUPPORT. The development of an effective address: the decrement before it, the chain of indirect words in program
memory, the increment and LP after it, and what each of its stops leaves (O15, O16). -/

namespace Sys2Proof.Machine

/-! ## The index before and after the address -/

/-- The state in which the indirection of an address starts: a decrement is done, an increment is not (R153). -/
def predecremented (index : Index) (size : Size) (xr : RegNo) (s : State) : State :=
  if index = .decrement then s.setReg xr (s.reg xr - indexStep size) else s

section
variable (index : Index) (size : Size) (xr : RegNo) (s : State)

@[simp] theorem predecremented_mem : (predecremented index size xr s).mem = s.mem := by cases index <;> rfl

@[simp] theorem predecremented_par : (predecremented index size xr s).par = s.par := by cases index <;> rfl

/-- Where the development of an address stops before its increment, the state is as R515 asks. -/
theorem stoppedIndirect_predecremented (hx : index ≠ .none → xr ≠ 0#3) :
    stoppedIndirect index size xr s (predecremented index size xr s) := by
  cases index with
  | none | increment => exact ⟨nofun, rfl, sameBut_refl s, sameDevices_refl s⟩
  | decrement =>
    exact ⟨fun _ => State.reg_setReg_same s xr _, State.reg_setReg_ne s (hx nofun).symm _, sameBut_setReg s xr _,
      rfl, rfl⟩

/-- An index update touches no system register. -/
theorem sameDevices_indexed : sameDevices s (indexed index size xr s) := by
  cases index with
  | none => exact sameDevices_refl s
  | decrement | increment => unfold indexed; dsimp only; split <;> exact ⟨rfl, rfl⟩

end

section
variable {index : Index} {size : Size} {m : MemOperand} {s : State}

theorem noAddress_eq_false (h : m.ext.isSome = true ∨ m.xr ≠ 0#3) : noAddress m = false := by
  obtain h | h := h
  · simp [noAddress, Option.isNone_eq_false_iff.2 h]
  · simp [noAddress, h]

theorem Res.bind_ok_right {α : Type} (r : Res α) : r.bind .ok = r := by cases r <;> rfl

/-- What follows the indirection when the address is found: the increment and LP (R153, R156). -/
def completed (index : Index) (size : Size) (xr : RegNo) (s : State) : State :=
  match index with
  | .none => s
  | .decrement => s.withLp (s.reg xr == 0#16)
  | .increment => (s.setReg xr (s.reg xr + indexStep size)).withLp (s.reg xr + indexStep size == 0#16)

/-- The order of R153: decrement, index, indirection, increment, LP. -/
theorem effectiveAddress_eq (hm : m.ext.isSome = true ∨ m.xr ≠ 0#3) (hx : index ≠ .none → m.xr ≠ 0#3) :
    effectiveAddress index size m s =
      (indirectAddress size m.ind (developedAddress index size m s) (predecremented index size m.xr s)).bind
        fun a s1 => .ok a (completed index size m.xr s1) := by
  unfold effectiveAddress
  rw [noAddress_eq_false hm, if_neg Bool.false_ne_true]
  cases index with
  | none =>
    simp only [developedAddress, reduceCtorEq, if_false]
    exact (Res.bind_ok_right _).symm
  | decrement =>
    simp only [if_neg (hx nofun), State.reg_setReg_same, developedAddress, if_true]
    rfl
  | increment =>
    simp only [if_neg (hx nofun), State.reg_setReg_same, developedAddress]
    rfl

/-- The increment and LP after the decrement make up the index update. -/
theorem completed_predecremented (hx : index ≠ .none → m.xr ≠ 0#3) :
    completed index size m.xr (predecremented index size m.xr s) = indexed index size m.xr s := by
  cases index with
  | none => rfl
  | decrement => simp [completed, predecremented, indexed, hx]
  | increment => simp [completed, predecremented, indexed, hx]

/-- An address found by accesses to program memory alone: the index update is all that happened (R153, R154, R156). -/
theorem effectiveAddress_found {a : Word} (hm : m.ext.isSome = true ∨ m.xr ≠ 0#3) (hx : index ≠ .none → m.xr ≠ 0#3)
    (h : indirectAddress size m.ind (developedAddress index size m s) (predecremented index size m.xr s) =
      .ok a (predecremented index size m.xr s)) :
    ∃ s1, effectiveAddress index size m s = .ok a s1 ∧ indexUpdated index size m.xr s s1 ∧ s1.pc = s.pc ∧
      sameBut (indexRegisters index m.xr) (indexFlags index) [] s s1 ∧ sameDevices s s1 := by
  have hea : effectiveAddress index size m s = .ok a (indexed index size m.xr s) := by
    rw [effectiveAddress_eq hm hx, h, Res.bind_ok, completed_predecremented hx]
  obtain ⟨hframe, hpc, -, -⟩ := effectiveAddress_frame hea
  exact ⟨_, hea, fun hi => effectiveAddress_index hea (hx hi) hi, hpc, hframe, sameDevices_indexed index size m.xr s⟩

/-- An address whose development stops at an indirect word stops with it, before an increment and LP (R515). -/
theorem effectiveAddress_stops (hm : m.ext.isSome = true ∨ m.xr ≠ 0#3) (hx : index ≠ .none → m.xr ≠ 0#3) :
    let pre := predecremented index size m.xr s
    let r := indirectAddress size m.ind (developedAddress index size m s) pre
    (r = .unimplemented pre →
      ∃ u, effectiveAddress index size m s = .unimplemented u ∧ stoppedIndirect index size m.xr s u) ∧
    (∀ x, r = .abort x pre →
      ∃ u, effectiveAddress index size m s = .abort x u ∧ stoppedIndirect index size m.xr s u) ∧
    ∀ q, r = .refuse q → effectiveAddress index size m s = .refuse q := by
  intro pre r
  have hstop := stoppedIndirect_predecremented index size m.xr s hx
  rw [effectiveAddress_eq hm hx]
  exact ⟨fun h => ⟨pre, congrArg (Res.bind · _) h, hstop⟩, fun x h => ⟨pre, congrArg (Res.bind · _) h, hstop⟩,
    fun q h => congrArg (Res.bind · _) h⟩

end

/-! ## The chain of indirect words -/

section
variable {s : State} {a : Word}

theorem chase_even (h : a.getLsbD 0 = false) (n : Nat) : chase n a s = .ok a s := by
  cases n <;> rw [chase, h, if_neg Bool.false_ne_true]

theorem chase_zero_odd (h : a.getLsbD 0 = true) : chase 0 a s = .unimplemented s := by rw [chase, if_pos h]

theorem chase_succ_odd (h : a.getLsbD 0 = true) (n : Nat) :
    chase (n + 1) a s = (readWord (evenAddr a) s).bind (chase n) := by rw [chase, if_pos h]

/-- A level of a chain that lies in program memory leads to the next (R155). -/
theorem chase_succ_memory (h : a.getLsbD 0 = true) (hmem : s.inMemory (evenAddr a) = true) (n : Nat) :
    chase (n + 1) a s = chase n (s.mem.word a) s := by
  rw [chase_succ_odd h, readWord_memory (by rwa [evenAddr_evenAddr]), Memory.word_evenAddr, Res.bind_ok]

/-- A chain through program memory is followed for its `n` odd words. -/
theorem chase_follow {n : Nat} {w : Nat → Word}
    (hlink : ∀ i, i < n → s.inMemory (evenAddr (w i)) = true ∧ s.mem.word (w i) = w (i + 1))
    (hodd : ∀ i, i < n → (w i).getLsbD 0 = true) (k : Nat) : chase (k + n) (w 0) s = chase k (w n) s := by
  induction n generalizing w with
  | zero => rfl
  | succ n ih =>
    obtain ⟨hmem, hnext⟩ := hlink 0 n.succ_pos
    rw [← Nat.add_assoc, chase_succ_memory (hodd 0 n.succ_pos) hmem, hnext]
    exact ih (w := fun i => w (i + 1)) (fun i hi => hlink (i + 1) (Nat.succ_lt_succ hi))
      fun i hi => hodd (i + 1) (Nat.succ_lt_succ hi)

/-- The words `w 0` to `w n` are the levels of an indirect address in program memory, one for a byte operand and up to
fifteen for a word operand (R155). -/
structure IndirectChain (size : Size) (n : Nat) (w : Nat → Word) (s : State) : Prop where
  pos : 1 ≤ n
  le : n ≤ 15
  byte : size = .byte → n = 1
  link : ∀ i, i < n → s.inMemory (evenAddr (w i)) = true ∧ s.mem.word (w i) = w (i + 1)
  odd : ∀ i, 1 ≤ i → i < n → (w i).getLsbD 0 = true

end

section
variable {size : Size} {n : Nat} {w : Nat → Word} {s t : State}

/-- A chain depends on the memory and the parameters alone. -/
theorem IndirectChain.congr (h : IndirectChain size n w s) (hm : t.mem = s.mem) (hp : t.par = s.par) :
    IndirectChain size n w t :=
  { h with link := by rw [hm, inMemory_congr hp]; exact h.link }

/-- A byte operand takes one level. -/
theorem IndirectChain.indirectAddress_byte (h : IndirectChain .byte n w s) :
    indirectAddress .byte true (w 0) s = .ok (w n) s := by
  obtain rfl := h.byte rfl
  obtain ⟨hmem, hnext⟩ := h.link 0 Nat.one_pos
  rw [indirectAddress, if_pos rfl, readWord_memory hmem, Res.bind_ok, hnext]

/-- A word operand has followed the chain to `w n`, and fifteen levels less `n` are left. -/
theorem IndirectChain.indirectAddress_word (h : IndirectChain .word n w s) :
    indirectAddress .word true (w 0) s = chase (15 - n) (w n) s := by
  obtain ⟨hpos, hle, -, hlink, hodd⟩ := h
  obtain ⟨k, rfl⟩ := Nat.exists_eq_add_of_le' hpos
  obtain ⟨hmem, hnext⟩ := hlink 0 k.succ_pos
  have hleft : 14 = 15 - (k + 1) + k := by omega
  rw [indirectAddress, if_pos rfl, readWord_memory hmem, Res.bind_ok, hnext]
  show chase 14 (w 1) s = _
  rw [hleft]
  exact chase_follow (w := fun i => w (i + 1)) (fun i hi => hlink (i + 1) (Nat.succ_lt_succ hi))
    (fun i hi => hodd (i + 1) i.succ_pos (Nat.succ_lt_succ hi)) _

/-- The end of a chain is the address of a byte operand, and of a word operand if it is even (R155). -/
theorem IndirectChain.found (h : IndirectChain size n w s) (he : size = .byte ∨ (w n).getLsbD 0 = false) :
    indirectAddress size true (w 0) s = .ok (w n) s := by
  cases size with
  | byte => exact h.indirectAddress_byte
  | word => exact h.indirectAddress_word.trans (chase_even (he.resolve_left nofun) _)

/-- A chain that calls for a sixteenth level traps (D8). -/
theorem IndirectChain.traps (h : IndirectChain .word 15 w s) (ho : (w 15).getLsbD 0 = true) :
    indirectAddress .word true (w 0) s = .unimplemented s :=
  h.indirectAddress_word.trans (chase_zero_odd ho)

/-- A further level is the word access at the even address (R155, log 16). -/
theorem IndirectChain.indirectAddress_odd (h : IndirectChain .word n w s) (hn : n < 15) (ho : (w n).getLsbD 0 = true) :
    indirectAddress .word true (w 0) s = (readWord (evenAddr (w n)) s).bind (chase (14 - n)) := by
  have hleft : 15 - n = 14 - n + 1 := by omega
  rw [h.indirectAddress_word, hleft, chase_succ_odd ho]

/-- The first level that nothing answers, or that is refused (R504, R71, R23). -/
theorem indirectAddress_stop (size : Size) (a : Word) (s : State) :
    (∀ x, s.wordPlace a = .absent x → indirectAddress size true a s = .abort x s) ∧
      ∀ r, s.wordPlace a = .refused r → indirectAddress size true a s = .refuse r := by
  rw [indirectAddress, if_pos rfl]
  exact ⟨fun x h => by rw [(word_absent h).1, Res.bind_abort], fun r h => by rw [(word_refused h).1, Res.bind_refuse]⟩

end

/-! ## The statements -/

theorem indexStep_eq (size : Size) : indexStep size = if size = .byte then 1#16 else 2#16 := by cases size <;> rfl

/-- Settles O15: without indirection the sum is the address. -/
theorem directAddress : Obligations.DirectAddress := by
  intro index size m s hind hm hx
  rw [← indexStep_eq]
  obtain ⟨s1, hea, hindex, hpc, hframe, hdev⟩ :=
    effectiveAddress_found (a := developedAddress index size m s) hm hx (by rw [hind]; rfl)
  refine ⟨s1, hea, ?_, ?_, fun hi => ?_, hpc, hframe, hdev⟩
  · rintro rfl
    exact (hindex nofun).1
  · rintro rfl
    exact (hindex nofun).1
  · obtain ⟨hreg, hlp⟩ := hindex hi
    rw [hlp, hreg]

/-- Settles O16: the chain as it is followed, then with the index update around it; the stops at its first level come
last. -/
theorem indirectAddress_holds : Obligations.IndirectAddress := by
  intro size s
  have places (index : Index) (m : MemOperand) :=
    wordPlace_congr (predecremented_par index size m.xr s)
  refine ⟨fun n w h1 h15 hbyte hlink hodd => ?_, fun index m hind hm hx => ?_⟩
  · have hchain : IndirectChain size n w s := ⟨h1, h15, hbyte, hlink, hodd⟩
    refine ⟨hchain.found, ?_, fun index m hind hm hx hw => ?_⟩
    · rintro rfl rfl ho
      exact hchain.traps ho
    · have hpre := hchain.congr (predecremented_mem index size m.xr s) (predecremented_par index size m.xr s)
      refine ⟨fun he => effectiveAddress_found hm hx ?_, ?_, ?_⟩
      · rw [hind, ← hw]
        exact hpre.found he
      · rintro rfl rfl ho
        refine (effectiveAddress_stops hm hx).1 ?_
        rw [hind, ← hw]
        exact hpre.traps ho
      · rintro rfl hn ho
        have hodd := hpre.indirectAddress_odd hn ho
        rw [hw, ← hind] at hodd
        obtain ⟨-, habort, hrefuse⟩ := effectiveAddress_stops hm hx (index := index) (size := .word) (s := s)
        rw [← places index m]
        exact ⟨fun x hp => habort x (by rw [hodd, (word_absent hp).1, Res.bind_abort]),
          fun r hp => hrefuse r (by rw [hodd, (word_refused hp).1, Res.bind_refuse])⟩
  · obtain ⟨habsent, hrefused⟩ :=
      indirectAddress_stop size (developedAddress index size m s) (predecremented index size m.xr s)
    rw [places, ← hind] at habsent hrefused
    obtain ⟨-, habort, hrefuse⟩ := effectiveAddress_stops hm hx (index := index) (size := size) (s := s)
    exact ⟨fun x hp => habort x (habsent x hp), fun r hp => hrefuse r (hrefused r hp)⟩

end Sys2Proof.Machine
end

section
/-! SUPPORT. The sum of two words and a carry as integers, and the results and indicators of the eight general
operations (O18). -/

namespace Sys2Proof.Machine

/-! ## The sum -/

section
variable (a b : Word) (cin : Bool)

/-- The sum modulo 2^16. -/
theorem add16_r : (add16 a b cin).r = BitVec.ofInt 16 (a.toInt + b.toInt + cin.toNat) := by
  simp [add16, BitVec.ofInt_add, BitVec.ofNat_add, BitVec.ofInt_toInt, BitVec.ofInt_natCast]

/-- The overflow: the signed sum does not fit. -/
theorem add16_v : (add16 a b cin).v =
    (decide (a.toInt + b.toInt + cin.toNat < -32768) || decide (32768 ≤ a.toInt + b.toInt + cin.toNat)) := by
  have ha := BitVec.toInt_eq_toNat_cond a
  have hb := BitVec.toInt_eq_toNat_cond b
  have hc : cin.toNat ≤ 1 := Bool.toNat_le cin
  have ha16 := a.isLt
  have hb16 := b.isLt
  rw [Bool.eq_iff_iff]
  simp only [add16, bne_iff_ne, ne_eq, decide_eq_decide, Bool.or_eq_true, decide_eq_true_eq]
  split at ha <;> split at hb <;> omega

end

/-- The sum with the complement and a carry is the difference (R171). -/
theorem toInt_add_not_add_one (src tgt : Word) :
    tgt.toInt + (~~~src).toInt + (true.toNat : Int) = tgt.toInt - src.toInt := by
  have hs := BitVec.toInt_eq_toNat_cond src
  have hn := BitVec.toInt_eq_toNat_cond (~~~src)
  have hlt := src.isLt
  rw [BitVec.toNat_not] at hn
  rw [Bool.toNat_true]
  split at hs <;> split at hn <;> omega

/-- The carry out of that sum tells that there is no borrow (D6). -/
theorem add16_not_c (src tgt : Word) : (add16 tgt (~~~src) true).c = decide (src.toNat ≤ tgt.toNat) := by
  have hlt := src.isLt
  simp only [add16, BitVec.toNat_not, Bool.toNat_true, decide_eq_decide]
  omega

/-! ## The operations -/

/-- All operations but CMP end with NG, ZE and OD of their result (R9, R171). -/
theorem operationStatus_eq_setNZO {op : Operation} (h : op ≠ .cmp) (src tgt st : Word) :
    ∃ st', operationStatus op src tgt st = setNZO (operationResult op src tgt) st' := by
  cases op with
  | cmp => exact absurd rfl h
  | _ => exact ⟨_, rfl⟩

/-- Settles O18: SUB and ADD by the sum of integers, the others bit by bit. -/
theorem operationArithmetic : Obligations.OperationArithmetic := by
  intro src tgt st
  have hsub := toInt_add_not_add_one src tgt
  have hadd : tgt.toInt + src.toInt + (false.toNat : Int) = tgt.toInt + src.toInt := Int.add_zero _
  refine ⟨rfl, ?_, ?_, fun i _ => ?_, fun op hop => ?_, ?_, ?_, ?_, ?_, ?_, ?_, fun op f hf => ?_⟩
  · exact (add16_r _ _ _).trans (congrArg _ hsub)
  · exact (add16_r _ _ _).trans (congrArg _ hadd)
  · simp [operationResult]
  · obtain ⟨st', h⟩ := operationStatus_eq_setNZO hop src tgt st
    simp [h, getFlag_setNZO]
  · simp [operationStatus, getFlag_sumStatus, add16, Nat.add_comm]
  · simp [operationStatus, getFlag_sumStatus, add16_not_c]
  · simp [operationStatus, getFlag_sumStatus, add16_v, Int.add_comm, Bool.or_assoc]
  · simp only [operationStatus, getFlag_sumStatus, add16_v, hsub, Bool.or_assoc, reduceCtorEq, if_false, if_true]
  · simp [operationStatus, getFlag_compareStatus]
  · simp [operationStatus, getFlag_compareStatus, Bool.beq_eq_decide_eq]
  · exact operationStatus_frame hf src tgt st

end Sys2Proof.Machine
end

section
/-! SUPPORT. The general register instructions that complete: the data forms, JUMP and JSBR, and the six classes on an
operand in program memory, with and without a conflict over the index register (O19 to O22, O26, O27). -/

namespace Sys2Proof.Machine

/-! ## Frames -/

/-- An update that writes indicators only, and after it one that writes none. -/
theorem sameBut_flags_append {rs : List RegNo} {fs : List Flag} {bs : List Word} {s t u : State}
    (h : sameBut [] fs [] s t) (k : sameBut rs [] bs t u) : sameBut rs fs bs s u := by
  simpa only [List.append_nil, List.nil_append] using sameBut_append h k

/-- An update of free values alone, and another after it. -/
theorem sameBut_silent_append {rs : List RegNo} {fs : List Flag} {bs : List Word} {s t u : State}
    (h : sameBut [] [] [] s t) (k : sameBut rs fs bs t u) : sameBut rs fs bs s u :=
  sameBut_trans (sameBut_mono h nofun nofun nofun) k

/-! ## Data forms -/

/-- Without a conflict of AR and XR a result is delivered as in a class that updates no index. -/
theorem deliver_eq_none {index : Index} {ar xr : RegNo} (h : clash index ar xr = false ∨ ar = 0#3) (len : Word)
    (op : Operation) (r : Word) (s : State) : deliver index len op ar xr r s = deliver .none len op ar xr r s := by
  have hc : (clash index ar xr && ar != 0#3) = false := by
    obtain h | h := h <;> simp [h]
  rw [deliver, hc]
  rfl

/-- A data form is the operation's status and the delivery of its result (R192 to R194). -/
theorem dataToAccumulator_accumulated (op : Operation) (len : Word) (ar : RegNo) (src : Word) (s : State) :
    ∃ t, dataToAccumulator op len ar src s = .next t ∧ accumulated op len ar src s t := by
  obtain ⟨hend, hstatus, hdev, hframe⟩ := deliver_plain (index := .none) (xr := ar) rfl len op
    (operationResult op src (s.data len ar)) { s with status := operationStatus op src (s.data len ar) s.status }
  exact ⟨_, rfl, delivered_or_pc_congr rfl hend, fun f _ => congrArg (getFlag f) hstatus,
    sameBut_flags_append (sameBut_operationStatus s op src _) hframe, hdev⟩

/-- Settles O26: the three forms differ in their source alone. -/
theorem dataForms : Obligations.DataForms := by
  intro op ar s
  refine ⟨fun k => ?_, fun xr => ?_, fun xr lit => ?_, fun len => ?_⟩
  · rw [exec_dataI]
    exact dataToAccumulator_accumulated op 2#16 ar _ s
  · have hsrc : (if xr = 0#3 then s.data 2#16 0#3 else s.reg xr) = s.data 2#16 xr := by
      split
      · rename_i h; rw [h]
      · rename_i h; exact (State.data_ne s h _).symm
    rw [exec_dataR, hsrc]
    exact dataToAccumulator_accumulated op 2#16 ar _ s
  · rw [exec_dataL]
    exact dataToAccumulator_accumulated op 4#16 ar _ s
  · cases hp : s.par.pcRead <;> simp [State.data, hp]

/-! ## JUMP and JSBR -/

/-- Settles O27: the address is developed by reads alone, then the link and the program counter are written. -/
theorem jumps : Obligations.Jumps := by
  intro m s s1 a ha
  have hread := sameBut_onlyDevices (effectiveAddress_none_ok ha)
  have hpc := (effectiveAddress_none_ok ha).pc
  refine ⟨⟨s1.setPc a, ?_, State.pc_setPc s1 a, sameBut_append hread (sameBut_setPc s1 a), rfl, rfl⟩, fun ar =>
    ⟨(s1.setReg ar (s1.pc + operandLength m)).setPc a, ?_, State.pc_setPc _ a, fun har => ?_,
      sameBut_append (sameBut_append hread (sameBut_setReg s1 ar _)) (sameBut_setPc _ a), rfl, rfl⟩⟩
  · show execJump m s = _
    rw [execJump, ha, Res.bind_ok, Res.finish_ok]
  · show execJsbr ar m s = _
    rw [execJsbr, ha, Res.bind_ok, Res.finish_ok]
  · rw [State.reg_setPc _ har, State.reg_setReg_same, hpc]

/-! ## The parts of the six classes -/

section
variable {index : Index} {size : Size} {ar xr : RegNo} {s : State} {a : Word}

theorem sameBut_afterAccumulator (index : Index) (ar xr : RegNo) (s : State) :
    sameBut [] [] [] s (s.afterAccumulator index ar xr) := by
  unfold State.afterAccumulator
  split
  · exact sameBut_spend s 1
  · exact sameBut_refl s

theorem sameBut_closeIndex (index : Index) (xr : RegNo) (s : State) : sameBut [] [] [] s (s.closeIndex index xr) := by
  unfold State.closeIndex
  split
  · exact sameBut_append (sameBut_spend s 1) (sameBut_setPc _ _)
  · exact sameBut_refl s

theorem closeIndex_of_ne (h : index ≠ .none → xr ≠ 0#3) : s.closeIndex index xr = s := by
  cases index with
  | none => rfl
  | decrement | increment => simp [State.closeIndex, h]

/-- A general operation on an operand in program memory: what it stores, its status and its frame (R170, R171). -/
theorem operateOnMemory_memory (h : s.holds size a = true) (op : Operation) (src : Word) :
    ∃ w, operateOnMemory size op a src s = .ok () w ∧ w.pc = s.pc ∧
      (operationWrites op = true → w.operand size a = stored size (operationResult op src (s.operand size a))) ∧
      w.status = operationStatus op src (s.operand size a) s.status ∧ sameDevices s w ∧
      sameBut [] (operationFlags op) (if operationWrites op then operandBytes size a else []) s w := by
  have hstatus := sameBut_operationStatus s op src (s.operand size a)
  refine ⟨_, operateOnMemory_holds h op src, rfl, fun hw => ?_, rfl, ⟨rfl, rfl⟩, ?_⟩
  · rw [if_pos hw]
    exact operand_setOperand s size a _
  · cases operationWrites op with
    | false => exact hstatus
    | true =>
      exact sameBut_flags_append hstatus (sameBut_mem _ fun x hx => byte_setOperand s.mem _ hx)

/-- Where AR = XR was updated a result goes to the register, or the updated index stays (R159, log 8). -/
theorem deliver_clash (hc : clash index ar xr = true) (har : ar ≠ 0#3) (len : Word) (op : Operation) (r : Word)
    (s : State) :
    ∃ t, deliver index len op ar xr r s = t ∧ t.pc = s.pc + len ∧ sameDevices s t ∧ sameBut [ar] [.lp] [] s t ∧
      (t.reg ar = s.reg ar ∨ operationWrites op = true ∧ t.reg ar = r) ∧
      (operationWrites op = false → t.flag .lp = s.flag .lp) := by
  cases hw : operationWrites op with
  | false =>
    refine ⟨s.advance len, ?_, State.pc_advance s len, ⟨rfl, rfl⟩,
      sameBut_mono (sameBut_advance s len) nofun nofun nofun, .inl (State.reg_advance s har len), fun _ => rfl⟩
    rw [deliver, hw, if_neg Bool.false_ne_true]
  | true =>
    have hcond : (clash index ar xr && ar != 0#3) = true := by rw [hc, Bool.true_and]; exact bne_iff_ne.2 har
    generalize hv : (if s.freeBit 0 then r else s.reg ar) = v
    have hcases : v = s.reg ar ∨ v = r := by
      rw [← hv]
      split
      · exact .inr rfl
      · exact .inl rfl
    have hreg : ((((s.spend 2).setReg ar v).withLp (s.freeBit 1)).advance len).reg ar = v := by
      rw [State.reg_advance _ har, State.reg_withLp, State.reg_setReg_same]
    refine ⟨(((s.spend 2).setReg ar v).withLp (s.freeBit 1)).advance len, ?_, ?_, ⟨rfl, rfl⟩, ?_, ?_, nofun⟩
    · rw [deliver, hw, if_pos rfl, if_pos hcond, hv]
    · rw [State.pc_advance]
      exact congrArg (· + len) (State.reg_setReg_ne _ har.symm _)
    · exact sameBut_append (sameBut_append (sameBut_append (sameBut_spend s 2) (sameBut_setReg _ ar v))
        (sameBut_withLp _ (s.freeBit 1))) (sameBut_advance _ len)
    · rw [hreg]
      exact hcases.imp_right (⟨rfl, ·⟩)

end

/-! ## Whole instructions -/

section
variable {cls : MemClass} {size : Size} {m : MemOperand} {s s1 : State} {a : Word}

/-- An operand lies in program memory, seen from before its address was developed. -/
theorem holds_of_address (ha : effectiveAddress (classIndex cls) size m s = .ok a s1) (hh : s.holds size a = true)
    (ar : RegNo) :
    (s1.afterAccumulator (classIndex cls) ar m.xr).holds size a = true ∧
      (s1.afterAccumulator (classIndex cls) ar m.xr).operand size a = s.operand size a := by
  obtain ⟨-, -, hmem, hpar⟩ := effectiveAddress_frame ha
  exact ⟨(holds_congr ((State.afterAccumulator_par ..).trans hpar) size a).trans hh,
    operand_congr ((State.afterAccumulator_mem ..).trans hmem) size a⟩

/-- Classes 1, 2 and 3 on an operand in program memory, whatever the accumulator's value (R195 to R197). -/
theorem toMemory_holds (ha : effectiveAddress (classIndex cls) size m s = .ok a s1) (hh : s.holds size a = true)
    (op : Operation) (ar : RegNo) :
    let src := accumulator (classIndex cls) (operandLength m) ar m.xr s s1
    ∃ t, toMemory cls size op ar m s = .next t ∧
      (operationWrites op = true → t.operand size a = stored size (operationResult op src (s.operand size a))) ∧
      operationShown op src (s.operand size a) s t ∧
      ((classIndex cls ≠ .none → m.xr ≠ 0#3) → t.pc = s.pc + operandLength m) ∧ sameDevices s1 t ∧
      sameBut [] (operationFlags op) (if operationWrites op then operandBytes size a else []) s1 t := by
  intro src
  obtain ⟨hholds, hoperand⟩ := holds_of_address ha hh ar
  obtain ⟨w, hop, hpc, hstored, hstatus, hdev, hframe⟩ := operateOnMemory_memory hholds op src
  obtain ⟨-, hpc1, -, -⟩ := effectiveAddress_frame ha
  rw [hoperand] at hstored hstatus
  refine ⟨(w.advance (operandLength m)).closeIndex (classIndex cls) m.xr, ?_, fun hw => ?_, ?_, fun hx => ?_, ?_, ?_⟩
  · simp only [toMemory, ha, Res.bind_ok]
    rw [hop, Res.bind_ok, Res.finish_ok]
  · exact (operand_congr (State.closeIndex_mem ..) size a).trans (hstored hw)
  · refine operationShown_of_address ha ?_
    rw [State.closeIndex_status, State.advance_status, hstatus, State.afterAccumulator_status]
  · rw [closeIndex_of_ne hx, State.pc_advance, hpc, ← hpc1]
    exact congrArg (· + _) (State.reg_congr (State.afterAccumulator_regs ..) _)
  · obtain ⟨hin, hlog⟩ := hdev
    exact ⟨by rw [State.closeIndex_deviceIn, State.advance_deviceIn, hin, State.afterAccumulator_deviceIn],
      by rw [State.closeIndex_deviceLog, State.advance_deviceLog, hlog, State.afterAccumulator_deviceLog]⟩
  · exact sameBut_append (sameBut_append (sameBut_silent_append (sameBut_afterAccumulator _ ar m.xr s1) hframe)
      (sameBut_advance w _)) (sameBut_closeIndex _ _ _)

/-- Classes 5, 6 and 7 on an operand in program memory: the state that the result is delivered in (R198 to R200). -/
theorem fromMemory_holds (ha : effectiveAddress (classIndex cls) size m s = .ok a s1) (hh : s.holds size a = true)
    (op : Operation) (ar : RegNo) :
    let tgt := accumulator (classIndex cls) (operandLength m) ar m.xr s s1
    ∃ w, fromMemory cls size op ar m s =
        .next ((deliver (classIndex cls) (operandLength m) op ar m.xr
          (operationResult op (s.operand size a) tgt) w).closeIndex (classIndex cls) m.xr) ∧
      w.regs = s1.regs ∧ operationShown op (s.operand size a) tgt s w ∧ sameDevices s1 w ∧
      sameBut [] (operationFlags op) [] s1 w := by
  intro tgt
  obtain ⟨-, -, hmem, hpar⟩ := effectiveAddress_frame ha
  have hread : readOperand size a s1 = .ok (s.operand size a) s1 := by
    rw [readOperand_holds ((holds_congr hpar size a).trans hh), operand_congr hmem]
  refine ⟨_, ?_, ?_, ?_, ?_, sameBut_silent_append (sameBut_afterAccumulator (classIndex cls) ar m.xr s1)
    (sameBut_operationStatus _ op (s.operand size a) tgt)⟩
  · simp only [fromMemory, ha, hread, Res.bind_ok, Res.finish_ok, tgt]
  · exact State.afterAccumulator_regs ..
  · exact operationShown_of_address ha
      (congrArg (operationStatus op (s.operand size a) tgt) (State.afterAccumulator_status ..))
  · exact ⟨State.afterAccumulator_deviceIn .., State.afterAccumulator_deviceLog ..⟩

/-- The indicators of an operation stand after an update that writes none of them. -/
theorem operationShown_of_sameBut {op : Operation} {src tgt : Word} {rs : List RegNo} {fs : List Flag} {bs : List Word}
    {w t : State} (h : operationShown op src tgt s w) (k : sameBut rs fs bs w t)
    (hf : ∀ f ∈ operationFlags op, f ∉ fs) : operationShown op src tgt s t := by
  obtain ⟨-, hflags, -, -⟩ := k
  exact fun f hm => (hflags f (hf f hm)).trans (h f hm)

end

/-- Settles O19: the accumulator is read as it was, and the operation writes neither the index register nor LP. -/
theorem accumulatorToMemory : Obligations.AccumulatorToMemory := by
  intro cls size op ar m s s1 a hcls hp ha hh
  obtain ⟨haddr, -, -, -⟩ := effectiveAddress_frame ha
  obtain ⟨t, ht, hstored, hshown, hpc, hdev, hframe⟩ := toMemory_holds ha hh op ar
  rw [(accumulator_plain hp _ s s1).1] at hstored hshown
  refine ⟨t, (exec_toMemory hcls size op ar m s).trans ht, hstored, hshown, ?_, hpc fun hi => (hp hi).1, ?_, hdev⟩
  · exact indexUpdated_of_sameBut (fun hi => effectiveAddress_index ha (hp hi).1 hi) hframe
      (fun hi => ⟨(hp hi).1, List.not_mem_nil⟩) (lp_notMem_operationFlags op)
  · simpa only [List.append_nil, List.nil_append] using sameBut_append haddr hframe

/-- Settles O20: the accumulator is read as it was, and its result is written beside the index. -/
theorem memoryToAccumulator : Obligations.MemoryToAccumulator := by
  intro cls size op ar m s s1 a hcls hp ha hh
  obtain ⟨haddr, hpc, -, -⟩ := effectiveAddress_frame ha
  obtain ⟨hacc, hclash⟩ := accumulator_plain hp (operandLength m) s s1
  obtain ⟨w, ht, hregs, hshown, hdev, hframe⟩ := fromMemory_holds ha hh op ar
  rw [hacc] at ht hshown
  rw [closeIndex_plain hp] at ht
  obtain ⟨hend, -, hdevt, hput⟩ := deliver_plain hclash (operandLength m) op
    (operationResult op (s.operand size a) (s.data (operandLength m) ar)) w
  have hs1t := sameBut_flags_append hframe hput
  have hx (hi : classIndex cls ≠ .none) : m.xr ≠ 0#3 ∧ m.xr ∉ if operationWrites op then [ar] else [] := by
    obtain ⟨h0, hne⟩ := hp hi
    refine ⟨h0, fun hm => ?_⟩
    split at hm
    · exact hne (List.mem_singleton.1 hm).symm
    · exact List.not_mem_nil hm
  exact ⟨_, (exec_fromMemory hcls size op ar m s).trans ht,
    delivered_or_pc_congr ((State.reg_congr hregs _).trans hpc) hend,
    operationShown_of_sameBut hshown hput fun _ _ => List.not_mem_nil,
    indexUpdated_of_sameBut (fun hi => effectiveAddress_index ha (hp hi).1 hi) hs1t hx (lp_notMem_operationFlags op),
    sameBut_append haddr hs1t, sameDevices_trans hdev hdevt⟩

/-! ## The index register in conflict -/

section
variable {cls : MemClass} {size : Size} {m : MemOperand} {s s1 : State} {a : Word}

/-- The classes that update an index go to memory or to the accumulator, not both (R151). -/
theorem updating_class (h : classIndex cls ≠ .none) :
    cls ∈ [MemClass.c1, .c2, .c3] ∧ cls ∉ [MemClass.c5, .c6] ∨
      cls ∉ [MemClass.c1, .c2] ∧ cls ∈ [MemClass.c5, .c6, .c7] := by
  revert h; cases cls <;> decide

/-- The frame of an instruction that updates its index, from its frame after the address. -/
theorem sameBut_updating (ha : effectiveAddress (classIndex cls) size m s = .ok a s1) (h : classIndex cls ≠ .none)
    {rs rs' : List RegNo} {fs fs' : List Flag} {bs : List Word} {t : State} (k : sameBut rs fs bs s1 t)
    (hx : m.xr ∈ rs' ∨ m.xr = 0#3) (hr : ∀ r ∈ rs, r ∈ rs') (hf : ∀ f ∈ fs, f ∈ Flag.lp :: fs') :
    sameBut rs' (.lp :: fs') bs s t := by
  obtain ⟨haddr, -, -, -⟩ := effectiveAddress_frame ha
  rw [indexRegisters, if_neg h, indexFlags, if_neg h] at haddr
  refine sameBut_trans (sameBut_mono haddr (fun r hm h0 => ?_) (fun f hm => ?_) nofun)
    (sameBut_mono k (fun r hm _ => hr r hm) hf fun _ => id)
  · obtain rfl := List.mem_singleton.1 hm
    exact hx.resolve_right h0
  · exact List.mem_singleton.1 hm ▸ List.mem_cons_self

/-- AR = XR updated: the operand is the value before or after the update (R159, log 8). -/
theorem accumulator_clash {index : Index} {ar xr : RegNo} (hc : clash index ar xr = true) (har : ar ≠ 0#3) (len : Word)
    (s0 s : State) : accumulator index len ar xr s0 s = s0.reg ar ∨ accumulator index len ar xr s0 s = s.reg ar := by
  rw [accumulator, if_pos hc, if_neg har]
  split
  · exact .inl rfl
  · exact .inr rfl

/-- XR = 0 is in conflict with AR = 0 only. -/
theorem clash_zero {index : Index} {ar : RegNo} (h : ar ≠ 0#3) : clash index ar 0#3 = false := by simp [clash, h]

end

/-- Settles O21: the two free values are the operand and, in classes 5 and 6, the write that survives. -/
theorem accumulatorIsIndex : Obligations.AccumulatorIsIndex := by
  intro cls size op ar m s s1 a hi hxr har ha hh new
  subst hxr
  obtain ⟨-, hpc1, -, -⟩ := effectiveAddress_frame ha
  obtain ⟨hreg, hlp⟩ := effectiveAddress_index ha har hi
  have hc : clash (classIndex cls) m.xr m.xr = true := by simp [clash, hi]
  have hlpf := lp_notMem_operationFlags op
  have hv := accumulator_clash hc har (operandLength m) s s1
  rw [hreg] at hv
  obtain ⟨hto, hnot⟩ | ⟨hnot, hfrom⟩ := updating_class hi
  · obtain ⟨t, ht, hstored, hshown, hpc, hdev, hframe⟩ := toMemory_holds ha hh op m.xr
    have hall := sameBut_updating ha hi hframe (rs' := [m.xr]) (.inl List.mem_cons_self) nofun
      fun _ => List.mem_cons_of_mem _
    obtain ⟨hregs, hflags, -, -⟩ := hframe
    exact ⟨t, _, (exec_toMemory hto size op m.xr m s).trans ht, hv, hpc fun _ => har, hdev,
      fun _ => ⟨hstored, hshown, (hregs _ har List.not_mem_nil).trans hreg, (hflags _ hlpf).trans hlp, hall⟩,
      fun h => absurd h hnot⟩
  · obtain ⟨w, ht, hregs, hshown, hdev, hframe⟩ := fromMemory_holds ha hh op m.xr
    generalize accumulator (classIndex cls) (operandLength m) m.xr m.xr s s1 = v at hv ht hshown
    obtain ⟨t, hdeliver, hpc, hdevt, hframet, hregt, hlpt⟩ :=
      deliver_clash hc har (operandLength m) op (operationResult op (s.operand size a) v) w
    rw [hdeliver, closeIndex_of_ne fun _ => har] at ht
    rw [State.reg_congr hregs, hreg] at hregt
    refine ⟨t, v, (exec_fromMemory hfrom size op m.xr m s).trans ht, hv, ?_, sameDevices_trans hdev hdevt,
      fun h => absurd h hnot, fun _ => ⟨hregt, fun hw => ?_, ?_, ?_⟩⟩
    · rw [hpc, ← hpc1]
      exact congrArg (· + _) (State.reg_congr hregs _)
    · obtain ⟨-, hflags, -, -⟩ := hframe
      rw [hlpt hw, hflags _ hlpf, hlp]
    · exact operationShown_of_sameBut hshown hframet fun f hf hm => hlpf (List.mem_singleton.1 hm ▸ hf)
    · exact sameBut_updating ha hi (sameBut_append hframe hframet) (.inl List.mem_cons_self) (fun _ => id) fun _ => id

/-- Settles O22: the address and the ends of the instruction are as for another index register, but for the free
values. -/
theorem indexIsProgramCounter : Obligations.IndexIsProgramCounter := by
  intro cls size op ar m s s1 a hi hxr ha hh
  have hv (har : ar ≠ 0#3) : accumulator (classIndex cls) (operandLength m) ar m.xr s s1 = s.reg ar := by
    rw [accumulator, hxr, clash_zero har, if_neg Bool.false_ne_true, State.data_ne s har]
  obtain ⟨hto, hnot⟩ | ⟨hnot, hfrom⟩ := updating_class hi
  · obtain ⟨t, ht, hstored, hshown, -, hdev, hframe⟩ := toMemory_holds ha hh op ar
    have hall := sameBut_updating ha hi hframe (.inr hxr) (fun _ => id) fun _ => List.mem_cons_of_mem _
    exact ⟨t, _, (exec_toMemory hto size op ar m s).trans ht, hv, hdev, fun _ => ⟨hstored, hshown, hall⟩,
      fun h => absurd h hnot⟩
  · obtain ⟨w, ht, -, hshown, hdev, hframe⟩ := fromMemory_holds ha hh op ar
    generalize accumulator (classIndex cls) (operandLength m) ar m.xr s s1 = v at hv ht hshown
    have hplain : clash (classIndex cls) ar m.xr = false ∨ ar = 0#3 :=
      (em (ar = 0#3)).symm.imp_left fun har => hxr ▸ clash_zero har
    rw [deliver_eq_none hplain] at ht
    obtain ⟨hend, -, ⟨hin, hlog⟩, hput⟩ := deliver_plain (index := .none) (ar := ar) (xr := m.xr) rfl
      (operandLength m) op (operationResult op (s.operand size a) v) w
    generalize deliver .none (operandLength m) op ar m.xr (operationResult op (s.operand size a) v) w = w2
      at ht hend hin hlog hput
    have hclose := sameBut_closeIndex (classIndex cls) m.xr w2
    have hwt := sameBut_append hput hclose
    refine ⟨w2.closeIndex (classIndex cls) m.xr, v, (exec_fromMemory hfrom size op ar m s).trans ht, hv,
      sameDevices_trans hdev ⟨(State.closeIndex_deviceIn ..).trans hin, (State.closeIndex_deviceLog ..).trans hlog⟩,
      fun h => absurd h hnot, fun _ => ⟨fun hw har => ?_,
        operationShown_of_sameBut hshown hwt fun _ _ => List.not_mem_nil,
        sameBut_updating ha hi (sameBut_flags_append hframe hwt) (.inr hxr) (fun _ => id)
          fun _ => List.mem_cons_of_mem _⟩⟩
    obtain ⟨hregs, -, -, -⟩ := hclose
    rw [if_pos hw, delivered, if_neg har] at hend
    exact (hregs ar har List.not_mem_nil).trans hend.1

end Sys2Proof.Machine
end

section
/-! SUPPORT. Where an instruction stops at its address or at its operand, in the six classes, JUMP and JSBR, fetch and
clear, and class B (O17, O24, O25). -/

namespace Sys2Proof.Machine

/-! ## The part an instruction starts with -/

theorem Res.bind_assoc {α β γ : Type} (r : Res α) (f : α → State → Res β) (g : β → State → Res γ) :
    (r.bind f).bind g = r.bind fun a s => (f a s).bind g := by cases r <;> rfl

section
variable {iw : Word} {size : Size} {ar : RegNo} {m : MemOperand} {s : State}

/-- FCLW and FCLB on the models that have them (R316). -/
theorem fcl_present (h : s.par.model ≠ .m1110) :
    fcl size ar m s = Res.finish (fclWord size ar m) ((effectiveAddress .none size m s).bind fun a s1 =>
      (fetchAndClear size a s1).bind fun v s2 =>
        .ok () ((s2.freeNZO 0).put (operandLength m) ar (if s.par.model.seriesB then v else 0#16))) := if_neg h

/-- A class B instruction with a designator that does not trap, on the models that have it (R450, R451). -/
theorem fixedPoint_present (hmodel : s.par.model.scientific = true) (har : 2 ≤ ar.toNat)
    (f : Word → State → Res Unit) :
    fixedPoint iw ar m s f = Res.finish iw ((effectiveAddress .none .word m s).bind f) :=
  if_pos (by rw [hmodel, Bool.true_and]; exact decide_eq_true har)

/-- A pair other than the pair 0 is no designator that traps. -/
theorem two_le_toNat_pair {pair : BitVec 2} (h : pair ≠ 0#2) (x : BitVec 1) : 2 ≤ (pair ++ x : RegNo).toNat := by
  revert pair x; decide

end

/-! ## Stops of the address -/

section
variable {iw : Word} {size : Size} {ar : RegNo} {m : MemOperand} {s : State}

/-- An instruction of the six classes starts with its address. -/
theorem stopsWith_memInstr (cls : MemClass) (size : Size) (op : Operation) (ar : RegNo) (m : MemOperand) (s : State) :
    stopsWith (memWord cls size op ar m) (effectiveAddress (classIndex cls) size m s)
      (exec (memInstr cls size op ar m) s) := by
  cases cls with
  | c1 | c2 | c3 => rw [exec_toMemory (by decide)]; exact stopsWith_finish ..
  | c5 | c6 | c7 => rw [exec_fromMemory (by decide)]; exact stopsWith_finish ..

theorem stopsWith_fcl (h : s.par.model ≠ .m1110) :
    stopsWith (fclWord size ar m) (effectiveAddress .none size m s) (fcl size ar m s) := by
  rw [fcl_present h]
  exact stopsWith_finish ..

theorem stopsWith_fixedPoint (hmodel : s.par.model.scientific = true) (har : 2 ≤ ar.toNat)
    (f : Word → State → Res Unit) :
    stopsWith iw (effectiveAddress .none .word m s) (fixedPoint iw ar m s f) := by
  rw [fixedPoint_present hmodel har]
  exact stopsWith_finish ..

end

/-- Settles O25: each instruction starts with its address. -/
theorem addressStops : Obligations.AddressStops := by
  intro m s r
  refine ⟨fun cls size op ar => stopsWith_memInstr cls size op ar m s, stopsWith_finish ..,
    fun ar => stopsWith_finish .., fun h ar => ⟨stopsWith_fcl h, stopsWith_fcl h⟩,
    fun h => ⟨fun ar har => ?_, fun pair hp => ?_⟩⟩
  · exact ⟨stopsWith_fixedPoint h har _, stopsWith_fixedPoint h har _, stopsWith_fixedPoint h har _,
      stopsWith_fixedPoint h har _, stopsWith_fixedPoint h har _⟩
  · exact ⟨stopsWith_fixedPoint h (two_le_toNat_pair hp _) _, stopsWith_fixedPoint h (two_le_toNat_pair hp _) _⟩

section
variable {iw : Word} {size : Size} {ar : RegNo} {m : MemOperand} {s : State}

/-- Without an address the development of one traps (R157). -/
theorem effectiveAddress_noAddress (h : noAddress m = true) (index : Index) (size : Size) (s : State) :
    effectiveAddress index size m s = .unimplemented s := if_pos h

/-- FCLW and FCLB trap without an address, on every model. -/
theorem fcl_noAddress (h : noAddress m = true) : fcl size ar m s = takeUnimplemented (fclWord size ar m) s := by
  by_cases hm : s.par.model = .m1110
  · exact if_pos hm
  · obtain ⟨htrap, -, -⟩ := stopsWith_fcl (size := size) (ar := ar) (m := m) hm
    exact htrap s (effectiveAddress_noAddress h .none size s)

/-- Class B traps without an address, on every model and with every designator. -/
theorem fixedPoint_noAddress (h : noAddress m = true) (f : Word → State → Res Unit) :
    fixedPoint iw ar m s f = takeUnimplemented iw s := by
  unfold fixedPoint
  split
  · rw [effectiveAddress_noAddress h, Res.bind_unimplemented, Res.finish_unimplemented]
  · rfl

end

/-- Settles O17: each instruction starts with its address; the class 4 register form has none. -/
theorem noAddressTraps : Obligations.NoAddressTraps := by
  intro m s hext hxr
  have h : noAddress m = true := by simp [noAddress, hext, hxr]
  have hea := effectiveAddress_noAddress h
  refine ⟨fun cls size op ar => ?_, ?_, fun ar => ?_, fun ar => ?_, fun pair => ?_, fun op ar => ?_⟩
  · obtain ⟨htrap, -, -⟩ := stopsWith_memInstr cls size op ar m s
    exact htrap s (hea _ _ s)
  · show execJump m s = _
    rw [execJump, hea, Res.bind_unimplemented, Res.finish_unimplemented]
  · show execJsbr ar m s = _
    rw [execJsbr, hea, Res.bind_unimplemented, Res.finish_unimplemented]
  · exact ⟨fcl_noAddress h, fcl_noAddress h, fixedPoint_noAddress h _, fixedPoint_noAddress h _,
      fixedPoint_noAddress h _, fixedPoint_noAddress h _, fixedPoint_noAddress h _⟩
  · exact ⟨fixedPoint_noAddress h _, fixedPoint_noAddress h _⟩
  · rw [exec_dataR]
    exact dataToAccumulator_accumulated op 2#16 ar _ s

/-! ## Stops of the operand -/

section
variable {iw a : Word} {size : Size} {s t : State}

/-- An instruction that reads its operand next stops as that access does. -/
theorem stopsAt_readOperand (f : Word → State → Res Unit) :
    stopsAt (s.operandPlace size a) s (Res.finish iw ((readOperand size a s).bind f)) := by
  refine ⟨fun x h => ?_, fun r h => ?_⟩
  · rw [(operand_absent h).1, Res.bind_abort, Res.finish_abort]
  · rw [(operand_refused h).1, Res.bind_refuse, Res.finish_refuse]

theorem stopsAt_readWord (f : Word → State → Res Unit) :
    stopsAt (s.wordPlace a) s (Res.finish iw ((readWord a s).bind f)) := stopsAt_readOperand (size := .word) f

theorem stopsAt_writeOperand (v : Word) (f : Unit → State → Res Unit) :
    stopsAt (s.operandPlace size a) s (Res.finish iw ((writeOperand size a v s).bind f)) := by
  refine ⟨fun x h => ?_, fun r h => ?_⟩
  · rw [(operand_absent h).2, Res.bind_abort, Res.finish_abort]
  · rw [(operand_refused h).2, Res.bind_refuse, Res.finish_refuse]

theorem stopsAt_writeWord (v : Word) (f : Unit → State → Res Unit) :
    stopsAt (s.wordPlace a) s (Res.finish iw ((writeWord a v s).bind f)) := stopsAt_writeOperand (size := .word) v f

/-- A general operation on memory begins with the read of its target or, for MOV, with the write (R170). -/
theorem stopsAt_operateOnMemory (op : Operation) (src : Word) (f : Unit → State → Res Unit) :
    stopsAt (s.operandPlace size a) s (Res.finish iw ((operateOnMemory size op a src s).bind f)) := by
  cases hr : operationReadsTarget op with
  | true =>
    rw [operateOnMemory, hr, if_pos rfl, Res.bind_assoc]
    exact stopsAt_readOperand _
  | false =>
    have hw : operationWrites op = true := by revert hr; cases op <;> decide
    rw [operateOnMemory, hr, if_neg Bool.false_ne_true, Res.bind_ok, hw, if_pos rfl, Res.bind_assoc]
    exact stopsAt_writeOperand _ _

/-- The first word of a pair, and the second once the first was read. -/
theorem stopsAt_readPair (f : Word × Word → State → Res Unit) :
    stopsAt (s.wordPlace a) s (Res.finish iw ((readPair a s).bind f)) ∧
      ∀ v, readWord a s = .ok v t →
        stopsAt (s.wordPlace (a + 2#16)) t (Res.finish iw ((readPair a s).bind f)) := by
  rw [readPair, Res.bind_assoc]
  refine ⟨stopsAt_readWord _, fun v h => ?_⟩
  rw [h, Res.bind_ok, Res.bind_assoc, ← wordPlace_congr (readWord_onlyDevices h).par]
  exact stopsAt_readWord _

theorem writeWord_par {v : Word} (h : writeWord a v s = .ok () t) : t.par = s.par := by
  obtain ⟨-, rfl⟩ | ⟨-, rfl⟩ := writeWord_ok h <;> rfl

end

/-! ## Whole instructions -/

section
variable {iw a : Word} {size : Size} {m : MemOperand} {s s1 : State}

/-- An instruction of the six classes stops at its operand with the accumulator chosen or not, which changes free values
alone (R161, R515). -/
theorem stopsAt_memInstr {cls : MemClass} (ha : effectiveAddress (classIndex cls) size m s = .ok a s1) (op : Operation)
    (ar : RegNo) :
    ∃ u, stopsAt (s1.operandPlace size a) u (exec (memInstr cls size op ar m) s) ∧ u.pc = s1.pc ∧ sameDevices s1 u ∧
      sameBut [] [] [] s1 u := by
  have hclass : cls ∈ [MemClass.c1, .c2, .c3] ∨ cls ∈ [MemClass.c5, .c6, .c7] := by cases cls <;> decide
  obtain hto | hfrom := hclass
  · refine ⟨s1.afterAccumulator (classIndex cls) ar m.xr, ?_, State.reg_congr (State.afterAccumulator_regs ..) _,
      ⟨State.afterAccumulator_deviceIn .., State.afterAccumulator_deviceLog ..⟩, sameBut_afterAccumulator ..⟩
    rw [exec_toMemory hto, toMemory, ha, Res.bind_ok,
      ← operandPlace_congr (State.afterAccumulator_par s1 (classIndex cls) ar m.xr)]
    exact stopsAt_operateOnMemory ..
  · refine ⟨s1, ?_, rfl, sameDevices_refl s1, sameBut_refl s1⟩
    rw [exec_fromMemory hfrom, fromMemory, ha, Res.bind_ok]
    exact stopsAt_readOperand _

/-- Fetch and clear begins with the read (R314). -/
theorem stopsAt_fcl (h : s.par.model ≠ .m1110) (ha : effectiveAddress .none size m s = .ok a s1) (ar : RegNo) :
    stopsAt (s1.operandPlace size a) s1 (fcl size ar m s) := by
  rw [fcl_present h, ha, Res.bind_ok, fetchAndClear, Res.bind_assoc]
  exact stopsAt_readOperand _

/-- A class B instruction stops as the part that follows its address does. -/
theorem stopsAt_fixedPoint (hmodel : s.par.model.scientific = true) {ar : RegNo} (har : 2 ≤ ar.toNat)
    (ha : effectiveAddress .none .word m s = .ok a s1) {f : Word → State → Res Unit} {p : Place} {t : State}
    (h : stopsAt p t (Res.finish iw (f a s1))) : stopsAt p t (fixedPoint iw ar m s f) := by
  rwa [fixedPoint_present hmodel har, ha, Res.bind_ok]

theorem two_le_of_even_pair : ∀ {r : RegNo}, r ∈ [2#3, 4#3, 6#3] → 2 ≤ r.toNat := by decide

theorem onEvenPair_even {r : RegNo} (h : r ∈ [2#3, 4#3, 6#3]) (f : Res Unit) : onEvenPair r f = f := by
  have heven : r.getLsbD 0 = false := by revert r; decide
  rw [onEvenPair, heven, if_neg Bool.false_ne_true]

/-- DLOD, DADD and DSUB read a pair of words (R461, R463, R464). -/
theorem exec_readPair (r : RegNo) (m : MemOperand) (s : State) {i : Instr}
    (h : i ∈ [Instr.dlod r m, .dadd r m, .dsub r m]) :
    ∃ iw f, exec i s = fixedPoint iw r m s fun a s1 => onEvenPair r ((readPair a s1).bind f) := by
  simp only [List.mem_cons, List.not_mem_nil, or_false] at h
  obtain rfl | rfl | rfl := h <;> exact ⟨_, _, rfl⟩

/-- The three that read a pair stop at either word. -/
theorem stopsAt_exec_readPair (hmodel : s.par.model.scientific = true) {r : RegNo} (hr : r ∈ [2#3, 4#3, 6#3])
    (ha : effectiveAddress .none .word m s = .ok a s1) {i : Instr} (hi : i ∈ [Instr.dlod r m, .dadd r m, .dsub r m]) :
    stopsAt (s1.wordPlace a) s1 (exec i s) ∧
      ∀ v s2, readWord a s1 = .ok v s2 → stopsAt (s1.wordPlace (a + 2#16)) s2 (exec i s) := by
  have hr2 := two_le_of_even_pair hr
  obtain ⟨iw, f, hf⟩ := exec_readPair r m s hi
  rw [hf]
  refine ⟨stopsAt_fixedPoint hmodel hr2 ha ?_, fun v s2 hread => stopsAt_fixedPoint hmodel hr2 ha ?_⟩ <;>
    rw [onEvenPair_even hr]
  · exact (stopsAt_readPair (t := s1) f).1
  · exact (stopsAt_readPair f).2 v hread

/-- DSTA stops at either word it stores (R462). -/
theorem stopsAt_exec_dsta (hmodel : s.par.model.scientific = true) {r : RegNo} (hr : r ∈ [2#3, 4#3, 6#3])
    (ha : effectiveAddress .none .word m s = .ok a s1) :
    stopsAt (s1.wordPlace a) s1 (exec (.dsta r m) s) ∧
      ∀ s2, writeWord a (s.reg r) s1 = .ok () s2 → stopsAt (s1.wordPlace (a + 2#16)) s2 (exec (.dsta r m) s) := by
  have hr2 := two_le_of_even_pair hr
  refine ⟨stopsAt_fixedPoint hmodel hr2 ha ?_, fun s2 hwrite => stopsAt_fixedPoint hmodel hr2 ha ?_⟩ <;>
    rw [onEvenPair_even hr]
  · exact stopsAt_writeWord _ _
  · rw [(effectiveAddress_none_ok ha).reg, hwrite, Res.bind_ok, ← wordPlace_congr (writeWord_par hwrite)]
    exact stopsAt_writeWord _ _

end

/-- Settles O24: each instruction goes on from its address with the access. -/
theorem operandStops : Obligations.OperandStops := by
  intro m s s1 a
  refine ⟨fun cls size op ar ha => ?_, fun size ar hm ha => ⟨?_, ?_⟩, fun hmodel ha => ⟨?_, fun ar har => ?_,
    fun pair hp => ?_, fun r hr => ⟨?_, fun v s2 hread i hi => ?_, fun s2 hwrite => ?_⟩⟩⟩
  · obtain ⟨haddr, hpc, -, -⟩ := effectiveAddress_frame ha
    obtain ⟨u, ⟨habsent, hrefused⟩, hupc, hdev, hframe⟩ := stopsAt_memInstr ha op ar
    refine ⟨fun x hx => ⟨u, habsent x hx, hupc.trans hpc, hdev, sameBut_append haddr hframe, fun h0 => ?_⟩, hrefused⟩
    exact indexUpdated_of_sameBut (effectiveAddress_index ha h0) hframe (fun _ => ⟨h0, List.not_mem_nil⟩)
      List.not_mem_nil
  · have hexec : exec (if size = .word then .fclw ar m else .fclb ar m) s = fcl size ar m s := by cases size <;> rfl
    rw [hexec]
    exact stopsAt_fcl hm ha ar
  · exact ⟨(effectiveAddress_none_ok ha).pc, sameBut_onlyDevices (effectiveAddress_none_ok ha)⟩
  · exact ⟨(effectiveAddress_none_ok ha).pc, sameBut_onlyDevices (effectiveAddress_none_ok ha)⟩
  · exact stopsAt_fixedPoint hmodel har ha (stopsAt_readWord _)
  · exact ⟨stopsAt_fixedPoint hmodel (two_le_toNat_pair hp _) ha (stopsAt_readWord _),
      stopsAt_fixedPoint hmodel (two_le_toNat_pair hp _) ha (stopsAt_readWord _)⟩
  · intro i hi
    have hsplit : i ∈ [Instr.dlod r m, .dadd r m, .dsub r m] ∨ i = .dsta r m := by simpa [or_assoc] using hi
    obtain hi | rfl := hsplit
    · exact (stopsAt_exec_readPair hmodel hr ha hi).1
    · exact (stopsAt_exec_dsta hmodel hr ha).1
  · exact (stopsAt_exec_readPair hmodel hr ha hi).2 v s2 hread
  · exact (stopsAt_exec_dsta hmodel hr ha).2 s2 hwrite

end Sys2Proof.Machine
end

section
/-! SUPPORT. The branches: every one is a transfer of control, to P + 2 x D or to the next instruction (O28). -/

namespace Sys2Proof.Machine

/-- P + 2 x D as the integers have it, D signed (R221). -/
theorem relative_eq_ofInt (d : BitVec 8) (s : State) :
    s.relative d = BitVec.ofInt 16 (s.pc.toNat + 2 * d.toInt) := by
  rw [BitVec.ofInt_add, BitVec.ofInt_mul, BitVec.ofInt_natCast, BitVec.ofNat_toNat, BitVec.setWidth_eq]
  rfl

/-- A transfer of control writes the program counter alone; `State.advance` is one as well. -/
theorem controlled_setPc (s : State) (pc : Word) : controlled pc [] [] [] s (s.setPc pc) :=
  ⟨State.pc_setPc s pc, sameBut_setPc s pc, sameDevices_refl s⟩

/-- A conditional branch is taken where its condition is as its class asks (R223). -/
theorem branch_controlled (c : Condition) (sense : Bool) (d : BitVec 8) (s : State) :
    ∃ t, branch c sense d s = .next t ∧
      controlled (if conditionHolds c s.status = sense then s.relative d else s.pc + 2#16) [] [] [] s t := by
  refine ⟨_, rfl, ?_⟩
  by_cases h : conditionHolds c s.status = sense
  · rw [if_pos h, if_pos (beq_iff_eq.mpr h)]
    exact controlled_setPc s _
  · rw [if_neg h, if_neg (mt beq_iff_eq.mp h)]
    exact controlled_setPc s _

/-- LT is GT = 0 and EQ = 0 (R222). -/
theorem conditionHolds_lt (s : State) :
    conditionHolds .lt s.status = (s.flag .gt == false && s.flag .eq == false) := by
  rw [beq_false, beq_false]
  rfl

/-- Settles O28: a condition other than LT is its indicator, and each branch is a transfer of control. -/
theorem branches : Obligations.Branches := by
  intro c sense d s target holds
  have htarget : s.relative d = target := relative_eq_ofInt d s
  have hholds : conditionHolds c s.status = holds := by
    cases c with
    | lt => exact conditionHolds_lt s
    | eq | gt | ov | cy | f1 | f2 | f3 | lp | od | ze | ng => rfl
  rw [exec_branchInstr, ← hholds, ← htarget]
  exact ⟨branch_controlled c sense d s, ⟨_, rfl, controlled_setPc s _⟩, ⟨_, rfl, controlled_setPc s _⟩⟩

end Sys2Proof.Machine
end

section
/-! SUPPORT. The single shifts: what a number of one-place steps comes to, for the register and CY together as one
string of 17 bits, and for OV in integers (O29). -/

namespace Sys2Proof.Machine

/-! ## Many places, one at a time -/

/-- A family of moves by `n` places, each one place further than the one before, is the iteration of its first. -/
theorem iterate_one_eq {α : Type} {move : Nat → α → α} (h0 : ∀ x, move 0 x = x)
    (hsucc : ∀ n x, move (n + 1) x = move 1 (move n x)) (n : Nat) (x : α) : (move 1)^[n] x = move n x := by
  induction n with
  | zero => exact (h0 x).symm
  | succ n ih => rw [Function.iterate_succ_apply', ih, ← hsucc]

/-- The count of a rotation one place further, modulo the width. -/
theorem succ_mod_cases {w : Nat} (hw : 2 ≤ w) (n : Nat) :
    n % w + 1 < w ∧ (n + 1) % w = n % w + 1 ∨ n % w + 1 = w ∧ (n + 1) % w = 0 := by
  have hlt := Nat.mod_lt n (show 0 < w by omega)
  rw [Nat.add_mod, Nat.mod_eq_of_lt (show 1 < w by omega)]
  obtain h | h := Nat.lt_or_ge (n % w + 1) w
  · exact .inl ⟨h, Nat.mod_eq_of_lt h⟩
  · have h : n % w + 1 = w := by omega
    exact .inr ⟨h, by rw [h, Nat.mod_self]⟩

section
variable {w : Nat} (n : Nat) (x : BitVec w)

theorem iterate_shiftLeft_one : (fun y : BitVec w => y <<< 1)^[n] x = x <<< n :=
  iterate_one_eq (move := fun n (x : BitVec w) => x <<< n) BitVec.shiftLeft_zero
    (fun n x => BitVec.shiftLeft_add x n 1) n x

theorem iterate_ushiftRight_one : (fun y : BitVec w => y >>> 1)^[n] x = x >>> n :=
  iterate_one_eq (move := fun n (x : BitVec w) => x >>> n) BitVec.ushiftRight_zero
    (fun n x => BitVec.shiftRight_add x n 1) n x

theorem iterate_sshiftRight_one : (BitVec.sshiftRight · 1)^[n] x = x.sshiftRight n :=
  iterate_one_eq (move := fun n (x : BitVec w) => x.sshiftRight n) (fun _ => BitVec.sshiftRight_zero)
    (fun _ _ => BitVec.sshiftRight_add) n x

theorem rotateLeft_succ (hw : 2 ≤ w) : x.rotateLeft (n + 1) = (x.rotateLeft n).rotateLeft 1 := by
  ext i hi
  simp only [BitVec.getElem_rotateLeft, Nat.mod_eq_of_lt hw]
  obtain ⟨h, hn⟩ | ⟨h, hn⟩ := succ_mod_cases hw n
  · grind
  · grind

theorem rotateRight_succ (hw : 2 ≤ w) : x.rotateRight (n + 1) = (x.rotateRight n).rotateRight 1 := by
  ext i hi
  simp only [BitVec.getElem_rotateRight, Nat.mod_eq_of_lt hw]
  obtain ⟨h, hn⟩ | ⟨h, hn⟩ := succ_mod_cases hw n
  · grind
  · grind

theorem iterate_rotateLeft_one (hw : 2 ≤ w) : (BitVec.rotateLeft · 1)^[n] x = x.rotateLeft n :=
  iterate_one_eq (move := fun n (x : BitVec w) => x.rotateLeft n) (fun _ => by ext; simp)
    (fun n x => rotateLeft_succ n x hw) n x

theorem iterate_rotateRight_one (hw : 2 ≤ w) : (BitVec.rotateRight · 1)^[n] x = x.rotateRight n :=
  iterate_one_eq (move := fun n (x : BitVec w) => x.rotateRight n) (fun _ => by ext i hi; simp [hi])
    (fun n x => rotateRight_succ n x hw) n x

end

/-! ## Overflow -/

theorem overflows_eq_false_iff {w n : Nat} {x : Int} :
    overflows w n x = false ↔ -2 ^ (w - 1) ≤ x * 2 ^ n ∧ x * 2 ^ n < 2 ^ (w - 1) := by
  simp [overflows]

/-- What overflows at one place overflows at the next. -/
theorem overflows_of_overflows {w n : Nat} {x : Int} (h : overflows w n x = true) : overflows w (n + 1) x = true := by
  have hpos : (0 : Int) < 2 ^ (w - 1) := by positivity
  simp only [overflows, Bool.or_eq_true, decide_eq_true_eq, pow_succ, ← mul_assoc] at h ⊢
  omega

/-- As long as nothing overflows, the moved word is the number times a power of two. -/
theorem toInt_shiftLeft_of_not_overflows {w n : Nat} {a : BitVec w} (hw : 0 < w) (h : overflows w n a.toInt = false) :
    (a <<< n).toInt = a.toInt * 2 ^ n := by
  obtain ⟨hlo, hhi⟩ := overflows_eq_false_iff.mp h
  have hmod : (a <<< n).toInt = (a.toInt * 2 ^ n).bmod (2 ^ w) := by
    rw [BitVec.toInt_shiftLeft, Nat.shiftLeft_eq, Nat.cast_mul, Nat.cast_pow, Nat.cast_ofNat,
      BitVec.toInt_eq_toNat_bmod, Int.bmod_mul_bmod]
  have hpow : ((2 ^ w : Nat) : Int) = 2 ^ (w - 1) * 2 := by
    rw [← pow_succ, Nat.sub_add_cancel hw, Nat.cast_pow, Nat.cast_ofNat]
  rw [hmod]
  exact Int.bmod_eq_of_le_mul_two (by omega) (by omega)

/-- The two leading bits of a number differ where its double leaves the range. -/
theorem leading_ne_eq_overflows {w : Nat} (hw : 2 ≤ w) (y : BitVec w) :
    (y.getLsbD (w - 2) != y.getLsbD (w - 1)) = overflows w 1 y.toInt := by
  obtain ⟨v, rfl⟩ := Nat.exists_eq_add_of_le' hw
  have hpow : 2 ^ (v + 2) = 4 * 2 ^ v := by ring
  have hpow' : (2 : Int) ^ (v + 1) = 2 * (2 ^ v : Nat) := by push_cast; ring
  have hlt := y.isLt
  have hint := BitVec.toInt_eq_toNat_cond y
  have hdiv := Nat.div_add_mod y.toNat (2 ^ v)
  have hmod := Nat.mod_lt y.toNat (show 0 < 2 ^ v by positivity)
  have hquot : y.toNat / 2 ^ v < 4 := Nat.div_lt_of_lt_mul (by omega)
  have hlead : y.toNat / 2 ^ (v + 1) = y.toNat / 2 ^ v / 2 := by rw [pow_succ, Nat.div_div_eq_div_mul]
  rw [Bool.eq_iff_iff, overflows, show v + 2 - 1 = v + 1 from rfl, Nat.add_sub_cancel, hpow', BitVec.getLsbD,
    BitVec.getLsbD, Nat.testBit_eq_decide_div_mod_eq, Nat.testBit_eq_decide_div_mod_eq, hlead]
  rw [hpow] at hlt hint
  generalize y.toNat / 2 ^ v = q at *
  simp only [bne_iff_ne, ne_eq, decide_eq_decide, Bool.or_eq_true, decide_eq_true_eq]
  interval_cases q <;> omega

/-- A left shift by one place more overflows where the shift did, or where the word it left changes sign. -/
theorem overflows_succ {w : Nat} (hw : 2 ≤ w) (n : Nat) (a : BitVec w) :
    overflows w (n + 1) a.toInt =
      (overflows w n a.toInt || (a <<< n).getLsbD (w - 2) != (a <<< n).getLsbD (w - 1)) := by
  rw [leading_ne_eq_overflows hw]
  cases h : overflows w n a.toInt with
  | true => exact overflows_of_overflows h
  | false =>
    rw [overflows, overflows, toInt_shiftLeft_of_not_overflows (by omega) h, pow_one, pow_succ, mul_assoc]
    rfl

/-! ## One step -/

/-- CY and the register as one string, CY its leading bit (R244, R249). -/
def Single.linked (x : Single) : BitVec 17 := BitVec.ofBool (getFlag .cy x.st) ++ x.a

theorem getLsbD_linked (x : Single) (i : Nat) :
    x.linked.getLsbD i = if i < 16 then x.a.getLsbD i else decide (i = 16) && getFlag .cy x.st := by
  rw [Single.linked, BitVec.getLsbD_append, BitVec.getLsbD_ofBool]
  split
  · rfl
  · simp only [show i - 16 = 0 ↔ i = 16 by omega]

theorem linked_setWidth (x : Single) : x.linked.setWidth 16 = x.a := by
  apply BitVec.eq_of_getLsbD_eq
  intro i hi
  rw [BitVec.getLsbD_setWidth, getLsbD_linked, if_pos hi, decide_eq_true hi, Bool.true_and]

theorem getLsbD_linked_carry (x : Single) : x.linked.getLsbD 16 = getFlag .cy x.st := by
  rw [getLsbD_linked]
  rfl

/-- A step of a left shift moves the string; what leaves the register is CY (R245). -/
theorem linked_singleStep_lao : Function.Semiconj Single.linked (singleStep .lao) (· <<< 1) := by
  intro x
  apply BitVec.eq_of_getLsbD_eq
  intro i hi
  simp only [getLsbD_linked, singleStep, BitVec.getLsbD_shiftLeft, getFlag_setFlag_same]
  grind

/-- A step of a linked shift rotates the string (R244, R249). -/
theorem linked_singleStep_lll : Function.Semiconj Single.linked (singleStep .lll) (·.rotateLeft 1) := by
  intro x
  apply BitVec.eq_of_getLsbD_eq
  intro i hi
  simp only [getLsbD_linked, singleStep, BitVec.getLsbD_rotateLeft, getFlag_setFlag_same]
  grind [getLsbD_setBit]

theorem linked_singleStep_rll : Function.Semiconj Single.linked (singleStep .rll) (·.rotateRight 1) := by
  intro x
  apply BitVec.eq_of_getLsbD_eq
  intro i hi
  simp only [getLsbD_linked, singleStep, BitVec.getLsbD_rotateRight, getFlag_setFlag_same]
  grind [getLsbD_setBit]

theorem rotateLeft_one (a : Word) : setBit 0 (a.getLsbD 15) (a <<< 1) = a.rotateLeft 1 := by
  apply BitVec.eq_of_getLsbD_eq
  intro i hi
  rw [getLsbD_setBit _ _ (by decide), BitVec.getLsbD_shiftLeft, BitVec.getLsbD_rotateLeft]
  grind

theorem rotateRight_one (a : Word) : setBit 15 (a.getLsbD 0) (a >>> 1) = a.rotateRight 1 := by
  apply BitVec.eq_of_getLsbD_eq
  intro i hi
  rw [getLsbD_setBit _ _ (by decide), BitVec.getLsbD_ushiftRight, BitVec.getLsbD_rotateRight]
  grind

theorem sshiftRight_one (a : Word) : setBit 15 (a.getLsbD 15) (a >>> 1) = a.sshiftRight 1 := by
  apply BitVec.eq_of_getLsbD_eq
  intro i hi
  rw [getLsbD_setBit _ _ (by decide), BitVec.getLsbD_ushiftRight, BitVec.getLsbD_sshiftRight]
  grind

/-- The indicators no step writes. -/
theorem getFlag_singleStep {op : ShiftOp} {f : Flag} (hf : f ∉ shiftFlags op) (x : Single) :
    getFlag f (singleStep op x).st = getFlag f x.st := by
  cases op with
  | lao | lll =>
    obtain ⟨hov, hcy⟩ : f ≠ .ov ∧ f ≠ .cy := by simpa [shiftFlags] using hf
    exact (getFlag_setFlag_ne hcy _ _).trans (getFlag_setFlag_ne hov _ _)
  | rll => exact getFlag_setFlag_ne (by simpa [shiftFlags] using hf) _ _
  | llo | llc | rao | rlo | rlc => rfl

/-- OV of one step to the left: set where the sign is about to change (R244, R245). -/
theorem ov_singleStep {op : ShiftOp} (hop : op = .lao ∨ op = .lll) (x : Single) :
    getFlag .ov (singleStep op x).st = (getFlag .ov x.st || x.a.getLsbD 14 != x.a.getLsbD 15) := by
  obtain rfl | rfl := hop <;> exact (getFlag_setFlag_ne (by decide) _ _).trans (getFlag_setFlag_same ..)

/-- A step that moves the register alone. -/
theorem iterate_singleStep {op : ShiftOp} {move : Word → Word} (h : ∀ a st, singleStep op ⟨a, st⟩ = ⟨move a, st⟩)
    (n : Nat) (a st : Word) : (singleStep op)^[n] ⟨a, st⟩ = ⟨move^[n] a, st⟩ :=
  (Function.Semiconj.iterate_right (f := (Single.mk · st)) (fun a => (h a st).symm) n a).symm

/-! ## The eight operations -/

section
variable (n : Nat) (a st : Word)

theorem singleShift_llo : singleShift .llo n a st = ⟨a <<< n, st⟩ := by
  rw [← iterate_shiftLeft_one]
  exact iterate_singleStep (fun _ _ => rfl) n a st

theorem singleShift_rlo : singleShift .rlo n a st = ⟨a >>> n, st⟩ := by
  rw [← iterate_ushiftRight_one]
  exact iterate_singleStep (fun _ _ => rfl) n a st

theorem singleShift_llc : singleShift .llc n a st = ⟨a.rotateLeft n, st⟩ := by
  rw [← iterate_rotateLeft_one n a (by decide)]
  exact iterate_singleStep (fun a _ => by rw [← rotateLeft_one]; rfl) n a st

theorem singleShift_rlc : singleShift .rlc n a st = ⟨a.rotateRight n, st⟩ := by
  rw [← iterate_rotateRight_one n a (by decide)]
  exact iterate_singleStep (fun a _ => by rw [← rotateRight_one]; rfl) n a st

theorem singleShift_rao : singleShift .rao n a st = ⟨a.sshiftRight n, setFlag .cy false st⟩ := by
  have hstep (a st : Word) : singleStep .rao ⟨a, st⟩ = ⟨a.sshiftRight 1, st⟩ := by rw [← sshiftRight_one]; rfl
  rw [singleShift, iterate_singleStep hstep, iterate_sshiftRight_one]

theorem linked_singleShift_lao : (singleShift .lao n a st).linked = (Single.mk a st).linked <<< n := by
  rw [← iterate_shiftLeft_one]
  exact linked_singleStep_lao.iterate_right n _

theorem linked_singleShift_lll : (singleShift .lll n a st).linked = (Single.mk a st).linked.rotateLeft n := by
  rw [← iterate_rotateLeft_one n _ (by decide)]
  exact linked_singleStep_lll.iterate_right n _

theorem linked_singleShift_rll : (singleShift .rll n a st).linked = (Single.mk a st).linked.rotateRight n := by
  rw [← iterate_rotateRight_one n _ (by decide)]
  exact linked_singleStep_rll.iterate_right n _

/-- Only SRAO does more at its end than its steps (R248). -/
theorem singleShift_succ {op : ShiftOp} (hop : op ≠ .rao) :
    singleShift op (n + 1) a st = singleStep op (singleShift op n a st) := by
  cases op with
  | rao => exact absurd rfl hop
  | lao | lll | llo | llc | rll | rlo | rlc => exact Function.iterate_succ_apply' ..

/-- Value and CY are the closed form (R244 to R252). -/
theorem shifted_eq (op : ShiftOp) {n : Nat} (hn : n < 16) :
    shifted op n a (getFlag .cy st) = ((singleShift op n a st).a, getFlag .cy (singleShift op n a st).st) := by
  cases op with
  | llo => rw [singleShift_llo]; rfl
  | llc => rw [singleShift_llc]; rfl
  | rlo => rw [singleShift_rlo]; rfl
  | rlc => rw [singleShift_rlc]; rfl
  | rao => rw [singleShift_rao, getFlag_setFlag_same]; rfl
  | lll => rw [← linked_setWidth, ← getLsbD_linked_carry, linked_singleShift_lll]; rfl
  | rll => rw [← linked_setWidth, ← getLsbD_linked_carry, linked_singleShift_rll]; rfl
  | lao =>
    rw [← linked_setWidth, ← getLsbD_linked_carry, linked_singleShift_lao]
    refine Prod.ext ?_ ?_
    · apply BitVec.eq_of_getLsbD_eq
      intro i hi
      simp only [shifted, BitVec.getLsbD_setWidth, BitVec.getLsbD_shiftLeft, getLsbD_linked]
      grind
    · simp only [shifted, BitVec.getLsbD_shiftLeft, getLsbD_linked]
      grind

/-- The bits that come from the register itself in a left shift. -/
theorem getLsbD_singleShift_left {op : ShiftOp} (hop : op = .lao ∨ op = .lll) {n i : Nat} (hn : n ≤ i) (hi : i < 16) :
    (singleShift op n a st).a.getLsbD i = (a <<< n).getLsbD i := by
  rw [← linked_setWidth, BitVec.getLsbD_setWidth, BitVec.getLsbD_shiftLeft]
  obtain rfl | rfl := hop
  · rw [linked_singleShift_lao, BitVec.getLsbD_shiftLeft, getLsbD_linked]
    grind
  · simp only [linked_singleShift_lll, BitVec.getLsbD_rotateLeft, getLsbD_linked]
    grind

/-- OV is set where the number leaves the range, and kept otherwise (R244, R245). -/
theorem ov_singleShift {op : ShiftOp} (hop : op = .lao ∨ op = .lll) {n : Nat} (hn : n < 16) :
    getFlag .ov (singleShift op n a st).st = (getFlag .ov st || overflows 16 n a.toInt) := by
  induction n with
  | zero =>
    have hrange : overflows 16 0 a.toInt = false := by
      have hlo := a.le_toInt
      have hhi := a.toInt_lt
      rw [overflows_eq_false_iff]
      omega
    rw [hrange, Bool.or_false]
    obtain rfl | rfl := hop <;> rfl
  | succ n ih =>
    have hne : op ≠ .rao := by rintro rfl; simp at hop
    rw [singleShift_succ n a st hne, ov_singleStep hop, ih (by omega), overflows_succ (by decide), Bool.or_assoc,
      getLsbD_singleShift_left a st hop (show n ≤ 14 by omega) (by decide),
      getLsbD_singleShift_left a st hop (show n ≤ 15 by omega) (by decide)]

/-- The indicators a shift leaves alone. -/
theorem getFlag_singleShift {op : ShiftOp} {f : Flag} (hf : f ∉ shiftFlags op) :
    getFlag f (singleShift op n a st).st = getFlag f st := by
  have hn := steady_iterate Single.st (getFlag_singleStep hf) n ⟨a, st⟩
  cases op with
  | rao => exact (getFlag_setFlag_ne (by simpa [shiftFlags] using hf) _ _).trans hn
  | lao | lll | llo | llc | rll | rlo | rlc => exact hn

end

/-! ## The instructions -/

/-- A result delivered with NG, ZE and OD, where the status differed from the one before in `fs` only. -/
theorem wroteRegister_put {fs : List Flag} {st : Word} {s : State} (h : ∀ f, f ∉ fs → getFlag f st = s.flag f)
    (len : Word) (ar : RegNo) (v : Word) :
    wroteRegister len ar v fs s ({ s with status := setNZO v st }.put len ar v) := by
  refine ⟨delivered_congr rfl (delivered_put _ len ar v), shows_setNZO (State.put_status ..), ?_,
    State.put_deviceIn .., State.put_deviceLog ..⟩
  refine sameBut_flags_append (sameBut_status s fun f hf => ?_) (sameBut_put _ len ar v)
  simp only [List.mem_append, List.mem_cons, List.not_mem_nil, or_false, not_or] at hf
  obtain ⟨⟨hng, hze, hod⟩, hfs⟩ := hf
  rw [getFlag_setNZO, if_neg hod, if_neg hze, if_neg hng, h f hfs]
  rfl

/-- A shift by fewer than 16 places is its closed form. -/
theorem shiftedRegister_shift (op : ShiftOp) (ar : RegNo) {n : Nat} (hn : n < 16) (s : State) :
    shiftedRegister op ar n s (shift op ar n s) := by
  have hflag {f : Flag} (h : f ∉ [Flag.od, .ze, .ng]) :
      (shift op ar n s).flag f = getFlag f (singleShift op n (s.data 2#16 ar) s.status).st := by
    simp only [List.mem_cons, List.not_mem_nil, or_false, not_or] at h
    obtain ⟨hod, hze, hng⟩ := h
    rw [State.flag, shift, State.put_status, getFlag_setNZO, if_neg hod, if_neg hze, if_neg hng]
  rw [shiftedRegister, State.flag, shifted_eq _ _ op hn]
  exact ⟨wroteRegister_put (fun f hf => getFlag_singleShift n _ _ hf) 2#16 ar _, hflag (by decide),
    fun hop => (hflag (by decide)).trans (ov_singleShift _ _ hop hn)⟩

/-- A shift whose count was open spends a free value and nothing else (log 11). -/
theorem shiftedRegister_of_spend {op : ShiftOp} {ar : RegNo} {n k : Nat} {s t : State}
    (h : shiftedRegister op ar n (s.spend k) t) : shiftedRegister op ar n s t := h

theorem shiftByRegister_eq {xr : RegNo} (h : xr ≠ 0#3) (op : ShiftOp) (ar : RegNo) (s : State) :
    shiftByRegister op ar xr s = .next (shift op ar ((s.reg xr).toNat % 16) s) := by
  rw [shiftByRegister, State.countRegister, State.afterCount, if_neg h, if_neg h, BitVec.toNat_setWidth]

/-- Settles O29: each count is less than 16, and such a shift is its closed form. -/
theorem singleShifts : Obligations.SingleShifts := by
  intro op ar s
  refine ⟨fun k => ?_, fun xr hxr => ?_, ?_⟩
  · rw [exec_shiftInstrK]
    exact ⟨_, rfl, shiftedRegister_shift op ar k.isLt s⟩
  · rw [exec_shiftInstrX, shiftByRegister_eq hxr]
    exact ⟨_, rfl, shiftedRegister_shift op ar (Nat.mod_lt _ (by decide)) s⟩
  · rw [exec_shiftInstrX]
    exact ⟨_, _, ((s.freeAt 0).setWidth 4).isLt, rfl,
      shiftedRegister_of_spend (k := 1) (shiftedRegister_shift op ar (BitVec.isLt _) (s.spend 1))⟩

end Sys2Proof.Machine
end

section
/-! SUPPORT. The end of the WAIT state, and the control instructions that write indicators, masks or the run state (O7,
O35 to O37). -/

namespace Sys2Proof

/-- A concatenation from its left part and its right part. -/
theorem append_eq_or {n k : Nat} (x : BitVec n) (y : BitVec k) : x ++ y = (x ++ 0#k) ||| y.setWidth (n + k) := by
  apply BitVec.eq_of_getLsbD_eq
  intro i hi
  rw [BitVec.getLsbD_or, BitVec.getLsbD_append, BitVec.getLsbD_append, BitVec.getLsbD_setWidth]
  by_cases h : i < k
  · simp [h, hi]
  · simp [h, BitVec.getLsbD_of_ge y i (by omega)]

theorem statusWord_eq_or (s : BitVec 1) (f : BitVec 7) : statusWord s f = statusWord s 0#7 ||| f.setWidth 16 :=
  append_eq_or _ f

theorem maskWord_eq_or (h3 k : BitVec 4) : maskWord h3 k = maskWord h3 0#4 ||| k.setWidth 16 := append_eq_or _ k

end Sys2Proof

namespace Sys2Proof.Machine

/-! ## The end of the WAIT state -/

section
variable {s : State} {j : Nat} {w : Word}

/-- A request of level 4 is taken in the WAIT state (R279, D32). -/
theorem waitingStep_level4 (h : s.request = some (4, w)) : waitingStep s = takeSystem 4 w s := by
  simp only [waitingStep, h, if_true]

/-- A request of another level is consumed, and execution goes on at the next instruction (R279, D32). -/
theorem waitingStep_lower (h : s.request = some (j, w)) (hj : j ≠ 4) :
    waitingStep s = .next ({ s with run := .running, pending := s.pending.consume j }.advance 2#16) := by
  simp only [waitingStep, h, if_neg hj]

end

/-- Settles O7: the request recognised is that of level `j`, which level 4 makes an entry of and the others do not. -/
theorem waitEnds : Obligations.WaitEnds := by
  intro s j w hrun h1 h4 hp hm hhigh
  have hstep : step s = waitingStep s := step_of_waiting hrun
  have hreq : s.request = some (j, w) := request_eq_some h1 h4 hp hm hhigh
  refine ⟨fun hj hb => ?_, fun hj => ?_⟩
  · subst hj
    have heven : (0x18#16 : Word).getLsbD 0 = false := by decide
    obtain ⟨hfirst, hsecond, hthird⟩ := entered_block 4 w { s with pending := s.pending.consume 4 } heven
    exact ⟨_, (hstep.trans (waitingStep_level4 hreq)).trans (takeSystem_next h1 hb w), rfl,
      s.pending.level_consume_same 4, entered_pc _ _ _ heven, hfirst, hsecond, hthird,
      fun r h0 _ => entered_reg _ _ _ _ h0⟩
  · exact ⟨_, hstep.trans (waitingStep_lower hreq hj.ne), rfl, s.pending.level_consume_same j,
      fun k hk => s.pending.level_consume_ne hk, State.pc_advance _ _,
      sameBut_advance { s with run := .running, pending := s.pending.consume j } _, sameDevices_refl s⟩

/-! ## Bits of the status word reset and set -/

section
variable {x : Word} {fs : List Flag} (hx : ∀ f, f ∉ fs → getFlag f x = false) (s : State)
include hx

/-- The indicators in a mask of bits reset, and the next instruction. -/
theorem controlled_reset :
    controlled (s.pc + 2#16) [] fs [] s ({ s with status := s.status &&& ~~~x }.advance 2#16) := by
  refine ⟨State.pc_advance _ _, sameBut_flags_append (sameBut_status s fun f hf => ?_) (sameBut_advance _ _),
    sameDevices_refl s⟩
  have hbit : x.getLsbD f.bit = false := hx f hf
  rw [getFlag, BitVec.getLsbD_and, BitVec.getLsbD_not, hbit, decide_eq_true f.bit_lt]
  exact Bool.and_true _

/-- The indicators in a mask of bits set, and the next instruction. -/
theorem controlled_set : controlled (s.pc + 2#16) [] fs [] s ({ s with status := s.status ||| x }.advance 2#16) := by
  refine ⟨State.pc_advance _ _, sameBut_flags_append (sameBut_status s fun f hf => ?_) (sameBut_advance _ _),
    sameDevices_refl s⟩
  have hbit : x.getLsbD f.bit = false := hx f hf
  rw [getFlag, BitVec.getLsbD_or, hbit]
  exact Bool.or_false _

end

/-- The indicators of the low seven bits (R27). -/
theorem seven_le_bit {f : Flag} (h : f ∉ [Flag.eq, .gt, .ov, .cy, .f1, .f2, .f3]) : 7 ≤ f.bit := by
  revert h
  cases f <;> decide

/-- The masks are the bits from 12 on (R27, R32). -/
theorem bit_lt_twelve {f : Flag} (h : f ∉ maskFlags) : f.bit < 12 := by
  revert h
  cases f <;> decide

/-- Settles O35: F reaches the low seven bits, and each of its bits the one at its place. -/
theorem programmableIndicators : Obligations.ProgrammableIndicators := by
  intro f s
  have hF : ∀ g, g ∉ [Flag.eq, .gt, .ov, .cy, .f1, .f2, .f3] → getFlag g (f.setWidth 16 : Word) = false := by
    intro g hg
    rw [getFlag, BitVec.getLsbD_setWidth, BitVec.getLsbD_of_ge f _ (seven_le_bit hg), Bool.and_false]
  have hbit (i : Nat) (hi : i < 7) : (f.setWidth 16 : Word).getLsbD i = f.getLsbD i := by
    rw [BitVec.getLsbD_setWidth, decide_eq_true (by omega), Bool.true_and]
  refine ⟨congrArg (fun w => [w]) (statusWord_eq_or 0#1 f), congrArg (fun w => [w]) (statusWord_eq_or 1#1 f),
    ⟨_, rfl, fun i hi => ?_, controlled_reset hF s⟩, ⟨_, rfl, fun i hi => ?_, controlled_set hF s⟩⟩
  · show (s.status &&& ~~~(f.setWidth 16 : Word)).getLsbD i = _
    rw [BitVec.getLsbD_and, BitVec.getLsbD_not, hbit i hi, decide_eq_true (by omega), Bool.true_and]
  · show (s.status ||| (f.setWidth 16 : Word)).getLsbD i = _
    rw [BitVec.getLsbD_or, hbit i hi]

/-- K stands at the bits from 12 on (R275). -/
theorem getLsbD_maskBits (k : BitVec 4) {i : Nat} (hi : i < 4) :
    (k.setWidth 16 <<< 12 : Word).getLsbD (12 + i) = k.getLsbD i := by
  have h16 : 12 + i < 16 := by omega
  simp [h16]

/-- Settles O36: K reaches the four masks, and each of its bits the one of its level. -/
theorem interruptMasks : Obligations.InterruptMasks := by
  intro k s
  have hK : ∀ g, g ∉ maskFlags → getFlag g (k.setWidth 16 <<< 12 : Word) = false := by
    intro g hg
    have hlow := bit_lt_twelve hg
    simp [getFlag, hlow]
  refine ⟨congrArg (fun w => [w]) (maskWord_eq_or 0#4 k), congrArg (fun w => [w]) (maskWord_eq_or 8#4 k),
    ⟨_, rfl, fun i hi => ?_, controlled_reset hK s⟩, ⟨_, rfl, fun i hi => ?_, controlled_set hK s⟩⟩
  · show (s.status &&& ~~~(k.setWidth 16 <<< 12 : Word)).getLsbD (12 + i) = _
    rw [BitVec.getLsbD_and, BitVec.getLsbD_not, getLsbD_maskBits k hi, decide_eq_true (by omega), Bool.true_and]
  · show (s.status ||| (k.setWidth 16 <<< 12 : Word)).getLsbD (12 + i) = _
    rw [BitVec.getLsbD_or, getLsbD_maskBits k hi]

/-! ## HALT and the waits -/

/-- All levels are masked where the high four bits of the status are ones (R279). -/
theorem allMasked_iff (st : Word) : allMasked st = true ↔ st >>> 12 = 15#16 := by
  have hst := st.isLt
  rw [allMasked, beq_iff_eq, ← BitVec.toNat_inj, ← BitVec.toNat_inj, BitVec.extractLsb'_toNat, BitVec.toNat_ushiftRight,
    Nat.shiftRight_eq_div_pow, BitVec.toNat_ofNat, BitVec.toNat_ofNat]
  omega

/-- Where some level is not masked the processor waits (R279). -/
theorem enterWait_unmasked {s : State} (h : s.status >>> 12 ≠ 15#16) : enterWait s = .ok () { s with run := .waiting } :=
  if_neg (mt (allMasked_iff s.status).1 h)

/-- Where all levels are masked a wait traps (R279). -/
theorem enterWait_masked {s : State} (h : s.status >>> 12 = 15#16) : enterWait s = .unimplemented s :=
  if_pos ((allMasked_iff s.status).2 h)

/-- A wait on the masks as they then are: the WAIT state, or the trap (R278 to R282). -/
theorem maskAndWait_outcome (h3 : BitVec 4) (disable : Bool) (k : BitVec 4) (s : State) :
    (applyMask disable k s.status >>> 12 ≠ 15#16 → maskAndWait h3 disable k s =
      .next { s with status := applyMask disable k s.status, run := .waiting }) ∧
    (applyMask disable k s.status >>> 12 = 15#16 → maskAndWait h3 disable k s =
      takeUnimplemented (maskWord h3 k) { s with status := applyMask disable k s.status }) :=
  ⟨fun h => congrArg (Res.finish (maskWord h3 k))
      (enterWait_unmasked (s := { s with status := applyMask disable k s.status }) h),
    fun h => congrArg (Res.finish (maskWord h3 k))
      (enterWait_masked (s := { s with status := applyMask disable k s.status }) h)⟩

/-- Settles O37: HALT is a transfer of control, and each wait one with its own masks, those of WAIT as they are. -/
theorem haltsAndWaits : Obligations.HaltsAndWaits := by
  intro ignored k s enabled disabled outcome
  have henbw := maskAndWait_outcome 4#4 false k s
  have hdsbw := maskAndWait_outcome 12#4 true k s
  have hwait := maskAndWait_outcome 4#4 false 0#4 s
  have hwaitD := maskAndWait_outcome 12#4 true 0#4 s
  rw [maskWord_eq_or] at henbw hdsbw
  rw [applyMask_zero] at hwait hwaitD
  exact ⟨⟨_, rfl, rfl, controlled_setPc { s with run := .halted } _⟩, henbw, hdsbw, hwait, hwaitD⟩

end Sys2Proof.Machine
end

section
/-! SUPPORT. The control instructions that store or load the status, the registers and the program counter: where their
words can be accessed, and where one of them cannot (O38 to O40, O42). -/

namespace Sys2Proof.Machine

/-! ## Accesses that are answered -/

section
variable {s : State} {a : Word}

/-- The frame of a word stored in program memory (R62). -/
theorem sameBut_setWord (s : State) (a v : Word) :
    sameBut [] [] (operandBytes .word a) s { s with mem := s.mem.setWord a v } :=
  sameBut_mem s fun _ hx => byte_setOperand (size := .word) s.mem v hx

theorem wordPlace_memory (h : s.inMemory (evenAddr a) = true) : s.wordPlace a = .memory := if_pos h

/-- A word read that is answered: the word, if program memory answers, and a record of the access, if not (R69, R70). -/
theorem readWord_answered (h : s.wordPlace a = .memory ∨ s.wordPlace a = .device) :
    ∃ v t, readWord a s = .ok v t ∧ onlyDevices s t ∧
      (s.wordPlace a = .memory → v = s.mem.word a ∧ sameDevices s t) := by
  obtain h | h := h
  · exact ⟨s.mem.word a, s, by rw [readWord, h], onlyDevices_refl s, fun _ => ⟨rfl, sameDevices_refl s⟩⟩
  · exact ⟨s.deviceValue, s.afterDeviceRead a, (word_device h).1, onlyDevices_afterDeviceRead s a,
      fun hm => by rw [h] at hm; cases hm⟩

/-- A word write that is answered: the word in program memory, or a record of the access (R69, R70). -/
theorem writeWord_answered (v : Word) (h : s.wordPlace a = .memory ∨ s.wordPlace a = .device) :
    ∃ t, writeWord a v s = .ok () t ∧ t.regs = s.regs ∧ sameBut [] [] (operandBytes .word a) s t ∧
      (∀ x, evenAddr x ≠ evenAddr a → t.mem.word x = s.mem.word x) ∧
      (s.wordPlace a = .memory → t.mem.word a = v ∧ sameDevices s t) := by
  obtain h | h := h
  · exact ⟨{ s with mem := s.mem.setWord a v }, by rw [writeWord, h], rfl,
      sameBut_setWord s a v,
      fun _ hx => s.mem.word_setWord_ne hx v, fun _ => ⟨s.mem.word_setWord_same a v, rfl, rfl⟩⟩
  · have hdev := onlyDevices_afterDeviceWrite s a v
    exact ⟨s.afterDeviceWrite a v, (word_device h).2 v, rfl,
      sameBut_mono (sameBut_onlyDevices hdev) nofun nofun nofun, fun _ _ => rfl, fun hm => by rw [h] at hm; cases hm⟩

end

/-! ## Runs of registers -/

/-- Word `i` of a run from `m` on (R285, R288). -/
def runWord (m : Word) (i : Nat) : Word := m + BitVec.ofNat 16 (2 * i)

/-- The register of word `i` of a run: registers 1 to 7 (R285, R288). -/
def runRegister (i : Nat) : RegNo := BitVec.ofNat 3 (i + 1)

/-- The registers of the first `k` words of a run. -/
def runRegisters (k : Nat) : List RegNo := (List.range k).map runRegister

theorem generalRegisters_eq_runRegisters : generalRegisters = runRegisters 7 := rfl

theorem runRegisters_succ (k : Nat) : runRegisters (k + 1) = runRegisters k ++ [runRegister k] := by
  rw [runRegisters, List.range_succ, List.map_append]
  rfl

@[simp] theorem length_runRegisters (k : Nat) : (runRegisters k).length = k := by
  rw [runRegisters, List.length_map, List.length_range]

/-- The seven registers from register `k + 1` on. -/
theorem generalRegisters_split :
    ∀ k < 7, generalRegisters = runRegisters k ++ runRegister k :: generalRegisters.drop (k + 1) := by decide

/-- No register of a run is the program counter. -/
theorem runRegister_ne_zero : ∀ k < 7, runRegister k ≠ 0#3 := by decide

/-- The registers of a run differ. -/
theorem runRegister_ne : ∀ k < 7, ∀ i < k, runRegister i ≠ runRegister k := by decide

/-- The words of a run differ. -/
theorem evenAddr_runWord_ne (m : Word) {i k : Nat} (hik : i < k) (hk : k < 7) :
    evenAddr (runWord m i) ≠ evenAddr (runWord m k) := by
  intro h
  have hnat := congrArg BitVec.toNat h
  simp only [evenAddr_toNat, runWord, BitVec.toNat_add, BitVec.toNat_ofNat] at hnat
  omega

theorem runWord_succ_start (m : Word) (k : Nat) : runWord (m + 2#16) k = runWord m (k + 1) := by
  rw [runWord, runWord, BitVec.add_assoc, Nat.mul_succ, Nat.add_comm, BitVec.ofNat_add]

/-- A run of stores is one of its first registers and then one of the others (R285). -/
theorem storeRegisters_append (rs qs : List RegNo) (m : Word) (s : State) :
    storeRegisters (rs ++ qs) m s =
      (storeRegisters rs m s).bind fun _ t => storeRegisters qs (runWord m rs.length) t := by
  induction rs generalizing m s with
  | nil => rw [List.length_nil, runWord, Nat.mul_zero, BitVec.add_zero]; rfl
  | cons r rest ih =>
    rw [List.cons_append, storeRegisters, storeRegisters, Res.bind_assoc, List.length_cons, ← runWord_succ_start]
    exact congrArg _ (funext fun _ => funext fun t => ih (m + 2#16) t)

/-- A run of loads is one of its first registers and then one of the others (R288). -/
theorem loadRegisters_append (rs qs : List RegNo) (m : Word) (s : State) :
    loadRegisters (rs ++ qs) m s =
      (loadRegisters rs m s).bind fun _ t => loadRegisters qs (runWord m rs.length) t := by
  induction rs generalizing m s with
  | nil => rw [List.length_nil, runWord, Nat.mul_zero, BitVec.add_zero]; rfl
  | cons r rest ih =>
    rw [List.cons_append, loadRegisters, loadRegisters, Res.bind_assoc, List.length_cons, ← runWord_succ_start]
    exact congrArg _ (funext fun v => funext fun t => ih (m + 2#16) (t.setReg r v))

/-- `u` is `s` after the first `k` words of a run from `m` on were stored: those in program memory hold their registers
(R285). -/
def runStored (k : Nat) (m : Word) (s u : State) : Prop :=
  u.pc = s.pc ∧
    (∀ i, i < k → s.wordPlace (runWord m i) = .memory → u.mem.word (runWord m i) = s.reg (runRegister i)) ∧
    sameBut [] [] (((List.range k).map (runWord m)).flatMap (operandBytes .word)) s u ∧
    ((∀ i, i < k → s.wordPlace (runWord m i) = .memory) → sameDevices s u)

/-- `u` is `s` after the first `k` registers were loaded from a run from `m` on: those whose words are in program memory
hold them (R288). -/
def runLoaded (k : Nat) (m : Word) (s u : State) : Prop :=
  u.pc = s.pc ∧
    (∀ i, i < k → s.wordPlace (runWord m i) = .memory → u.reg (runRegister i) = s.mem.word (runWord m i)) ∧
    sameBut ((List.range k).map runRegister) [] [] s u ∧
    ((∀ i, i < k → s.wordPlace (runWord m i) = .memory) → sameDevices s u)

section
variable {k : Nat} {m : Word} {s u t : State}

theorem runStored_zero (m : Word) (s : State) : runStored 0 m s s :=
  ⟨rfl, fun _ hi => absurd hi (Nat.not_lt_zero _), sameBut_refl s, fun _ => sameDevices_refl s⟩

theorem runLoaded_zero (m : Word) (s : State) : runLoaded 0 m s s :=
  ⟨rfl, fun _ hi => absurd hi (Nat.not_lt_zero _), sameBut_refl s, fun _ => sameDevices_refl s⟩

theorem sameBut.par {rs : List RegNo} {fs : List Flag} {bs : List Word} (h : sameBut rs fs bs s t) : t.par = s.par := by
  obtain ⟨-, -, -, -, -, -, -, -, -, hpar⟩ := h
  exact hpar

/-- One more word of a run stored: it is none of those before it. -/
theorem runStored_succ (h : runStored k m s u) (hk : k < 7)
    (hplace : s.wordPlace (runWord m k) = .memory ∨ s.wordPlace (runWord m k) = .device) :
    ∃ t, writeWord (runWord m k) (u.reg (runRegister k)) u = .ok () t ∧ runStored (k + 1) m s t := by
  obtain ⟨hpc, hwords, hframe, hdev⟩ := h
  have hreg : u.reg (runRegister k) = s.reg (runRegister k) := by
    obtain ⟨hregs, -⟩ := hframe
    exact hregs _ (runRegister_ne_zero k hk) List.not_mem_nil
  have hsame : u.wordPlace (runWord m k) = s.wordPlace (runWord m k) := congrFun (wordPlace_congr hframe.par) _
  obtain ⟨t, hwrite, htregs, htframe, hother, hmem⟩ := writeWord_answered (u.reg (runRegister k)) (hsame ▸ hplace)
  rw [hsame] at hmem
  refine ⟨t, hwrite, (State.reg_congr htregs _).trans hpc, fun i hi hm => ?_, ?_, fun hall => ?_⟩
  · obtain hik | rfl := Nat.lt_succ_iff_lt_or_eq.1 hi
    · rw [hother _ (evenAddr_runWord_ne m hik hk), hwords i hik hm]
    · rw [(hmem hm).1, hreg]
  · have hbytes : ((List.range (k + 1)).map (runWord m)).flatMap (operandBytes .word) =
        ((List.range k).map (runWord m)).flatMap (operandBytes .word) ++ operandBytes .word (runWord m k) := by
      rw [List.range_succ, List.map_append, List.flatMap_append, List.map_singleton, List.flatMap_singleton]
    rw [hbytes]
    exact sameBut_mono (sameBut_append hframe htframe) nofun nofun
      fun _ hb => List.mem_append.2 (List.mem_append.1 hb).symm
  · exact sameDevices_trans (hdev fun i hi => hall i (Nat.lt_succ_of_lt hi)) (hmem (hall k (Nat.lt_succ_self k))).2

/-- One more register of a run loaded: it is none of those before it. -/
theorem runLoaded_succ (h : runLoaded k m s u) (hk : k < 7)
    (hplace : s.wordPlace (runWord m k) = .memory ∨ s.wordPlace (runWord m k) = .device) :
    ∃ v t, readWord (runWord m k) u = .ok v t ∧ runLoaded (k + 1) m s (t.setReg (runRegister k) v) := by
  obtain ⟨hpc, hwords, hframe, hdev⟩ := h
  have hsame : u.wordPlace (runWord m k) = s.wordPlace (runWord m k) := congrFun (wordPlace_congr hframe.par) _
  have hword : u.mem.word (runWord m k) = s.mem.word (runWord m k) := by
    obtain ⟨-, -, hmem, -⟩ := hframe
    rw [Memory.word, hmem _ List.not_mem_nil, hmem _ List.not_mem_nil]
    rfl
  obtain ⟨v, t, hread, ht, hmem⟩ := readWord_answered (hsame ▸ hplace)
  rw [hsame, hword] at hmem
  refine ⟨v, t, hread, ?_, fun i hi hm => ?_, ?_, fun hall => ?_⟩
  · exact (State.reg_setReg_ne t (runRegister_ne_zero k hk).symm v).trans (ht.pc.trans hpc)
  · obtain hik | rfl := Nat.lt_succ_iff_lt_or_eq.1 hi
    · rw [State.reg_setReg_ne t (runRegister_ne k hk i hik), ht.reg, hwords i hik hm]
    · rw [State.reg_setReg_same, (hmem hm).1]
  · rw [List.range_succ, List.map_append]
    exact sameBut_mono (sameBut_append (sameBut_append hframe (sameBut_onlyDevices ht)) (sameBut_setReg t _ v))
      (fun _ hr _ => List.mem_append.2 (List.mem_append.1 hr).symm) nofun nofun
  · exact sameDevices_trans (hdev fun i hi => hall i (Nat.lt_succ_of_lt hi)) (hmem (hall k (Nat.lt_succ_self k))).2

/-- The first words of a run are stored where each of them is answered (R285). -/
theorem storeRegisters_answered (hk : k ≤ 7)
    (h : ∀ i, i < k → s.wordPlace (runWord m i) = .memory ∨ s.wordPlace (runWord m i) = .device) :
    ∃ u, storeRegisters (runRegisters k) m s = .ok () u ∧ runStored k m s u := by
  induction k with
  | zero => exact ⟨s, rfl, runStored_zero m s⟩
  | succ k ih =>
    obtain ⟨u, hu, hstored⟩ := ih (Nat.le_of_succ_le hk) fun i hi => h i (Nat.lt_succ_of_lt hi)
    obtain ⟨t, ht, hnext⟩ := runStored_succ hstored hk (h k (Nat.lt_succ_self k))
    refine ⟨t, ?_, hnext⟩
    rw [runRegisters_succ, storeRegisters_append, hu, Res.bind_ok, length_runRegisters, storeRegisters, ht]
    rfl

/-- The first registers of a run are loaded where each of their words is answered (R288). -/
theorem loadRegisters_answered (hk : k ≤ 7)
    (h : ∀ i, i < k → s.wordPlace (runWord m i) = .memory ∨ s.wordPlace (runWord m i) = .device) :
    ∃ u, loadRegisters (runRegisters k) m s = .ok () u ∧ runLoaded k m s u := by
  induction k with
  | zero => exact ⟨s, rfl, runLoaded_zero m s⟩
  | succ k ih =>
    obtain ⟨u, hu, hloaded⟩ := ih (Nat.le_of_succ_le hk) fun i hi => h i (Nat.lt_succ_of_lt hi)
    obtain ⟨v, t, ht, hnext⟩ := runLoaded_succ hloaded hk (h k (Nat.lt_succ_self k))
    refine ⟨t.setReg (runRegister k) v, ?_, hnext⟩
    rw [runRegisters_succ, loadRegisters_append, hu, Res.bind_ok, length_runRegisters, loadRegisters, ht]
    rfl

end

/-! ## Words in program memory -/

section
variable {rel : Bool} {d : BitVec 8} {s : State}

/-- The seven words of a run in program memory. -/
theorem wordPlace_sevenWords {m : Word} (h : ∀ a ∈ sevenWords m, s.inMemory (evenAddr a) = true) :
    ∀ i, i < 7 → s.wordPlace (runWord m i) = .memory := fun i hi =>
  wordPlace_memory (h _ (List.mem_map.2 ⟨i, List.mem_range.2 hi, rfl⟩))

/-- REGM where all its words are answered (R285). -/
theorem exec_regm_answered
    (h : ∀ i, i < 7 → s.wordPlace (runWord (s.controlAddress rel d) i) = .memory ∨
      s.wordPlace (runWord (s.controlAddress rel d) i) = .device) :
    ∃ u, exec (.regm rel d) s = .next (u.advance 2#16) ∧ runStored 7 (s.controlAddress rel d) s u := by
  obtain ⟨u, hu, hstored⟩ := storeRegisters_answered (Nat.le_refl 7) h
  refine ⟨u, ?_, hstored⟩
  show execRegm rel d s = _
  rw [execRegm, generalRegisters_eq_runRegisters, hu]
  rfl

/-- MREG where all its words are answered (R288). -/
theorem exec_mreg_answered
    (h : ∀ i, i < 7 → s.wordPlace (runWord (s.controlAddress rel d) i) = .memory ∨
      s.wordPlace (runWord (s.controlAddress rel d) i) = .device) :
    ∃ u, exec (.mreg rel d) s = .next (u.advance 2#16) ∧ runLoaded 7 (s.controlAddress rel d) s u := by
  obtain ⟨u, hu, hloaded⟩ := loadRegisters_answered (Nat.le_refl 7) h
  refine ⟨u, ?_, hloaded⟩
  show execMreg rel d s = _
  rw [execMreg, generalRegisters_eq_runRegisters, hu]
  rfl

/-- STSM of a word in program memory (R284). -/
theorem exec_stsm_memory (h : s.inMemory (evenAddr (s.controlAddress rel d)) = true) :
    exec (.stsm rel d) s =
      .next ({ s with mem := s.mem.setWord (s.controlAddress rel d) s.status }.advance 2#16) := by
  show execStsm rel d s = _
  rw [execStsm, writeWord_memory h]
  rfl

end

/-- The advance after a part of an instruction that left the program counter. -/
theorem controlled_advance {rs : List RegNo} {fs : List Flag} {bs : List Word} {s u : State}
    (hframe : sameBut rs fs bs s u) (hpc : u.pc = s.pc) (hdev : sameDevices s u) (len : Word) :
    controlled (s.pc + len) rs fs bs s (u.advance len) :=
  ⟨by rw [State.pc_advance, hpc], sameBut_append hframe (sameBut_advance u len), hdev⟩

/-- The state that control goes on from where the status word loaded has Active 1 (R286, R287). -/
theorem loadStatus_setPc_active {w : Word} (h : w.getLsbD 11 = true) (s : State) (pc : Word) :
    ((s.loadStatus w).setPc pc).status = w ∧
      controlled pc [] [] [] { s with status := w } ((s.loadStatus w).setPc pc) := by
  rw [loadStatus_active h]
  exact ⟨rfl, controlled_setPc { s with status := w } pc⟩

/-- Settles O38: one word stored, and the whole run of seven. -/
theorem storesStatusAndRegisters : Obligations.StoresStatusAndRegisters := by
  intro rel d s m
  refine ⟨fun hm => ?_, fun hm => ?_⟩
  · exact ⟨_, exec_stsm_memory hm, Memory.word_setWord_same _ _ _,
      controlled_advance (sameBut_setWord s m s.status) rfl ⟨rfl, rfl⟩ 2#16⟩
  · have hplace := wordPlace_sevenWords hm
    obtain ⟨u, hu, hpc, hwords, hframe, hdev⟩ := exec_regm_answered fun i hi => .inl (hplace i hi)
    exact ⟨_, hu, fun i hi => hwords i hi (hplace i hi), controlled_advance hframe hpc (hdev hplace) 2#16⟩

/-- Settles O39: a status word with Active 1 is loaded as it is, and the registers are a whole run of seven. -/
theorem loadsStatusAndRegisters : Obligations.LoadsStatusAndRegisters := by
  intro rel d s m
  refine ⟨fun hm hactive => ?_, fun hm => ?_⟩
  · exact ⟨_, exec_msts_memory hm, loadStatus_setPc_active hactive s _⟩
  · have hplace := wordPlace_sevenWords hm
    obtain ⟨u, hu, hpc, hregs, hframe, hdev⟩ := exec_mreg_answered fun i hi => .inl (hplace i hi)
    refine ⟨_, hu, fun i hi => ?_, controlled_advance hframe hpc (hdev hplace) 2#16⟩
    exact (State.reg_advance u (runRegister_ne_zero i hi) 2#16).trans (hregs i hi (hplace i hi))

/-- Settles O40: a status word with Active 1 is loaded as it is, and then control is transferred. -/
theorem returns : Obligations.Returns := by
  intro rel d s m hm hm2 hactive
  exact ⟨_, exec_retn_memory hm hm2, loadStatus_setPc_active hactive s _⟩

/-! ## A word that cannot be accessed -/

section
variable {rel : Bool} {d : BitVec 8} {s : State}

/-- The five instructions begin with the access to the word at M. -/
theorem stopsAt_controlAddress {i : Instr}
    (h : i ∈ [Instr.stsm rel d, .msts rel d, .retn rel d, .regm rel d, .mreg rel d]) :
    stopsAt (s.wordPlace (s.controlAddress rel d)) s (exec i s) := by
  simp only [List.mem_cons, List.not_mem_nil, or_false] at h
  obtain rfl | rfl | rfl | rfl | rfl := h
  · exact stopsAt_writeWord s.status _
  · exact stopsAt_readWord _
  · exact stopsAt_readWord _
  · show stopsAt _ s (execRegm rel d s)
    rw [execRegm, generalRegisters, storeRegisters, Res.thenAdvance, Res.bind_assoc]
    exact stopsAt_writeWord _ _
  · show stopsAt _ s (execMreg rel d s)
    rw [execMreg, generalRegisters, loadRegisters, Res.thenAdvance, Res.bind_assoc]
    exact stopsAt_readWord _

/-- RETN reads its second word before it loads anything (R286). -/
theorem stopsAt_retn_second {v : Word} {s1 : State} (h : readWord (s.controlAddress rel d) s = .ok v s1) :
    stopsAt (s.wordPlace (s.controlAddress rel d + 2#16)) s1 (exec (.retn rel d) s) := by
  show stopsAt _ s1 (execRetn rel d s)
  rw [execRetn, returnFrom, h, Res.bind_ok, ← wordPlace_congr (readWord_onlyDevices h).par]
  exact stopsAt_readWord _

variable {k : Nat} (hk : k < 7)
  (h : ∀ i, i < k → s.wordPlace (runWord (s.controlAddress rel d) i) = .memory ∨
    s.wordPlace (runWord (s.controlAddress rel d) i) = .device)
include hk h

/-- REGM stops at word `k` once the words before it are stored (R285, D34). -/
theorem stopsAt_regm :
    ∃ u, runStored k (s.controlAddress rel d) s u ∧
      stopsAt (s.wordPlace (runWord (s.controlAddress rel d) k)) u (exec (.regm rel d) s) := by
  obtain ⟨u, hu, hstored⟩ := storeRegisters_answered hk.le h
  refine ⟨u, hstored, ?_⟩
  obtain ⟨-, -, hframe, -⟩ := hstored
  show stopsAt _ u (execRegm rel d s)
  rw [execRegm, generalRegisters_split k hk, storeRegisters_append, hu, Res.bind_ok, length_runRegisters, storeRegisters,
    Res.thenAdvance, Res.bind_assoc, ← wordPlace_congr hframe.par]
  exact stopsAt_writeWord _ _

/-- MREG stops at word `k` once the registers before it are loaded (R288, D34). -/
theorem stopsAt_mreg :
    ∃ u, runLoaded k (s.controlAddress rel d) s u ∧
      stopsAt (s.wordPlace (runWord (s.controlAddress rel d) k)) u (exec (.mreg rel d) s) := by
  obtain ⟨u, hu, hloaded⟩ := loadRegisters_answered hk.le h
  refine ⟨u, hloaded, ?_⟩
  obtain ⟨-, -, hframe, -⟩ := hloaded
  show stopsAt _ u (execMreg rel d s)
  rw [execMreg, generalRegisters_split k hk, loadRegisters_append, hu, Res.bind_ok, length_runRegisters, loadRegisters,
    Res.thenAdvance, Res.bind_assoc, ← wordPlace_congr hframe.par]
  exact stopsAt_readWord _

end

/-- Settles O42: the first word, the second of RETN, and word `k` of the runs after those before it. -/
theorem controlAborts : Obligations.ControlAborts := by
  intro rel d s m word register
  refine ⟨fun i hi => stopsAt_controlAddress hi, fun v s1 hread => ?_, fun k hk hbefore => ?_⟩
  · have hdev := readWord_onlyDevices hread
    exact ⟨stopsAt_retn_second hread, hdev.pc, sameBut_onlyDevices hdev⟩
  · obtain ⟨u, hstored, habsent, hrefused⟩ := stopsAt_regm hk hbefore
    obtain ⟨u', hloaded, habsent', hrefused'⟩ := stopsAt_mreg hk hbefore
    exact ⟨fun r hr => ⟨hrefused r hr, hrefused' r hr⟩,
      fun x hx => ⟨⟨u, habsent x hx, hstored⟩, ⟨u', habsent' x hx, hloaded⟩⟩⟩

end Sys2Proof.Machine
end

section
/-! SUPPORT. Fetch and clear on an operand in program memory, and the instructions of the key and the processor number on
the models that have them and on those that lack them (O45, O46). -/

namespace Sys2Proof.Machine

/-! ## Fetch and clear -/

/-- FCLW and FCLB are the shared operation in the two widths (R320, R321). -/
theorem exec_fetchAndClear (size : Size) (ar : RegNo) (m : MemOperand) (s : State) :
    exec (if size = .word then .fclw ar m else .fclb ar m) s = fcl size ar m s := by cases size <;> rfl

/-- The B models are those of the suffix B (R1, R314). -/
theorem seriesB_iff (model : Model) : model.seriesB = true ↔ model ∈ [Model.m1110B, .m1111B, .m1112B] := by
  cases model <;> decide

theorem stored_zero (size : Size) : stored size 0#16 = 0#16 := by cases size <;> rfl

/-- The state in which the operand at `a` is cleared and NG, ZE and OD are free (R314, R316, log 26). -/
def State.cleared (size : Size) (a : Word) (s : State) : State :=
  ({ s with mem := s.mem.setOperand size a 0#16 } : State).freeNZO 0

section
variable {size : Size} {ar : RegNo} {m : MemOperand} {s s1 : State} {a : Word}

theorem operand_cleared : (s.cleared size a).operand size a = 0#16 :=
  (operand_setOperand s size a 0#16).trans (stored_zero size)

theorem sameBut_cleared : sameBut [] [.ng, .ze, .od] (operandBytes size a) s (s.cleared size a) :=
  sameBut_append (sameBut_mem s fun _ hx => byte_setOperand s.mem _ hx) (sameBut_freeNZO _ 0)

/-- Fetch and clear completes on an operand in program memory (R314, R316). -/
theorem fcl_holds (hmodel : s.par.model ≠ .m1110) (ha : effectiveAddress .none size m s = .ok a s1)
    (hholds : s.holds size a = true) :
    fcl size ar m s = .next ((s1.cleared size a).put (operandLength m) ar
      (if s.par.model.seriesB then s.operand size a else 0#16)) := by
  have hread := effectiveAddress_none_ok ha
  rw [fcl_present hmodel, ha, Res.bind_ok, fetchAndClear_holds ((holds_congr hread.par size a).trans hholds), Res.bind_ok,
    Res.finish_ok, operand_congr hread.mem]
  rfl

end

end Sys2Proof.Machine

namespace Sys2Proof

open Machine

/-- Settles O45: the address is developed by reads alone, then the operand is cleared and the result delivered. -/
theorem fetchAndClear : Obligations.FetchAndClear := by
  intro size ar m s s1 a i
  have hexec : exec i s = fcl size ar m s := exec_fetchAndClear size ar m s
  refine ⟨fun hbasic => hexec.trans (if_pos hbasic), fun hmodel ha hholds => ?_⟩
  have hread := effectiveAddress_none_ok ha
  refine ⟨_, hexec.trans (fcl_holds hmodel ha hholds), ?_, ?_, ?_, State.put_deviceIn .., State.put_deviceLog ..⟩
  · exact (operand_congr (State.put_mem ..) size a).trans operand_cleared
  · simp only [seriesB_iff]
    exact delivered_congr (s' := s1.cleared size a) hread.pc (delivered_put ..)
  · exact sameBut_silent_append (sameBut_onlyDevices hread) (sameBut_append sameBut_cleared (sameBut_put ..))

end Sys2Proof

namespace Sys2Proof.Machine

/-! ## The key and the processor number -/

/-- An instruction whose word is undefined on its model: the word is that of the pattern, where there is one (R115, R120,
log 30). -/
theorem undefinedWord_of_keyWord {o : Outcome} {s : State} {pattern : Option KeyPattern} {field : Word}
    (h : o = undefinedWord (s.keyWord pattern field) s) :
    ∃ w, (∀ p, pattern = some p → w = p.word field) ∧ o = undefinedWord w s :=
  ⟨s.keyWord pattern field, fun p hp => by rw [hp]; rfl, h⟩

/-- A register loaded by LCPU or LKEY: its frame, and its value where XR is not 0 (R481, R482, log 13). -/
theorem loadSpecial_frame (xr : RegNo) (v : Word) (s : State) :
    sameBut [xr] [] [] s (loadSpecial xr v s) ∧ sameDevices s (loadSpecial xr v s) ∧
      (xr ≠ 0#3 → (loadSpecial xr v s).pc = s.pc + 2#16 ∧ (loadSpecial xr v s).reg xr = v) := by
  unfold loadSpecial
  split
  · obtain ⟨-, hframe, hdev⟩ := controlled_spend_setPc s 1 (s.freeAt 0)
    exact ⟨sameBut_mono hframe nofun nofun nofun, hdev, fun h0 => absurd ‹_› h0⟩
  · exact ⟨sameBut_put .., ⟨State.put_deviceIn .., State.put_deviceLog ..⟩,
      fun h0 => ⟨(State.pc_put ..).trans (if_neg h0), State.reg_put_same ..⟩⟩

section
variable {s : State}

/-- SKEY on the models that have it (R311). -/
theorem exec_skey_present (h : s.par.model ≠ .m1110) (k : BitVec 2) :
    exec (.skey k) s = .next ({ s with key := k }.advance 2#16) := if_neg h

/-- SKEY on the 1110 basic (R310). -/
theorem exec_skey_absent (h : s.par.model = .m1110) (k : BitVec 2) :
    exec (.skey k) s = undefinedWord (s.keyWord s.par.encodings.skey (k.setWidth 16)) s := if_pos h

/-- JKEY, LCPU and LKEY on the 1112 (R481, R482, R484). -/
theorem exec_key_present (h : s.par.model.scientific = true) (k : BitVec 2) (xr : RegNo) (target : Word) :
    exec (.jkey k target) s = .next ({ s with key := k }.setPc target) ∧
      exec (.lcpu xr) s = .next (loadSpecial xr (s.par.cpu.setWidth 16 <<< 5) s) ∧
      exec (.lkey xr) s = .next (loadSpecial xr (s.key.setWidth 16) s) := ⟨if_pos h, if_pos h, if_pos h⟩

/-- JKEY, LCPU and LKEY on the other models (R115). -/
theorem exec_key_absent (h : s.par.model.scientific = false) (k : BitVec 2) (xr : RegNo) (target : Word) :
    exec (.jkey k target) s = undefinedWord (s.keyWord s.par.encodings.jkey (k.setWidth 16)) s ∧
      exec (.lcpu xr) s = undefinedWord (s.keyWord s.par.encodings.lcpu (xr.setWidth 16)) s ∧
      exec (.lkey xr) s = undefinedWord (s.keyWord s.par.encodings.lkey (xr.setWidth 16)) s := by
  have hnot : ¬ s.par.model.scientific = true := Bool.eq_false_iff.1 h
  exact ⟨if_neg hnot, if_neg hnot, if_neg hnot⟩

end

/-- The processor number in bits 6 and 5 (R481). -/
theorem processorNumber_shifted (n : BitVec 2) : n.setWidth 16 <<< 5 = 0x20#16 * n.setWidth 16 := by
  rw [BitVec.shiftLeft_eq_mul_twoPow, BitVec.mul_comm]
  rfl

/-- Settles O46: the key is written before the transfer of control, and the two loads are one operation. -/
theorem keyInstructions : Obligations.KeyInstructions := by
  intro k xr target s undefinedThere
  refine ⟨fun hmodel => ?_, fun hbasic => ?_, fun hscientific => ?_, fun hother => ?_⟩
  · exact ⟨_, exec_skey_present hmodel k, controlled_setPc { s with key := k } _⟩
  · exact undefinedWord_of_keyWord (exec_skey_absent hbasic k)
  · obtain ⟨hjkey, hlcpu, hlkey⟩ := exec_key_present hscientific k xr target
    rw [processorNumber_shifted] at hlcpu
    exact ⟨⟨_, hjkey, controlled_setPc { s with key := k } target⟩, ⟨_, hlcpu, loadSpecial_frame xr _ s⟩,
      ⟨_, hlkey, loadSpecial_frame xr _ s⟩⟩
  · obtain ⟨hjkey, hlcpu, hlkey⟩ := exec_key_absent hother k xr target
    exact ⟨undefinedWord_of_keyWord hjkey, undefinedWord_of_keyWord hlcpu, undefinedWord_of_keyWord hlkey⟩

end Sys2Proof.Machine
end

section
/-! SUPPORT. The decimal and character instructions: each comes to its shared part once the scratch words are stored;
what the shared parts leave where the fields lie in program memory, and where they stop if a byte does not (O54 to O59). -/

namespace Sys2Proof.Machine

/-! ## The scratch words -/

/-- A word stored leaves the registers and the parameters, wherever it goes. -/
theorem writeWord_regs_par {a v : Word} {s t : State} (h : writeWord a v s = .ok () t) :
    t.regs = s.regs ∧ t.par = s.par := by
  obtain ⟨-, rfl⟩ | ⟨-, rfl⟩ := writeWord_ok h <;> exact ⟨rfl, rfl⟩

section
variable {s s1 : State} (hsaved : saveScratch s = .ok () s1)
include hsaved

theorem saveScratch_regs_par : s1.regs = s.regs ∧ s1.par = s.par := by
  obtain ⟨_, u, hu, hrest⟩ := Res.bind_eq_ok.1 hsaved
  obtain ⟨_, v, hv, hw⟩ := Res.bind_eq_ok.1 hrest
  obtain ⟨hregs, hpar⟩ := writeWord_regs_par hu
  obtain ⟨hregs', hpar'⟩ := writeWord_regs_par hv
  obtain ⟨hregs'', hpar''⟩ := writeWord_regs_par hw
  exact ⟨hregs''.trans (hregs'.trans hregs), hpar''.trans (hpar'.trans hpar)⟩

theorem saveScratch_pc : s1.pc = s.pc := State.reg_congr (saveScratch_regs_par hsaved).1 _

theorem saveScratch_extended (l : BitVec 4) (x : RegNo) : s1.extended l x = s.extended l x := by
  rw [State.extended, State.extended, State.reg_congr (saveScratch_regs_par hsaved).1]

theorem saveScratch_field (r : RegNo) (l : BitVec 4) (x : RegNo) : s1.field r l x = s.field r l x := by
  rw [State.field, State.field, saveScratch_extended hsaved, State.reg_congr (saveScratch_regs_par hsaved).1]

theorem saveScratch_holdsField (f : Field) : s1.holdsField f = s.holdsField f :=
  holdsField_congr (saveScratch_regs_par hsaved).2 f

theorem saveScratch_inMemory : s1.inMemory = s.inMemory := inMemory_congr (saveScratch_regs_par hsaved).2

end

/-- A class C instruction whose designators are allowed, on the 1111: what follows once the scratch words are stored (R330
to R332). -/
theorem decimal_saved {iw : Word} {ok : Bool} {s s1 : State} (hmodel : s.par.model.decimal = true) (hok : ok = true)
    (hsaved : saveScratch s = .ok () s1) (f : State → Res Unit) : decimal iw ok s f = Res.finish iw (f s1) := by
  rw [decimal, hmodel, hok, if_pos rfl, if_pos rfl, hsaved, Res.bind_ok]

/-- The first byte of the level-5 block has an even address (R506). -/
theorem unimplementedBlock_even (cpu : BitVec 2) : unimplementedBlock cpu % 2 = 0 := by
  rw [unimplementedBlock]; omega

/-- The address of the level-5 block as a word (R506). -/
theorem unimplementedBlock_word (cpu : BitVec 2) :
    BitVec.ofNat 16 (unimplementedBlock cpu) = 0x20#16 + 0x10#16 * cpu.setWidth 16 := by
  revert cpu; decide

/-- Three words stored one after another from an even address on. -/
theorem word_setWords_three (m : Memory) (u v w : Word) {b : Word} (h : b.getLsbD 0 = false) :
    (m.setWords [u, v, w] b).word b = u ∧ (m.setWords [u, v, w] b).word (b + 2#16) = v ∧
      (m.setWords [u, v, w] b).word (b + 4#16) = w := by
  have h2 := even_add_two h
  have h4 := even_add_two h2
  have e4 : b + 4#16 = b + 2#16 + 2#16 := by rw [BitVec.add_assoc]; rfl
  simp only [Memory.setWords, e4]
  refine ⟨?_, ?_, Memory.word_setWord_same ..⟩
  · rw [Memory.word_setWord_even h4 h (by bv_omega), Memory.word_setWord_even h2 h (by bv_omega),
      Memory.word_setWord_same]
  · rw [Memory.word_setWord_even h4 h2 (by bv_omega), Memory.word_setWord_same]

/-- The three words at the level-5 block are the six scratch bytes (R332). -/
theorem scratchBytes_eq (s : State) :
    scratchBytes s =
      (wordAddresses 3 (BitVec.ofNat 16 (unimplementedBlock s.par.cpu))).flatMap (operandBytes .word) := by
  have hbytes := entry_bytes (unimplementedBlock_even s.par.cpu)
  simp only [List.range, List.range.loop, List.map_cons, List.map_nil, BitVec.ofNat_add, BitVec.add_zero] at hbytes
  simp only [scratchBytes, wordAddresses, List.flatMap_cons, List.flatMap_nil, BitVec.add_assoc, List.append_nil,
    ← List.append_assoc]
  exact hbytes.symm

/-- Registers 5, 6 and 7 in the first three words of the level-5 block, and nothing else changed (R332). -/
theorem saveScratch_spec {s : State} (h : 0x28 + 0x10 * s.par.cpu.toNat ≤ s.par.memTop.toNat) :
    let b := BitVec.ofNat 16 (unimplementedBlock s.par.cpu)
    ∃ s1, saveScratch s = .ok () s1 ∧ s1.mem.word b = s.reg 5#3 ∧ s1.mem.word (b + 2#16) = s.reg 6#3 ∧
      s1.mem.word (b + 4#16) = s.reg 7#3 ∧ controlled s.pc [] [] (scratchBytes s) s s1 := by
  intro b
  have heven : b.getLsbD 0 = false := by
    rw [show b = evenAddr b from (evenAddr_ofNat (unimplementedBlock_even s.par.cpu)).symm]
    exact evenAddr_lsb b
  obtain ⟨h5, h6, h7⟩ := word_setWords_three s.mem (s.reg 5#3) (s.reg 6#3) (s.reg 7#3) heven
  refine ⟨_, saveScratch_memory h, h5, h6, h7, rfl, sameBut_mem s fun a ha => ?_, rfl, rfl⟩
  rw [scratchBytes_eq] at ha
  exact Memory.byte_setWords s.mem ha

/-! ## The fields -/

/-- A byte of a field as one of its list (R338). -/
theorem bytes_getElem? (f : Field) (m : Memory) {i : Nat} (h : i < f.len) :
    (f.bytes m)[i]? = some (m.byte (f.fromRight i)) := by
  simp [Field.bytes, h]

/-- The sign and the digits of the bytes that a sign and digits make (R334). -/
theorem packNibbles_sign_digits {n : Nat} {ds : List (BitVec 4)} (h : ds.length + 1 = 2 * n) (sign : BitVec 4) :
    fieldSign (packNibbles (sign :: ds)) = sign ∧ fieldDigits (packNibbles (sign :: ds)) = ds := by
  rw [fieldSign, fieldDigits, nibbles_packNibbles (n := n) (by rwa [List.length_cons])]
  exact ⟨rfl, rfl⟩

theorem length_fieldDigits (f : Field) (m : Memory) : (fieldDigits (f.bytes m)).length = 2 * f.len - 1 := by
  rw [fieldDigits, List.length_tail, length_nibbles, length_bytes]

/-- A valid sign is C or D (R334). -/
theorem fieldSign_of_valid {bs : List Byte} (h : fieldValid bs = true) : fieldSign bs = 12#4 ∨ fieldSign bs = 13#4 := by
  simp only [fieldValid, Bool.and_eq_true, Bool.or_eq_true, beq_iff_eq] at h
  exact h.2

/-! ## Frames -/

theorem controlled_refl (s : State) (bytes : List Word) : controlled s.pc [] [] bytes s s :=
  ⟨rfl, sameBut_mono (sameBut_refl s) nofun nofun nofun, sameDevices_refl s⟩

theorem controlled_spend (s : State) (n : Nat) : controlled s.pc [] [] [] s (s.spend n) :=
  ⟨rfl, sameBut_spend s n, rfl, rfl⟩

/-- A frame may be weakened to longer lists. -/
theorem controlled_mono {pc : Word} {bytes bytes' : List Word} {fs : List Flag} {s u : State}
    (h : controlled pc [] [] bytes s u) (hb : ∀ b ∈ bytes, b ∈ bytes') : controlled pc [] fs bytes' s u := by
  obtain ⟨hpc, hframe, hdev⟩ := h
  exact ⟨hpc, sameBut_mono hframe nofun nofun hb, hdev⟩

/-- Parts of an instruction that leave the program counter, one after another. -/
theorem controlled_trans {bytes : List Word} {s t u : State} (h : controlled s.pc [] [] bytes s t)
    (k : controlled t.pc [] [] bytes t u) : controlled s.pc [] [] bytes s u := by
  obtain ⟨hpc, hframe, hdev⟩ := h
  obtain ⟨hpc', hframe', hdev'⟩ := k
  exact ⟨hpc'.trans hpc, sameBut_trans hframe hframe', sameDevices_trans hdev hdev'⟩

/-! ## Results in a field -/

section
variable (described : Bool) (f : Field) (s : State)

/-- Free bytes in a field change nothing beside it. -/
theorem controlled_scramble : controlled s.pc [] [] f.addresses s (scramble f s) :=
  ⟨rfl, sameBut_mono (scramble_frame f s) nofun nofun fun _ hb => (List.mem_filter.1 hb).1, rfl, rfl⟩

/-- A result in a field, described or free, changes nothing beside it. -/
theorem controlled_storeResult {bs : List Byte} (h : bs.length = f.len) :
    controlled s.pc [] [] f.addresses s (storeResult described f bs s) := by
  cases described with
  | true => exact ⟨rfl, store_frame s h.le, rfl, rfl⟩
  | false => exact controlled_scramble f s

end

/-- The end of a class C instruction whose parts changed only these bytes, EQ and GT: the memory stays as it is, and EQ
and GT too after a comparison (R333). -/
theorem decimalEnd_done {bytes : List Word} {s u : State} (h : controlled s.pc [] decimalFlags bytes s u)
    (compares : Bool) :
    ∃ t, decimalEnd compares u = .ok () t ∧ decimalDone bytes s t ∧ t.mem = u.mem ∧
      (compares = true → t.flag .eq = u.flag .eq ∧ t.flag .gt = u.flag .gt) := by
  obtain ⟨t, ht, ⟨hpc, hframe, hdev⟩, hflags, hmem⟩ := decimalEnd_ok compares u
  obtain ⟨hpc', hframe', hdev'⟩ := h
  refine ⟨t, ht, ⟨by rw [hpc, hpc'], ?_, sameDevices_trans hdev' hdev⟩, hmem,
    fun hc => ⟨hflags hc _ (.inl rfl), hflags hc _ (.inr rfl)⟩⟩
  exact sameBut_trans hframe' (sameBut_mono hframe nofun (fun _ => id) nofun)

/-- The same of an instruction whose parts changed only these bytes. -/
theorem decimalEnd_stored {bytes : List Word} {s u : State} (h : controlled s.pc [] [] bytes s u) :
    ∃ t, decimalEnd false u = .ok () t ∧ decimalDone bytes s t ∧ t.mem = u.mem := by
  obtain ⟨t, ht, hdone, hmem, -⟩ := decimalEnd_done (controlled_mono h fun _ => id) false
  exact ⟨t, ht, hdone, hmem⟩

/-! ## A byte that is not in program memory -/

/-- The part `r` of an instruction begun in `s` raises Abort at a byte of one of the fields that is not in program
memory, nothing but the bytes in the list having changed (R337(b), R515). -/
def Res.abortsAtField (fs : List Field) (bytes : List Word) (s : State) (r : Res Unit) : Prop :=
  ∃ x u, r = .abort x u ∧ (∃ f ∈ fs, x ∈ f.addresses) ∧ s.inMemory x = false ∧ controlled s.pc [] [] bytes s u

/-- The Abort of a class C instruction, where some byte is not in program memory (R337(b), log 25). -/
theorem decimalAbort_abortsAtField {fs : List Field} {s : State} (h : (s.badBytes fs).isEmpty = false)
    (dst : Option Field) :
    (decimalAbort (s.badBytes fs) dst s).abortsAtField fs (dst.elim [] Field.addresses) s := by
  obtain ⟨hfield, hout⟩ := mem_badBytes.1 (chooseBad_mem (s := s) (List.isEmpty_eq_false_iff.1 h))
  cases dst with
  | none => exact ⟨_, _, rfl, hfield, hout, controlled_spend s 1⟩
  | some f =>
    exact ⟨_, _, rfl, hfield, hout,
      controlled_trans (controlled_mono (controlled_spend s 1) nofun) (controlled_scramble f (s.spend 1))⟩

theorem badBytes_pair_isEmpty {s : State} {src dst : Field} :
    (s.badBytes [src, dst]).isEmpty = (s.holdsField src && s.holdsField dst) := by
  rw [badBytes_isEmpty, List.all_cons, List.all_cons, List.all_nil, Bool.and_true]

/-- Two fields in program memory. -/
theorem badBytes_pair_isEmpty_true {s : State} {src dst : Field} (hsrc : s.holdsField src = true)
    (hdst : s.holdsField dst = true) : (s.badBytes [src, dst]).isEmpty = true := by
  rw [badBytes_pair_isEmpty, hsrc, hdst]; rfl

theorem badBytes_single_isEmpty {s : State} {f : Field} : (s.badBytes [f]).isEmpty = s.holdsField f := by
  rw [badBytes_isEmpty, List.all_cons, List.all_nil, Bool.and_true]

/-- One of two fields has a byte that is not in program memory. -/
theorem badBytes_pair_isEmpty_false {s : State} {src dst : Field}
    (h : s.holdsField src = false ∨ s.holdsField dst = false) : (s.badBytes [src, dst]).isEmpty = false := by
  rw [badBytes_pair_isEmpty, Bool.and_eq_false_iff]
  exact h

/-! ## Arithmetic -/

section
variable {described : List Byte → List Byte → Bool} {result : List Byte → List Byte → List Byte} {src dst : Field}
  {s : State}

/-- ZADD, ADDD and SUBD complete on fields in program memory; the destination holds the result where there is one (R337
to R340). -/
theorem decimalResult_holds (hsrc : s.holdsField src = true) (hdst : s.holdsField dst = true)
    (hlength : (result (src.bytes s.mem) (dst.bytes s.mem)).length = dst.len) :
    ∃ t, decimalResult described result src dst s = .ok () t ∧ decimalDone dst.addresses s t ∧
      (described (src.bytes s.mem) (dst.bytes s.mem) = true → src.overlap dst = false →
        dst.bytes t.mem = result (src.bytes s.mem) (dst.bytes s.mem)) := by
  obtain ⟨t, ht, hdone, hmem⟩ := decimalEnd_stored
    (controlled_storeResult (described (src.bytes s.mem) (dst.bytes s.mem) && !src.overlap dst) dst s hlength)
  refine ⟨t, (if_pos (badBytes_pair_isEmpty_true hsrc hdst)).trans ht, hdone, fun hdescribed hoverlap => ?_⟩
  rw [hmem, hdescribed, hoverlap]
  exact bytes_store (holdsField_len hdst) hlength s.mem

/-- ZADD, ADDD and SUBD with a byte that is not in program memory (R337(b)). -/
theorem decimalResult_abortsAtField (h : s.holdsField src = false ∨ s.holdsField dst = false) :
    (decimalResult described result src dst s).abortsAtField [src, dst] dst.addresses s := by
  have hempty := badBytes_pair_isEmpty_false h
  rw [decimalResult, hempty, if_neg Bool.false_ne_true]
  exact decimalAbort_abortsAtField hempty (some dst)

end

/-- What ADDD and SUBD leave of two numbers: the magnitude reduced to the destination, the sign by algebra (R339,
R340). -/
theorem arithmeticBytes_spec (subtract : Bool) {n : Nat} (hn : 0 < n) (a : List Byte) {b : List Byte}
    (hb : fieldValid b = true) :
    let v := if subtract then fieldValue b - fieldValue a else fieldValue b + fieldValue a
    let r := arithmeticBytes subtract n a b
    fieldValid r = true ∧ magnitude (fieldDigits r) = v.natAbs % 10 ^ (2 * n - 1) ∧
      fieldSign r = if 0 < v then 12#4 else if v < 0 then 13#4 else fieldSign b := by
  intro v r
  obtain ⟨hsign, hmagnitude, hvalid⟩ :=
    decimalField_spec hn v.natAbs (if 0 < v then 12#4 else if v < 0 then 13#4 else fieldSign b)
  refine ⟨hvalid ?_, hmagnitude, hsign⟩
  split
  · exact .inl rfl
  · split
    · exact .inr rfl
    · exact fieldSign_of_valid hb

/-- A subtraction of magnitudes within the destination, or an addition (R339). -/
theorem tooLong_eq_false {subtract : Bool} {n : Nat} {a b : List Byte}
    (h : ((fieldSign a = fieldSign b) ↔ subtract = true) → magnitude (fieldDigits a) < 10 ^ (2 * n - 1)) :
    tooLong subtract n a b = false := by
  rw [tooLong, Bool.and_eq_false_imp, decide_eq_false_iff_not, not_le, beq_iff_eq, Bool.eq_iff_iff, beq_iff_eq]
  exact h

/-- Byte `i` from the right of what ZADD leaves (R338). -/
theorem zeroAddBytes_getElem? (src : Field) (m : Memory) {n i : Nat} (h : i < n) :
    (zeroAddBytes n (src.bytes m))[i]? = some (if i < src.len then m.byte (src.fromRight i) else 0#8) := by
  rw [zeroAddBytes, List.getElem?_map, List.getElem?_range h, Option.map_some, List.getD_eq_getElem?_getD]
  split
  · rw [bytes_getElem? src m ‹_›]; rfl
  · rw [List.getElem?_eq_none (by rw [length_bytes]; omega)]; rfl

/-! ## Comparisons -/

/-- EQ and GT are written by a class C instruction (R333). -/
theorem controlled_compareStatus {bytes : List Word} {s u : State} (h : controlled s.pc [] [] bytes s u)
    (gt eq : Bool) :
    controlled s.pc [] decimalFlags bytes s { u with status := compareStatus gt eq u.status } := by
  obtain ⟨hpc, hframe, hdev⟩ := h
  refine ⟨hpc, sameBut_trans (sameBut_mono hframe nofun nofun fun _ => id)
    (sameBut_mono (sameBut_status u fun f hf => ?_) nofun (fun _ => id) nofun), hdev⟩
  simp only [decimalFlags, List.mem_cons, not_or] at hf
  obtain ⟨heq, hgt, -⟩ := hf
  rw [getFlag_compareStatus, if_neg heq, if_neg hgt]

/-- The shared part of CMPD and COMP, with the result of the one or the other (R341, R346). -/
def comparison (described gt eq : Bool) (src dst : Field) (s : State) : Res Unit :=
  if (s.badBytes [src, dst]).isEmpty then compareFields described gt eq s
  else decimalAbort (s.badBytes [src, dst]) .none s

section
variable {described gt eq : Bool} {src dst : Field} {s : State}

/-- A comparison completes on fields in program memory, writing EQ and GT where there is a result (R333, R341, R346). -/
theorem comparison_holds (hsrc : s.holdsField src = true) (hdst : s.holdsField dst = true) :
    ∃ t, comparison described gt eq src dst s = .ok () t ∧ decimalDone [] s t ∧
      (described = true → t.flag .eq = eq ∧ t.flag .gt = gt) := by
  rw [comparison, if_pos (badBytes_pair_isEmpty_true hsrc hdst)]
  cases described with
  | true =>
    obtain ⟨t, ht, hdone, -, hflags⟩ :=
      decimalEnd_done (controlled_compareStatus (controlled_refl s []) gt eq) true
    obtain ⟨heq, hgt⟩ := hflags rfl
    exact ⟨t, ht, hdone, fun _ => ⟨heq.trans (getFlag_compareStatus ..), hgt.trans (getFlag_compareStatus ..)⟩⟩
  | false =>
    obtain ⟨t, ht, hdone, -⟩ :=
      decimalEnd_done (controlled_compareStatus (controlled_spend s 2) (s.freeBit 0) (s.freeBit 1)) true
    exact ⟨t, ht, hdone, nofun⟩

/-- A comparison with a byte that is not in program memory (R337(b)). -/
theorem comparison_abortsAtField (h : s.holdsField src = false ∨ s.holdsField dst = false) :
    (comparison described gt eq src dst s).abortsAtField [src, dst] [] s := by
  have hempty := badBytes_pair_isEmpty_false h
  rw [comparison, hempty, if_neg Bool.false_ne_true]
  exact decimalAbort_abortsAtField hempty .none

end

/-- The first list is greater at the first place where the two differ (R346). -/
theorem firstGreater_map_range (n : Nat) (p q : Nat → Byte) :
    firstGreater ((List.range n).map p) ((List.range n).map q) = true ↔
      ∃ i, i < n ∧ (q i).toNat < (p i).toNat ∧ ∀ j, j < i → p j = q j := by
  induction n generalizing p q with
  | zero => simp [firstGreater]
  | succ n ih =>
    have htail (f : Nat → Byte) : (List.range (n + 1)).map f = f 0 :: (List.range n).map fun i => f (i + 1) := by
      rw [List.range_succ_eq_map, List.map_cons, List.map_map]; rfl
    rw [htail p, htail q, firstGreater]
    by_cases h0 : p 0 = q 0
    · rw [if_pos h0, ih]
      constructor
      · rintro ⟨i, hi, hlt, hbefore⟩
        refine ⟨i + 1, by omega, hlt, fun j hj => ?_⟩
        cases j with
        | zero => exact h0
        | succ j => exact hbefore j (by omega)
      · rintro ⟨i, hi, hlt, hbefore⟩
        cases i with
        | zero => rw [h0] at hlt; exact absurd hlt (lt_irrefl _)
        | succ i => exact ⟨i, by omega, hlt, fun j hj => hbefore (j + 1) (by omega)⟩
    · rw [if_neg h0, decide_eq_true_eq]
      constructor
      · exact fun hlt => ⟨0, by omega, hlt, nofun⟩
      · rintro ⟨i, -, hlt, hbefore⟩
        cases i with
        | zero => exact hlt
        | succ i => exact absurd (hbefore 0 (by omega)) h0

/-- Two lists of the same places are equal where they agree at each (R346). -/
theorem map_range_beq (n : Nat) (p q : Nat → Byte) :
    ((List.range n).map p == (List.range n).map q) = true ↔ ∀ i, i < n → p i = q i := by
  rw [beq_iff_eq, List.map_inj_left]
  simp only [List.mem_range]

/-! ## Moves -/

/-- A byte stored at one of the addresses in the list (R62). -/
theorem controlled_setByte {bytes : List Word} {x : Word} (s : State) (hx : x ∈ bytes) (v : Byte) :
    controlled s.pc [] [] bytes s { s with mem := s.mem.setByte x v } :=
  ⟨rfl, sameBut_mem s fun _ hy => Memory.byte_setByte_ne s.mem (ne_of_mem_of_not_mem hx hy).symm v, rfl, rfl⟩

/-- Bytes moved one at a time: all of them, or those before the first address that is not in program memory; nothing but
their destinations changes (R343, R345, R515). -/
theorem moveBytes_controlled {bytes : List Word} {ps : List (Word × Word)} (hps : ∀ q ∈ ps, q.2 ∈ bytes) {s t : State}
    (h : controlled s.pc [] [] bytes s t) :
    (∃ u, moveBytes ps t = .ok () u ∧ controlled s.pc [] [] bytes s u) ∨
      ∃ x u, moveBytes ps t = .abort x u ∧ (∃ q ∈ ps, x = q.1 ∨ x = q.2) ∧ s.inMemory x = false ∧
        controlled s.pc [] [] bytes s u := by
  induction ps generalizing t with
  | nil => exact .inl ⟨t, rfl, h⟩
  | cons q rest ih =>
    obtain ⟨a, b⟩ := q
    have ⟨_, hframe, _⟩ := h
    rw [moveBytes, inMemory_congr (sameBut.par hframe)]
    by_cases ha : s.inMemory a = true
    · by_cases hb : s.inMemory b = true
      · rw [if_pos ha, if_pos hb]
        have hstored := controlled_setByte t (hps (a, b) List.mem_cons_self) (t.mem.byte a)
        obtain hok | ⟨x, u, hu, ⟨q, hq, hx⟩, hrest⟩ :=
          ih (fun q hq => hps q (List.mem_cons_of_mem _ hq)) (controlled_trans h hstored)
        · exact .inl hok
        · exact .inr ⟨x, u, hu, ⟨q, List.mem_cons_of_mem _ hq, hx⟩, hrest⟩
      · rw [if_pos ha, if_neg hb]
        exact .inr ⟨b, t, rfl, ⟨(a, b), List.mem_cons_self, .inr rfl⟩, Bool.eq_false_iff.2 hb, h⟩
    · rw [if_neg ha]
      exact .inr ⟨a, t, rfl, ⟨(a, b), List.mem_cons_self, .inl rfl⟩, Bool.eq_false_iff.2 ha, h⟩

section
variable {ps : List (Word × Word)} {src dst : Field} {s : State}
  (hps : ∀ q ∈ ps, q.1 ∈ src.addresses ∧ q.2 ∈ dst.addresses)
include hps

/-- MOVR and MOVL on fields in program memory (R343, R345). -/
theorem moveField_holds (hsrc : s.holdsField src = true) (hdst : s.holdsField dst = true) :
    ∃ t, moveField ps src dst s = .ok () t ∧ decimalDone dst.addresses s t ∧
      t.mem = ps.foldl (fun mem q => mem.setByte q.2 (mem.byte q.1)) s.mem := by
  have hmoved := moveBytes_memory (s := s) (ps := ps) fun q hq =>
    ⟨List.all_eq_true.1 hsrc _ (hps q hq).1, List.all_eq_true.1 hdst _ (hps q hq).2⟩
  obtain ⟨u, hu, hcontrolled⟩ | ⟨x, u, hu, -⟩ :=
    moveBytes_controlled (fun q hq => (hps q hq).2) (controlled_refl s dst.addresses)
  · have hstate := (Res.ok.inj (hmoved.symm.trans hu)).2
    have hpar : u.par = s.par := by rw [← hstate]
    have hempty : (u.badBytes [src, dst]).isEmpty = true :=
      badBytes_pair_isEmpty_true ((holdsField_congr hpar src).trans hsrc) ((holdsField_congr hpar dst).trans hdst)
    obtain ⟨t, ht, hdone, hmem⟩ := decimalEnd_stored hcontrolled
    exact ⟨t, (Res.bind_of_ok hu _).trans ((if_pos hempty).trans ht), hdone, by rw [hmem, ← hstate]⟩
  · cases hmoved.symm.trans hu

/-- MOVR and MOVL with a byte that is not in program memory, one that would be moved or another (R337(b), R515,
log 25). -/
theorem moveField_abortsAtField (h : s.holdsField src = false ∨ s.holdsField dst = false) :
    (moveField ps src dst s).abortsAtField [src, dst] dst.addresses s := by
  obtain ⟨u, hu, hcontrolled⟩ | ⟨x, u, hu, ⟨q, hq, hx⟩, hout, hcontrolled⟩ :=
    moveBytes_controlled (fun q hq => (hps q hq).2) (controlled_refl s dst.addresses)
  · have ⟨_, hframe, _⟩ := hcontrolled
    have hpar := sameBut.par hframe
    have hempty := badBytes_pair_isEmpty_false (s := u) (src := src) (dst := dst)
      (by rwa [holdsField_congr hpar, holdsField_congr hpar])
    obtain ⟨x, v, hv, hfield, hout, hcontrolled'⟩ := decimalAbort_abortsAtField hempty .none
    exact ⟨x, v, (Res.bind_of_ok hu _).trans ((if_neg (Bool.eq_false_iff.1 hempty)).trans hv), hfield,
      by rwa [inMemory_congr hpar] at hout, controlled_trans hcontrolled (controlled_mono hcontrolled' nofun)⟩
  · refine ⟨x, u, by rw [moveField, hu, Res.bind_abort], ?_, hout, hcontrolled⟩
    obtain rfl | rfl := hx
    · exact ⟨src, by simp, (hps q hq).1⟩
    · exact ⟨dst, by simp, (hps q hq).2⟩

end

/-! ## Shifts -/

/-- The digits moved and the sign fit the field they come from. -/
theorem length_shifted {move : Nat → List (BitVec 4) → List (BitVec 4)} (hmove : ∀ n ds, (move n ds).length = ds.length)
    {f : Field} (hf : 0 < f.len) (m : Memory) (cnt : Nat) :
    (move cnt (fieldDigits (f.bytes m))).length + 1 = 2 * f.len := by
  rw [hmove, length_fieldDigits]
  omega

section
variable {move : Nat → List (BitVec 4) → List (BitVec 4)} {cnt : Nat} {f : Field} {s : State}

/-- A count of zero causes no operation (R342, R344). -/
theorem shiftField_zero (hcnt : cnt = 0) : ∃ t, shiftField move cnt f s = .ok () t ∧ decimalDone [] s t := by
  obtain ⟨t, ht, hdone, -⟩ := decimalEnd_ok false s
  exact ⟨t, (if_pos hcnt).trans ht, hdone⟩

/-- SFTR and SFTL of a field in program memory by more than zero (R342, R344). -/
theorem shiftField_holds (hmove : ∀ n ds, (move n ds).length = ds.length) (hlen : 0 < f.len) (hcnt : cnt ≠ 0)
    (hf : s.holdsField f = true) :
    ∃ t, shiftField move cnt f s = .ok () t ∧ decimalDone f.addresses s t ∧
      (fieldValid (f.bytes s.mem) = true → fieldSign (f.bytes t.mem) = fieldSign (f.bytes s.mem) ∧
        fieldDigits (f.bytes t.mem) = move cnt (fieldDigits (f.bytes s.mem))) := by
  have hlength := length_shifted hmove hlen s.mem cnt
  have hbytes : (packNibbles (fieldSign (f.bytes s.mem) :: move cnt (fieldDigits (f.bytes s.mem)))).length = f.len :=
    length_packNibbles (by rwa [List.length_cons])
  obtain ⟨t, ht, hdone, hmem⟩ := decimalEnd_stored (controlled_storeResult (fieldValid (f.bytes s.mem)) f s hbytes)
  refine ⟨t, (if_neg hcnt).trans ((if_pos (badBytes_single_isEmpty.trans hf)).trans ht), hdone, fun hvalid => ?_⟩
  rw [hmem, hvalid, storeResult, if_pos rfl, bytes_store (holdsField_len hf) hbytes]
  exact packNibbles_sign_digits hlength _

/-- SFTR and SFTL of a field in program memory, by any count. -/
theorem shiftField_done (hmove : ∀ n ds, (move n ds).length = ds.length) (hlen : 0 < f.len) (cnt : Nat)
    (hf : s.holdsField f = true) : ∃ t, shiftField move cnt f s = .ok () t ∧ decimalDone f.addresses s t := by
  by_cases hcnt : cnt = 0
  · obtain ⟨t, ht, hpc, hframe, hdev⟩ := shiftField_zero (move := move) (f := f) (s := s) hcnt
    exact ⟨t, ht, hpc, sameBut_mono hframe nofun (fun _ => id) nofun, hdev⟩
  · obtain ⟨t, ht, hdone, -⟩ := shiftField_holds hmove hlen hcnt hf
    exact ⟨t, ht, hdone⟩

/-- SFTR and SFTL with a byte that is not in program memory (R337(b)). -/
theorem shiftField_abortsAtField (hcnt : cnt ≠ 0) (h : s.holdsField f = false) :
    (shiftField move cnt f s).abortsAtField [f] f.addresses s := by
  have hempty : (s.badBytes [f]).isEmpty = false := badBytes_single_isEmpty.trans h
  have hstop : shiftField move cnt f s = decimalAbort (s.badBytes [f]) (some f) s :=
    (if_neg hcnt).trans (if_neg (Bool.eq_false_iff.1 hempty))
  rw [hstop]
  exact decimalAbort_abortsAtField hempty (some f)

end

/-- Digit `k` after a shift to the right (R342). -/
theorem shiftDigitsRight_getElem? (cnt : Nat) {ds : List (BitVec 4)} {k : Nat} (h : k < ds.length) :
    (shiftDigitsRight cnt ds)[k]? = some (ds.getD (k + cnt) 0#4) := by
  rw [shiftDigitsRight, List.getElem?_append, List.length_drop, List.getD_eq_getElem?_getD]
  split
  · rw [List.getElem?_drop, Nat.add_comm, List.getElem?_eq_getElem (by omega)]; rfl
  · rw [List.getElem?_replicate, if_pos (by omega), List.getElem?_eq_none (by omega)]; rfl

/-- Digit `k` after a shift to the left (R344). -/
theorem shiftDigitsLeft_getElem? (cnt : Nat) {ds : List (BitVec 4)} {k : Nat} (h : k < ds.length) :
    (shiftDigitsLeft cnt ds)[k]? = some (if cnt ≤ k then ds.getD (k - cnt) 0#4 else 0#4) := by
  rw [shiftDigitsLeft, List.getElem?_take_of_lt h, List.getElem?_append, List.length_replicate,
    List.getD_eq_getElem?_getD]
  split
  · rw [List.getElem?_replicate, if_pos (by omega), if_neg (by omega)]
  · rw [if_pos (by omega), Nat.min_eq_left (by omega), List.getElem?_eq_getElem (by omega)]; rfl

/-! ## The nine instructions -/

theorem fieldRegisterOk_ne {r : RegNo} (h : r ≠ 0#3) : fieldRegisterOk r = true := bne_iff_ne.2 h

/-- Byte `i` of two fields, for each `i` of the shorter length, in the order of a move (R343, R345). -/
def movePairs (place : Field → Nat → Word) (src dst : Field) : List (Word × Word) :=
  (List.range (min src.len dst.len)).map fun i => (place src i, place dst i)

/-- A place of a byte of a field is in it. -/
theorem movePairs_mem {place : Field → Nat → Word} (hplace : ∀ (f : Field) i, i < f.len → place f i ∈ f.addresses)
    {src dst : Field} : ∀ q ∈ movePairs place src dst, q.1 ∈ src.addresses ∧ q.2 ∈ dst.addresses := by
  intro q hq
  obtain ⟨i, hi, rfl⟩ := List.mem_map.1 hq
  rw [List.mem_range, Nat.lt_min] at hi
  exact ⟨hplace src i hi.1, hplace dst i hi.2⟩

/-- MOVR's bytes are of the fields (R343). -/
theorem movePairs_fromRight_mem {src dst : Field} :
    ∀ q ∈ movePairs Field.fromRight src dst, q.1 ∈ src.addresses ∧ q.2 ∈ dst.addresses :=
  movePairs_mem fun _ _ hi => fromRight_mem hi

/-- MOVL's bytes are of the fields (R345). -/
theorem movePairs_fromLeft_mem {src dst : Field} :
    ∀ q ∈ movePairs Field.fromLeft src dst, q.1 ∈ src.addresses ∧ q.2 ∈ dst.addresses :=
  movePairs_mem fun _ _ hi => fromLeft_mem hi

/-- MOVR and MOVL once the scratch words are stored, by the places of their bytes (R343, R345). -/
def moveFields (place : Field → Nat → Word) (src dst : Field) : State → Res Unit :=
  moveField (movePairs place src dst) src dst

/-- CMPD once the scratch words are stored (R341). -/
def compareValues (src dst : Field) (s : State) : Res Unit :=
  let a := src.bytes s.mem
  let b := dst.bytes s.mem
  comparison (fieldValid a && fieldValid b) (decide (fieldValue b < fieldValue a))
    (decide (fieldValue a = fieldValue b)) src dst s

/-- COMP once the scratch words are stored (R346). -/
def compareBytes (src dst : Field) (s : State) : Res Unit :=
  let p := blankExtended src (max src.len dst.len) s.mem
  let q := blankExtended dst (max src.len dst.len) s.mem
  comparison true (firstGreater p q) (p == q) src dst s

/-- The digits of a field moved by SFTL or SFTR (R342, R344). -/
def shiftDigits (left : Bool) : Nat → List (BitVec 4) → List (BitVec 4) :=
  if left then shiftDigitsLeft else shiftDigitsRight

theorem length_shiftDigits (left : Bool) (n : Nat) (ds : List (BitVec 4)) :
    (shiftDigits left n ds).length = ds.length := by
  cases left
  · exact length_shiftDigitsRight n ds
  · exact length_shiftDigitsLeft n ds

/-- Digit `k` after a shift (R342, R344). -/
theorem shiftDigits_getElem? (left : Bool) (cnt : Nat) {ds : List (BitVec 4)} {k : Nat} (h : k < ds.length) :
    (shiftDigits left cnt ds)[k]? =
      some (if left then (if cnt ≤ k then ds.getD (k - cnt) 0#4 else 0#4) else ds.getD (k + cnt) 0#4) := by
  cases left
  · exact shiftDigitsRight_getElem? cnt h
  · exact shiftDigitsLeft_getElem? cnt h

section
variable {r1 r2 : RegNo} {s s1 : State} (hmodel : s.par.model.decimal = true) (h1 : r1 ≠ 0#3)
  (hsaved : saveScratch s = .ok () s1) (l1 l2 : BitVec 4) (x1 x2 : RegNo)
include hmodel h1 hsaved

/-- SFTL and SFTR once the scratch words are stored (R342, R344). -/
theorem exec_shift_saved (left : Bool) :
    exec (if left then .sftl r1 l1 l2 x1 x2 else .sftr r1 l1 l2 x1 x2) s =
      Res.finish (decimalWord (if left then 10#4 else 8#4) r1 0#3)
        (shiftField (shiftDigits left) (s.extended l2 x2) (s.field r1 l1 x1) s1) := by
  rw [← saveScratch_field hsaved, ← saveScratch_extended hsaved]
  cases left <;> exact decimal_saved hmodel (fieldRegisterOk_ne h1) hsaved _

variable (h2 : r2 ≠ 0#3)
include h2

/-- An instruction of two fields once the scratch words are stored; storing them moves no field (R331, R332). -/
theorem decimal_fields_saved (iw : Word) (f : Field → Field → State → Res Unit) :
    decimal iw (fieldRegisterOk r1 && fieldRegisterOk r2) s
        (fun s1 => f (s1.field r1 l1 x1) (s1.field r2 l2 x2) s1) =
      Res.finish iw (f (s.field r1 l1 x1) (s.field r2 l2 x2) s1) := by
  rw [← saveScratch_field hsaved, ← saveScratch_field hsaved]
  exact decimal_saved hmodel (by rw [fieldRegisterOk_ne h1, fieldRegisterOk_ne h2]; rfl) hsaved _

theorem exec_zadd_saved :
    exec (.zadd r1 r2 l1 l2 x1 x2) s = Res.finish (decimalWord 2#4 r1 r2)
      (decimalResult (fun a _ => fieldValid a) (fun a b => zeroAddBytes b.length a)
        (s.field r1 l1 x1) (s.field r2 l2 x2) s1) :=
  decimal_fields_saved hmodel h1 hsaved l1 l2 x1 x2 h2 _ _

theorem exec_arithmetic_saved (subtract : Bool) :
    exec (if subtract then .subd r1 r2 l1 l2 x1 x2 else .addd r1 r2 l1 l2 x1 x2) s =
      Res.finish (decimalWord (if subtract then 4#4 else 3#4) r1 r2)
        (decimalResult (fun a b => fieldValid a && fieldValid b && !tooLong subtract b.length a b)
          (fun a b => arithmeticBytes subtract b.length a b) (s.field r1 l1 x1) (s.field r2 l2 x2) s1) := by
  cases subtract <;> exact decimal_fields_saved hmodel h1 hsaved l1 l2 x1 x2 h2 _ _

theorem exec_cmpd_saved :
    exec (.cmpd r1 r2 l1 l2 x1 x2) s =
      Res.finish (decimalWord 5#4 r1 r2) (compareValues (s.field r1 l1 x1) (s.field r2 l2 x2) s1) :=
  decimal_fields_saved hmodel h1 hsaved l1 l2 x1 x2 h2 _ compareValues

theorem exec_comp_saved :
    exec (.comp r1 r2 l1 l2 x1 x2) s =
      Res.finish (decimalWord 12#4 r1 r2) (compareBytes (s.field r1 l1 x1) (s.field r2 l2 x2) s1) :=
  decimal_fields_saved hmodel h1 hsaved l1 l2 x1 x2 h2 _ compareBytes

theorem exec_movr_saved :
    exec (.movr r1 r2 l1 l2 x1 x2) s =
      Res.finish (decimalWord 9#4 r1 r2) (moveFields Field.fromRight (s.field r1 l1 x1) (s.field r2 l2 x2) s1) :=
  decimal_fields_saved hmodel h1 hsaved l1 l2 x1 x2 h2 _ (moveFields Field.fromRight)

theorem exec_movl_saved :
    exec (.movl r1 r2 l1 l2 x1 x2) s =
      Res.finish (decimalWord 11#4 r1 r2) (moveFields Field.fromLeft (s.field r1 l1 x1) (s.field r2 l2 x2) s1) :=
  decimal_fields_saved hmodel h1 hsaved l1 l2 x1 x2 h2 _ (moveFields Field.fromLeft)

end

/-- An instruction completes where what it comes to does. -/
theorem next_of_ok {o : Outcome} {iw : Word} {r : Res Unit} {P : State → Prop} (ho : o = Res.finish iw r)
    (h : ∃ t, r = .ok () t ∧ P t) : ∃ t, o = .next t ∧ P t := by
  obtain ⟨t, rfl, hP⟩ := h
  exact ⟨t, ho, hP⟩

/-- A class C instruction completes with the frame of what it comes to, whatever else that leaves. -/
theorem next_of_done {o : Outcome} {iw : Word} {r : Res Unit} {bytes : List Word} {s1 : State} {P : State → Prop}
    (ho : o = Res.finish iw r) (h : ∃ t, r = .ok () t ∧ decimalDone bytes s1 t ∧ P t) :
    ∃ t, o = .next t ∧ decimalDone bytes s1 t := by
  obtain ⟨t, ht, hdone, -⟩ := next_of_ok ho h
  exact ⟨t, ht, hdone⟩

/-- An instruction raises Abort where what it comes to does, once the scratch words are stored (R337(b), R504). -/
theorem takeAbort_of_abortsAtField {o : Outcome} {iw : Word} {r : Res Unit} {fs : List Field} {bytes bytes' : List Word}
    {s s1 : State} (hsaved : saveScratch s = .ok () s1) (ho : o = Res.finish iw r) (h : r.abortsAtField fs bytes s1)
    (hb : ∀ b ∈ bytes, b ∈ bytes') :
    ∃ x u, o = takeAbort x u ∧ (∃ f ∈ fs, x ∈ f.addresses) ∧ s.inMemory x = false ∧
      controlled s.pc [] [] bytes' s1 u := by
  obtain ⟨x, u, rfl, hfield, hout, hcontrolled⟩ := h
  rw [saveScratch_inMemory hsaved] at hout
  rw [saveScratch_pc hsaved] at hcontrolled
  exact ⟨x, u, ho, hfield, hout, controlled_mono hcontrolled hb⟩

/-! ## The obligations -/

/-- Settles O54: the destination holds the bytes of the result, and these are read digit by digit. -/
theorem decimalArithmetic : Obligations.DecimalArithmetic := by
  intro r1 r2 l1 l2 x1 x2 s s1 src dst a b hmodel h1 h2 hsaved hsrc hdst hoverlap ha
  rw [← saveScratch_holdsField hsaved] at hsrc hdst
  have hlength : b.length = dst.len := length_bytes dst s1.mem
  refine ⟨?_, fun hb subtract => ?_⟩
  · obtain ⟨t, ht, hdone, hbytes⟩ := next_of_ok (exec_zadd_saved hmodel h1 hsaved l1 l2 x1 x2 h2)
      (decimalResult_holds hsrc hdst ((length_zeroAddBytes b.length a).trans hlength))
    refine ⟨t, ht, hdone, fun i hi => Option.some.inj ?_⟩
    rw [← bytes_getElem? dst t.mem hi, hbytes ha hoverlap]
    exact zeroAddBytes_getElem? src s1.mem (hi.trans_eq hlength.symm)
  · intro v hfits
    have hpos : 0 < dst.len := field_len_pos s r2 l2 x2
    obtain ⟨t, ht, hdone, hbytes⟩ := next_of_ok (exec_arithmetic_saved hmodel h1 hsaved l1 l2 x1 x2 h2 subtract)
      (decimalResult_holds hsrc hdst ((length_arithmeticBytes subtract (hlength ▸ hpos) a b).trans hlength))
    have hresult : dst.bytes t.mem = arithmeticBytes subtract dst.len a b := by
      rw [← hlength]
      refine hbytes ?_ hoverlap
      show (fieldValid a && fieldValid b && !tooLong subtract b.length a b) = true
      rw [ha, hb, hlength, tooLong_eq_false hfits]
      rfl
    refine ⟨t, ht, hdone, ?_⟩
    rw [hresult]
    exact arithmeticBytes_spec subtract hpos a hb

/-- Settles O57: EQ and GT are those of the values or of the first bytes that differ. -/
theorem fieldCompare : Obligations.FieldCompare := by
  intro r1 r2 l1 l2 x1 x2 s s1 src dst a b p q hmodel h1 h2 hsaved hsrc hdst
  rw [← saveScratch_holdsField hsaved] at hsrc hdst
  refine ⟨fun ha hb => ?_, ?_⟩
  · obtain ⟨t, ht, hdone, hflags⟩ := next_of_ok (exec_cmpd_saved hmodel h1 hsaved l1 l2 x1 x2 h2)
      (comparison_holds hsrc hdst)
    exact ⟨t, ht, hdone, hflags (Bool.and_eq_true_iff.2 ⟨ha, hb⟩)⟩
  · obtain ⟨t, ht, hdone, hflags⟩ := next_of_ok (exec_comp_saved hmodel h1 hsaved l1 l2 x1 x2 h2)
      (comparison_holds hsrc hdst)
    obtain ⟨heq, hgt⟩ := hflags rfl
    exact ⟨t, ht, hdone, by rw [heq]; exact map_range_beq _ p q, by rw [hgt]; exact firstGreater_map_range _ p q⟩

/-- Settles O58: the digits left are the old ones moved, and the sign is the old one. -/
theorem decimalShifts : Obligations.DecimalShifts := by
  intro r1 l1 sh x1 x2 s s1 left f count old i hmodel h1 hsaved
  have hexec := exec_shift_saved hmodel h1 hsaved l1 sh x1 x2 left
  refine ⟨fun hzero => next_of_ok hexec (shiftField_zero hzero), fun hcount hf hvalid => ?_⟩
  rw [← saveScratch_holdsField hsaved] at hf
  obtain ⟨t, ht, hdone, hresult⟩ := next_of_ok hexec
    (shiftField_holds (length_shiftDigits left) (field_len_pos s r1 l1 x1) hcount hf)
  obtain ⟨hsign, hdigits⟩ := hresult hvalid
  refine ⟨t, ht, hdone, hsign, fun k hk => ?_⟩
  rw [hdigits]
  exact shiftDigits_getElem? left count (hk.trans_eq (length_fieldDigits f s1.mem).symm)

/-- Settles O59: the moves are those of the bytes of the shorter length, in their order. -/
theorem fieldMoves : Obligations.FieldMoves := by
  intro r1 r2 l1 l2 x1 x2 s s1 src dst moved hmodel h1 h2 hsaved hsrc hdst
  rw [← saveScratch_holdsField hsaved] at hsrc hdst
  have hmoved (place : Field → Nat → Word) :
      (movePairs place src dst).foldl (fun mem q => mem.setByte q.2 (mem.byte q.1)) s1.mem = moved place :=
    List.foldl_map
  refine ⟨?_, ?_⟩
  · obtain ⟨t, ht, hdone, hmem⟩ := next_of_ok (exec_movr_saved hmodel h1 hsaved l1 l2 x1 x2 h2)
      (moveField_holds movePairs_fromRight_mem hsrc hdst)
    exact ⟨t, ht, hdone, hmem.trans (hmoved _)⟩
  · obtain ⟨t, ht, hdone, hmem⟩ := next_of_ok (exec_movl_saved hmodel h1 hsaved l1 l2 x1 x2 h2)
      (moveField_holds movePairs_fromLeft_mem hsrc hdst)
    exact ⟨t, ht, hdone, hmem.trans (hmoved _)⟩

/-- Settles O56: what each instruction comes to stops at such a byte, the comparisons with nothing written. -/
theorem decimalAborts : Obligations.DecimalAborts := by
  intro r1 r2 l1 l2 x1 x2 s s1 src dst hmodel h1 hsaved
  refine ⟨fun i hi h2 hout => ?_, fun i hi hcount hout => ?_⟩
  · rw [← saveScratch_holdsField hsaved, ← saveScratch_holdsField hsaved dst] at hout
    have stops {o : Outcome} {iw : Word} {r : Res Unit} {bytes : List Word} (ho : o = Res.finish iw r)
        (hr : r.abortsAtField [src, dst] bytes s1) (hb : ∀ b ∈ bytes, b ∈ dst.addresses) :
        ∃ x u, o = takeAbort x u ∧ (x ∈ src.addresses ∨ x ∈ dst.addresses) ∧ s.inMemory x = false ∧
          controlled s.pc [] [] dst.addresses s1 u := by
      obtain ⟨x, u, hx, hfield, hrest⟩ := takeAbort_of_abortsAtField hsaved ho hr hb
      exact ⟨x, u, hx, by simpa using hfield, hrest⟩
    have arithmetic := exec_arithmetic_saved hmodel h1 hsaved l1 l2 x1 x2 h2
    simp only [List.mem_cons, List.not_mem_nil, or_false] at hi
    obtain rfl | rfl | rfl | rfl | rfl | rfl | rfl := hi
    · exact stops (exec_zadd_saved hmodel h1 hsaved l1 l2 x1 x2 h2) (decimalResult_abortsAtField hout) fun _ => id
    · exact stops (arithmetic false) (decimalResult_abortsAtField hout) fun _ => id
    · exact stops (arithmetic true) (decimalResult_abortsAtField hout) fun _ => id
    · exact stops (exec_cmpd_saved hmodel h1 hsaved l1 l2 x1 x2 h2) (comparison_abortsAtField hout) nofun
    · exact stops (exec_movr_saved hmodel h1 hsaved l1 l2 x1 x2 h2)
        (moveField_abortsAtField movePairs_fromRight_mem hout) fun _ => id
    · exact stops (exec_movl_saved hmodel h1 hsaved l1 l2 x1 x2 h2)
        (moveField_abortsAtField movePairs_fromLeft_mem hout) fun _ => id
    · exact stops (exec_comp_saved hmodel h1 hsaved l1 l2 x1 x2 h2) (comparison_abortsAtField hout) nofun
  · rw [← saveScratch_holdsField hsaved] at hout
    have stops (left : Bool) :
        ∃ x u, exec (if left then .sftl r1 l1 l2 x1 x2 else .sftr r1 l1 l2 x1 x2) s = takeAbort x u ∧
          x ∈ src.addresses ∧ s.inMemory x = false ∧ controlled s.pc [] [] src.addresses s1 u := by
      obtain ⟨x, u, hx, hfield, hrest⟩ := takeAbort_of_abortsAtField hsaved
        (exec_shift_saved hmodel h1 hsaved l1 l2 x1 x2 left) (shiftField_abortsAtField hcount hout) fun _ => id
      exact ⟨x, u, hx, by simpa using hfield, hrest⟩
    simp only [List.mem_cons, List.not_mem_nil, or_false] at hi
    obtain rfl | rfl := hi
    · exact stops false
    · exact stops true

/-- Settles O55: the scratch words are stored first, and what each instruction comes to completes on any data. -/
theorem decimalFrame : Obligations.DecimalFrame := by
  intro r1 r2 l1 l2 x1 x2 s src dst b hblock
  obtain ⟨s1, hsaved, h5, h6, h7, hcontrolled⟩ := saveScratch_spec hblock
  rw [unimplementedBlock_word] at h5 h6 h7
  refine ⟨s1, hsaved, h5, h6, h7, hcontrolled, fun hmodel h1 hsrc => ?_⟩
  rw [← saveScratch_holdsField hsaved] at hsrc
  refine ⟨fun i hi => ?_, fun h2 hdst => ?_⟩
  · have completes (left : Bool) :
        ∃ t, exec (if left then .sftl r1 l1 l2 x1 x2 else .sftr r1 l1 l2 x1 x2) s = .next t ∧
          decimalDone src.addresses s1 t :=
      next_of_ok (exec_shift_saved hmodel h1 hsaved l1 l2 x1 x2 left)
        (shiftField_done (length_shiftDigits left) (field_len_pos s r1 l1 x1) _ hsrc)
    simp only [List.mem_cons, List.not_mem_nil, or_false] at hi
    obtain rfl | rfl := hi
    · exact completes false
    · exact completes true
  rw [← saveScratch_holdsField hsaved] at hdst
  refine ⟨fun i hi => ?_, fun i hi => ?_⟩
  · have hlength : (dst.bytes s1.mem).length = dst.len := length_bytes dst s1.mem
    have arithmetic (subtract : Bool) := next_of_done (exec_arithmetic_saved hmodel h1 hsaved l1 l2 x1 x2 h2 subtract)
      (decimalResult_holds hsrc hdst
        ((length_arithmeticBytes subtract (hlength ▸ field_len_pos s r2 l2 x2) _ _).trans hlength))
    simp only [List.mem_cons, List.not_mem_nil, or_false] at hi
    obtain rfl | rfl | rfl | rfl | rfl := hi
    · exact next_of_done (exec_zadd_saved hmodel h1 hsaved l1 l2 x1 x2 h2)
        (decimalResult_holds hsrc hdst ((length_zeroAddBytes _ _).trans hlength))
    · exact arithmetic false
    · exact arithmetic true
    · exact next_of_done (exec_movr_saved hmodel h1 hsaved l1 l2 x1 x2 h2)
        (moveField_holds movePairs_fromRight_mem hsrc hdst)
    · exact next_of_done (exec_movl_saved hmodel h1 hsaved l1 l2 x1 x2 h2)
        (moveField_holds movePairs_fromLeft_mem hsrc hdst)
  · simp only [List.mem_cons, List.not_mem_nil, or_false] at hi
    obtain rfl | rfl := hi
    · exact next_of_done (exec_cmpd_saved hmodel h1 hsaved l1 l2 x1 x2 h2) (comparison_holds hsrc hdst)
    · exact next_of_done (exec_comp_saved hmodel h1 hsaved l1 l2 x1 x2 h2) (comparison_holds hsrc hdst)

end Sys2Proof.Machine
end

section
/-! SUPPORT. The bit instructions and the moves of the 1112: the common operation of each group, and the values of the
moves in integers (O47, O48). -/

namespace Sys2Proof.Machine

/-! ## Bits -/

/-- `t` is `s` after a bit operation of `len` bytes on the bits `m` (R372): CY tells of the selected bits, and the value
is delivered unless the operation only tests. -/
def bitDone (op : BitOp) (len : Word) (ar : RegNo) (m : Word) (s t : State) : Prop :=
  t.flag .cy = (s.data len ar &&& m != 0#16) ∧
    if op = .tbit then controlled (s.pc + len) [] [.cy, .ng, .ze, .od] [] s t
    else wroteRegister len ar (bitResult op (s.data len ar) m) [.cy] s t

section
variable (s : State) (b : Bool)

/-- CY written alone. -/
theorem sameBut_setCarry : sameBut [] [.cy] [] s { s with status := setFlag .cy b s.status } :=
  sameBut_status s fun _ hf => getFlag_setFlag_ne (by simpa using hf) b s.status

/-- CY written, then NG, ZE and OD open, and the next instruction (R378, log 27). -/
theorem setCarry_freeNZO (len : Word) :
    (({ s with status := setFlag .cy b s.status }.freeNZO 0).advance len).flag .cy = b ∧
      controlled (s.pc + len) [] [.cy, .ng, .ze, .od] [] s
        (({ s with status := setFlag .cy b s.status }.freeNZO 0).advance len) := by
  have hfree := sameBut_freeNZO { s with status := setFlag .cy b s.status } 0
  have hframe := sameBut_append (sameBut_setCarry s b) hfree
  obtain ⟨-, hflags, -⟩ := hfree
  exact ⟨(hflags .cy (by decide)).trans (getFlag_setFlag_same .cy b s.status), State.pc_advance _ _,
    sameBut_flags_append (sameBut_mono hframe (by simp) (by simp) (by simp)) (sameBut_advance _ _), rfl, rfl⟩

/-- CY written, then a result with its NG, ZE and OD (R372). -/
theorem setCarry_put (len : Word) (ar : RegNo) (v : Word) :
    ({ s with status := setNZO v (setFlag .cy b s.status) }.put len ar v).flag .cy = b ∧
      wroteRegister len ar v [.cy] s ({ s with status := setNZO v (setFlag .cy b s.status) }.put len ar v) := by
  obtain ⟨-, hflags, -⟩ := sameBut_setCarry s b
  refine ⟨?_, wroteRegister_put hflags len ar v⟩
  rw [State.flag, State.put_status, getFlag_setNZO, if_neg (by decide), if_neg (by decide), if_neg (by decide),
    getFlag_setFlag_same]

end

/-- The common operation: TBIT ends with the test, the others deliver their value (R372, R378). -/
theorem bitDone_bitOperation (op : BitOp) (len : Word) (ar : RegNo) (m : Word) (s : State) :
    bitDone op len ar m s (bitOperation op len ar m s) := by
  unfold bitDone bitOperation
  split
  · exact setCarry_freeNZO s _ len
  · exact setCarry_put s _ len ar _

/-- An operation whose bit number was open spends a free value and nothing else (log 11). -/
theorem bitDone_of_spend {op : BitOp} {len : Word} {ar : RegNo} {m : Word} {k : Nat} {s t : State}
    (h : bitDone op len ar m (s.spend k) t) : bitDone op len ar m s t := h

section
variable {s : State} (h : s.par.model.scientific = true) (op : BitOp) (ar : RegNo)
include h

/-- The bit K (R371). -/
theorem exec_bitInstrK_done (k : BitVec 4) :
    ∃ t, exec (bitInstrK op ar k) s = .next t ∧ bitDone op 2#16 ar (1#16 <<< k.toNat) s t :=
  ⟨_, (exec_bitInstrK op ar k s).trans (if_pos h), bitDone_bitOperation op 2#16 ar _ s⟩

/-- The bit numbered by the low four bits of a register (R371). -/
theorem exec_bitInstrX_done {xr : RegNo} (hxr : xr ≠ 0#3) :
    ∃ t, exec (bitInstrX op ar xr) s = .next t ∧ bitDone op 2#16 ar (1#16 <<< ((s.reg xr).toNat % 16)) s t := by
  have hexec := (exec_bitInstrX op ar xr s).trans (if_pos h)
  rw [State.countRegister, State.afterCount, if_neg hxr, if_neg hxr, bitMask, BitVec.toNat_setWidth] at hexec
  exact ⟨_, hexec, bitDone_bitOperation op 2#16 ar _ s⟩

/-- With XR = 0 the bit number is the low four bits of a free value (log 11). -/
theorem exec_bitInstrX_zero_done :
    ∃ t n, n < 16 ∧ exec (bitInstrX op ar 0#3) s = .next t ∧ bitDone op 2#16 ar (1#16 <<< n) s t :=
  ⟨_, _, ((s.freeAt 0).setWidth 4).isLt, (exec_bitInstrX op ar 0#3 s).trans (if_pos h),
    bitDone_of_spend (k := 1) (bitDone_bitOperation op 2#16 ar _ (s.spend 1))⟩

/-- The bits of a mask (R371). -/
theorem exec_bitInstrM_done (xr : RegNo) (mask : Word) :
    ∃ t, exec (bitInstrM op ar xr mask) s = .next t ∧
      bitDone op 4#16 ar (if xr = 0#3 then mask else mask &&& s.reg xr) s t :=
  ⟨_, (exec_bitInstrM op ar xr mask s).trans (if_pos h), bitDone_bitOperation op 4#16 ar _ s⟩

end

/-- Settles O47: the three forms are one operation on the bits they select. -/
theorem bitInstructions : Obligations.BitInstructions := by
  intro op ar s h did
  have hdid {len m : Word} {t : State} (hdone : bitDone op len ar m s t) : did len m t := by
    cases op <;> exact hdone
  refine ⟨fun k => ?_, fun xr hxr => ?_, ?_, fun xr mask => ?_⟩
  · obtain ⟨t, ht, hdone⟩ := exec_bitInstrK_done h op ar k
    exact ⟨t, ht, hdid hdone⟩
  · obtain ⟨t, ht, hdone⟩ := exec_bitInstrX_done h op ar hxr
    exact ⟨t, ht, hdid hdone⟩
  · obtain ⟨t, n, hn, ht, hdone⟩ := exec_bitInstrX_zero_done h op ar
    exact ⟨t, n, hn, ht, hdid hdone⟩
  · obtain ⟨t, ht, hdone⟩ := exec_bitInstrM_done h op ar xr mask
    exact ⟨t, ht, hdid hdone⟩

/-! ## Moves -/

section
variable (v : Word)

/-- NEGT is the twos complement (R381). -/
theorem moveResult_negt : moveResult .negt v = BitVec.ofInt 16 (-v.toInt) := by
  rw [moveResult, BitVec.zero_sub, BitVec.ofInt_neg, BitVec.ofInt_toInt]

/-- CPLM is the ones complement, the twos complement less one (R382). -/
theorem moveResult_cplm : moveResult .cplm v = BitVec.ofInt 16 (-1 - v.toInt) := by
  rw [moveResult, BitVec.not_eq_neg_add, sub_eq_add_neg (-1 : Int), BitVec.ofInt_add, BitVec.ofInt_neg (n := v.toInt),
    BitVec.ofInt_toInt, BitVec.sub_eq_add_neg, BitVec.add_comm]
  rfl

/-- The sign of a number is bit 15 of its word (R383, R384). -/
theorem getLsbD_sign_iff : v.getLsbD 15 = true ↔ v.toInt < 0 := by
  rw [← decide_eq_true_iff (p := v.toInt < 0), ← BitVec.msb_eq_toInt, BitVec.msb_eq_getLsbD_last]

/-- MOVP is the magnitude (R383, D44). -/
theorem moveResult_movp : moveResult .movp v = BitVec.ofNat 16 v.toInt.natAbs := by
  rw [moveResult, ← BitVec.ofInt_natCast 16 v.toInt.natAbs]
  split
  · rename_i hsign
    have hneg := (getLsbD_sign_iff v).1 hsign
    rw [Int.ofNat_natAbs_of_nonpos hneg.le, BitVec.zero_sub, BitVec.ofInt_neg, BitVec.ofInt_toInt]
  · rename_i hsign
    have hnonneg := not_lt.1 (mt (getLsbD_sign_iff v).2 hsign)
    rw [Int.natAbs_of_nonneg hnonneg, BitVec.ofInt_toInt]

/-- MOVN is the complement of what MOVP delivers (R383, R384). -/
theorem moveResult_movn_eq_neg : moveResult .movn v = -moveResult .movp v := by
  rw [moveResult, moveResult, BitVec.zero_sub]
  split
  · exact (BitVec.neg_neg (x := v)).symm
  · rfl

/-- MOVN is the negative magnitude (R384, D44). -/
theorem moveResult_movn : moveResult .movn v = BitVec.ofInt 16 (-v.toInt.natAbs) := by
  rw [moveResult_movn_eq_neg, moveResult_movp, BitVec.ofInt_neg, BitVec.ofInt_natCast]

end

/-- A move on the 1112 delivers its value with NG, ZE and OD (R380). -/
theorem exec_moveInstr_wrote {s : State} (h : s.par.model.scientific = true) (op : MoveOp) (ar xr : RegNo) :
    ∃ t, exec (moveInstr op ar xr) s = .next t ∧ wroteRegister 2#16 ar (moveResult op (s.data 2#16 xr)) [] s t :=
  ⟨_, (exec_moveInstr op ar xr s).trans (if_pos h), wroteRegister_put (fun _ _ => rfl) 2#16 ar _⟩

/-- Settles O48: the moves are one delivery, of four values. -/
theorem moves : Obligations.Moves := by
  intro ar xr s h v
  refine ⟨?_, ?_, ?_, ?_⟩
  · rw [← moveResult_negt]
    exact exec_moveInstr_wrote h .negt ar xr
  · rw [← moveResult_cplm]
    exact exec_moveInstr_wrote h .cplm ar xr
  · rw [← moveResult_movp]
    exact exec_moveInstr_wrote h .movp ar xr
  · rw [← moveResult_movn]
    exact exec_moveInstr_wrote h .movn ar xr

end Sys2Proof.Machine
end

section
/-! SUPPORT. The instructions of the 1112 on the models without them, and the double-length words whose designator is no
pair (O60). -/

namespace Sys2Proof.Machine

/-! ## The double-length words of class A -/

section
variable {iw : Word} {s : State} (f : State → State)

/-- A double-length instruction of the 1112 on a pair. -/
theorem onPair_present (hmodel : s.par.model.scientific = true) {ok : Bool} (hok : ok = true) :
    onPair iw ok s f = .next (f s) := by rw [onPair, if_pos hmodel, if_pos hok]

/-- On the 1112 a designator that is no pair makes the word undefined (R116, R402, log 37). -/
theorem onPair_noPair (hmodel : s.par.model.scientific = true) {ok : Bool} (hok : ok = false) :
    onPair iw ok s f = undefinedWord iw s := by
  rw [onPair, if_pos hmodel, if_neg (Bool.eq_false_iff.1 hok)]

/-- The other models trap, whatever the designator (R105, log 7). -/
theorem onPair_absent (hmodel : s.par.model.scientific = false) (ok : Bool) :
    onPair iw ok s f = takeUnimplemented iw s := if_neg (Bool.eq_false_iff.1 hmodel)

end

theorem pairOk_iff {r : RegNo} : pairOk r = true ↔ r ∈ [2#3, 4#3, 6#3] := by revert r; decide

/-! ## The first word of an instruction -/

section
variable {i : Instr} {w : Word} {ws : List Word} {o : Outcome} {s : State}

/-- An instruction whose word the model leaves undefined: the word is the first of its encoding (R115). -/
theorem undefinedWord_of_form (hform : Instr.Form (w :: ws) i) (h : o = undefinedWord w s) :
    ∃ w, (encode i).head? = some w ∧ o = undefinedWord w s := ⟨w, by rw [hform.encode_eq]; rfl, h⟩

/-- An instruction that traps stores the first word of its encoding (R507). -/
theorem takeUnimplemented_of_form (hform : Instr.Form (w :: ws) i) (h : o = takeUnimplemented w s) :
    ∃ w, (encode i).head? = some w ∧ o = takeUnimplemented w s := ⟨w, by rw [hform.encode_eq]; rfl, h⟩

end

/-- Settles O60: the words of class 4 and single normalize are undefined on the models without them, the double-length
words of class A go through `onPair`. -/
theorem otherModels : Obligations.OtherModels := by
  intro ar xr k mask pair k5 s undefinedThere trapsThere
  refine ⟨fun hother => ?_, fun hmodel => ⟨fun har => ?_, fun op => ?_⟩⟩
  · have hnot : ¬ s.par.model.scientific = true := Bool.eq_false_iff.1 hother
    refine ⟨fun op => ⟨?_, ?_, ?_⟩, fun op => ?_, fun op => ?_, fun op => ?_, fun op => ⟨?_, ?_⟩⟩
    · exact undefinedWord_of_form (.bitK op ar k) ((exec_bitInstrK op ar k s).trans (if_neg hnot))
    · exact undefinedWord_of_form (.bitX op ar xr) ((exec_bitInstrX op ar xr s).trans (if_neg hnot))
    · exact undefinedWord_of_form (.bitM op ar xr mask) ((exec_bitInstrM op ar xr mask s).trans (if_neg hnot))
    · exact undefinedWord_of_form (.move op ar xr) ((exec_moveInstr op ar xr s).trans (if_neg hnot))
    · exact undefinedWord_of_form (.norm op ar xr) ((exec_normInstr op ar xr s).trans (if_neg hnot))
    · exact takeUnimplemented_of_form (.dnorm op ar xr)
        ((exec_dnormInstr op ar xr s).trans (onPair_absent _ hother _))
    · exact takeUnimplemented_of_form (.dshiftK op pair k5)
        ((exec_dshiftInstrK op pair k5 s).trans (onPair_absent _ hother _))
    · exact takeUnimplemented_of_form (.dshiftX op ar xr)
        ((exec_dshiftInstrX op ar xr s).trans (onPair_absent _ hother _))
  · have hnoPair : pairOk ar = false := Bool.eq_false_iff.2 (mt pairOk_iff.1 har)
    exact ⟨fun op => undefinedWord_of_form (.dnorm op ar xr)
        ((exec_dnormInstr op ar xr s).trans (onPair_noPair _ hmodel hnoPair)),
      fun op => undefinedWord_of_form (.dshiftX op ar xr)
        ((exec_dshiftInstrX op ar xr s).trans (onPair_noPair _ hmodel hnoPair))⟩
  · exact undefinedWord_of_form (.dshiftK op 0#2 k5)
      ((exec_dshiftInstrK op 0#2 k5 s).trans (onPair_noPair _ hmodel rfl))

end Sys2Proof.Machine
end

section
/-! SUPPORT. The double shifts: what a number of one-place steps comes to on the 31-bit number, and on the 32-bit string
together with CY (O30). -/

namespace Sys2Proof.Machine

/-! ## The 31-bit number -/

theorem overflows_zero {w : Nat} (a : BitVec w) : overflows w 0 a.toInt = false := by
  rw [overflows_eq_false_iff, pow_zero, mul_one]
  exact ⟨a.le_toInt, a.toInt_lt⟩

/-- DLAO by fewer than 32 places: the number, CY as the last bit that left it, and OV sticky (R430). -/
theorem iterate_arithmeticStep_left {n : Nat} (hn : n < 32) (p : BitVec 31) (st : Word) :
    ((arithmeticStep true)^[n] ⟨p, st⟩).d = p <<< n ∧
      getFlag .cy ((arithmeticStep true)^[n] ⟨p, st⟩).st = (if n = 0 then getFlag .cy st else p.getLsbD (31 - n)) ∧
      getFlag .ov ((arithmeticStep true)^[n] ⟨p, st⟩).st = (getFlag .ov st || overflows 31 n p.toInt) := by
  induction n with
  | zero => simp [overflows_zero]
  | succ n ih =>
    obtain ⟨hd, -, hov⟩ := ih (by omega)
    rw [Function.iterate_succ_apply']
    refine ⟨?_, ?_, ?_⟩
    · rw [BitVec.shiftLeft_add, ← hd]
      rfl
    · refine (getFlag_setFlag_same ..).trans ?_
      rw [hd, if_neg n.succ_ne_zero, BitVec.getLsbD_shiftLeft]
      grind
    · refine (getFlag_setFlag_ne (by decide) ..).trans ((getFlag_setFlag_same ..).trans ?_)
      rw [hd, hov, overflows_succ (by decide), Bool.or_assoc]

/-- DRAO moves the number alone (R434). -/
theorem iterate_arithmeticStep_right (n : Nat) (p : BitVec 31) (st : Word) :
    (arithmeticStep false)^[n] ⟨p, st⟩ = ⟨p.sshiftRight n, st⟩ := by
  rw [← iterate_sshiftRight_one]
  exact (Function.Semiconj.iterate_right (f := (Double.mk · st)) (fun _ => rfl) n p).symm

/-- The indicators a step to the left does not write. -/
theorem getFlag_arithmeticStep {f : Flag} (hf : f ∉ [Flag.ov, .cy]) (left : Bool) (x : Double 31) :
    getFlag f (arithmeticStep left x).st = getFlag f x.st := by
  simp only [List.mem_cons, List.not_mem_nil, or_false, not_or] at hf
  obtain ⟨hov, hcy⟩ := hf
  cases left with
  | true => exact (getFlag_setFlag_ne hcy ..).trans (getFlag_setFlag_ne hov ..)
  | false => rfl

/-! ## The 32-bit string -/

theorem getLsbD_orBit32 {i : Nat} (hi : i < 32) (b : Bool) (d : BitVec 32) (j : Nat) :
    (orBit32 i b d).getLsbD j = if j = i then d.getLsbD j || b else d.getLsbD j := by
  rw [orBit32, BitVec.getLsbD_or, BitVec.getLsbD_shiftLeft, BitVec.getLsbD_setWidth, BitVec.getLsbD_ofBool]
  grind

/-- CY and the string as one string, CY its leading bit (R431, R435). -/
def Double.linked (x : Double 32) : BitVec 33 := BitVec.ofBool (getFlag .cy x.st) ++ x.d

theorem Double.getLsbD_linked (x : Double 32) (i : Nat) :
    x.linked.getLsbD i = if i < 32 then x.d.getLsbD i else decide (i = 32) && getFlag .cy x.st := by
  rw [Double.linked, BitVec.getLsbD_append, BitVec.getLsbD_ofBool]
  split
  · rfl
  · simp only [show i - 32 = 0 ↔ i = 32 by omega]

theorem Double.linked_setWidth (x : Double 32) : x.linked.setWidth 32 = x.d := by
  apply BitVec.eq_of_getLsbD_eq
  intro i hi
  rw [BitVec.getLsbD_setWidth, Double.getLsbD_linked, if_pos hi, decide_eq_true hi, Bool.true_and]

theorem Double.getLsbD_linked_carry (x : Double 32) : x.linked.getLsbD 32 = getFlag .cy x.st := by
  rw [Double.getLsbD_linked]
  rfl

/-- A step of a linked double shift rotates the 33 bits (R431, R435). -/
theorem linked_logicalStep_lll : Function.Semiconj Double.linked (logicalStep .lll) (·.rotateLeft 1) := by
  intro x
  apply BitVec.eq_of_getLsbD_eq
  intro i hi
  simp only [Double.getLsbD_linked, logicalStep, BitVec.getLsbD_rotateLeft, getFlag_setFlag_same,
    getLsbD_orBit32 (show 0 < 32 by decide), BitVec.getLsbD_shiftLeft]
  grind

theorem linked_logicalStep_rll : Function.Semiconj Double.linked (logicalStep .rll) (·.rotateRight 1) := by
  intro x
  apply BitVec.eq_of_getLsbD_eq
  intro i hi
  simp only [Double.getLsbD_linked, logicalStep, BitVec.getLsbD_rotateRight, getFlag_setFlag_same,
    getLsbD_orBit32 (show 31 < 32 by decide), BitVec.getLsbD_ushiftRight]
  grind

theorem orBit32_rotateLeft_one (d : BitVec 32) : orBit32 0 (d.getLsbD 31) (d <<< 1) = d.rotateLeft 1 := by
  apply BitVec.eq_of_getLsbD_eq
  intro i hi
  rw [getLsbD_orBit32 (by decide), BitVec.getLsbD_shiftLeft, BitVec.getLsbD_rotateLeft]
  grind

theorem orBit32_rotateRight_one (d : BitVec 32) : orBit32 31 (d.getLsbD 0) (d >>> 1) = d.rotateRight 1 := by
  apply BitVec.eq_of_getLsbD_eq
  intro i hi
  rw [getLsbD_orBit32 (by decide), BitVec.getLsbD_ushiftRight, BitVec.getLsbD_rotateRight]
  grind

/-- A step that moves the string alone. -/
theorem iterate_logicalStep {op : ShiftOp} {move : BitVec 32 → BitVec 32}
    (h : ∀ d st, logicalStep op ⟨d, st⟩ = ⟨move d, st⟩) (n : Nat) (d : BitVec 32) (st : Word) :
    (logicalStep op)^[n] ⟨d, st⟩ = ⟨move^[n] d, st⟩ :=
  (Function.Semiconj.iterate_right (f := (Double.mk · st)) (fun d => (h d st).symm) n d).symm

/-- String and CY are the closed form (R431 to R437). -/
theorem shiftedString_eq (op : ShiftOp) (n : Nat) (d : BitVec 32) (st : Word) :
    shiftedString op n d (getFlag .cy st) =
      (((logicalStep op)^[n] ⟨d, st⟩).d, getFlag .cy ((logicalStep op)^[n] ⟨d, st⟩).st) := by
  cases op with
  | lao | rao =>
    rw [iterate_logicalStep (move := id) (fun _ _ => rfl), Function.iterate_id]
    rfl
  | llo => rw [iterate_logicalStep (move := (· <<< 1)) (fun _ _ => rfl), iterate_shiftLeft_one]; rfl
  | rlo => rw [iterate_logicalStep (move := (· >>> 1)) (fun _ _ => rfl), iterate_ushiftRight_one]; rfl
  | llc =>
    rw [iterate_logicalStep (move := (·.rotateLeft 1)) (fun d _ => by rw [← orBit32_rotateLeft_one]; rfl),
      iterate_rotateLeft_one n d (by decide)]
    rfl
  | rlc =>
    rw [iterate_logicalStep (move := (·.rotateRight 1)) (fun d _ => by rw [← orBit32_rotateRight_one]; rfl),
      iterate_rotateRight_one n d (by decide)]
    rfl
  | lll =>
    rw [← Double.linked_setWidth, ← Double.getLsbD_linked_carry, linked_logicalStep_lll.iterate_right n,
      iterate_rotateLeft_one n _ (by decide)]
    rfl
  | rll =>
    rw [← Double.linked_setWidth, ← Double.getLsbD_linked_carry, linked_logicalStep_rll.iterate_right n,
      iterate_rotateRight_one n _ (by decide)]
    rfl

/-- The indicators a logical step does not write. -/
theorem getFlag_logicalStep {f : Flag} (hf : f ∉ [Flag.cy]) (op : ShiftOp) (x : Double 32) :
    getFlag f (logicalStep op x).st = getFlag f x.st := by
  have hcy : f ≠ .cy := by simpa using hf
  cases op with
  | lll | rll => exact getFlag_setFlag_ne hcy ..
  | llo | llc | rlo | rlc | lao | rao => rfl

/-! ## The instructions -/

/-- An indicator other than NG, ZE and OD after a pair is written. -/
theorem pairDone_flag {f : Flag} (hf : f ∉ [Flag.ng, .ze, .od]) (s : State) (len : Word) (r : RegNo) (hi lo st : Word) :
    (s.pairDone len r hi lo st).flag f = getFlag f st := by
  simp only [List.mem_cons, List.not_mem_nil, or_false, not_or] at hf
  obtain ⟨hng, hze, hod⟩ := hf
  rw [State.flag, State.pairDone, State.advance_status, State.setPair_status, getFlag_setNZOpair, if_neg hod,
    if_neg hze, if_neg hng]

/-- A double shift is the pair written whole (R421). -/
theorem shiftPair_eq (op : ShiftOp) (r : RegNo) (n : Nat) (s : State) :
    shiftPair op r n s = s.pairDone 2#16 r (doubleShift op n (s.reg r) (s.reg (oddRegister r)) s.status).1
      (doubleShift op n (s.reg r) (s.reg (oddRegister r)) s.status).2.1
      (doubleShift op n (s.reg r) (s.reg (oddRegister r)) s.status).2.2 := rfl

/-- A logical double shift is its closed form (R431 to R437). -/
theorem logicalShift_done (op : ShiftOp) {r : RegNo} (hr : r ∈ [2#3, 4#3, 6#3]) (n : Nat) (s : State) :
    let x := (logicalStep op)^[n] ⟨s.string r, s.status⟩
    let t := s.pairDone 2#16 r (high32 x.d) (low32 x.d) x.st
    wrotePair 2#16 r [.cy] s t ∧ t.string r = (shiftedString op n (s.string r) (s.flag .cy)).1 ∧
      t.flag .cy = (shiftedString op n (s.string r) (s.flag .cy)).2 := by
  intro x t
  have hclosed : shiftedString op n (s.string r) (s.flag .cy) = (x.d, getFlag .cy x.st) := shiftedString_eq op n _ _
  rw [hclosed]
  exact ⟨pairDone_wrotePair s _ hr _ _ _ fun f hf => steady_iterate Double.st (getFlag_logicalStep hf op) n _,
    pairDone_string s _ hr _ _, pairDone_flag (by decide) ..⟩

/-- A shift of a pair by fewer than 32 places is its closed form. -/
theorem shiftedPair_shiftPair (op : ShiftOp) {r : RegNo} (hr : r ∈ [2#3, 4#3, 6#3]) {n : Nat} (hn : n < 32)
    (s : State) : shiftedPair op r n s (shiftPair op r n s) := by
  cases op with
  | lll | llo | llc | rll | rlo | rlc => exact logicalShift_done _ hr n s
  | lao =>
    obtain ⟨hd, hcy, hov⟩ := iterate_arithmeticStep_left hn (s.number r) s.status
    refine ⟨pairDone_wrotePair s _ hr _ _ _ fun f hf => steady_iterate Double.st (getFlag_arithmeticStep hf true) n _,
      ?_, (pairDone_flag (by decide) ..).trans hcy, (pairDone_flag (by decide) ..).trans hov⟩
    rw [← hd]
    exact pairDone_holdsNumber s _ hr _ _
  | rao =>
    have hx := iterate_arithmeticStep_right n (s.number r) s.status
    have hdone : shiftPair .rao r n s = s.pairDone 2#16 r (high31 ((s.number r).sshiftRight n))
        (low31 ((s.number r).sshiftRight n)) s.status := by
      rw [shiftPair_eq, doubleShift, arithmeticShift, ← State.number, hx]
    rw [hdone]
    exact ⟨pairDone_wrotePair s _ hr _ _ _ fun _ _ => rfl, pairDone_holdsNumber s _ hr _ _⟩

/-- A shift whose count was open spends a free value and nothing else (log 11). -/
theorem shiftedPair_of_spend {op : ShiftOp} {r : RegNo} {n k : Nat} {s t : State}
    (h : shiftedPair op r n (s.spend k) t) : shiftedPair op r n s t := by
  cases op <;> exact h

/-- The pair a two-bit designator other than 0 names (R402, R420). -/
theorem pairRegister_mem {pair : BitVec 2} (h : pair ≠ 0#2) : pairRegister pair ∈ [2#3, 4#3, 6#3] := by
  revert pair; decide

/-- Settles O30: each count is less than 32, and such a shift is its closed form. -/
theorem doubleShifts : Obligations.DoubleShifts := by
  intro op s hmodel
  refine ⟨fun pair k hpair => ?_, fun r xr hr hxr => ?_, fun r hr => ?_⟩
  · have hexec := (exec_dshiftInstrK op pair k s).trans (onPair_present _ hmodel (bne_iff_ne.2 hpair))
    exact ⟨_, hexec, shiftedPair_shiftPair op (pairRegister_mem hpair) k.isLt s, rfl, rfl⟩
  · have hexec := (exec_dshiftInstrX op r xr s).trans (onPair_present _ hmodel (pairOk_iff.2 hr))
    rw [State.countRegister, State.afterCount, if_neg hxr, if_neg hxr, BitVec.toNat_setWidth] at hexec
    exact ⟨_, hexec, shiftedPair_shiftPair op hr (Nat.mod_lt _ (by decide)) s, rfl, rfl⟩
  · have hexec := (exec_dshiftInstrX op r 0#3 s).trans (onPair_present _ hmodel (pairOk_iff.2 hr))
    exact ⟨_, _, ((s.freeAt 0).setWidth 5).isLt, hexec,
      shiftedPair_of_spend (k := 1) (shiftedPair_shiftPair op hr (BitVec.isLt _) (s.spend 1)), rfl, rfl⟩

end Sys2Proof.Machine
end

section
/-! SUPPORT. The normalize instructions: a string that is not zero reaches the stop condition of its operation within
its width, and the instruction ends there with the count (O31 to O34). -/

namespace Sys2Proof.Machine

/-! ## The stop condition is reached -/

/-- The stop condition of a normalize on a string of any width (R405 to R412). -/
def normStops {w : Nat} (op : NormOp) (x : BitVec w) : Bool :=
  match op with
  | .lan => x.getLsbD (w - 1) != x.getLsbD (w - 2)
  | .lln => x.getLsbD (w - 1)
  | .ran | .rln => x.getLsbD 0

/-- A string of any width moved by `n` places of a normalize (R405 to R412). -/
def normMoved {w : Nat} (op : NormOp) (x : BitVec w) (n : Nat) : BitVec w :=
  match op with
  | .lan | .lln => x <<< n
  | .ran => x.sshiftRight n
  | .rln => x >>> n

/-- A normalize found its stop condition on `x` moved by `k` places, and at no smaller count (R404). -/
def firstStop {w : Nat} (op : NormOp) (x : BitVec w) (k : Nat) : Prop :=
  k < w ∧ normStops op (normMoved op x k) = true ∧ ∀ j, j < k → normStops op (normMoved op x j) = false

section
variable {w : Nat} (op : NormOp) (x : BitVec w)

theorem iterate_normMoved (n : Nat) : (normMoved op · 1)^[n] x = normMoved op x n := by
  cases op with
  | lan | lln => exact iterate_shiftLeft_one n x
  | ran => exact iterate_sshiftRight_one n x
  | rln => exact iterate_ushiftRight_one n x

/-- The lowest bit that is set brings each operation to its stop: a right shift moves it to bit 0, a left shift to the
leading bit, with a zero after it. -/
theorem normStops_lowest (hw : 2 ≤ w) {i : Nat} (hset : x.getLsbD i = true)
    (hclear : ∀ j, j < i → x.getLsbD j = false) :
    ∃ m, m < w ∧ normStops op (normMoved op x m) = true := by
  have hi := BitVec.lt_of_getLsbD hset
  cases op with
  | lan =>
    refine ⟨w - 1 - i, by omega, ?_⟩
    simp only [normStops, normMoved, BitVec.getLsbD_shiftLeft]
    grind
  | lln =>
    refine ⟨w - 1 - i, by omega, ?_⟩
    simp only [normStops, normMoved, BitVec.getLsbD_shiftLeft]
    grind
  | ran =>
    refine ⟨i, hi, ?_⟩
    simp only [normStops, normMoved, BitVec.getLsbD_sshiftRight]
    grind
  | rln =>
    refine ⟨i, hi, ?_⟩
    simp only [normStops, normMoved, BitVec.getLsbD_ushiftRight]
    grind

variable {x}

/-- The loop of a normalize ends at the first stop of a string that is not zero (R404). -/
theorem normalizeLoop_firstStop (hw : 2 ≤ w) (hx : x ≠ 0#w) {n : Nat} (hn : w - 1 ≤ n) :
    ∃ k, firstStop op x k ∧ normalizeLoop (normStops op) (normMoved op · 1) n x = (normMoved op x k, k) := by
  obtain ⟨m, hm, hstop⟩ := normStops_lowest op x hw (BitVec.getLsbD_true_ctz_of_ne_zero hx)
    fun j hj => BitVec.getLsbD_false_of_lt_ctz hj
  rw [← iterate_normMoved] at hstop
  obtain ⟨-, hvalue, hbefore, -⟩ := normalizeLoop_spec (normStops op) (normMoved op · 1) n x
  obtain ⟨hdone, hle⟩ := normalizeLoop_found (show m ≤ n by omega) hstop
  simp only [iterate_normMoved] at hvalue hbefore
  exact ⟨_, ⟨by omega, hvalue ▸ hdone, hbefore⟩, Prod.ext hvalue rfl⟩

/-- Only a string that is not zero stops a normalize. -/
theorem ne_zero_of_normStops (h : normStops op x = true) : x ≠ 0#w := by
  rintro rfl
  cases op <;> simp [normStops] at h

end

/-! ## Single normalize -/

/-- The single normalize is the loop on 16 bits (R404 to R408). -/
theorem normalized_firstStop (op : NormOp) {a : Word} (ha : a ≠ 0#16) :
    ∃ k, firstStop op a k ∧ normalized op a = (normMoved op a k, k) := by
  have hdone : normalizeDone op = normStops op := by cases op <;> rfl
  have hstep : normalizeStep op = (normMoved op · 1) := by
    cases op with
    | lan | lln | rln => rfl
    | ran => exact funext sshiftRight_one
  rw [normalized, hdone, hstep]
  exact normalizeLoop_firstStop op (by decide) ha (Nat.le_refl 15)

section
variable (p : State) (xr : RegNo) (n : Nat)

/-- The end of a normalize with the next instruction: only XR and the program counter change, XR to the sum where it
was not shifted (R404, log 12). -/
theorem addCount_spec (shifted : Bool) :
    sameBut [xr] [] [] p (p.addCount xr shifted n) ∧ sameDevices p (p.addCount xr shifted n) ∧
      (xr ≠ 0#3 → (p.addCount xr shifted n).pc = p.pc + 2#16) ∧
      (xr ≠ 0#3 → shifted = false → (p.addCount xr shifted n).reg xr = p.reg xr + BitVec.ofNat 16 n) := by
  have hset (q : State) (hframe : sameBut [] [] [] p q) (hpc : q.pc = p.pc) (v : Word) (h0 : xr ≠ 0#3) :
      sameBut [xr] [] [] p ((q.setReg xr v).advance 2#16) ∧ ((q.setReg xr v).advance 2#16).pc = p.pc + 2#16 := by
    refine ⟨sameBut_silent_append hframe (sameBut_append (sameBut_setReg q xr v) (sameBut_advance _ 2#16)), ?_⟩
    rw [State.pc_advance, State.pc, State.reg_setReg_ne q h0.symm]
    exact congrArg (· + 2#16) hpc
  unfold State.addCount
  split
  · rename_i h0
    exact ⟨sameBut_mono (sameBut_append (sameBut_spend p 1) (sameBut_setPc _ _)) nofun nofun nofun, ⟨rfl, rfl⟩,
      fun h => absurd h0 h, fun h => absurd h0 h⟩
  · rename_i h0
    split
    · rename_i hs
      obtain ⟨hframe, hpc⟩ := hset (p.spend 1) (sameBut_spend p 1) rfl (p.freeAt 0) h0
      exact ⟨hframe, ⟨rfl, rfl⟩, fun _ => hpc, fun _ h => absurd hs (Bool.eq_false_iff.1 h)⟩
    · obtain ⟨hframe, hpc⟩ := hset p (sameBut_refl p) rfl (p.reg xr + BitVec.ofNat 16 n) h0
      refine ⟨hframe, ⟨rfl, rfl⟩, fun _ => hpc, fun _ _ => ?_⟩
      rw [State.reg_advance _ h0, State.reg_setReg_same]

/-- The end of a normalize whose result was a jump (log 12). -/
theorem addCountOnly_spec :
    sameBut [xr] [] [] p (p.addCountOnly xr n) ∧ sameDevices p (p.addCountOnly xr n) ∧
      (xr ≠ 0#3 → (p.addCountOnly xr n).pc = p.pc ∧ (p.addCountOnly xr n).reg xr = p.reg xr + BitVec.ofNat 16 n) := by
  unfold State.addCountOnly
  split
  · rename_i h0
    exact ⟨sameBut_mono (sameBut_append (sameBut_spend p 1) (sameBut_setPc _ _)) nofun nofun nofun, ⟨rfl, rfl⟩,
      fun h => absurd h0 h⟩
  · exact ⟨sameBut_setReg p xr _, ⟨rfl, rfl⟩, fun h => ⟨State.reg_setReg_ne p h.symm _, State.reg_setReg_same ..⟩⟩

end

/-- NG, ZE and OD are kept where no indicator is written. -/
theorem shows_of_sameBut {rs : List RegNo} {bs : List Word} {v : Word} {s t : State} (h : sameBut rs [] bs s t)
    (hs : shows v s) : shows v t := by
  obtain ⟨-, hflags, -⟩ := h
  obtain ⟨hng, hze, hod⟩ := hs
  exact ⟨(hflags .ng nofun).trans hng, (hflags .ze nofun).trans hze, (hflags .od nofun).trans hod⟩

section
variable {op : NormOp} {ar xr : RegNo} {s : State}

/-- A zero operand sets NG, ZE and OD alone (R404). -/
theorem normalize_zero (h : s.data 2#16 ar = 0#16) :
    normalize op ar xr s = { s with status := setNZO 0#16 s.status }.advance 2#16 := if_pos h

/-- An operand that is not zero is delivered where it stops, and the count is added (R404). -/
theorem normalize_nonzero (h : s.data 2#16 ar ≠ 0#16) {v : Word} {k : Nat}
    (hn : normalized op (s.data 2#16 ar) = (v, k)) :
    normalize op ar xr s =
      if ar = 0#3 then ({ s with status := setNZO v s.status }.setPc v).addCountOnly xr k
      else ({ s with status := setNZO v s.status }.setReg ar v).addCount xr (xr == ar) k := by
  rw [normalize]
  simp only [hn, if_neg h]

/-- What a single normalize of an operand that is not zero leaves, where the value is `v` and the count `k` (R404,
log 12). -/
theorem normalize_spec (h : s.data 2#16 ar ≠ 0#16) {v : Word} {k : Nat}
    (hn : normalized op (s.data 2#16 ar) = (v, k)) :
    let t := normalize op ar xr s
    shows v t ∧ sameBut [ar, xr] [.ng, .ze, .od] [] s t ∧ sameDevices s t ∧
      (xr ≠ 0#3 → xr ≠ ar → delivered 2#16 ar v s t ∧ t.reg xr = s.reg xr + BitVec.ofNat 16 k) ∧
      (xr = 0#3 → ar ≠ 0#3 → t.reg ar = v) ∧ (xr = ar → xr ≠ 0#3 → t.pc = s.pc + 2#16) := by
  intro t
  have ht : t = _ := normalize_nonzero h hn
  have hstatus := sameBut_setNZO s v
  by_cases har : ar = 0#3
  · rw [if_pos har] at ht
    obtain ⟨hframe, hdev, hxr⟩ := addCountOnly_spec ({ s with status := setNZO v s.status }.setPc v) xr k
    rw [← ht] at hframe hdev hxr
    refine ⟨shows_of_sameBut hframe (shows_setNZO rfl), ?_, hdev, fun h0 _ => ?_, fun _ h => absurd har h,
      fun h h0 => absurd (h.trans har) h0⟩
    · exact sameBut_flags_append hstatus (sameBut_silent_append (sameBut_setPc _ v)
        (sameBut_mono hframe (by simp) nofun nofun))
    · obtain ⟨hpc, hcount⟩ := hxr h0
      rw [State.pc_setPc] at hpc
      rw [State.reg_setPc _ h0] at hcount
      exact ⟨by rw [delivered, if_pos har]; exact hpc, hcount⟩
  · rw [if_neg har] at ht
    have hpc0 : ({ s with status := setNZO v s.status }.setReg ar v).pc = s.pc :=
      State.reg_setReg_ne _ (Ne.symm har) v
    obtain ⟨hframe, hdev, hpc, hcount⟩ := addCount_spec ({ s with status := setNZO v s.status }.setReg ar v) xr k
      (xr == ar)
    rw [← ht, hpc0] at hpc
    rw [← ht] at hframe hdev hcount
    have hreg (hne : ar ≠ xr) : t.reg ar = v := by
      obtain ⟨hregs, -⟩ := hframe
      rw [hregs ar har (by simpa using hne), State.reg_setReg_same]
    refine ⟨shows_of_sameBut hframe (shows_setNZO rfl), ?_, hdev, fun h0 hne => ⟨?_, ?_⟩,
      fun h0 _ => hreg (by rw [h0]; exact har), fun _ h0 => hpc h0⟩
    · exact sameBut_flags_append hstatus (sameBut_mono (sameBut_append (sameBut_setReg _ ar v) hframe)
        (by simp [or_comm]) nofun nofun)
    · rw [delivered, if_neg har]
      exact ⟨hreg hne.symm, hpc h0⟩
    · rw [hcount h0 (beq_eq_false_iff_ne.2 hne), State.reg_setReg_ne _ hne]
      rfl

end

/-- Settles O31: the loop finds the first stop, and the count is added at the end. -/
theorem singleNormalize : Obligations.SingleNormalize := by
  intro op ar xr s hmodel a shift done
  have hexec : exec (normInstr op ar xr) s = .next (normalize op ar xr s) :=
    (exec_normInstr op ar xr s).trans (if_pos hmodel)
  refine ⟨fun ha => ?_, fun ha => ?_⟩
  · rw [normalize_zero ha] at hexec
    exact ⟨_, hexec, shows_setNZO rfl, controlled_advance (sameBut_setNZO s 0#16) rfl ⟨rfl, rfl⟩ 2#16⟩
  · have hshift : shift = normMoved op a := by cases op <;> rfl
    have hdone : done = normStops op := by cases op <;> rfl
    obtain ⟨k, ⟨hk, hstop, hbefore⟩, hn⟩ := normalized_firstStop op ha
    rw [hshift, hdone]
    exact ⟨_, k, hexec, Nat.le_of_lt_succ hk, hstop, hbefore, normalize_spec ha hn⟩

/-! ## Double normalize -/

/-- A pair normalized by the arithmetic operations: the loop on its 31-bit number (R409, R411). -/
theorem normalizedPair_arithmetic {op : NormOp} (hop : normalizeArithmetic op = true) {hi lo : Word}
    (hz : doubleZero op hi lo = false) :
    ∃ k, firstStop op (pair31 hi lo) k ∧ normalizedPair op hi lo =
      (high31 (normMoved op (pair31 hi lo) k), low31 (normMoved op (pair31 hi lo) k), k) := by
  rw [doubleZero, if_pos hop, beq_eq_false_iff_ne] at hz
  have hloop : normalized31 op (pair31 hi lo) = normalizeLoop (normStops op) (normMoved op · 1) 31 (pair31 hi lo) := by
    cases op with
    | lan | ran => rfl
    | lln | rln => cases hop
  obtain ⟨k, hk, hr⟩ := normalizeLoop_firstStop op (by decide) hz (n := 31) (by decide)
  refine ⟨k, hk, ?_⟩
  rw [normalizedPair, if_pos hop, hloop, hr]

/-- A pair normalized by the logical operations: the loop on its 32-bit string (R410, R412). -/
theorem normalizedPair_logical {op : NormOp} (hop : normalizeArithmetic op = false) {hi lo : Word}
    (hz : doubleZero op hi lo = false) :
    ∃ k, firstStop op (pair32 hi lo) k ∧ normalizedPair op hi lo =
      (high32 (normMoved op (pair32 hi lo) k), low32 (normMoved op (pair32 hi lo) k), k) := by
  have hop' := Bool.eq_false_iff.1 hop
  rw [doubleZero, if_neg hop', beq_eq_false_iff_ne] at hz
  have hloop : normalized32 op (pair32 hi lo) = normalizeLoop (normStops op) (normMoved op · 1) 31 (pair32 hi lo) := by
    cases op with
    | lln | rln => rfl
    | lan | ran => cases hop
  obtain ⟨k, hk, hr⟩ := normalizeLoop_firstStop op (by decide) hz (n := 31) (by decide)
  refine ⟨k, hk, ?_⟩
  rw [normalizedPair, if_neg hop', hloop, hr]

/-- NG, ZE and OD of a pair. -/
theorem sameBut_setNZOpair (s : State) (hi lo : Word) :
    sameBut [] [.ng, .ze, .od] [] s { s with status := setNZOpair hi lo s.status } :=
  sameBut_status s fun f hn => by
    simp only [List.mem_cons, List.not_mem_nil, or_false, not_or] at hn
    obtain ⟨hng, hze, hod⟩ := hn
    rw [getFlag_setNZOpair, if_neg hod, if_neg hze, if_neg hng]

/-- NG, ZE and OD of the two words that a pair holds (R400). -/
theorem showsPair_of_words {r : RegNo} {t : State} {hi lo : Word} (heven : t.reg r = hi)
    (hodd : t.reg (oddRegister r) = lo)
    (hflags : t.flag .ng = hi.getLsbD 15 ∧ t.flag .ze = (hi == 0#16 && lo == 0#16) ∧ t.flag .od = lo.getLsbD 0) :
    showsPair r t := by
  rw [showsPair, heven, hodd]
  exact hflags

section
variable {op : NormOp} {r xr : RegNo} {s : State} (hr : r ∈ [2#3, 4#3, 6#3])

/-- The words of a zero operand: the odd one is zero but for S', which the arithmetic operations ignore (R409, R411). -/
theorem words_of_doubleZero {hi lo : Word} (hz : doubleZero op hi lo = true) :
    hi = 0#16 ∧ (normalizeArithmetic op = false → lo = 0#16) := by
  unfold doubleZero at hz
  split at hz
  · rename_i hop
    have hnat := congrArg BitVec.toNat (beq_iff_eq.1 hz)
    rw [pair31, toNat_append_eq, BitVec.toNat_ofNat] at hnat
    exact ⟨BitVec.eq_of_toNat_eq (by rw [BitVec.toNat_ofNat]; omega), fun h => absurd hop (Bool.eq_false_iff.1 h)⟩
  · have hnat := congrArg BitVec.toNat (beq_iff_eq.1 hz)
    rw [pair32, toNat_append_eq, BitVec.toNat_ofNat] at hnat
    exact ⟨BitVec.eq_of_toNat_eq (by rw [BitVec.toNat_ofNat]; omega),
      fun _ => BitVec.eq_of_toNat_eq (by rw [BitVec.toNat_ofNat]; omega)⟩

include hr

/-- A zero operand sets NG, ZE and OD, and clears S' (R404, R409, R411). -/
theorem normalizeDouble_zero (hz : doubleZero op (s.reg r) (s.reg (oddRegister r)) = true) :
    let t := normalizeDouble op r xr s
    (t.flag .ng = false ∧ t.flag .ze = true ∧ t.flag .od = false) ∧ t.reg (oddRegister r) = 0#16 ∧
      controlled (s.pc + 2#16) [oddRegister r] [.ng, .ze, .od] [] s t := by
  intro t
  have ht : t = ({ s with status := setNZOpair 0#16 0#16 s.status }.setReg (oddRegister r) 0#16).advance 2#16 :=
    if_pos hz
  obtain ⟨-, -, hodd0⟩ := even_ne_odd hr
  rw [ht]
  refine ⟨⟨?_, ?_, ?_⟩, ?_, controlled_advance (sameBut_flags_append (sameBut_setNZOpair s 0#16 0#16)
    (sameBut_setReg _ (oddRegister r) 0#16)) (State.reg_setReg_ne _ hodd0.symm _) ⟨rfl, rfl⟩ 2#16⟩
  · exact (getFlag_setNZOpair .ng 0#16 0#16 s.status).trans rfl
  · exact (getFlag_setNZOpair .ze 0#16 0#16 s.status).trans rfl
  · exact (getFlag_setNZOpair .od 0#16 0#16 s.status).trans rfl
  · rw [State.reg_advance _ hodd0, State.reg_setReg_same]

/-- What a double normalize of an operand that is not zero leaves, where the words of the pair are `hi` and `lo` and the
count `k` (R404, log 12). -/
theorem normalizeDouble_spec (hz : doubleZero op (s.reg r) (s.reg (oddRegister r)) = false) {hi lo : Word} {k : Nat}
    (hn : normalizedPair op (s.reg r) (s.reg (oddRegister r)) = (hi, lo, k)) :
    let t := normalizeDouble op r xr s
    (t.flag .ng = hi.getLsbD 15 ∧ t.flag .ze = (hi == 0#16 && lo == 0#16) ∧ t.flag .od = lo.getLsbD 0) ∧
      (xr ≠ r → t.reg r = hi) ∧ (xr ≠ oddRegister r → t.reg (oddRegister r) = lo) ∧
      (xr ≠ 0#3 → t.pc = s.pc + 2#16) ∧
      (xr ≠ 0#3 → xr ≠ r → xr ≠ oddRegister r → t.reg xr = s.reg xr + BitVec.ofNat 16 k) ∧
      sameBut [r, oddRegister r, xr] [.ng, .ze, .od] [] s t ∧ sameDevices s t := by
  intro t
  have ht : t = ({ s with status := setNZOpair hi lo s.status }.setPair r hi lo).addCount xr
      (xr == r || xr == oddRegister r) k := by
    show normalizeDouble op r xr s = _
    simp only [normalizeDouble, hz, hn, Bool.false_eq_true, if_false]
  obtain ⟨-, hr0, hodd0⟩ := even_ne_odd hr
  obtain ⟨hframe, hdev, hpc, hcount⟩ := addCount_spec
    ({ s with status := setNZOpair hi lo s.status }.setPair r hi lo) xr k (xr == r || xr == oddRegister r)
  rw [← ht] at hframe hdev hpc hcount
  have ⟨hregs, hflags, _⟩ := hframe
  refine ⟨⟨?_, ?_, ?_⟩, fun hne => ?_, fun hne => ?_, fun h0 => ?_, fun h0 hne hne' => ?_, ?_, hdev⟩
  · rw [hflags .ng nofun, State.flag, State.setPair_status, getFlag_setNZOpair]
    rfl
  · rw [hflags .ze nofun, State.flag, State.setPair_status, getFlag_setNZOpair]
    rfl
  · rw [hflags .od nofun, State.flag, State.setPair_status, getFlag_setNZOpair]
    rfl
  · rw [hregs r hr0 (by simpa using hne.symm), setPair_even _ hr]
  · rw [hregs _ hodd0 (by simpa using hne.symm), setPair_odd _ hr]
  · rw [hpc h0, setPair_pc _ hr]
    rfl
  · rw [hcount h0 (by simp [hne, hne']), State.setPair, State.reg_setReg_ne _ hne', State.reg_setReg_ne _ hne]
    rfl
  · exact sameBut_flags_append (sameBut_setNZOpair s hi lo)
      (sameBut_mono (sameBut_append (sameBut_setPair _ r hi lo) hframe) (by simp +contextual) nofun nofun)

end

section
variable {op : NormOp} {r xr : RegNo} {s : State} (hmodel : s.par.model.scientific = true) (hr : r ∈ [2#3, 4#3, 6#3])
include hmodel hr

/-- A double normalize of the 1112 on a pair. -/
theorem exec_dnormInstr_present (op : NormOp) (xr : RegNo) :
    exec (dnormInstr op r xr) s = .next (normalizeDouble op r xr s) :=
  (exec_dnormInstr op r xr s).trans (onPair_present _ hmodel (pairOk_iff.2 hr))

section
variable (h0 : xr ≠ 0#3) (heven : xr ≠ r) (hodd : xr ≠ oddRegister r)
include h0 heven hodd

/-- DLAN and DRAN of a number that is not zero, the count going to a register outside the pair (R409, R411). -/
theorem arithmeticNormalize_done (hop : normalizeArithmetic op = true) (hnumber : s.number r ≠ 0#31) :
    ∃ t n, exec (dnormInstr op r xr) s = .next t ∧ n ≤ 30 ∧ holdsNumber r (normMoved op (s.number r) n) t ∧
      showsPair r t ∧ counted (normStops op) (normMoved op (s.number r)) xr n s t ∧
      controlled (s.pc + 2#16) [r, oddRegister r, xr] [.ng, .ze, .od] [] s t := by
  have hz : doubleZero op (s.reg r) (s.reg (oddRegister r)) = false := by
    rw [doubleZero, if_pos hop]
    exact beq_eq_false_iff_ne.2 hnumber
  obtain ⟨n, ⟨hn, hstop, hbefore⟩, hpair⟩ := normalizedPair_arithmetic hop hz
  obtain ⟨hflags, hhi, hlo, hpc, hcount, hframe, hdev⟩ := normalizeDouble_spec (xr := xr) hr hz hpair
  refine ⟨_, n, exec_dnormInstr_present hmodel hr op xr, Nat.le_of_lt_succ hn, ?_,
    showsPair_of_words (hhi heven) (hlo hodd) hflags, ⟨hstop, hbefore, hcount h0 heven hodd⟩, hpc h0, hframe, hdev⟩
  rw [holdsNumber, State.number, hhi heven, hlo hodd, pair31_high_low]
  exact ⟨rfl, low31_sign _⟩

/-- DLLN and DRLN of a string that is not zero, the count going to a register outside the pair (R410, R412). -/
theorem logicalNormalize_done (hop : normalizeArithmetic op = false) (hstring : s.string r ≠ 0#32) :
    ∃ t n, exec (dnormInstr op r xr) s = .next t ∧ n ≤ 31 ∧ t.string r = normMoved op (s.string r) n ∧
      showsPair r t ∧ counted (normStops op) (normMoved op (s.string r)) xr n s t ∧
      controlled (s.pc + 2#16) [r, oddRegister r, xr] [.ng, .ze, .od] [] s t := by
  have hz : doubleZero op (s.reg r) (s.reg (oddRegister r)) = false := by
    rw [doubleZero, if_neg (Bool.eq_false_iff.1 hop)]
    exact beq_eq_false_iff_ne.2 hstring
  obtain ⟨n, ⟨hn, hstop, hbefore⟩, hpair⟩ := normalizedPair_logical hop hz
  obtain ⟨hflags, hhi, hlo, hpc, hcount, hframe, hdev⟩ := normalizeDouble_spec (xr := xr) hr hz hpair
  refine ⟨_, n, exec_dnormInstr_present hmodel hr op xr, Nat.le_of_lt_succ hn, ?_,
    showsPair_of_words (hhi heven) (hlo hodd) hflags, ⟨hstop, hbefore, hcount h0 heven hodd⟩, hpc h0, hframe, hdev⟩
  rw [State.string, hhi heven, hlo hodd, pair32_high_low]
  rfl

end

end

/-- Settles O32: a zero number is that of two words whose even one is zero; any other one is normalized by the loop. -/
theorem doubleArithmeticNormalize : Obligations.DoubleArithmeticNormalize := by
  intro r xr s hmodel hr
  refine ⟨fun hnumber op hop => ?_, fun hnumber h0 heven hodd => ⟨?_, ?_⟩⟩
  · have harithmetic : normalizeArithmetic op = true := by obtain rfl | rfl := hop <;> rfl
    have hz : doubleZero op (s.reg r) (s.reg (oddRegister r)) = true := by
      rw [doubleZero, if_pos harithmetic]
      exact beq_iff_eq.2 hnumber
    obtain ⟨hflags, hlo, hpc, hframe, hdev⟩ := normalizeDouble_zero (xr := xr) hr hz
    have ⟨hregs, _⟩ := hframe
    obtain ⟨hne, hr0, -⟩ := even_ne_odd hr
    obtain ⟨hhi, -⟩ := words_of_doubleZero hz
    exact ⟨_, exec_dnormInstr_present hmodel hr op xr, hlo, (hregs r hr0 (by simpa using hne)).trans hhi, hflags.1,
      hflags.2.1, hflags.2.2, hpc, hframe, hdev⟩
  · exact arithmeticNormalize_done (op := .lan) hmodel hr h0 heven hodd rfl hnumber
  · exact arithmeticNormalize_done (op := .ran) hmodel hr h0 heven hodd rfl hnumber

/-- Settles O33: a zero string is that of two zero words, which stay; any other one is normalized by the loop. -/
theorem doubleLogicalNormalize : Obligations.DoubleLogicalNormalize := by
  intro r xr s hmodel hr
  refine ⟨fun hstring op hop => ?_, fun hstring h0 heven hodd => ⟨?_, ?_⟩⟩
  · have hlogical : normalizeArithmetic op = false := by obtain rfl | rfl := hop <;> rfl
    have hz : doubleZero op (s.reg r) (s.reg (oddRegister r)) = true := by
      rw [doubleZero, if_neg (Bool.eq_false_iff.1 hlogical)]
      exact beq_iff_eq.2 hstring
    obtain ⟨⟨hng, hze, hod⟩, hlo, hpc, ⟨hregs, hrest⟩, hdev⟩ := normalizeDouble_zero (xr := xr) hr hz
    obtain ⟨-, hzero⟩ := words_of_doubleZero hz
    refine ⟨_, exec_dnormInstr_present hmodel hr op xr, hng, hze, hod, hpc, ⟨fun q hq _ => ?_, hrest⟩, hdev⟩
    by_cases hqr : q = oddRegister r
    · rw [hqr, hlo, hzero hlogical]
    · exact hregs q hq (by simpa using hqr)
  · exact logicalNormalize_done (op := .lln) hmodel hr h0 heven hodd rfl hstring
  · exact logicalNormalize_done (op := .rln) hmodel hr h0 heven hodd rfl hstring

/-! ## The count on a register of the pair or on none -/

theorem getLsbD_pair31_zero (hi lo : Word) : (pair31 hi lo).getLsbD 0 = lo.getLsbD 0 := by
  rw [pair31, BitVec.getLsbD_append, if_pos (by decide), BitVec.getLsbD_extractLsb']
  rfl

theorem getLsbD_pair32_zero (hi lo : Word) : (pair32 hi lo).getLsbD 0 = lo.getLsbD 0 := by
  rw [pair32, BitVec.getLsbD_append, if_pos (by decide)]

theorem getLsbD_pair32_last (hi lo : Word) : (pair32 hi lo).getLsbD 31 = hi.getLsbD 15 := by
  rw [pair32, BitVec.getLsbD_append, if_neg (by decide)]

/-- The words of a number that is not zero are not both zero. -/
theorem words31_ne_zero {p : BitVec 31} (h : p ≠ 0#31) : (high31 p == 0#16 && low31 p == 0#16) = false := by
  rw [Bool.eq_false_iff]
  intro hzero
  obtain ⟨hhi, hlo⟩ : high31 p = 0#16 ∧ low31 p = 0#16 := by simpa using hzero
  apply h
  rw [← pair31_high_low p, hhi, hlo]
  rfl

theorem words32_ne_zero {d : BitVec 32} (h : d ≠ 0#32) : (high32 d == 0#16 && low32 d == 0#16) = false := by
  rw [Bool.eq_false_iff]
  intro hzero
  obtain ⟨hhi, hlo⟩ : high32 d = 0#16 ∧ low32 d = 0#16 := by simpa using hzero
  apply h
  rw [← pair32_high_low d, hhi, hlo]
  rfl

/-- The pair a double normalize leaves, as its clause of O34 says it. -/
def normalizedAt (op : NormOp) (n : Nat) (r : RegNo) (s : State) (hi lo : Word) : Prop :=
  match op with
  | .lan => pair31 hi lo = s.number r <<< n ∧ (pair31 hi lo).getLsbD 30 != (pair31 hi lo).getLsbD 29
  | .ran => pair31 hi lo = (s.number r).sshiftRight n ∧ lo.getLsbD 0 = true
  | .lln => pair32 hi lo = s.string r <<< n ∧ hi.getLsbD 15 = true
  | .rln => pair32 hi lo = s.string r >>> n ∧ lo.getLsbD 0 = true

/-- A pair that is not zero is normalized to a place within 31, and is not zero there (R404, R409 to R412). -/
theorem normalizedPair_at {op : NormOp} {r : RegNo} {s : State}
    (hz : doubleZero op (s.reg r) (s.reg (oddRegister r)) = false) :
    ∃ n hi lo, n ≤ 31 ∧ normalizedPair op (s.reg r) (s.reg (oddRegister r)) = (hi, lo, n) ∧
      normalizedAt op n r s hi lo ∧ (hi == 0#16 && lo == 0#16) = false := by
  cases hop : normalizeArithmetic op with
  | true =>
    obtain ⟨n, ⟨hn, hstop, -⟩, hpair⟩ := normalizedPair_arithmetic hop hz
    refine ⟨n, _, _, by omega, hpair, ?_, words31_ne_zero (ne_zero_of_normStops op hstop)⟩
    cases op with
    | lan => exact ⟨pair31_high_low _, by rw [pair31_high_low]; exact hstop⟩
    | ran => exact ⟨pair31_high_low _, by rw [← getLsbD_pair31_zero (high31 _), pair31_high_low]; exact hstop⟩
    | lln | rln => cases hop
  | false =>
    obtain ⟨n, ⟨hn, hstop, -⟩, hpair⟩ := normalizedPair_logical hop hz
    refine ⟨n, _, _, by omega, hpair, ?_, words32_ne_zero (ne_zero_of_normStops op hstop)⟩
    cases op with
    | lln => exact ⟨pair32_high_low _, by rw [← getLsbD_pair32_last _ (low32 _), pair32_high_low]; exact hstop⟩
    | rln => exact ⟨pair32_high_low _, by rw [← getLsbD_pair32_zero (high32 _), pair32_high_low]; exact hstop⟩
    | lan | ran => cases hop

/-- Settles O34: the pair is written before the count, which falls on XR alone. -/
theorem normalizeIndexOpen : Obligations.NormalizeIndexOpen := by
  intro op r xr s hmodel hr hxr hz
  obtain ⟨n, hi, lo, hn, hpair, hat, hnonzero⟩ := normalizedPair_at hz
  obtain ⟨⟨hng, hze, hod⟩, hhi, hlo, hpc, -, hframe, hdev⟩ := normalizeDouble_spec (xr := xr) hr hz hpair
  refine ⟨_, n, hi, lo, exec_dnormInstr_present hmodel hr op xr, hn, ?_, hng, hze.trans hnonzero, hod, hhi, hlo, hpc,
    sameBut_mono hframe ?_ (fun _ h => h) nofun, hdev⟩
  · cases op <;> exact hat
  · obtain rfl | rfl | rfl := hxr <;> simp

end Sys2Proof.Machine
end

section
/-! SUPPORT. Class B on an operand in program memory: the pair loaded and stored, added and subtracted, multiplied and
divided, with the exact results in integers (O49 to O52). -/

namespace Sys2Proof.Machine

/-! ## From the address on -/

section
variable {iw a len : Word} {ar r : RegNo} {m : MemOperand} {s s1 t : State} {fs : List Flag}

/-- A class B instruction of which the part after the address completes. -/
theorem fixedPoint_next (hmodel : s.par.model.scientific = true) (har : 2 ≤ ar.toNat)
    (ha : effectiveAddress .none .word m s = .ok a s1) {f : Word → State → Res Unit} (hf : f a s1 = .ok () t) :
    fixedPoint iw ar m s f = .next t := by
  rw [fixedPoint_present hmodel har, ha, Res.bind_ok, hf, Res.finish_ok]

/-- A state with the same registers, status and memory holds the operand too, and it is the same word. -/
theorem readWord_operand (hread : onlyDevices s s1) (hholds : s.holds .word a = true) :
    readWord a s1 = .ok (s.mem.word a) s1 := by
  rw [← hread.mem]
  exact readOperand_holds (size := .word) ((holds_congr hread.par .word a).trans hholds)

/-- The two words of an operand in program memory (R452). -/
theorem readPair_operand (hread : onlyDevices s s1) (hholds : s.holds .word a = true)
    (hholds2 : s.holds .word (a + 2#16) = true) :
    readPair a s1 = .ok (s.mem.word a, s.mem.word (a + 2#16)) s1 := by
  rw [readPair, readWord_operand hread hholds, Res.bind_ok, readWord_operand hread hholds2]
  rfl

/-- A pair written after reads alone. -/
theorem wrotePair_of_onlyDevices (hread : onlyDevices s s1) (h : wrotePair len r fs s1 t) : wrotePair len r fs s t := by
  obtain ⟨hpc, hshows, hframe⟩ := h
  exact ⟨by rw [hpc, hread.pc], hshows, sameBut_silent_append (sameBut_onlyDevices hread) hframe⟩

end

/-! ## DLOD and DSTA -/

theorem evenAddr_ne_add_two (a : Word) : evenAddr a ≠ evenAddr (a + 2#16) := by
  intro h
  have hnat := congrArg BitVec.toNat h
  simp only [evenAddr_toNat, BitVec.toNat_add, BitVec.toNat_ofNat] at hnat
  omega

/-- The state after two words are stored and NG, ZE and OD written from them (R462). -/
def State.storedPair (s : State) (a hi lo : Word) : State :=
  { s with mem := (s.mem.setWord a hi).setWord (a + 2#16) lo, status := setNZOpair hi lo s.status }

theorem sameBut_storedPair (s : State) (a hi lo : Word) :
    sameBut [] [.ng, .ze, .od] (operandBytes .word a ++ operandBytes .word (a + 2#16)) s (s.storedPair a hi lo) :=
  sameBut_mono (sameBut_append (sameBut_append (sameBut_setWord s a hi) (sameBut_setWord _ (a + 2#16) lo))
    (sameBut_setNZOpair _ hi lo)) nofun (by simp) (by simp [or_comm])

theorem storedPair_words (s : State) (a hi lo : Word) :
    (s.storedPair a hi lo).mem.word a = hi ∧ (s.storedPair a hi lo).mem.word (a + 2#16) = lo :=
  ⟨(Memory.word_setWord_ne _ (evenAddr_ne_add_two a) lo).trans (Memory.word_setWord_same ..),
    Memory.word_setWord_same ..⟩

section
variable {a : Word} {r : RegNo} {m : MemOperand} {s s1 : State}

/-- DSTA on an operand in program memory (R462). -/
theorem exec_dsta_holds (hmodel : s.par.model.scientific = true) (hr : r ∈ [2#3, 4#3, 6#3])
    (ha : effectiveAddress .none .word m s = .ok a s1) (hholds : s.holds .word a = true)
    (hholds2 : s.holds .word (a + 2#16) = true) :
    exec (.dsta r m) s =
      .next ((s1.storedPair a (s1.reg r) (s1.reg (oddRegister r))).advance (operandLength m)) := by
  have hpar := (effectiveAddress_none_ok ha).par
  have hwrite := writeOperand_holds (size := .word) ((holds_congr hpar .word a).trans hholds) (s1.reg r)
  have hwrite2 := writeOperand_holds (size := .word)
    ((holds_congr (t := { s1 with mem := s1.mem.setWord a (s1.reg r) }) hpar .word (a + 2#16)).trans hholds2)
    (s1.reg (oddRegister r))
  refine fixedPoint_next hmodel (two_le_of_even_pair hr) ha ?_
  rw [onEvenPair_even hr]
  refine (Res.bind_of_ok hwrite _).trans ((Res.bind_of_ok hwrite2 _).trans rfl)

end

/-- Settles O49: DLOD writes the pair whole, DSTA makes two stores. -/
theorem loadAndStorePair : Obligations.LoadAndStorePair := by
  intro r m s s1 a hmodel hr ha hholds hholds2
  have hread := effectiveAddress_none_ok ha
  have har := two_le_of_even_pair hr
  refine ⟨⟨s1.pairDone (operandLength m) r (s.mem.word a) (s.mem.word (a + 2#16)) s1.status, ?_,
    pairDone_even s1 _ hr _ _ _, pairDone_odd s1 _ hr _ _ _,
    wrotePair_of_onlyDevices hread (pairDone_wrotePair s1 _ hr _ _ _ fun _ _ => rfl), rfl, rfl⟩, ?_⟩
  · refine fixedPoint_next hmodel har ha ?_
    rw [onEvenPair_even hr, readPair_operand hread hholds hholds2]
    rfl
  · obtain ⟨hword, hword2⟩ := storedPair_words s1 a (s1.reg r) (s1.reg (oddRegister r))
    obtain ⟨-, hr0, hodd0⟩ := even_ne_odd hr
    refine ⟨_, exec_dsta_holds hmodel hr ha hholds hholds2, hword.trans (hread.reg _), hword2.trans (hread.reg _),
      showsPair_of_words (State.reg_advance _ hr0 _) (State.reg_advance _ hodd0 _) ⟨?_, ?_, ?_⟩, ?_, ⟨rfl, rfl⟩,
      sameBut_silent_append (sameBut_onlyDevices hread) ?_⟩
    · exact (getFlag_setNZOpair .ng ..).trans rfl
    · exact (getFlag_setNZOpair .ze ..).trans rfl
    · exact (getFlag_setNZOpair .od ..).trans rfl
    · rw [State.pc_advance, ← hread.pc]
      rfl
    · exact sameBut_mono (sameBut_append (sameBut_storedPair s1 a _ _) (sameBut_advance _ _)) nofun (by simp) (by simp)

/-! ## DADD and DSUB -/

/-- A 31-bit result with CY and OV (R453, R463, R464). -/
theorem put31_done (len : Word) {r : RegNo} (hr : r ∈ [2#3, 4#3, 6#3]) (p : BitVec 31) (c v : Bool) (s : State) :
    let t := ({ s with status := setFlag .cy c (setFlag .ov v s.status) }.put31 r p).advance len
    holdsNumber r p t ∧ t.flag .cy = c ∧ t.flag .ov = v ∧ wrotePair len r [.cy, .ov] s t := by
  have hkept (f : Flag) (hf : f ∉ [Flag.cy, .ov]) : getFlag f (setFlag .cy c (setFlag .ov v s.status)) = s.flag f := by
    simp only [List.mem_cons, List.not_mem_nil, or_false, not_or] at hf
    obtain ⟨hcy, hov⟩ := hf
    exact (getFlag_setFlag_ne hcy ..).trans (getFlag_setFlag_ne hov ..)
  refine ⟨pairDone_holdsNumber s len hr _ p, ?_, ?_, pairDone_wrotePair s len hr _ _ _ hkept⟩
  · exact (pairDone_flag (by decide) s ..).trans (getFlag_setFlag_same ..)
  · exact (pairDone_flag (by decide) s ..).trans
      ((getFlag_setFlag_ne (by decide) ..).trans (getFlag_setFlag_same ..))

/-- OV of a sum: it does not fit in 31 bits (D28). -/
theorem overflows_31 (v : Int) : overflows 31 0 v = (decide (v < -2 ^ 30) || decide (2 ^ 30 ≤ v)) := by
  rw [overflows, pow_zero, mul_one]

/-- CY of a difference is the absence of a borrow (R464, D28). -/
theorem carry_of_difference (x y : BitVec 31) :
    decide (2 ^ 31 ≤ x.toNat + (2 ^ 31 - 1 - y.toNat) + 1) = decide (y.toNat ≤ x.toNat) := by
  rw [decide_eq_decide]
  omega

/-- Settles O50: sum and difference modulo 2^31 are those of the integers. -/
theorem addAndSubtractPair : Obligations.AddAndSubtractPair := by
  intro r m s s1 a hmodel hr ha hholds hholds2 x y
  have hread := effectiveAddress_none_ok ha
  have har := two_le_of_even_pair hr
  have hx : pair31 (s1.reg r) (s1.reg (oddRegister r)) = x := by rw [hread.reg, hread.reg]; rfl
  have hov : s1.flag .ov = s.flag .ov := congrArg (getFlag .ov) hread.status
  have hadd : x + y = BitVec.ofInt 31 (x.toInt + y.toInt) := by
    rw [BitVec.ofInt_add, BitVec.ofInt_toInt, BitVec.ofInt_toInt]
  have hsub : x - y = BitVec.ofInt 31 (x.toInt - y.toInt) := by
    rw [sub_eq_add_neg x.toInt, BitVec.ofInt_add, BitVec.ofInt_neg, BitVec.ofInt_toInt, BitVec.ofInt_toInt,
      BitVec.sub_eq_add_neg]
  refine ⟨⟨(addPair r (s.mem.word a) (s.mem.word (a + 2#16)) s1).advance (operandLength m), ?_, ?_⟩,
    ⟨(subPair r (s.mem.word a) (s.mem.word (a + 2#16)) s1).advance (operandLength m), ?_, ?_⟩⟩
  · refine fixedPoint_next hmodel har ha ?_
    rw [onEvenPair_even hr, readPair_operand hread hholds hholds2]
    rfl
  · rw [← hov, ← hadd, overflows_31, ← Bool.or_assoc]
    unfold addPair
    rw [hx]
    obtain ⟨hholdsNumber, hcy, hovf, hwrote⟩ := put31_done (operandLength m) hr (x + y) _ _ s1
    exact ⟨hholdsNumber, hcy, hovf, wrotePair_of_onlyDevices hread hwrote, rfl, rfl⟩
  · refine fixedPoint_next hmodel har ha ?_
    rw [onEvenPair_even hr, readPair_operand hread hholds hholds2]
    rfl
  · rw [← hov, ← hsub, ← carry_of_difference, overflows_31, ← Bool.or_assoc]
    unfold subPair
    rw [hx]
    obtain ⟨hholdsNumber, hcy, hovf, hwrote⟩ := put31_done (operandLength m) hr (x - y) _ _ s1
    exact ⟨hholdsNumber, hcy, hovf, wrotePair_of_onlyDevices hread hwrote, rfl, rfl⟩

end Sys2Proof.Machine
end

section
/-! SUPPORT. MULT, MLTA and DIVD on an operand in program memory: their results in integers, and what they leave (O51,
O52). -/

namespace Sys2Proof.Machine

/-! ## MULT and MLTA -/

/-- The largest magnitude of a multiplier or divisor: 8000h counts as zero (R454). -/
theorem natAbs_multiplier_le (w : Word) : (multiplier w).natAbs ≤ 32767 := by
  unfold multiplier
  split
  · decide
  · rename_i h
    have hlo := w.le_toInt
    have hhi := w.toInt_lt
    have hne : w.toInt ≠ -32768 := fun e => h (BitVec.eq_of_toInt_eq (e.trans (by decide)))
    omega

/-- A product, with a word added to it, fits in 31 bits (R454, R455). -/
theorem toInt_ofInt_product (x y w : Word) :
    (BitVec.ofInt 31 (x.toInt * multiplier w)).toInt = x.toInt * multiplier w ∧
      (BitVec.ofInt 31 (x.toInt * multiplier w + y.toInt)).toInt = x.toInt * multiplier w + y.toInt := by
  have hx : x.toInt.natAbs ≤ 32768 := by
    have hlo := x.le_toInt
    have hhi := x.toInt_lt
    omega
  have hproduct : (x.toInt * multiplier w).natAbs ≤ 32768 * 32767 := by
    rw [Int.natAbs_mul]
    exact Nat.mul_le_mul hx (natAbs_multiplier_le w)
  have hlo := y.le_toInt
  have hhi := y.toInt_lt
  constructor <;> refine BitVec.toInt_ofInt_eq_self (by decide) ?_ ?_ <;> omega

section
variable (len : Word) {r : RegNo} (hr : r ∈ [2#3, 4#3, 6#3]) (p : BitVec 31) (s : State)
include hr

/-- A pair written with a 31-bit result, in integers. -/
theorem pairDone_toInt (st : Word) :
    let t := s.pairDone len r (high31 p) (low31 p) st
    (t.number r).toInt = p.toInt ∧ holdsNumber r (t.number r) t := by
  intro t
  have hholds := pairDone_holdsNumber s len hr st p
  have ⟨hnumber, _⟩ := hholds
  rw [hnumber]
  exact ⟨rfl, hholds⟩

end

/-- CY and the three indicators of a pair may be written in either order. -/
theorem setFlag_cy_setNZOpair (b : Bool) (hi lo st : Word) :
    setFlag .cy b (setNZOpair hi lo st) = setNZOpair hi lo (setFlag .cy b st) := by
  apply status_ext
  intro f
  rw [getFlag_setFlag, getFlag_setNZOpair, getFlag_setNZOpair, getFlag_setFlag]
  grind

section
variable (len : Word) (e : RegNo) (w : Word) (s : State)

/-- MULT is the product put into the pair (R454). -/
theorem multiply_advance {p : BitVec 31} (hp : p = BitVec.ofInt 31 ((s.reg (oddRegister e)).toInt * multiplier w)) :
    (multiply false e w s).advance len = s.pairDone len e (high31 p) (low31 p) s.status := by
  rw [hp, multiply]
  simp only [Bool.false_eq_true, if_false, add_zero]
  rfl

/-- MLTA is the product and the even register put into the pair, with a free CY (R455, log 28). -/
theorem multiply_accumulate_advance {p : BitVec 31}
    (hp : p = BitVec.ofInt 31 ((s.reg (oddRegister e)).toInt * multiplier w + (s.reg e).toInt)) :
    ∃ b, (multiply true e w s).advance len =
      (s.spend 1).pairDone len e (high31 p) (low31 p) (setFlag .cy b s.status) := by
  refine ⟨s.freeBit 0, ?_⟩
  rw [hp, State.pairDone, ← setFlag_cy_setNZOpair]
  rfl

end

/-- Settles O51: the exact result fits in the pair. -/
theorem multiplies : Obligations.Multiplies := by
  intro pair m s s1 a hmodel hpair ha hholds r w product
  have hread := effectiveAddress_none_ok ha
  have hr : r ∈ [2#3, 4#3, 6#3] := pairRegister_mem hpair
  obtain ⟨hproduct, hsum⟩ := toInt_ofInt_product (s.reg (oddRegister r)) (s.reg r) (s.mem.word a)
  refine ⟨⟨(multiply false r (s.mem.word a) s1).advance (operandLength m), ?_, ?_⟩,
    ⟨(multiply true r (s.mem.word a) s1).advance (operandLength m), ?_, ?_⟩⟩
  · refine fixedPoint_next hmodel (two_le_toNat_pair hpair 1#1) ha ?_
    rw [readWord_operand hread hholds]
    rfl
  · rw [multiply_advance _ _ _ _ (by rw [hread.reg])]
    obtain ⟨hint, hholdsNumber⟩ := pairDone_toInt (operandLength m) hr (BitVec.ofInt 31 product) s1 s1.status
    exact ⟨hint.trans hproduct, hholdsNumber,
      wrotePair_of_onlyDevices hread (pairDone_wrotePair s1 _ hr _ _ _ fun _ _ => rfl), rfl, rfl⟩
  · refine fixedPoint_next hmodel (two_le_toNat_pair hpair 0#1) ha ?_
    rw [readWord_operand hread hholds]
    rfl
  · obtain ⟨b, hdone⟩ := multiply_accumulate_advance (operandLength m) r (s.mem.word a) s1
      (p := BitVec.ofInt 31 (product + (s.reg r).toInt)) (by rw [hread.reg, hread.reg]; rfl)
    obtain ⟨hint, hholdsNumber⟩ := pairDone_toInt (operandLength m) hr (BitVec.ofInt 31 (product + (s.reg r).toInt))
      (s1.spend 1) (setFlag .cy b s1.status)
    rw [hdone]
    exact ⟨hint.trans hsum, hholdsNumber,
      wrotePair_of_onlyDevices (onlyDevices_trans hread (onlyDevices_spend s1 1))
        (pairDone_wrotePair (s1.spend 1) _ hr _ _ _ fun f hf => getFlag_setFlag_ne (by simpa using hf) b _), rfl, rfl⟩

/-! ## DIVD -/

/-- The even register of the pair that AR names (R451). -/
theorem evenRegister_mem {ar : RegNo} (h : 2 ≤ ar.toNat) : evenRegister ar ∈ [2#3, 4#3, 6#3] := by
  revert ar; decide

/-- The divide check in magnitudes (R456). -/
theorem divideCheck_iff (n : Int) (w : Word) :
    divideCheck n w = true ↔ w = 0#16 ∨ w = 0x8000#16 ∨ n = -2 ^ 30 ∨ 32767 < n.natAbs / w.toInt.natAbs := by
  simp only [divideCheck, Bool.or_eq_true, beq_iff_eq, decide_eq_true_eq, Int.natAbs_tdiv, or_assoc]
  rfl

theorem natAbs_toInt_of_ne {w : Word} (h0 : w ≠ 0#16) (h8 : w ≠ 0x8000#16) :
    0 < w.toInt.natAbs ∧ w.toInt.natAbs ≤ 32767 := by
  have hlo := w.le_toInt
  have hhi := w.toInt_lt
  have hne0 : w.toInt ≠ 0 := fun e => h0 (BitVec.eq_of_toInt_eq (e.trans (by decide)))
  have hne8 : w.toInt ≠ -32768 := fun e => h8 (BitVec.eq_of_toInt_eq (e.trans (by decide)))
  omega

/-- The remainder has the sign of the dividend (R456). -/
theorem mul_tmod_nonneg (n d : Int) : 0 ≤ n * n.tmod d := by
  obtain h | h := le_total 0 n
  · exact mul_nonneg h (Int.tmod_nonneg d h)
  · have hneg := Int.tmod_nonneg d (Int.neg_nonneg_of_nonpos h)
    rw [Int.neg_tmod] at hneg
    exact mul_nonneg_of_nonpos_of_nonpos h (by omega)

/-- Where there is no divide check, quotient and remainder fit in 16 bits and obey the law of division (R456, D29). -/
theorem division_of_not_check {n : Int} {w : Word} (h : divideCheck n w = false) :
    let q := BitVec.ofInt 16 (n.tdiv w.toInt)
    let r := BitVec.ofInt 16 (n.tmod w.toInt)
    n = q.toInt * w.toInt + r.toInt ∧ r.toInt.natAbs < w.toInt.natAbs ∧ 0 ≤ n * r.toInt := by
  have hno := mt (divideCheck_iff n w).2 (Bool.eq_false_iff.1 h)
  simp only [not_or, not_lt] at hno
  obtain ⟨h0, h8, -, hquotient⟩ := hno
  obtain ⟨hpos, hdivisor⟩ := natAbs_toInt_of_ne h0 h8
  have hq : (n.tdiv w.toInt).natAbs ≤ 32767 := (Int.natAbs_tdiv n w.toInt).trans_le hquotient
  have hr : (n.tmod w.toInt).natAbs < w.toInt.natAbs := (Int.natAbs_tmod n w.toInt).trans_lt (Nat.mod_lt _ hpos)
  intro q r
  have hqInt : q.toInt = n.tdiv w.toInt := BitVec.toInt_ofInt_eq_self (by decide) (by omega) (by omega)
  have hrInt : r.toInt = n.tmod w.toInt := BitVec.toInt_ofInt_eq_self (by decide) (by omega) (by omega)
  rw [hqInt, hrInt]
  exact ⟨by rw [mul_comm]; exact (Int.mul_tdiv_add_tmod n w.toInt).symm, hr, mul_tmod_nonneg n _⟩

section
variable (len : Word) {e : RegNo} (he : e ∈ [2#3, 4#3, 6#3]) {w : Word} {s : State}
include he

/-- After a divide check OV is set, and the pair, NG, ZE and OD are open (R456, log 28). -/
theorem divide_check_spec (h : divideCheck (s.number e).toInt w = true) :
    let t := (divide e w s).advance len
    t.pc = s.pc + len ∧ t.flag .ov = true ∧ sameBut [e, oddRegister e] [.ov, .ng, .ze, .od] [] s t ∧
      sameDevices s t := by
  intro t
  have ht : t = ((({ s with status := setFlag .ov true s.status }.freeNZO 2).setPair e (s.freeAt 0)
      (s.freeAt 1)).advance len) := congrArg (State.advance len) (if_pos h)
  have hset : sameBut [] [.ov] [] s { s with status := setFlag .ov true s.status } :=
    sameBut_status s fun f hf => getFlag_setFlag_ne (by simpa using hf) _ _
  have hfree := sameBut_freeNZO { s with status := setFlag .ov true s.status } 2
  have ⟨_, hflags, _⟩ := hfree
  rw [ht]
  refine ⟨?_, (hflags .ov (by decide)).trans (getFlag_setFlag_same ..), ?_, rfl, rfl⟩
  · rw [State.pc_advance, setPair_pc _ he]
    rfl
  · exact sameBut_mono (sameBut_append (sameBut_append (sameBut_append hset hfree) (sameBut_setPair _ e _ _))
      (sameBut_advance _ len)) (by simp) (by simp +contextual) nofun

/-- Without a divide check the quotient goes to the odd register and the remainder to the even one (R456). -/
theorem divide_quotient_spec (h : divideCheck (s.number e).toInt w = false) {q v : Word}
    (hq : q = BitVec.ofInt 16 ((s.number e).toInt.tdiv w.toInt))
    (hv : v = BitVec.ofInt 16 ((s.number e).toInt.tmod w.toInt)) :
    let t := (divide e w s).advance len
    t.pc = s.pc + len ∧ t.reg e = v ∧ t.reg (oddRegister e) = q ∧ shows q t ∧
      sameBut [e, oddRegister e] [.ng, .ze, .od] [] s t ∧ sameDevices s t := by
  intro t
  have ht : t = ({ s with status := setNZO q s.status }.setPair e v q).advance len := by
    rw [hq, hv]
    exact congrArg (State.advance len) (if_neg (Bool.eq_false_iff.1 h))
  obtain ⟨-, he0, hodd0⟩ := even_ne_odd he
  rw [ht]
  refine ⟨?_, ?_, ?_, shows_setNZO rfl, ?_, rfl, rfl⟩
  · rw [State.pc_advance, setPair_pc _ he]
    rfl
  · rw [State.reg_advance _ he0, setPair_even _ he]
  · rw [State.reg_advance _ hodd0, setPair_odd _ he]
  · exact sameBut_flags_append (sameBut_setNZO s q)
      (sameBut_append (sameBut_setPair _ e v q) (sameBut_advance _ len))

end

/-- Settles O52: the divide check, or the law of division with the truncated quotient. -/
theorem divides : Obligations.Divides := by
  intro ar m s s1 a hmodel har ha hholds r n w check
  have hread := effectiveAddress_none_ok ha
  have hr : r ∈ [2#3, 4#3, 6#3] := evenRegister_mem har
  have hn : (s1.number r).toInt = n := by rw [State.number, hread.reg, hread.reg]; rfl
  refine ⟨(divide r w s1).advance (operandLength m), ?_, ?_⟩
  · refine fixedPoint_next hmodel har ha ?_
    rw [readWord_operand hread hholds]
    rfl
  · cases hcheck : divideCheck (s1.number r).toInt w with
    | true =>
      obtain ⟨hpc, hov, hframe, hdev⟩ := divide_check_spec (operandLength m) hr hcheck
      rw [hread.pc] at hpc
      rw [hn, divideCheck_iff] at hcheck
      exact ⟨hpc, hdev, sameBut_silent_append (sameBut_onlyDevices hread) hframe, fun _ => hov,
        fun hno => absurd hcheck hno⟩
    | false =>
      obtain ⟨hpc, heven, hodd, hshows, hframe, hdev⟩ := divide_quotient_spec (operandLength m) hr hcheck rfl rfl
      have ⟨_, hflags, _⟩ := hframe
      rw [hread.pc] at hpc
      rw [hn] at hcheck heven hodd hshows
      have hlaw := division_of_not_check hcheck
      refine ⟨hpc, hdev, sameBut_silent_append (sameBut_onlyDevices hread)
        (sameBut_mono hframe (fun _ h _ => h) (by simp +contextual) nofun),
        fun hyes => absurd ((divideCheck_iff n w).2 hyes) (Bool.eq_false_iff.1 hcheck), fun _ => ?_⟩
      rw [heven, hodd]
      obtain ⟨hsum, hless, hsign⟩ := hlaw
      exact ⟨hsum, hless, hsign, (hflags .ov (by decide)).trans (congrArg (getFlag .ov) hread.status), hshows⟩

end Sys2Proof.Machine
end

section
/-! SUPPORT. The entries of the self-interrupts 5 and 6, and RETN to the block of one (O43, O44). -/

namespace Sys2Proof.Machine

/-- The level of a self-interrupt (R507, R509). -/
def selfLevel (abort : Bool) : Nat := if abort then 6 else 5

/-- The block of a self-interrupt of a processor (R506). -/
def selfBlock (abort : Bool) (cpu : BitVec 2) : Nat := if abort then abortBlock cpu else unimplementedBlock cpu

/-- The two self-interrupts are one entry (R507, R509). -/
theorem selfInterrupt_eq (abort : Bool) (w : Word) (s : State) :
    (if abort then takeAbort w s else takeUnimplemented w s) =
      takeEntry (selfLevel abort) (selfBlock abort s.par.cpu) w s := by cases abort <;> rfl

theorem selfBlock_word (abort : Bool) (cpu : BitVec 2) :
    (0x20#16 + 0x10#16 * cpu.setWidth 16 + if abort then 8#16 else 0#16) = BitVec.ofNat 16 (selfBlock abort cpu) := by
  revert abort cpu; decide

theorem selfBlock_toNat (abort : Bool) (cpu : BitVec 2) :
    (BitVec.ofNat 16 (selfBlock abort cpu)).toNat = selfBlock abort cpu := by
  revert abort cpu; decide

theorem selfBlock_even (abort : Bool) (cpu : BitVec 2) : selfBlock abort cpu % 2 = 0 := by
  revert abort cpu; decide

theorem selfBlock_lsb (abort : Bool) (cpu : BitVec 2) :
    (BitVec.ofNat 16 (selfBlock abort cpu)).getLsbD 0 = false := by
  revert abort cpu; decide

/-- The operand of the RETN that goes back: word 1 of the block (R283, R517). -/
theorem selfBlock_returnAddress (abort : Bool) (cpu : BitVec 2) :
    2#16 * ((if abort then 0x15#8 else 0x11#8) + 8#8 * cpu.setWidth 8).setWidth 16 =
      BitVec.ofNat 16 (selfBlock abort cpu) + 2#16 := by
  revert abort cpu; decide

/-- The bytes an entry writes, from its block on (R507, R509). -/
theorem selfBlock_bytes (abort : Bool) (cpu : BitVec 2) {b : Word} (hb : b = BitVec.ofNat 16 (selfBlock abort cpu)) :
    ((List.range 6).map fun i => b + BitVec.ofNat 16 i) =
      operandBytes .word b ++ operandBytes .word (b + 2#16) ++ operandBytes .word (b + 4#16) := by
  subst hb
  rw [entry_bytes (selfBlock_even abort cpu)]
  simp only [BitVec.ofNat_add]

/-- Where TRAP_STATUS is not the identity, the Active bit is 1 after an entry (R514, log 5). -/
theorem entered_implementation {s : State} (h : s.par.trapStatus = .implementation) (level : Nat) (b w : Word) :
    (s.entered level b w).flag .a = true := by
  show getFlag .a (s.trapStatus level) = true
  simp only [State.trapStatus, h, getFlag_setFlag_same]

/-- What an entry leaves, its block being at an even address in program memory (R507, R509, R514). -/
theorem entered_spec (level : Nat) (w : Word) (s : State) {b : Word} (heven : b.getLsbD 0 = false) :
    let t := s.entered level b w
    t.mem.word b = w ∧ t.mem.word (b + 2#16) = s.status ∧ t.mem.word (b + 4#16) = s.pc ∧
      t.pc = s.mem.word (b + 6#16) ∧ t.run = .running ∧
      (s.par.trapStatus = .identity → t.status = s.status) ∧
      (s.par.trapStatus = .implementation → t.flag .a = true) ∧ sameRegistersBut [] s t ∧
      sameMemoryBut (operandBytes .word b ++ operandBytes .word (b + 2#16) ++ operandBytes .word (b + 4#16)) s t ∧
      sameDevices s t ∧ t.key = s.key ∧ t.pending = s.pending ∧ t.runRequest = s.runRequest ∧ t.par = s.par := by
  intro t
  obtain ⟨hfirst, hsecond, hthird⟩ := entered_block level w s heven
  exact ⟨hfirst, hsecond, hthird, entered_pc level w s heven, rfl, fun h => entered_status h level b w,
    fun h => entered_implementation h level b w, fun r h0 _ => entered_reg level b w s h0,
    fun a ha => entered_byte level w s heven ha, ⟨rfl, rfl⟩, rfl, rfl, rfl, rfl⟩

/-- Settles O43: the entry writes the first three words of the block and goes on at the fourth. -/
theorem selfInterrupts : Obligations.SelfInterrupts := by
  intro w s abort b entry
  have hb : b = BitVec.ofNat 16 (selfBlock abort s.par.cpu) := selfBlock_word abort s.par.cpu
  have hnat : b.toNat = selfBlock abort s.par.cpu := by rw [hb, selfBlock_toNat]
  have hentry : entry = takeEntry (selfLevel abort) (selfBlock abort s.par.cpu) w s := selfInterrupt_eq abort w s
  have heven : b.getLsbD 0 = false := by rw [hb, selfBlock_lsb]
  refine ⟨fun habsent => hentry.trans (if_neg (by omega)), fun hpresent => ?_⟩
  rw [selfBlock_bytes abort s.par.cpu hb]
  refine ⟨s.entered (selfLevel abort) b w, ?_, entered_spec (selfLevel abort) w s heven⟩
  rw [hentry, takeEntry, if_pos (by omega), hb]

/-- The words of a block that lies in program memory (R69). -/
theorem inMemory_block {s : State} {b k : Word} (h : b.toNat + 8 ≤ s.par.memTop.toNat) (hk : k.toNat < 8) :
    s.inMemory (evenAddr (b + k)) = true := by
  rw [State.inMemory, decide_eq_true_eq, evenAddr_toNat, BitVec.toNat_add]
  omega

/-- RETN to word 1 of the block of an entry reads back the status and the program counter that the entry stored (R286,
R517). -/
theorem exec_retn_entered {level : Nat} {w b : Word} {s : State} {d : BitVec 8} (heven : b.getLsbD 0 = false)
    (hpresent : b.toNat + 8 ≤ s.par.memTop.toNat) (hd : 2#16 * d.setWidth 16 = b + 2#16) :
    exec (.retn false d) (s.entered level b w) =
      .next (((s.entered level b w).loadStatus s.status).setPc s.pc) := by
  obtain ⟨-, hstatus, hpc⟩ := entered_block level w s heven
  have haddr : (s.entered level b w).controlAddress false d = b + 2#16 := hd
  have hsecond : b + 2#16 + 2#16 = b + 4#16 := BitVec.add_assoc b 2#16 2#16
  rw [exec_retn_memory, haddr, hsecond, hstatus, hpc]
  · rw [haddr]
    exact inMemory_block (s := s.entered level b w) hpresent (by decide)
  · rw [haddr, hsecond]
    exact inMemory_block (s := s.entered level b w) hpresent (by decide)

/-- Settles O44: the entry stored what RETN reads. -/
theorem returnRestores : Obligations.ReturnRestores := by
  intro w s t abort hactive ht
  rw [selfInterrupt_eq] at ht
  obtain ⟨hpresent, rfl⟩ := takeEntry_next.1 ht
  rw [← selfBlock_toNat] at hpresent
  have hexec := exec_retn_entered (level := selfLevel abort) (w := w) (selfBlock_lsb abort s.par.cpu) hpresent
    (selfBlock_returnAddress abort s.par.cpu)
  obtain ⟨hstatus, hpc, ⟨hregs, -, -, hkey, -⟩, -⟩ := loadStatus_setPc_active hactive
    (s.entered (selfLevel abort) (BitVec.ofNat 16 (selfBlock abort s.par.cpu)) w) s.pc
  exact ⟨_, hexec, hstatus, hpc, fun r h0 hr => (hregs r h0 hr).trans (entered_reg (selfLevel abort) _ w s h0), hkey⟩

end Sys2Proof.Machine
end
